-- ==== Sys2Proof/Word.lean ====
section
/-! DEFINITION. The word types of the SC-128 and the one table shape that every fixed bank of the part uses. -/

namespace Sys2Proof

/-- A byte at the host port, a version or an epoch (R4, R98, R159). -/
abbrev Byte := BitVec 8

/-- A cell value or an operand, 0 to 65535 (R2, R20). -/
abbrev Half := BitVec 16

/-- A station number, 0 to 31 (R162). -/
abbrev Station := BitVec 5

/-- A set of stations in its 32-bit form, bit k standing for station k (section 0.7). The empty set is 0. -/
abbrev Mask := BitVec 32

/-- A cell number, 0 to 127 (R1). -/
abbrev CellNo := BitVec 7

/-- A bank of `n` like entries, built entry by entry. -/
def bank {α : Type} (n : Nat) (f : Fin n → α) : Vector α n :=
  ⟨⟨(List.finRange n).map f⟩, by simp⟩

/-- Entry `i` of a bank built by `f` is `f i`. -/
@[simp] theorem bank_getElem {α : Type} (n : Nat) (f : Fin n → α) (i : Nat) (h : i < n) :
    (bank n f)[i] = f ⟨i, h⟩ := by
  simp [bank]

end Sys2Proof
end

