-- ==== Sys2Proof/Syntax.lean ====
section
/-! DEFINITION. The commands of the SC-128: one constructor for each row of spec/opcode_table.json, with the operands
that the row's rules give its event. The table itself gives no operands (log entry 1). -/

namespace Sys2Proof

/-- The eight strap pins as they stand at a reset release (R162). -/
structure Straps where
  /-- SN4 to SN0: the station number. -/
  sn : Station
  /-- BR1 and BR0: the bit rate. -/
  br : BitVec 2
  /-- FP: high permits founding. -/
  fp : Bool
  deriving DecidableEq, Repr

/-- The four ports at which a write restarts the read sequence (R160). -/
inductive RestartPort where
  | completion | notice | status | view
  deriving DecidableEq, Repr

/-- The two ports whose partial write sequences HP keeps (R161). -/
inductive PartialPort where
  | watch | control
  deriving DecidableEq, Repr

/-- The level that an originator reads back in place of the one it drove (R55). -/
inductive LineLevel where
  | released | asserted
  deriving DecidableEq, Repr

/-- Why a receiver loses a frame before its window (R54, R56). -/
inductive LossCause where
  /-- A coding fault: a bit time had no sync assertion (R45, R56). -/
  | codingFault
  /-- An unassigned kind code: the frame's bits from position 1 to its last kind bit (R54). -/
  | unassignedKind (bits : List Bool)
  deriving DecidableEq, Repr

/-- The commands: host accesses, reset and power events, line events and timer expiries. A window slot is named by
its number; `inData` says that a fault fell in the slot's data phase and not in its sync phase; `slots` is the set of
slots that LU read asserted; `bits` are a frame's bits from position 1 to its last check bit, as read off the line. -/
inductive Instr where
  /-- POWER_ON (R168). -/
  | powerOn
  /-- POWER_ON_HOLD_END (R168): the strap pins as they stand then. -/
  | powerOnHoldEnd (straps : Straps)
  /-- RST_ASSERT (R167). -/
  | rstAssert
  /-- RST_RELEASE (R167): the strap pins as they stand then. -/
  | rstRelease (straps : Straps)
  /-- REQUEST_WRITE (R134). -/
  | requestWrite (data : Byte)
  /-- REQUEST_READ (R134). -/
  | requestRead
  /-- COMPLETION_READ (R145). -/
  | completionRead
  /-- SEQUENCE_RESTART (R160): a write to one of four ports. -/
  | sequenceRestart (port : RestartPort) (data : Byte)
  /-- CELL_INDEX_WRITE (R19). -/
  | cellIndexWrite (index : Byte)
  /-- CELL_READ (R160). -/
  | cellRead
  /-- ARM (R149): the bytes of the command after its first. -/
  | arm (watch cell test : Byte) (operand : Half) (tag : Byte)
  /-- DISARM (R155). -/
  | disarm (watch : Byte)
  /-- WATCH_BAD_FIRST_BYTE (R161). -/
  | watchBadFirstByte (data : Byte)
  /-- WATCH_READ (R161). -/
  | watchRead
  /-- NOTICE_READ (R154). -/
  | noticeRead
  /-- STATUS_READ (R163). -/
  | statusRead
  /-- VIEW_READ (R164). -/
  | viewRead
  /-- START (R103). -/
  | start
  /-- HALT (R115). -/
  | halt
  /-- LEAVE_COMMAND (R111). -/
  | leaveCommand
  /-- CANCEL (R141). -/
  | cancel (tag : Byte)
  /-- MASK (R157). -/
  | mask (enables : Byte)
  /-- CONTROL_BAD_FIRST_BYTE (R161). -/
  | controlBadFirstByte (data : Byte)
  /-- CONTROL_READ (R166). -/
  | controlRead
  /-- LINE_IDLE (R47). -/
  | lineIdle
  /-- FRAME_START (R48). -/
  | frameStart
  /-- LOST_ARBITRATION (R51). -/
  | lostArbitration
  /-- READ_BACK_FAULT (R55): where in the window it fell, if the window was running, and the level read back, which is the
  released one where the event names none: in the window no other differs from the level driven. -/
  | readBackFault (slot : Station) (inData : Bool) (level : LineLevel := .released)
  /-- FRAME_CHECK_END (R54). -/
  | frameCheckEnd (bits : List Bool)
  /-- FRAME_LOST (R54, R56): by a coding fault where the event names no other cause. -/
  | frameLost (cause : LossCause := .codingFault)
  /-- WINDOW_FAULT (R75). -/
  | windowFault (slot : Station) (inData : Bool)
  /-- STORE (R27): the end of the window of such a frame. -/
  | store (slots : Mask)
  /-- ADD (R28). -/
  | add (slots : Mask)
  /-- AND (R29). -/
  | and (slots : Mask)
  /-- OR (R29). -/
  | or (slots : Mask)
  /-- XOR (R29). -/
  | xor (slots : Mask)
  /-- BITSET (R30). -/
  | bitset (slots : Mask)
  /-- BITCLR (R30). -/
  | bitclr (slots : Mask)
  /-- BITFLIP (R30). -/
  | bitflip (slots : Mask)
  /-- CAS (R31). -/
  | cas (slots : Mask)
  /-- STEP (R32). -/
  | step (slots : Mask)
  /-- CLAIM (R34). -/
  | claim (slots : Mask)
  /-- RELEASE (R36). -/
  | release (slots : Mask)
  /-- RELSTORE (R37). -/
  | relstore (slots : Mask)
  /-- JOIN_PROBE (R105). -/
  | joinProbe (slots : Mask)
  /-- FOUND (R107). -/
  | found (slots : Mask)
  /-- JOIN (R108). -/
  | join (slots : Mask)
  /-- ROSTER (R121). -/
  | roster (slots : Mask)
  /-- ROSTER_ADMISSION (R122). -/
  | rosterAdmission (slots : Mask)
  /-- TRANSFER (R124). -/
  | transfer (slots : Mask)
  /-- DROP (R110). -/
  | drop (slots : Mask)
  /-- LEAVE (R112). -/
  | leave (slots : Mask)
  /-- LINE_STUCK (R58): the slot reached, if the window was running. -/
  | lineStuck (slot : Station) (inData : Bool)
  /-- LINE_STUCK_END (R58). -/
  | lineStuckEnd
  /-- DEFERRED_CLEAR (R59). -/
  | deferredClear
  /-- PROBE_WAIT_EXPIRY (R105). -/
  | probeWaitExpiry
  /-- ADMIT_WAIT_EXPIRY (R118). -/
  | admitWaitExpiry
  /-- STALL_WAIT_EXPIRY (R127). -/
  | stallWaitExpiry
  /-- INCOMPLETE_WINDOW_END (R71). -/
  | incompleteWindowEnd (slots : Mask)
  /-- ANOTHER_STATION_START_BIT (R48). -/
  | anotherStationStartBit
  /-- POWER_LOSS (R61). -/
  | powerLoss
  /-- PARTIAL_SEQUENCE_WRITE (R161). -/
  | partialSequenceWrite (port : PartialPort) (data : Byte)
  deriving DecidableEq, Repr

end Sys2Proof
end

