-- ==== Sys2Proof/Config.lean ====
section
/-! DEFINITION. The constants of the SC-128's manual, in its names, and the free values: what the manual leaves open, and what
no command tells this station of the line. -/

namespace Sys2Proof.Config

/-- IDLE_MIN: the idle count at which the line is idle (R47). -/
def idleMin : Nat := 12

/-- BARRIER_IDLE: the idle count at which DEFERRED clears, and at which the count stops (R47, R59). -/
def barrierIdle : Nat := 24

/-- The count of asserted bit times at which LINE-STUCK is set (R58). -/
def stuckCount : Nat := 256

/-- PROBE_WAIT of a station, in bit times (R105). -/
def probeWait (n : Station) : Nat := 256 + 16 * n.toNat

/-- The probe wait after the third unanswered JOIN where FP forbids founding (R105). -/
def probeWaitForbidden : Nat := 4096

/-- ADMIT_WAIT in bit times (R118). -/
def admitWait : Nat := 8192

/-- STALL_WAIT in bit times (R127). -/
def stallWait : Nat := 8192

/-- The most attempts of one item before it is retired or its record cleared (R90 to R93). -/
def attemptLimit : Nat := 8

/-- How many attempts a missing history keeps (R83). -/
def historyDepth : Nat := 3

/-- The unanswered count at which it stops and a FOUND may become due (R105). -/
def probeLimit : Nat := 3

/-- Capacity of the request queue (R132). -/
def queueCapacity : Nat := 8

/-- Capacity of the park list (R132). -/
def parkCapacity : Nat := 4

/-- The shared budget of requests and completion records (R136). -/
def budget : Nat := 16

/-- The TRANSFER frames of a full round (R108, R123). -/
def roundLength : Nat := 16

/-- The generator polynomial's terms x^15, x^2 and 1 (R50, R169). -/
def checkPolynomial : BitVec 16 := 0x8005

/-- The check register's content at every start bit (R169). -/
def checkStart : BitVec 16 := 0xFFFF

/-- The code of a holder or writer of none in an image and at the port (R14, R170). -/
def noneCode : Nat := 63

/-- FREE VALUE (DESIGN CHOICE, log entry 5): what the bits of a host byte read as for which the layout
gives no content, and every bit of a byte read while the part has no supply. Use number `n` of a free value takes
`openBits n`; nothing is known of it. -/
opaque openBits : Nat → Byte

/-- The bit times of the longest frame, a TRANSFER, from its start bit through its window (R49). -/
def longestFrame : Nat := 391

/-- What the line shows through one bit time (R44, R47, R58). -/
inductive BitTime where
  /-- Released throughout: a bit time of rest. -/
  | released
  /-- Asserted and released in turn, as a bit of 1 is. -/
  | mixed
  /-- Asserted throughout, as a bit of 0 is. -/
  | asserted
  deriving DecidableEq, Repr, Inhabited

/-- FREE VALUE (DESIGN CHOICE, log entry 21): what the line shows in a bit time of a busy line that this station does not itself
hold asserted and in which it sends no bit: one of another station's frame or slot, or one outside any frame that LU decodes while
the line was last met asserted, which is the rest of a frame that LU lost or came into, or a held line. Bit time number `n` of this kind takes `lineBit n`; nothing is known of it. -/
opaque lineBit : Nat → BitTime

end Sys2Proof.Config
end

