-- ==== Sys2Proof/Machine/State.lean ====
section
/-! DEFINITION. The state of one SC-128, block by block (section 0.4), as plain data, and the machine right after
reset. Every field cites the rule that names it; INVENTORY.md lists them with their reset values. -/

namespace Sys2Proof.Machine

/-! ## What the blocks hold -/

/-- The four cell flags (R2). -/
structure Flags where
  c : Bool
  z : Bool
  s : Bool
  v : Bool
  deriving DecidableEq, Repr

/-- Flags all 0, as at power-on (R1). -/
def Flags.clear : Flags := ⟨false, false, false, false⟩

/-- One cell record (R1 to R5). -/
structure Cell where
  value : Half
  holder : Option Station
  version : Byte
  flags : Flags
  writer : Option Station
  deriving DecidableEq, Repr

/-- A record at power-on values (R1). -/
def Cell.powerOn : Cell := ⟨0, none, 0, Flags.clear, none⟩

/-- The thirteen cell operations, in the order of their codes 1 to 13 (R20). -/
inductive CellOp where
  | store | add | and | or | xor | bitset | bitclr | bitflip | cas | step | claim | release | relstore
  deriving DecidableEq, Repr

/-- The outcome of an application (R21). -/
inductive CellOutcome where
  | done | unequal | held | notHeld
  deriving DecidableEq, Repr

/-- The body of a frame, by its kind (R49, section 11.1). The images of a TRANSFER are held as records, a code other
than a station number standing for none (R14). -/
inductive Body where
  | found (retained : Bool)
  | join
  | roster (full joiners : Mask) (cursor : BitVec 4) (remaining : BitVec 5)
  | drop (removed : Mask)
  | leave
  | cell (op : CellOp) (cell : CellNo) (a b : Half)
  | transfer (chunk : BitVec 4) (images : Vector Cell 8)
  deriving DecidableEq, Repr

/-- The fields of a frame that its arbitration, kind, epoch and body parts carry (R49). -/
structure Frame where
  orig : Station
  epoch : Byte
  body : Body
  deriving DecidableEq, Repr

/-- The table standing (R6). -/
inductive Standing where
  | none | retained | pending | live
  deriving DecidableEq, Repr

/-- The station state (R101). -/
inductive StationState where
  | halted | listening | admitting | joining | member
  deriving DecidableEq, Repr

/-- The view record (R98). -/
structure View where
  full : Mask
  joiners : Mask
  epoch : Byte
  rosterOwed : Bool
  cursor : BitVec 4
  remaining : Nat
  deriving DecidableEq, Repr

/-- The view record's empty values (R98). -/
def View.empty : View := ⟨0, 0, 0, false, 0, 0⟩

/-- Which probe is due at a LISTENING station (R105). -/
inductive ProbeDue where
  | nothing | join | found
  deriving DecidableEq, Repr

/-- VU's frame under judgement (R63): the frame, whether it is intact, VU's answer, and what governs it to the end of its
window: whether this station originated it, the station state at the end of its check part, and whether it has
already shown this station out of step (R68, R69). -/
structure Judged where
  frame : Frame
  intact : Bool
  accept : Bool
  own : Bool
  station : StationState
  outOfStep : Bool
  deriving DecidableEq, Repr

/-- What VU owns. A timer is the bit times it has still to run, or none while stopped. -/
structure Vu where
  /-- R101. -/
  station : StationState
  /-- R98. -/
  view : View
  /-- R6. -/
  standing : Standing
  /-- R9. -/
  retainedEpoch : Byte
  /-- The unanswered count, 0 to 3 (R105). -/
  unanswered : Nat
  /-- R105. -/
  probeTimer : Option Nat
  /-- R105. -/
  probeDue : ProbeDue
  /-- ADMIT_WAIT (R118). -/
  admitTimer : Option Nat
  /-- An ADMIT_WAIT expiry that waits for the end of the window it fell in (R118). -/
  admitExpired : Bool
  /-- STALL_WAIT (R127). -/
  stallTimer : Option Nat
  /-- A stall JOIN is owed (R127). -/
  stallOwed : Bool
  /-- R111. -/
  leavePending : Bool
  /-- The FOREIGN flag with its station number (R67). -/
  foreign : Option Station
  /-- R63. -/
  judged : Option Judged
  deriving DecidableEq, Repr

/-- What TU owns: the 128 records (R1) and the chunk-known flags, bit k for chunk k (R8). -/
structure Tu where
  cells : Vector Cell 128
  known : BitVec 16
  deriving DecidableEq, Repr

/-- How far LU's decoder is in what the line carries (R47, R48, R54, R56, R61). -/
inductive LineMode where
  /-- Not decoding: LU waits for 12 released bit times of its own (R47, R56). -/
  | waitIdle
  /-- The line rests, and LU decodes or begins the next frame (R48). -/
  | resting
  /-- LU decodes another station's frame, before the end of its check part (R54). -/
  | receiving
  /-- LU decodes a frame that a HALT has taken from VU, and hands nothing of it on (R61). -/
  | tracking
  /-- LU sends this station's frame, before the end of its check part (R48). -/
  | sending
  /-- The window of the frame under judgement runs (R54). -/
  | window
  deriving DecidableEq, Repr

/-- What LU's driver is given to drive (R43). -/
inductive Driver where
  /-- Nothing. -/
  | released
  /-- The bits and slot sync phases of this station's own frame, and its own slot. -/
  | ownFrame
  /-- The data phase of this station's slot in another station's frame. -/
  | ownSlot
  deriving DecidableEq, Repr

/-- What LU owns. -/
structure Lu where
  mode : LineMode
  /-- R43. -/
  driver : Driver
  /-- Whether LU last met the line asserted: true from an assertion until the line is known to rest (R47). -/
  asserted : Bool
  /-- R47. -/
  idleCount : Nat
  /-- R58. -/
  assertedCount : Nat
  /-- DEFERRED (R59). -/
  deferred : Bool
  /-- LINE-STUCK (R58). -/
  stuck : Bool
  /-- The check register (R169). Inside another station's frame before its check part ends, and between a frame cut off and the
  next start bit, its value is the model's choice (log entries 15 and 22). -/
  checkReg : BitVec 16
  /-- The place that LU has reached: the bit of the frame, the start bit being bit 0, or in the window the slot (R44, R54). Outside
  a frame its value is the model's choice (log entry 22). -/
  bitPos : Nat
  deriving DecidableEq, Repr

/-- Anything SU may send (R79). A request is named by its tag, which no two requests in QU share (R136): `request` is the
head of the queue, `claim` a woken parked claim. -/
inductive Item where
  | drop | roster | leave | probe | found | stallJoin | transfer
  | claim (tag : Byte)
  | request (tag : Byte)
  deriving DecidableEq, Repr

/-- An attempt record: the count and the missing history, oldest first (R78). -/
structure AttemptRec where
  count : Nat
  history : List Mask
  deriving DecidableEq, Repr

/-- A new attempt record (R78). -/
def AttemptRec.fresh : AttemptRec := ⟨0, []⟩

/-- The attempt in progress: its item and the frame contents fixed at the start bit (R78, R81). -/
structure Attempt where
  item : Item
  frame : Frame
  deriving DecidableEq, Repr

/-- What SU owns (R78): the offer, the attempt in progress, the owed DROP's mask and the system attempt records. -/
structure Su where
  offer : Option Item
  attempt : Option Attempt
  owedDrop : Option Mask
  dropRec : AttemptRec
  rosterRec : AttemptRec
  transferRec : AttemptRec
  leaveRec : AttemptRec
  foundRec : AttemptRec
  stallRec : AttemptRec
  deriving DecidableEq, Repr

/-- SU's parts empty (R78). -/
def Su.empty : Su := ⟨none, none, none, .fresh, .fresh, .fresh, .fresh, .fresh, .fresh⟩

/-- The state of a request in QU (R133). -/
inductive RequestState where
  | queued | parked | eligible | inAttempt
  deriving DecidableEq, Repr

/-- A request in the request queue or the park list (R132). -/
structure Request where
  tag : Byte
  op : CellOp
  wait : Bool
  cell : CellNo
  a : Half
  b : Half
  state : RequestState
  attempts : AttemptRec
  cancelMark : Bool
  deriving DecidableEq, Repr

/-- How a request ended (R143). -/
inductive Ending where
  | done | unequal | held | notHeld | cancelled | failed | withdrawn
  deriving DecidableEq, Repr

/-- A completion record (R143). -/
structure Completion where
  tag : Byte
  op : CellOp
  wait : Bool
  cell : CellNo
  ending : Ending
  value : Half
  holder : Option Station
  version : Byte
  flags : Flags
  attempts : Nat
  epoch : Byte
  late : Bool
  deriving DecidableEq, Repr

/-- The results of a submission (R135). -/
inductive Admission where
  | none | accepted | full | badOperand | duplicateTag | halted
  deriving DecidableEq, Repr

/-- What QU owns (R132): the three stores, the order in which ELIGIBLE claims were woken (by tag), the read position
in the head completion record (R145), the entry buffer and the last admission result. -/
structure Qu where
  queue : List Request
  park : List Request
  woken : List Byte
  completions : List Completion
  pos : Fin 11
  entry : List Byte
  result : Admission
  deriving DecidableEq, Repr

/-- QU as power-on and RST leave it (R147). -/
def Qu.empty : Qu := ⟨[], [], [], [], 0, [], .none⟩

/-- The 18 watch tests, in the order of their codes (R150). -/
inductive WatchTest where
  | eq | ne | lt | ge | le | gt | ult | uge | ule | ugt | bitOne | bitZero | free | held | mine | changed | carry | overflow
  deriving DecidableEq, Repr

/-- The state of a watch (R148). -/
inductive WatchState where
  | free | armed | fired
  deriving DecidableEq, Repr

/-- A watch (R148). -/
structure Watch where
  state : WatchState
  cell : CellNo
  test : WatchTest
  operand : Half
  tag : Byte
  reference : Byte
  deriving DecidableEq, Repr

/-- A FREE watch as a reset leaves it; the fields after the first mean nothing while it is FREE (R148). -/
def Watch.freed : Watch := ⟨.free, 0, .eq, 0, 0, 0⟩

/-- Why a watch fired (R152, R153). -/
inductive Reason where
  | met | lost
  deriving DecidableEq, Repr

/-- A notice (R152). -/
structure Notice where
  watch : Fin 16
  tag : Byte
  reason : Reason
  value : Half
  holder : Option Station
  version : Byte
  deriving DecidableEq, Repr

/-- The results of a watch command (R149, R155, R161). -/
inductive WatchResult where
  | none | taken | busyWatch | badWatch | freed | notInUse | noticeRemoved
  deriving DecidableEq, Repr

/-- The four attention causes, pending or enabled (R156, R157). -/
structure Causes where
  state : Bool
  line : Bool
  notice : Bool
  done : Bool
  deriving DecidableEq, Repr

/-- What WU owns: the watch list and the event queue (R148), the read position in the head notice (R154), the result of
the last watch command (R149), the two sticky causes (R156; NOTICE and DONE are pending exactly while their queues are
not empty, so no field holds them) and the enable mask (R157). -/
structure Wu where
  watches : Vector Watch 16
  events : List Notice
  pos : Fin 7
  result : WatchResult
  statePending : Bool
  linePending : Bool
  enables : Causes
  deriving DecidableEq, Repr

/-- WU as power-on and RST leave it (R158). -/
def Wu.empty : Wu := ⟨Vector.replicate 16 Watch.freed, [], 0, .none, false, false, ⟨false, false, false, false⟩⟩

/-- The results of a control command (R166). -/
inductive ControlResult where
  | none | taken | notHalted | notMember | cancelledNow | cancelPending | noSuchTag | badCommand
  deriving DecidableEq, Repr

/-- The snapshot latched at the CELL port (R19): the standing, the known mark and the record shown. -/
structure Snapshot where
  standing : Standing
  known : Bool
  record : Cell
  deriving DecidableEq, Repr

/-- The status latched at the first byte of STATUS (R163). -/
structure Status where
  station : StationState
  standing : Standing
  retainedEpoch : Byte
  epoch : Byte
  straps : Straps
  unanswered : Nat
  leavePending : Bool
  leaveHeld : Bool
  deferred : Bool
  stuck : Bool
  statePending : Bool
  linePending : Bool
  foreign : Option Station
  queued : Nat
  parked : Nat
  completions : Nat
  notices : Nat
  deriving DecidableEq, Repr

/-- What HP owns: the strap latches (R162), the partial sequences of WATCH and CONTROL (R161), the last control result
(R165), and the CELL, STATUS and VIEW latches with their read positions (R160, R163, R164). -/
structure Hp where
  straps : Straps
  watchBytes : List Byte
  controlBytes : List Byte
  controlResult : ControlResult
  cellLatch : Option Snapshot
  cellPos : Fin 7
  statusLatch : Option Status
  statusPos : Fin 12
  viewLatch : Option (Mask × Mask)
  viewPos : Fin 8
  deriving DecidableEq, Repr

/-- HP as power-on and RST leave it, with the strap latches as given (R165, R167). -/
def Hp.empty (straps : Straps) : Hp := ⟨straps, [], [], .none, none, 0, none, 0, none, 0⟩

/-- Whether the part has supply (R61, R168). -/
inductive Power where
  /-- No supply. -/
  | off
  /-- The power-on hold runs. -/
  | hold
  /-- The power-on hold has ended. -/
  | on
  deriving DecidableEq, Repr

/-- The SC-128's state: its seven blocks, its supply and RST pins, and the model's own three fields. -/
structure State where
  /-- R61, R168. -/
  power : Power
  /-- The RST input: true while asserted (R167). -/
  rst : Bool
  lu : Lu
  vu : Vu
  tu : Tu
  su : Su
  qu : Qu
  wu : Wu
  hp : Hp
  /-- The byte that the latest host read drove on D7 to D0 (R159): the model's output of a read. -/
  hostData : Byte
  /-- How many free values have been used: the model's counter behind `Config.openBits` and `Config.lineBit`. -/
  freeCount : Nat
  /-- The commands that wait, first in, first out: the model's own. -/
  pending : List Instr
  deriving DecidableEq, Repr

/-! ## Updates, one for each field of State -/

/-- `s` with another `power`. -/
def State.setPower (s : State) (x : Power) : State := { s with power := x }
/-- `s` with another `rst`. -/
def State.setRst (s : State) (x : Bool) : State := { s with rst := x }
/-- `s` with another LU. -/
def State.setLu (s : State) (x : Lu) : State := { s with lu := x }
/-- `s` with another VU. -/
def State.setVu (s : State) (x : Vu) : State := { s with vu := x }
/-- `s` with another TU. -/
def State.setTu (s : State) (x : Tu) : State := { s with tu := x }
/-- `s` with another SU. -/
def State.setSu (s : State) (x : Su) : State := { s with su := x }
/-- `s` with another QU. -/
def State.setQu (s : State) (x : Qu) : State := { s with qu := x }
/-- `s` with another WU. -/
def State.setWu (s : State) (x : Wu) : State := { s with wu := x }
/-- `s` with another HP. -/
def State.setHp (s : State) (x : Hp) : State := { s with hp := x }
/-- `s` with another byte on the host data pins. -/
def State.setHostData (s : State) (x : Byte) : State := { s with hostData := x }
/-- `s` with another count of free values used. -/
def State.setFreeCount (s : State) (x : Nat) : State := { s with freeCount := x }
/-- `s` with another command queue. -/
def State.setPending (s : State) (x : List Instr) : State := { s with pending := x }

/-! ## How a step can stop -/

/-- No command of the SC-128 stops the machine: every rule of the manual gives its event an effect, so this type has
no constructor (safe: no meaning can answer a fault). -/
inductive Fault : Type
  deriving DecidableEq, Repr

/-- Why a command has no meaning in the model. -/
inductive Refusal where
  /-- Raised by an arm of `exec` for a command whose meaning is not written; no arm raises it now (safe: the run
  stops). -/
  | notModelled (mnemonic : String)
  deriving DecidableEq, Repr

/-! ## The machine after reset -/

/-- LU's values after power-on and after RST (section 3.12). -/
def Lu.afterReset : Lu := ⟨.waitIdle, .released, false, 0, 0, false, false, Config.checkStart, 0⟩

/-- VU's values after power-on and after RST, with the standing and retained epoch that the event gives (R116). -/
def Vu.afterReset (standing : Standing) (retainedEpoch : Byte) : Vu where
  station := .halted
  view := .empty
  standing := standing
  retainedEpoch := retainedEpoch
  unanswered := 0
  probeTimer := none
  probeDue := .nothing
  admitTimer := none
  admitExpired := false
  stallTimer := none
  stallOwed := false
  leavePending := false
  foreign := none
  judged := none

/-- The table at power-on values with every chunk unknown (R1, R10). -/
def Tu.powerOn : Tu := ⟨Vector.replicate 128 Cell.powerOn, 0⟩

/-- The strap pins of the machine after reset: all low (DESIGN CHOICE, log entry 4). -/
def strapsLow : Straps := ⟨0, 0, false⟩

/-- The machine right after a power-on reset has been released: every block at its power-on values (R10, R78, R116, R147,
R158, R165, R167, R168, section 3.12), HALTED, the straps sampled as all low, nothing waiting. -/
def State.reset : State where
  power := .on
  rst := false
  lu := .afterReset
  vu := .afterReset .none 0
  tu := .powerOn
  su := .empty
  qu := .empty
  wu := .empty
  hp := .empty strapsLow
  hostData := 0
  freeCount := 0
  pending := []

end Sys2Proof.Machine
end

