-- ==== Sys2Proof/Machine/Flags.lean ====
section
/-! DEFINITION. The flag computations: the cell flags of each kind of operation and the compare flags (R24 to R26, R33). -/

namespace Sys2Proof.Machine

/-- Z of a value written (R24). -/
def zeroFlag (x : Half) : Bool := x == 0

/-- S of a value written: 1 from 32768 up (R24). -/
def signFlag (x : Half) : Bool := decide (32768 ≤ x.toNat)

/-- Whether a signed result lies outside −32768 to 32767 (R25, R33). -/
def outsideSigned (x : Int) : Bool := decide (x < -32768 ∨ 32767 < x)

/-- STORE, AND, OR, XOR, a successful CAS and RELSTORE: Z and S from the value, V 0, C kept (R24, R26). -/
def flagsOfWrite (old : Flags) (x : Half) : Flags :=
  ⟨old.c, zeroFlag x, signFlag x, false⟩

/-- BITSET, BITCLR and BITFLIP: Z and S from the value, C and V kept (R24, R26). -/
def flagsOfBit (old : Flags) (x : Half) : Flags :=
  ⟨old.c, zeroFlag x, signFlag x, old.v⟩

/-- ADD, and STEP with addend 1: all four flags from the sum of the value and the addend (R24, R25). -/
def flagsOfSum (value addend : Half) : Flags :=
  ⟨decide (65536 ≤ value.toNat + addend.toNat), zeroFlag (value + addend), signFlag (value + addend),
   outsideSigned (value.toInt + addend.toInt)⟩

/-- The compare flags of CAS and STEP from the value before the operation and A (R33). -/
def compareFlags (value a : Half) : Flags :=
  ⟨decide (value.toNat < a.toNat), value == a, signFlag (value - a), outsideSigned (value.toInt - a.toInt)⟩

end Sys2Proof.Machine
end

