-- ==== Sys2Proof/Machine/CellOps.lean ====
section
/-! DEFINITION. What each cell operation does to one record: the held check, the comparison and the write (R20 to R37).
An application works from the operation, A, B, the originator and the record, and from nothing else (R20). -/

namespace Sys2Proof.Machine

/-- The result of one application: its outcome, the record after it, whether the record changed (R21, R23), and the
flags handed to the originator (R38). -/
structure Applied where
  outcome : CellOutcome
  record : Cell
  changed : Bool
  flags : Flags
  deriving DecidableEq, Repr

/-- Whether an operation is answered NOT-HELD on a free cell (R22). -/
def needsHolder : CellOp → Bool
  | .release | .relstore => true
  | .store | .add | .and | .or | .xor | .bitset | .bitclr | .bitflip | .cas | .step | .claim => false

/-- The held check: the outcome that ends the application, or none where it passes (R22). The test for another holder
comes first. -/
def heldCheck (op : CellOp) (orig : Station) (holder : Option Station) : Option CellOutcome :=
  match holder with
  | some h => if h = orig then none else some .held
  | none => if needsHolder op then some .notHeld else none

/-- A write of the value by `orig`: the version one higher, the writer set (R4, R5, R23). -/
def writeValue (r : Cell) (orig : Station) (x : Half) (flags : Flags) : Cell :=
  { r with value := x, version := r.version + 1, flags := flags, writer := some orig }

/-- A change of the holder alone: the version one higher (R4, R5, R23). -/
def writeHolder (r : Cell) (holder : Option Station) : Cell :=
  { r with holder := holder, version := r.version + 1 }

/-- The mask of the bit that a bit operation acts on: bit A mod 16 (R20, R30). -/
def bitOf (a : Half) : Half := 1#16 <<< (a.toNat % 16)

/-- A DONE that changed the record, answered with the cell flags after it (R21, R38). -/
def doneWith (r : Cell) : Applied := ⟨.done, r, true, r.flags⟩

/-- A refusal: the record as it was, answered with its flags (R21, R38). -/
def refuse (o : CellOutcome) (r : Cell) : Applied := ⟨o, r, false, r.flags⟩

/-- The same application, answered with the compare flags of the value before it (R33, R38). -/
def withCompare (old : Cell) (a : Half) (x : Applied) : Applied :=
  { x with flags := compareFlags old.value a }

/-- STORE past the held check (R27). -/
def opStore (orig : Station) (a : Half) (r : Cell) : Applied :=
  doneWith (writeValue r orig a (flagsOfWrite r.flags a))

/-- ADD past the held check (R28). -/
def opAdd (orig : Station) (a : Half) (r : Cell) : Applied :=
  doneWith (writeValue r orig (r.value + a) (flagsOfSum r.value a))

/-- AND past the held check (R29). -/
def opAnd (orig : Station) (a : Half) (r : Cell) : Applied :=
  doneWith (writeValue r orig (r.value &&& a) (flagsOfWrite r.flags (r.value &&& a)))

/-- OR past the held check (R29). -/
def opOr (orig : Station) (a : Half) (r : Cell) : Applied :=
  doneWith (writeValue r orig (r.value ||| a) (flagsOfWrite r.flags (r.value ||| a)))

/-- XOR past the held check (R29). -/
def opXor (orig : Station) (a : Half) (r : Cell) : Applied :=
  doneWith (writeValue r orig (r.value ^^^ a) (flagsOfWrite r.flags (r.value ^^^ a)))

/-- BITSET past the held check (R30). -/
def opBitset (orig : Station) (a : Half) (r : Cell) : Applied :=
  doneWith (writeValue r orig (r.value ||| bitOf a) (flagsOfBit r.flags (r.value ||| bitOf a)))

/-- BITCLR past the held check (R30). -/
def opBitclr (orig : Station) (a : Half) (r : Cell) : Applied :=
  doneWith (writeValue r orig (r.value &&& ~~~bitOf a) (flagsOfBit r.flags (r.value &&& ~~~bitOf a)))

/-- BITFLIP past the held check (R30). -/
def opBitflip (orig : Station) (a : Half) (r : Cell) : Applied :=
  doneWith (writeValue r orig (r.value ^^^ bitOf a) (flagsOfBit r.flags (r.value ^^^ bitOf a)))

/-- CAS past the held check (R31, R33). -/
def opCas (orig : Station) (a b : Half) (r : Cell) : Applied :=
  withCompare r a
    (if r.value = a then doneWith (writeValue r orig b (flagsOfWrite r.flags b)) else refuse .unequal r)

/-- STEP past the held check (R32, R33). -/
def opStep (orig : Station) (a : Half) (r : Cell) : Applied :=
  withCompare r a
    (if r.value = a then doneWith (writeValue r orig (r.value + 1) (flagsOfSum r.value 1)) else refuse .unequal r)

/-- CLAIM past the held check: a free cell is taken; the holder's own CLAIM is DONE with no change (R34). -/
def opClaim (orig : Station) (r : Cell) : Applied :=
  match r.holder with
  | none => doneWith (writeHolder r (some orig))
  | some _ => ⟨.done, r, false, r.flags⟩

/-- RELEASE past the held check (R36). -/
def opRelease (r : Cell) : Applied :=
  doneWith (writeHolder r none)

/-- RELSTORE past the held check: one version step for both fields (R37). -/
def opRelstore (orig : Station) (a : Half) (r : Cell) : Applied :=
  doneWith { writeValue r orig a (flagsOfWrite r.flags a) with holder := none }

/-- An operation past the held check. -/
def opPassed (op : CellOp) (orig : Station) (a b : Half) (r : Cell) : Applied :=
  match op with
  | .store => opStore orig a r
  | .add => opAdd orig a r
  | .and => opAnd orig a r
  | .or => opOr orig a r
  | .xor => opXor orig a r
  | .bitset => opBitset orig a r
  | .bitclr => opBitclr orig a r
  | .bitflip => opBitflip orig a r
  | .cas => opCas orig a b r
  | .step => opStep orig a r
  | .claim => opClaim orig r
  | .release => opRelease r
  | .relstore => opRelstore orig a r

/-- Whether the result of an operation carries the compare flags (R33, R38). -/
def comparing : CellOp → Bool
  | .cas | .step => true
  | .store | .add | .and | .or | .xor | .bitset | .bitclr | .bitflip | .claim | .release | .relstore => false

/-- One application to one record: the held check, then the operation (R21). A CAS or STEP refused by the held check is
still answered with its compare flags (R33). -/
def applyOp (op : CellOp) (orig : Station) (a b : Half) (r : Cell) : Applied :=
  match heldCheck op orig r.holder with
  | some o => if comparing op then withCompare r a (refuse o r) else refuse o r
  | none => opPassed op orig a b r

end Sys2Proof.Machine
end

