-- ==== Sys2Proof/Machine/Frame.lean ====
section
/-! DEFINITION. The frame on the line as bits: its parts, lengths and codes (R49, section 11.1), the check value (R50,
R169), and the decoder and encoder of a frame's bits from position 1 to its last check bit. -/

namespace Sys2Proof.Machine

/-- The bits of a field, most significant first (section 0.7). -/
def fieldBits {n : Nat} (x : BitVec n) : List Bool :=
  (List.range n).reverse.map x.getLsbD

/-- The number that bits sent most significant first spell. -/
def bitsToNat (bits : List Bool) : Nat :=
  bits.foldl (fun acc b => 2 * acc + b.toNat) 0

/-- The field of `n` bits that begins at frame position `pos`; `bits` begins at position 1 (section 11.1). -/
def field (bits : List Bool) (pos n : Nat) : BitVec n :=
  BitVec.ofNat n (bitsToNat ((bits.drop (pos - 1)).take n))

/-! ## Codes -/

/-- The code of a cell operation, in a frame's kind and in a request (R20, R170). -/
def opCode : CellOp → Nat
  | .store => 1 | .add => 2 | .and => 3 | .or => 4 | .xor => 5 | .bitset => 6 | .bitclr => 7 | .bitflip => 8
  | .cas => 9 | .step => 10 | .claim => 11 | .release => 12 | .relstore => 13

/-- The cell operation of a code, or none outside 1 to 13 (R20, R170). -/
def opOfCode : Nat → Option CellOp
  | 1 => some .store | 2 => some .add | 3 => some .and | 4 => some .or | 5 => some .xor | 6 => some .bitset
  | 7 => some .bitclr | 8 => some .bitflip | 9 => some .cas | 10 => some .step | 11 => some .claim
  | 12 => some .release | 13 => some .relstore
  | _ => none

/-- The class bit of a body's frame: true for class 1, cell and transfer frames (R49). -/
def classOne : Body → Bool
  | .cell .. | .transfer .. => true
  | .found .. | .join | .roster .. | .drop .. | .leave => false

/-- The kind code of a body within its class (section 11.1). -/
def kindCode : Body → Nat
  | .found .. => 1
  | .join => 2
  | .roster .. => 3
  | .drop .. => 4
  | .leave => 5
  | .cell op .. => opCode op
  | .transfer .. => 15

/-- The body length of a kind, or none where the code is unassigned in its class (R49, R53, section 11.1). -/
def bodyLength (cls : Bool) (kind : Nat) : Option Nat :=
  if cls then
    if 1 ≤ kind ∧ kind ≤ 13 then some 39 else if kind = 15 then some 324 else none
  else
    match kind with
    | 1 => some 1
    | 2 => some 0
    | 3 => some 73
    | 4 => some 32
    | 5 => some 0
    | _ => none

/-- The length of a frame's arbitration, kind and epoch parts together. -/
def headLength : Nat := 6 + 4 + 8

/-- The total length of a frame of a body length, start bit and window included (R49). -/
def totalLength (body : Nat) : Nat := 1 + headLength + body + 16 + 32

/-! ## The check value -/

/-- One bit into the check register (R169). -/
def checkStep (reg : BitVec 16) (b : Bool) : BitVec 16 :=
  if (b ^^ reg.msb) then (reg <<< 1) ^^^ Config.checkPolynomial else reg <<< 1

/-- The check register after the bits from position 1 to the last body bit (R50, R169). -/
def checkOf (bits : List Bool) : BitVec 16 :=
  bits.foldl checkStep Config.checkStart

/-! ## Cell images -/

/-- The code of a holder or writer in an image: 63 for none (R14). -/
def holderCode : Option Station → BitVec 6
  | some n => n.zeroExtend 6
  | none => BitVec.ofNat 6 Config.noneCode

/-- The holder or writer of a code; 63 and the codes 32 to 62 are none (R14). -/
def holderOfCode (x : BitVec 6) : Option Station :=
  if x.toNat < 32 then some (x.truncate 5) else none

/-- The 40 bits of a cell image (section 11.1). -/
def imageBits (r : Cell) : List Bool :=
  fieldBits r.value ++ fieldBits (holderCode r.holder) ++ fieldBits r.version
    ++ [r.flags.c, r.flags.z, r.flags.s, r.flags.v] ++ fieldBits (holderCode r.writer)

/-- The record whose image begins at frame position `pos` (section 11.1). -/
def imageAt (bits : List Bool) (pos : Nat) : Cell where
  value := field bits pos 16
  holder := holderOfCode (field bits (pos + 16) 6)
  version := field bits (pos + 22) 8
  flags := ⟨(field bits (pos + 30) 1) == 1, (field bits (pos + 31) 1) == 1,
            (field bits (pos + 32) 1) == 1, (field bits (pos + 33) 1) == 1⟩
  writer := holderOfCode (field bits (pos + 34) 6)

/-! ## Decoding and encoding -/

/-- The body fields of an assigned kind, at the positions of section 11.1; none where the code is unassigned. -/
def bodyAt (bits : List Bool) (cls : Bool) (kind : Nat) : Option Body :=
  if cls then
    match opOfCode kind with
    | some op => some (.cell op (field bits 19 7) (field bits 26 16) (field bits 42 16))
    | none =>
      if kind = 15 then
        some (.transfer (field bits 19 4) (bank 8 fun j => imageAt bits (23 + 40 * j.val)))
      else none
  else
    match kind with
    | 1 => some (.found ((field bits 19 1) == 1))
    | 2 => some .join
    | 3 => some (.roster (field bits 19 32) (field bits 51 32) (field bits 83 4) (field bits 87 5))
    | 4 => some (.drop (field bits 19 32))
    | 5 => some .leave
    | _ => none

/-- What LU reads from a frame's bits: the frame, and whether the check is correct (R50, R54). None where the kind is
unassigned, whose length is unknown, or the bits are not as many as the kind's parts have. -/
def decodeFrame (bits : List Bool) : Option (Frame × Bool) :=
  let cls := (field bits 1 1) == 1
  let kind := (field bits 7 4).toNat
  match bodyLength cls kind, bodyAt bits cls kind with
  | some n, some body =>
    if bits.length = headLength + n + 16 then
      some (⟨field bits 2 5, field bits 11 8, body⟩,
        checkOf (bits.take (headLength + n)) == field bits (headLength + n + 1) 16)
    else none
  | _, _ => none

/-- The bits of a body (section 11.1). -/
def bodyBits : Body → List Bool
  | .found r => [r]
  | .join => []
  | .roster full joiners cursor remaining =>
    fieldBits full ++ fieldBits joiners ++ fieldBits cursor ++ fieldBits remaining
  | .drop m => fieldBits m
  | .leave => []
  | .cell _ c a b => fieldBits c ++ fieldBits a ++ fieldBits b
  | .transfer k images => fieldBits k ++ (images.toList.map imageBits).flatten

/-- The bits that the check covers: arbitration, kind, epoch and body (R50). -/
def coveredBits (f : Frame) : List Bool :=
  [classOne f.body] ++ fieldBits f.orig ++ fieldBits (BitVec.ofNat 4 (kindCode f.body)) ++ fieldBits f.epoch
    ++ bodyBits f.body

/-- A frame's bits from position 1 to its last check bit, as its originator sends them (R49, R50). -/
def encodeFrame (f : Frame) : List Bool :=
  coveredBits f ++ fieldBits (checkOf (coveredBits f))

end Sys2Proof.Machine
end

