-- ==== Sys2Proof/Machine/Ops.lean ====
section
/-! DEFINITION. The named operations on the state that every block's rules share: station sets, cell records, the sticky
causes, the station state, and what a host read answers. -/

namespace Sys2Proof.Machine

/-! ## Sets of stations -/

/-- The set of one station (section 0.7). -/
def only (n : Station) : Mask := 1#32 <<< n.toNat

/-- Whether station `n` is in the set. -/
def has (m : Mask) (n : Station) : Bool := m.getLsbD n.toNat

/-- The stations of `a` that are not in `b`. -/
def without (a b : Mask) : Mask := a &&& ~~~b

/-- Whether every station of `a` is in `b`. -/
def within (a b : Mask) : Bool := without a b == 0

/-- The size of a set. -/
def size (m : Mask) : Nat := (List.range 32).countP fun i => m.getLsbD i

/-- The lowest-numbered station of a set. -/
def lowest (m : Mask) : Option Station :=
  ((List.range 32).find? fun i => m.getLsbD i).map (BitVec.ofNat 5)

/-! ## The station and its view -/

/-- This station's number, as sampled (R162). -/
def own (s : State) : Station := s.hp.straps.sn

/-- The full members and joiners of a view together. -/
def everyone (v : View) : Mask := v.full ||| v.joiners

/-- The supplier of a view, worked out from it (R100). -/
def supplier (v : View) : Option Station := lowest v.full

/-- Whether this station is the supplier of its view. -/
def isSupplier (s : State) : Bool := supplier s.vu.view == some (own s)

/-- Whether a pending LEAVE is held back: this station is the only full member and there are joiners (R80, R131). -/
def leaveHeldBack (s : State) : Bool := s.vu.view.full == only (own s) && s.vu.view.joiners != 0

/-- Whether the part is held: without supply, in the power-on hold or under RST (R167, R168). -/
def held (s : State) : Bool := s.power != .on || s.rst

/-- STATE made pending (R102, R156). -/
def raiseState (s : State) : State := s.setWu { s.wu with statePending := true }

/-- LINE made pending (R58, R67, R156). -/
def raiseLine (s : State) : State := s.setWu { s.wu with linePending := true }

/-- The station state changed; a change is reported and makes STATE pending, no change is not (R102). -/
def enter (st : StationState) (s : State) : State :=
  if s.vu.station = st then s else raiseState (s.setVu { s.vu with station := st })

/-! ## Cell records -/

/-- The record of a cell (R1). -/
def cellAt (s : State) (c : CellNo) : Cell := s.tu.cells[c.toNat]'(c.isLt)

/-- The record of a cell written whole, at one moment (R11). -/
def putCell (c : CellNo) (r : Cell) (s : State) : State :=
  s.setTu { s.tu with cells := s.tu.cells.set c.toNat r (c.isLt) }

/-- The chunk-known flag of chunk `k` (R8). -/
def chunkKnown (s : State) (k : BitVec 4) : Bool := s.tu.known.getLsbD k.toNat

/-- The chunk of a cell: its number divided by 8 (R1). -/
def chunkOf (c : CellNo) : BitVec 4 := (c >>> 3).truncate 4

/-- The cell `j` of chunk `k`: cell 8k + j (R1). -/
def cellOfChunk (k : BitVec 4) (j : Fin 8) : CellNo := BitVec.ofNat 7 (8 * k.toNat + j.val)

/-- Every cell number, ascending. -/
def allCells : List CellNo := (List.range 128).map (BitVec.ofNat 7)

/-- All records at power-on values and all chunks unknown (R7, R8). -/
def clearTable (s : State) : State := s.setTu .powerOn

/-- The record that a completion or CANCEL takes when no frame was applied: the live copy's, or power-on values (R18,
R144). -/
def liveRecord (s : State) (c : CellNo) : Cell :=
  if s.vu.standing = .live then cellAt s c else .powerOn

/-! ## What a host read answers -/

/-- A byte of which the layout gives the bits of `given`; the others are open (log entry 5). -/
structure PortByte where
  value : Byte
  given : Byte
  deriving DecidableEq, Repr

/-- A byte whose every bit the layout gives. -/
def whole (x : Byte) : PortByte := ⟨x, 0xFF⟩

/-- The empty indication (R170). -/
def emptyByte : PortByte := whole 0

/-- A byte driven on the host data pins; each byte with open bits takes a free value of its own for them. -/
def answer (x : PortByte) (s : State) : State :=
  if x.given = 0xFF then s.setHostData x.value
  else (s.setHostData ((x.value &&& x.given) ||| (Config.openBits s.freeCount &&& ~~~x.given))).setFreeCount
    (s.freeCount + 1)

end Sys2Proof.Machine
end

