-- ==== Sys2Proof/Machine/Requests.lean ====
section
/-! DEFINITION. The Request Unit: entry and admission, retirement and completion records, parking, waking and CANCEL (R132
to R147). -/

namespace Sys2Proof.Machine

/-! ## Retirement -/

/-- One completion record at the tail of the completion queue (R143). -/
def post (c : Completion) (s : State) : State :=
  s.setQu { s.qu with completions := s.qu.completions ++ [c] }

/-- The record of a request whose frame was not applied, or is not known to have been: the station as it stands at the
posting (R144). The late-cancel mark is set only with WITHDRAWN (R142). -/
def recordUnapplied (e : Ending) (q : Request) (s : State) : Completion where
  tag := q.tag
  op := q.op
  wait := q.wait
  cell := q.cell
  ending := e
  value := (liveRecord s q.cell).value
  holder := (liveRecord s q.cell).holder
  version := (liveRecord s q.cell).version
  flags := .clear
  attempts := q.attempts.count
  epoch := s.vu.view.epoch
  late := q.cancelMark && e == .withdrawn

/-- How an applied request ends (R143). -/
def endingOf : CellOutcome → Ending
  | .done => .done
  | .unequal => .unequal
  | .held => .held
  | .notHeld => .notHeld

/-- The record of a request whose frame was applied: from TU's result, the attempts with this one, and the epoch that the
frame carried (R38, R144). -/
def recordApplied (x : Applied) (epoch : Byte) (q : Request) : Completion where
  tag := q.tag
  op := q.op
  wait := q.wait
  cell := q.cell
  ending := endingOf x.outcome
  value := x.record.value
  holder := x.record.holder
  version := x.record.version
  flags := x.flags
  attempts := q.attempts.count + 1
  epoch := epoch
  late := q.cancelMark

/-- The request of a tag, in the queue or the park list (R136). -/
def findRequest (tag : Byte) (s : State) : Option Request :=
  (s.qu.queue ++ s.qu.park).find? fun q => q.tag == tag

/-- The request of a tag taken out of QU. -/
def removeRequest (tag : Byte) (s : State) : State :=
  s.setQu { s.qu with
    queue := s.qu.queue.filter fun q => q.tag != tag
    park := s.qu.park.filter fun q => q.tag != tag
    woken := s.qu.woken.filter fun t => t != tag }

/-- The request of a tag changed in its place. -/
def updateRequest (tag : Byte) (f : Request → Request) (s : State) : State :=
  s.setQu { s.qu with
    queue := s.qu.queue.map fun q => if q.tag = tag then f q else q
    park := s.qu.park.map fun q => if q.tag = tag then f q else q }

/-- A request retired: out of QU and its record posted, at one moment (R133). -/
def retire (c : Completion) (s : State) : State := post c (removeRequest c.tag s)

/-- Every request retired WITHDRAWN: the queue from head to tail, then the park list from the oldest-parked (R146). -/
def retireAll (s : State) : State :=
  s.setQu { s.qu with
    queue := []
    park := []
    woken := []
    completions := s.qu.completions ++ (s.qu.queue ++ s.qu.park).map fun q => recordUnapplied .withdrawn q s }

/-! ## A request at the end of its attempt -/

/-- The head parked at the tail of the park list, its attempt record cleared (R95, R138). -/
def parkHead (q : Request) (s : State) : State :=
  let s1 := removeRequest q.tag s
  s1.setQu { s1.qu with park := s1.qu.park ++ [{ q with state := .parked, attempts := .fresh }] }

/-- A complete attempt settled: the request is retired with its outcome, or a CLAIM with WAIT that met HELD is parked,
or parked again at its place; a marked request is retired in every case (R137, R138, R140, R142). `fromPark` tells a
woken claim from the queue's head. -/
def settleApplied (fromPark : Bool) (q : Request) (x : Applied) (epoch : Byte) (s : State) : State :=
  if q.op = .claim ∧ q.wait ∧ x.outcome = .held ∧ !q.cancelMark then
    if fromPark then updateRequest q.tag (fun r => { r with state := .parked, attempts := .fresh }) s
    else if s.qu.park.length < Config.parkCapacity then parkHead q s
    else retire (recordApplied x epoch q) s
  else retire (recordApplied x epoch q) s

/-- The head back in the queue as QUEUED after an attempt or a lost arbitration that leaves it waiting (R51, R137). -/
def requeueHead (tag : Byte) (s : State) : State :=
  updateRequest tag (fun q => { q with state := .queued }) s

/-- A woken claim back as ELIGIBLE, first in woken order (R140). -/
def requeueClaim (tag : Byte) (s : State) : State :=
  let s1 := updateRequest tag (fun q => { q with state := .eligible }) s
  s1.setQu { s1.qu with woken := tag :: s1.qu.woken }

/-! ## Waking -/

/-- A report with holder none: every PARKED claim on the cell becomes ELIGIBLE with a new attempt record, and joins the
woken order in park order (R95, R139). -/
def wake (c : CellNo) (s : State) : State :=
  let wakes : Request → Bool := fun q => q.state == .parked && q.cell == c
  s.setQu { s.qu with
    park := s.qu.park.map fun q => if wakes q then { q with state := .eligible, attempts := .fresh } else q
    woken := s.qu.woken ++ (s.qu.park.filter wakes).map (·.tag) }

/-! ## Entry and admission -/

/-- What a request entry's seven bytes spell (R134, R170). -/
structure Entry where
  opByte : Byte
  tag : Byte
  cell : Byte
  a : Half
  b : Half
  deriving DecidableEq, Repr

/-- The entry of seven bytes in their order (R134); bytes that are missing do not occur at a submission. -/
def entryOf (bytes : List Byte) : Entry where
  opByte := bytes.getD 0 0
  tag := bytes.getD 1 0
  cell := bytes.getD 2 0
  a := bytes.getD 3 0 ++ bytes.getD 4 0
  b := bytes.getD 5 0 ++ bytes.getD 6 0

/-- Whether an operation takes A as a bit number (R20, R135). -/
def bitOperation : CellOp → Bool
  | .bitset | .bitclr | .bitflip => true
  | .store | .add | .and | .or | .xor | .cas | .step | .claim | .release | .relstore => false

/-- The operation of an entry that passes the operand test, or none where it is refused BAD-OPERAND (R135). The operation
code stands in bits 6 to 0 (R170). -/
def entryOp (e : Entry) : Option CellOp :=
  match opOfCode (e.opByte.toNat % 128) with
  | none => none
  | some op => if e.cell.toNat ≤ 127 ∧ ¬(bitOperation op ∧ 15 < e.a.toNat) then some op else none

/-- The requests and completion records that the budget counts together (R136). -/
def admissionTotal (s : State) : Nat := s.qu.queue.length + s.qu.park.length + s.qu.completions.length

/-- The judgement of a submission: the first test that fails gives the result (R135). -/
def admissionResult (e : Entry) (s : State) : Admission :=
  if s.vu.station = .halted then .halted
  else if entryOp e = none then .badOperand
  else if (findRequest e.tag s).isSome then .duplicateTag
  else if Config.queueCapacity ≤ s.qu.queue.length ∨ Config.budget ≤ admissionTotal s then .full
  else .accepted

/-- The request that an admitted entry makes (R135). -/
def requestOf (e : Entry) (op : CellOp) : Request :=
  ⟨e.tag, op, e.opByte.getLsbD 7, e.cell.truncate 7, e.a, e.b, .queued, .fresh, false⟩

/-- A submission judged: the entry buffer emptied, the result set, and an accepted request at the queue's tail (R134,
R135). -/
def submit (e : Entry) (s : State) : State :=
  let r := admissionResult e s
  let s1 := s.setQu { s.qu with entry := [], result := r }
  match r, entryOp e with
  | .accepted, some op => s1.setQu { s1.qu with queue := s1.qu.queue ++ [requestOf e op] }
  | _, _ => s1

/-! ## CANCEL -/

/-- CANCEL judged at once (R141). -/
def judgeCancel (tag : Byte) (s : State) : ControlResult × State :=
  match findRequest tag s with
  | none => (.noSuchTag, s)
  | some q =>
    if q.state = .inAttempt then (.cancelPending, updateRequest tag (fun r => { r with cancelMark := true }) s)
    else (.cancelledNow, retire (recordUnapplied .cancelled q s) s)

end Sys2Proof.Machine
end

