-- ==== Sys2Proof/Machine/Watch.lean ====
section
/-! DEFINITION. The Watch Unit: the 18 tests, evaluation and firing, ARM and DISARM, and the attention causes (R148 to
R157). -/

namespace Sys2Proof.Machine

/-- The 18 tests on a whole record, at station `me`, against an operand and a reference version (R150). -/
def testHolds (me : Station) (test : WatchTest) (operand : Half) (reference : Byte) (r : Cell) : Bool :=
  match test with
  | .eq => r.value == operand
  | .ne => r.value != operand
  | .lt => decide (r.value.toInt < operand.toInt)
  | .ge => decide (operand.toInt ≤ r.value.toInt)
  | .le => decide (r.value.toInt ≤ operand.toInt)
  | .gt => decide (operand.toInt < r.value.toInt)
  | .ult => decide (r.value.toNat < operand.toNat)
  | .uge => decide (operand.toNat ≤ r.value.toNat)
  | .ule => decide (r.value.toNat ≤ operand.toNat)
  | .ugt => decide (operand.toNat < r.value.toNat)
  | .bitOne => r.value.getLsbD operand.toNat
  | .bitZero => !r.value.getLsbD operand.toNat
  | .free => r.holder == none
  | .held => r.holder != none
  | .mine => r.holder == some me
  | .changed => r.version != reference
  | .carry => r.flags.c
  | .overflow => r.flags.v

/-- The watch of a number (R148). -/
def watchAt (s : State) (i : Fin 16) : Watch := s.wu.watches[i]

/-- The watch of a number replaced. -/
def putWatch (i : Fin 16) (w : Watch) (s : State) : State :=
  s.setWu { s.wu with watches := s.wu.watches.set i w }

/-- A watch fires: it becomes FIRED and its notice, from the record seen, joins the tail of the event queue, in one act
(R152, R153). -/
def fire (reason : Reason) (r : Cell) (i : Fin 16) (s : State) : State :=
  let w := watchAt s i
  s.setWu { s.wu with
    watches := s.wu.watches.set i { w with state := .fired }
    events := s.wu.events ++ [⟨i, w.tag, reason, r.value, r.holder, r.version⟩] }

/-- One evaluation of one watch: an ARMED watch whose test holds fires with reason MET (R151, R152). -/
def evaluate (i : Fin 16) (s : State) : State :=
  let w := watchAt s i
  let r := cellAt s w.cell
  if w.state = .armed ∧ testHolds (own s) w.test w.operand w.reference r then fire .met r i s else s

/-- The report of a changed cell: every ARMED watch on it is evaluated, in ascending watch number (R151). -/
def reportToWatches (c : CellNo) (s : State) : State :=
  (List.finRange 16).foldl (fun t i => if (watchAt t i).cell = c then evaluate i t else t) s

/-- The reference version of an ARMED watch taken from its cell (R151). -/
def takeReference (s : State) (w : Watch) : Watch :=
  if w.state = .armed then { w with reference := (cellAt s w.cell).version } else w

/-- Entry into MEMBER: the reference versions first, then every ARMED watch, in ascending watch number (R104, R151). -/
def watchesOnEntry (s : State) : State :=
  (List.finRange 16).foldl (fun t i => evaluate i t)
    (s.setWu { s.wu with watches := bank 16 fun i => takeReference s s.wu.watches[i] })

/-- Exit from MEMBER: every ARMED watch fires LOST, in ascending watch number, with the live record (R104, R153). -/
def watchesOnExit (s : State) : State :=
  (List.finRange 16).foldl
    (fun t i => if (watchAt t i).state = .armed then fire .lost (cellAt t (watchAt t i).cell) i t else t) s

/-! ## ARM and DISARM -/

/-- The test of a code, or none outside 1 to 18 (R170). -/
def testOfCode : Nat → Option WatchTest
  | 1 => some .eq | 2 => some .ne | 3 => some .lt | 4 => some .ge | 5 => some .le | 6 => some .gt
  | 7 => some .ult | 8 => some .uge | 9 => some .ule | 10 => some .ugt | 11 => some .bitOne | 12 => some .bitZero
  | 13 => some .free | 14 => some .held | 15 => some .mine | 16 => some .changed | 17 => some .carry | 18 => some .overflow
  | _ => none

/-- Whether a test reads its operand as a bit number (R149, R150). -/
def bitTest : WatchTest → Bool
  | .bitOne | .bitZero => true
  | .eq | .ne | .lt | .ge | .le | .gt | .ult | .uge | .ule | .ugt | .free | .held | .mine | .changed | .carry
  | .overflow => false

/-- The result of a watch command (R149, R155). -/
def watchResult (x : WatchResult) (s : State) : State := s.setWu { s.wu with result := x }

/-- The watch and test that ARM's bytes name, or none where the first test of R149 refuses them. -/
def armNames (watch cell test : Byte) (operand : Half) : Option (Fin 16 × WatchTest) :=
  match testOfCode test.toNat with
  | none => none
  | some t =>
    if h : watch.toNat < 16 then
      if cell.toNat ≤ 127 ∧ ¬(bitTest t ∧ 15 < operand.toNat) then some (⟨watch.toNat, h⟩, t) else none
    else none

/-- The watch that a taken ARM leaves, before its evaluation: in MEMBER its reference version is the cell's, elsewhere 0
(R149). -/
def armedWatch (s : State) (cell : Byte) (test : WatchTest) (operand : Half) (tag : Byte) : Watch :=
  let c : CellNo := cell.truncate 7
  ⟨.armed, c, test, operand, tag, if s.vu.station = .member then (cellAt s c).version else 0⟩

/-- ARM judged whole at its last byte (R149). -/
def judgeArm (watch cell test : Byte) (operand : Half) (tag : Byte) (s : State) : State :=
  match armNames watch cell test operand with
  | none => watchResult .badWatch s
  | some (i, t) =>
    if (watchAt s i).state = .free then
      let s1 := putWatch i (armedWatch s cell t operand tag) (watchResult .taken s)
      if s.vu.station = .member then evaluate i s1 else s1
    else watchResult .busyWatch s

/-- The notice of watch `i` taken out of the event queue; the read position returns to the first byte when it was the
head (R155). -/
def removeNotice (i : Fin 16) (s : State) : State :=
  s.setWu { s.wu with
    events := s.wu.events.filter fun n => n.watch ≠ i
    pos := if (s.wu.events.head?.map (·.watch)) = some i then 0 else s.wu.pos }

/-- The watch of a number made FREE (R154, R155). Its cell, test, operand, tag and reference version stay as they were, which no
rule says and nothing reads (R148; DESIGN CHOICE, log entry 24). -/
def freeWatch (i : Fin 16) (s : State) : State :=
  putWatch i { watchAt s i with state := .free } s

/-- DISARM judged at its last byte (R155). -/
def judgeDisarm (watch : Byte) (s : State) : State :=
  if h : watch.toNat < 16 then
    let i : Fin 16 := ⟨watch.toNat, h⟩
    match (watchAt s i).state with
    | .free => watchResult .notInUse s
    | .armed => watchResult .freed (freeWatch i s)
    | .fired => watchResult .noticeRemoved (freeWatch i (removeNotice i s))
  else watchResult .badWatch s

/-! ## Attention -/

/-- The four causes, pending or not; NOTICE and DONE follow their queues (R156). -/
def pendingCauses (s : State) : Causes :=
  ⟨s.wu.statePending, s.wu.linePending, !s.wu.events.isEmpty, !s.qu.completions.isEmpty⟩

/-- An attention cause as CONTROL shows it (R166). -/
inductive Cause where
  | none | state | line | notice | done
  deriving DecidableEq, Repr

/-- The highest-ranked cause that is both pending and enabled (R157). -/
def attentionCause (s : State) : Cause :=
  let p := pendingCauses s
  let e := s.wu.enables
  if p.state && e.state then .state
  else if p.line && e.line then .line
  else if p.notice && e.notice then .notice
  else if p.done && e.done then .done
  else .none

/-- The ATN output: asserted while a cause is both pending and enabled, released while the part is held (R157, R167). -/
def atn (s : State) : Bool := !held s && attentionCause s != .none

/-- The enable mask of a MASK data byte (R157, R170). -/
def enablesOf (m : Byte) : Causes := ⟨m.getLsbD 3, m.getLsbD 2, m.getLsbD 1, m.getLsbD 0⟩

end Sys2Proof.Machine
end

