-- ==== Sys2Proof/Machine/View.lean ====
section
/-! DEFINITION. The View Unit's shared transitions: reports of changed cells, claim releases, entry into and exit from MEMBER,
withdrawal, the halt, and the probing state (R12, R16, R17, R103 to R115). -/

namespace Sys2Proof.Machine

/-! ## Reports and claim releases -/

/-- TU's report of a changed cell at a LIVE station: to WU, and to QU, which wakes parked claims when the holder is none
(R12). -/
def report (c : CellNo) (s : State) : State :=
  let s1 := reportToWatches c s
  if (cellAt s1 c).holder = none then wake c s1 else s1

/-- Whether a change of the view's table reaches a cell of this copy: every cell when LIVE, those of known chunks when
PENDING, none otherwise (R6, R11, R17). -/
def copyReaches (s : State) (c : CellNo) : Bool :=
  match s.vu.standing with
  | .live => true
  | .pending => chunkKnown s (chunkOf c)
  | .none | .retained => false

/-- Whether a cell's holder is in a set. -/
def heldBy (gone : Mask) (r : Cell) : Bool :=
  match r.holder with
  | some h => has gone h
  | none => false

/-- A cell's record after a release that picks it or not: the holder set to none, the version one higher; value, flags and
writer as they were (R16, R17). -/
def freedRecord (frees : CellNo → Bool) (s : State) (c : CellNo) : Cell :=
  if frees c then writeHolder (cellAt s c) none else cellAt s c

/-- The claims on every cell that `frees` picks released, at one moment (R16, R17). -/
def freeCells (frees : CellNo → Bool) (s : State) : State :=
  s.setTu { s.tu with cells := bank 128 fun i => freedRecord frees s (BitVec.ofNat 7 i.val) }

/-- Whether a claim release of a set frees a cell (R17). -/
def releaseFrees (gone : Mask) (s : State) (c : CellNo) : Bool := heldBy gone (cellAt s c) && copyReaches s c

/-- The claims of a set of removed stations released, in ascending cell order, each reported at a LIVE station (R17). -/
def releaseClaims (gone : Mask) (s : State) : State :=
  let s1 := freeCells (releaseFrees gone s) s
  if s.vu.standing = .live then (allCells.filter (releaseFrees gone s)).foldl (fun t c => report c t) s1 else s1

/-- The release of a founding on a RETAINED table: every claim but the founder's own, before the table is LIVE (R16). -/
def releaseForFounding (s : State) : State :=
  freeCells (fun c => heldBy (~~~only (own s)) (cellAt s c)) s

/-! ## Entry into and exit from MEMBER -/

/-- Entry into MEMBER, once the standing is LIVE and the view record holds the new view (R104). -/
def enterMember (s : State) : State := watchesOnEntry (enter .member s)

/-- What leaving a view does to QU and WU while the standing and the view record still stand: every request is retired
WITHDRAWN, and from MEMBER every ARMED watch fires LOST (R104, R114, R115). -/
def leaveQueues (s : State) : State :=
  if s.vu.station = .member then watchesOnExit (retireAll s) else retireAll s

/-- VU with its timers, probing state, owed and pending items and frame under judgement cleared (R105, R111, R114,
R115). -/
def quiet (v : Vu) : Vu :=
  { v with
    unanswered := 0
    probeTimer := none
    probeDue := .nothing
    admitTimer := none
    admitExpired := false
    stallTimer := none
    stallOwed := false
    leavePending := false
    judged := none }

/-- LISTENING entered: the count 0, the probe timer stopped, a JOIN due (R105). -/
def enterListening (s : State) : State :=
  enter .listening (s.setVu { quiet s.vu with probeDue := .join })

/-- LISTENING entered at a START, which changes no frame under judgement: one disregarded in HALTED stays so to the end of
its window (R63, R103). -/
def beginListening (s : State) : State :=
  let s1 := enterListening s
  s1.setVu { s1.vu with judged := s.vu.judged }

/-- The standing RETAINED with the epoch of the view as it stands (R7, R9). -/
def retain (s : State) : State :=
  s.setVu { s.vu with standing := .retained, retainedEpoch := s.vu.view.epoch }

/-- The standing NONE, all records at power-on values, all chunks unknown (R7, R8, R9). -/
def discard (s : State) : State :=
  clearTable (s.setVu { s.vu with standing := .none, retainedEpoch := 0 })

/-- The view record emptied (R98). -/
def emptyView (s : State) : State := s.setVu { s.vu with view := .empty }

/-- SU emptied and DEFERRED cleared, as a withdrawal, a HALT and an own LEAVE do (R59, R78, R112). -/
def emptySending (s : State) : State :=
  (s.setSu .empty).setLu { s.lu with deferred := false }

/-- A withdrawal, in the order of R114; outside JOINING and MEMBER it has no effect (R113). -/
def withdraw (s : State) : State :=
  match s.vu.station with
  | .member => enterListening (emptyView (retain (emptySending (leaveQueues s))))
  | .joining => enterListening (emptyView (discard (emptySending (leaveQueues s))))
  | .halted | .listening | .admitting => s

/-! ## The halt -/

/-- LU waiting for the line to be idle, its driver released, with the count of asserted bit times given. The rest of the
frame may still pass (R54, R55, R56, R58). The check register stays as it is, until the next start bit (R169; DESIGN CHOICE, log
entry 22). -/
def giveUpLine (run : Nat) (l : Lu) : Lu :=
  { l with mode := .waitIdle, driver := .released, asserted := true, idleCount := 0, assertedCount := run }

/-- LU at a HALT: the driver released at once and DEFERRED cleared; a frame being sent is stopped, and one being received
is tracked on with nothing handed to VU; both counts go on as they stand, and the line's level, LINE-STUCK and the check
register are left as they are (R58, R61, section 3.12; log entries 15 and 22). -/
def haltLine (l : Lu) : Lu :=
  match l.mode, l.driver with
  | .sending, _ => { l with driver := .released, deferred := false, mode := .waitIdle }
  | .window, .ownFrame => { l with driver := .released, deferred := false, mode := .waitIdle }
  | .window, _ => { l with driver := .released, deferred := false, mode := .tracking }
  | .receiving, _ => { l with driver := .released, deferred := false, mode := .tracking }
  | .waitIdle, _ => { l with driver := .released, deferred := false }
  | .resting, _ => { l with driver := .released, deferred := false }
  | .tracking, _ => { l with driver := .released, deferred := false }

/-- The standing at a HALT (R7, R115). -/
def haltStanding (s : State) : State :=
  match s.vu.station with
  | .member => retain s
  | .joining | .admitting => discard s
  | .listening | .halted => s

/-- HALTED entered with an empty view record and nothing pending in VU (R115). -/
def enterHalted (s : State) : State :=
  enter .halted (emptyView (s.setVu (quiet s.vu)))

/-- The HALT command's action, taken too when a LEAVE is given up; in HALTED it changes nothing (R91, R115). -/
def haltStation (s : State) : State :=
  if s.vu.station = .halted then s
  else
    let s1 := haltStanding (leaveQueues s)
    enterHalted ((s1.setSu .empty).setLu (haltLine s1.lu))

/-- This station's own complete LEAVE: its claims released, the exit, the standing RETAINED with the epoch from before the
LEAVE, the view record emptied, HALTED (R112). -/
def leaveOwn (s : State) : State :=
  enterHalted (retain (emptySending (leaveQueues (releaseClaims (only (own s)) s))))

/-! ## Probing -/

/-- The probe wait after an unanswered JOIN that brought the count to `n` (R105). -/
def probeWaitAfter (straps : Straps) (n : Nat) : Nat :=
  if n = Config.probeLimit ∧ !straps.fp then Config.probeWaitForbidden else Config.probeWait straps.sn

/-- An unanswered own JOIN (R105). -/
def probeUnanswered (s : State) : State :=
  let n := if s.vu.unanswered < Config.probeLimit then s.vu.unanswered + 1 else s.vu.unanswered
  s.setVu { s.vu with unanswered := n, probeDue := .nothing, probeTimer := some (probeWaitAfter s.hp.straps n) }

/-- An answered own JOIN: ADMITTING, with ADMIT_WAIT running (R105, R118). -/
def probeAnswered (s : State) : State :=
  enter .admitting (s.setVu { quiet s.vu with admitTimer := some Config.admitWait })

/-- A JOIN made due at once: the count 0, the timer stopped, a due FOUND cancelled (R106, R107). -/
def restartProbing (s : State) : State :=
  s.setVu { s.vu with unanswered := 0, probeTimer := none, probeDue := .join }

end Sys2Proof.Machine
end

