-- ==== Sys2Proof/Machine/Send.lean ====
section
/-! DEFINITION. The Send Unit: what it offers, how an item begins, and what follows an attempt: the missing history, the drop
decision, the quorum test and the attempt limits (R78 to R97). -/

namespace Sys2Proof.Machine

/-! ## The send selector -/

/-- Whether an item is sent as a class-1 frame (R79). -/
def itemClassOne : Item → Bool
  | .transfer | .claim _ | .request _ => true
  | .drop | .roster | .leave | .probe | .found | .stallJoin => false

/-- A ROSTER is owed at this station (R79, R120). -/
def rosterDue (s : State) : Bool :=
  s.vu.station == .member && isSupplier s && s.vu.view.rosterOwed

/-- A TRANSFER is owed at this station (R79, R123). -/
def transferDue (s : State) : Bool :=
  s.vu.station == .member && isSupplier s && decide (0 < s.vu.view.remaining) && !s.vu.view.rosterOwed

/-- The request at the head of the queue, when it waits for its turn (R137). -/
def headItem (s : State) : List Item :=
  match s.qu.queue with
  | q :: _ => if q.state = .queued then [.request q.tag] else []
  | [] => []

/-- The oldest-woken ELIGIBLE claim (R140). -/
def wokenItem (s : State) : List Item :=
  match s.qu.woken with
  | t :: _ => [.claim t]
  | [] => []

/-- The items the station has, in SU's order (R79, R80). -/
def itemsInOrder (s : State) : List Item :=
  match s.vu.station with
  | .member =>
    (if s.su.owedDrop.isSome then [.drop] else [])
      ++ (if rosterDue s then [.roster] else [])
      ++ (if s.vu.leavePending && !leaveHeldBack s then [.leave] else [])
      ++ (if transferDue s then [.transfer] else [])
      ++ wokenItem s ++ headItem s
  | .joining =>
    (if s.su.owedDrop.isSome then [.drop] else []) ++ (if s.vu.stallOwed then [.stallJoin] else [])
  | .listening =>
    match s.vu.probeDue with
    | .join => [.probe]
    | .found => [.found]
    | .nothing => []
  | .halted | .admitting => []

/-- The item SU offers: the first in its order, class-1 items passed over while DEFERRED is set, and none while an
attempt is in progress (R80, R81; log entry 9). -/
def chosenOffer (s : State) : Option Item :=
  if s.su.attempt.isSome then none
  else (itemsInOrder s).find? fun i => !(itemClassOne i && s.lu.deferred)

/-- Whether an item is the one in attempt. -/
def attempting (i : Item) (s : State) : Bool := (s.su.attempt.map (·.item)) == some i

/-- The attempt record of a system item kept while the item is owed, pending or in attempt, and cleared once it has left
SU (R78, R79). -/
def keptRecord (owed : Bool) (i : Item) (r : AttemptRec) (s : State) : AttemptRec :=
  if owed || attempting i s then r else .fresh

/-- The owed DROP's mask without the stations that are no longer in the view, and nothing once it is empty (R87). -/
def prunedDrop (s : State) : Option Mask :=
  match s.su.owedDrop with
  | none => none
  | some m => if m &&& everyone s.vu.view = 0 then none else some (m &&& everyone s.vu.view)

/-- SU's system items brought into line with the view, the station state and the timers (R79, R87). -/
def pruneItems (s : State) : State :=
  s.setSu { s.su with
    owedDrop := prunedDrop s
    dropRec := keptRecord (prunedDrop s).isSome .drop s.su.dropRec s
    rosterRec := keptRecord (rosterDue s) .roster s.su.rosterRec s
    transferRec := keptRecord (transferDue s) .transfer s.su.transferRec s
    leaveRec := keptRecord s.vu.leavePending .leave s.su.leaveRec s
    foundRec := keptRecord (s.vu.probeDue == .found) .found s.su.foundRec s
    stallRec := keptRecord s.vu.stallOwed .stallJoin s.su.stallRec s }

/-- SU's offer set as chosen. -/
def setOffer (s : State) : State := s.setSu { s.su with offer := chosenOffer s }

/-- SU works out its items and its offer again, as it does whenever anything they depend on has changed (R81). -/
def refresh (s : State) : State := setOffer (pruneItems s)

/-! ## The start of an attempt -/

/-- The snapshot of a chunk that a TRANSFER carries (R18, R94). -/
def chunkSnapshot (s : State) (k : BitVec 4) : Vector Cell 8 :=
  bank 8 fun j => cellAt s (cellOfChunk k j)

/-- The epoch that a FOUND of this station carries (R81, R99). -/
def foundEpoch (s : State) : Byte :=
  if s.vu.standing = .retained then s.vu.retainedEpoch + 1 else 1

/-- The contents of an item's frame, fixed at its start bit (R81). -/
def frameOf (i : Item) (s : State) : Option Frame :=
  let v := s.vu.view
  let cellFrame : Byte → Option Frame := fun t =>
    (findRequest t s).map fun q => ⟨own s, v.epoch, .cell q.op q.cell q.a q.b⟩
  match i with
  | .drop => s.su.owedDrop.map fun m => ⟨own s, v.epoch, .drop m⟩
  | .roster => some ⟨own s, v.epoch, .roster v.full v.joiners v.cursor (BitVec.ofNat 5 v.remaining)⟩
  | .leave => some ⟨own s, v.epoch, .leave⟩
  | .probe => some ⟨own s, 0, .join⟩
  | .stallJoin => some ⟨own s, 0, .join⟩
  | .found => some ⟨own s, foundEpoch s, .found (s.vu.standing == .retained)⟩
  | .transfer => some ⟨own s, v.epoch, .transfer v.cursor (chunkSnapshot s v.cursor)⟩
  | .claim t => cellFrame t
  | .request t => cellFrame t

/-- A request IN-ATTEMPT from its start bit; a woken claim leaves the woken order (R133, R137, R140). -/
def markInAttempt (i : Item) (s : State) : State :=
  match i with
  | .request t => updateRequest t (fun q => { q with state := .inAttempt }) s
  | .claim t =>
    let s1 := updateRequest t (fun q => { q with state := .inAttempt }) s
    s1.setQu { s1.qu with woken := s1.qu.woken.filter fun w => w != t }
  | .drop | .roster | .leave | .probe | .found | .stallJoin | .transfer => s

/-- LU at its own start bit: it drives the frame, both its counts are 0, the check register is set, and the frame is at its
bit 0 (R43, R44, R48, R58, R169). -/
def startBitLine (l : Lu) : Lu :=
  { l with
    mode := .sending, driver := .ownFrame, asserted := true, idleCount := 0, assertedCount := 0
    checkReg := Config.checkStart, bitPos := 0 }

/-- The start bit of an item: it becomes the attempt in progress with its contents fixed, and SU's offer is free (R48,
R81). -/
def beginItem (i : Item) (s : State) : State :=
  match frameOf i s with
  | none => s
  | some f =>
    let s1 := markInAttempt i s
    (s1.setSu { s1.su with offer := none, attempt := some ⟨i, f⟩ }).setLu (startBitLine s1.lu)

/-! ## Attempt records -/

/-- The attempt record of an item; a probe has none (R78, R93). -/
def recordOf (i : Item) (s : State) : AttemptRec :=
  match i with
  | .drop => s.su.dropRec
  | .roster => s.su.rosterRec
  | .leave => s.su.leaveRec
  | .probe => .fresh
  | .found => s.su.foundRec
  | .stallJoin => s.su.stallRec
  | .transfer => s.su.transferRec
  | .claim t => ((findRequest t s).map (·.attempts)).getD .fresh
  | .request t => ((findRequest t s).map (·.attempts)).getD .fresh

/-- The attempt record of an item written. -/
def setRecord (i : Item) (r : AttemptRec) (s : State) : State :=
  match i with
  | .drop => s.setSu { s.su with dropRec := r }
  | .roster => s.setSu { s.su with rosterRec := r }
  | .leave => s.setSu { s.su with leaveRec := r }
  | .probe => s
  | .found => s.setSu { s.su with foundRec := r }
  | .stallJoin => s.setSu { s.su with stallRec := r }
  | .transfer => s.setSu { s.su with transferRec := r }
  | .claim t => updateRequest t (fun q => { q with attempts := r }) s
  | .request t => updateRequest t (fun q => { q with attempts := r }) s

/-- A missing set appended to a history, which keeps the last three (R83). -/
def appendMissing (m : Mask) (h : List Mask) : List Mask :=
  (h ++ [m]).drop ((h ++ [m]).length - Config.historyDepth)

/-- One incomplete attempt recorded: the count one higher, the missing set appended (R82, R83). -/
def recordMiss (m : Mask) (r : AttemptRec) : AttemptRec := ⟨r.count + 1, appendMissing m r.history⟩

/-- A record with its missing history cleared and its count kept (R88, R89). -/
def clearHistory (r : AttemptRec) : AttemptRec := { r with history := [] }

/-- The missing history of every item cleared, system items and requests alike (R89). -/
def clearHistories (s : State) : State :=
  let req : Request → Request := fun q => { q with attempts := clearHistory q.attempts }
  (s.setSu { s.su with
      dropRec := clearHistory s.su.dropRec
      rosterRec := clearHistory s.su.rosterRec
      transferRec := clearHistory s.su.transferRec
      leaveRec := clearHistory s.su.leaveRec
      foundRec := clearHistory s.su.foundRec
      stallRec := clearHistory s.su.stallRec }).setQu
    { s.qu with queue := s.qu.queue.map req, park := s.qu.park.map req }

/-- The end of an attempt: SU has none in progress, and a class-1 frame sets DEFERRED (R59, R82). -/
def endAttempt (a : Attempt) (s : State) : State :=
  (s.setSu { s.su with attempt := none }).setLu
    { s.lu with deferred := s.lu.deferred || classOne a.frame.body }

/-! ## The drop decision -/

/-- What the drop decision finds (R85, R86). -/
inductive DropVerdict where
  | keep
  | owe (m : Mask)
  | withdraw
  deriving DecidableEq, Repr

/-- The stations missing from every entry of a history. -/
def sharedMisses (h : List Mask) : Mask := h.foldl (· &&& ·) (BitVec.allOnes 32)

/-- The quorum test of a set of stations: its full members are fewer than half of the full members (R86). -/
def quorumPasses (m full : Mask) : Bool := decide (2 * size (m &&& full) < size full)

/-- The drop decision on an item's record, from the view at the end of the attempt (R85, R86); for the owed DROP, the test
weighs its mask with the new misses (R88). -/
def dropDecision (i : Item) (r : AttemptRec) (s : State) : DropVerdict :=
  let m := sharedMisses r.history &&& everyone s.vu.view
  if r.history.length < Config.historyDepth ∨ m = 0 then .keep
  else
    let u := if i = .drop then s.su.owedDrop.getD 0 ||| m else m
    if quorumPasses u s.vu.view.full then .owe u else .withdraw

/-- A DROP owed as the decision says: widened with its count kept for the owed DROP itself, and new for any other item
(R86, R88). -/
def oweDrop (i : Item) (m : Mask) (s : State) : State :=
  s.setSu { s.su with
    owedDrop := some m
    dropRec := if i = .drop then clearHistory s.su.dropRec else .fresh }

/-! ## What follows an attempt -/

/-- An item back where it waits, after an attempt or a lost arbitration that leaves it waiting (R51, R137, R140). -/
def returnItem (i : Item) (s : State) : State :=
  match i with
  | .request t => requeueHead t s
  | .claim t => requeueClaim t s
  | .drop | .roster | .leave | .probe | .found | .stallJoin | .transfer => s

/-- A request of an item, when the item is one. -/
def requestOfItem (i : Item) (s : State) : Option Request :=
  match i with
  | .request t => findRequest t s
  | .claim t => findRequest t s
  | .drop | .roster | .leave | .probe | .found | .stallJoin | .transfer => none

/-- STALL_WAIT started afresh and the stall JOIN not owed, at a JOINING station (R127). -/
def restartStall (s : State) : State :=
  if s.vu.station = .joining then
    s.setVu { s.vu with stallTimer := some Config.stallWait, stallOwed := false }
  else s

/-- What the attempt limit does at an item's 8th incomplete attempt; before it, the item waits for another (R90, R91,
R92). -/
def attemptLimit (i : Item) (s : State) : State :=
  if (recordOf i s).count < Config.attemptLimit then returnItem i s
  else
    match i with
    | .request _ | .claim _ =>
      match requestOfItem i s with
      | some q => retire (recordUnapplied .failed q s) s
      | none => s
    | .drop => withdraw s
    | .leave => haltStation s
    | .roster => setRecord .roster .fresh s
    | .transfer => setRecord .transfer .fresh s
    | .stallJoin => restartStall (setRecord .stallJoin .fresh s)
    | .probe | .found => s

/-- An incomplete attempt of an item that is subject to the drop decision: the decision, then the attempt limit (R85 to
R92). -/
def decideItem (i : Item) (s : State) : State :=
  match dropDecision i (recordOf i s) s with
  | .withdraw => withdraw s
  | .owe m => attemptLimit i (oweDrop i m s)
  | .keep => attemptLimit i s

/-- An incomplete own FOUND: counted, kept on offer until the 8th, and then given up for a JOIN (R93, R107). -/
def foundIncomplete (s : State) : State :=
  let r : AttemptRec := ⟨s.su.foundRec.count + 1, []⟩
  if r.count < Config.attemptLimit then setRecord .found r s
  else restartProbing (setRecord .found .fresh s)

/-- What follows the recorded miss of an item: a request with a cancel mark is retired CANCELLED without a drop decision,
and any other item is decided on (R85, R95, R142). -/
def weighMiss (i : Item) (s : State) : State :=
  match requestOfItem i s with
  | some q => if q.cancelMark then retire (recordUnapplied .cancelled q s) s else decideItem i s
  | none => decideItem i s

/-- An incomplete attempt of an item with its missing set, which is empty for a self fault (R83, R93). -/
def incompleteAttempt (i : Item) (missing : Mask) (s : State) : State :=
  match i with
  | .probe => probeUnanswered s
  | .found => foundIncomplete s
  | .drop | .roster | .leave | .stallJoin | .transfer | .claim _ | .request _ =>
    weighMiss i (setRecord i (recordMiss missing (recordOf i s)) s)

/-- This station's attempt ended by a self fault that left it in step (R62, R83). -/
def selfFault (s : State) : State :=
  match s.su.attempt with
  | none => s
  | some a => incompleteAttempt a.item 0 (endAttempt a s)

/-- This station's arbitration lost: no attempt, and the item waits again; a request marked for cancel in the meantime
is retired CANCELLED (R51, R82; log entry 7). -/
def lostArbitration (s : State) : State :=
  match s.su.attempt with
  | none => s
  | some a =>
    let s1 := s.setSu { s.su with attempt := none }
    match requestOfItem a.item s1 with
    | some q => if q.cancelMark then retire (recordUnapplied .cancelled q s1) s1 else returnItem a.item s1
    | none => returnItem a.item s1

/-- What a complete attempt does to its system item: its record is cleared, and a DROP, LEAVE or stall JOIN is discarded;
VU applies the rest (R84). -/
def completeItem (i : Item) (s : State) : State :=
  match i with
  | .drop => setRecord .drop .fresh (s.setSu { s.su with owedDrop := none })
  | .leave => setRecord .leave .fresh (s.setVu { s.vu with leavePending := false })
  | .stallJoin => restartStall (setRecord .stallJoin .fresh s)
  | .roster => setRecord .roster .fresh s
  | .transfer => setRecord .transfer .fresh s
  | .found => setRecord .found .fresh s
  | .probe | .claim _ | .request _ => s

end Sys2Proof.Machine
end

