-- ==== Sys2Proof/Machine/Accept.lean ====
section
/-! DEFINITION. What VU does with a frame at the end of its check part: the acceptance answer, FOREIGN, the findings out of step
and the probing rules (R63 to R69, R106). -/

namespace Sys2Proof.Machine

/-- Whether a body is a FOUND. -/
def isFound : Body → Bool
  | .found _ => true
  | .join | .roster .. | .drop _ | .leave | .cell .. | .transfer .. => false

/-- Whether a body is a JOIN. -/
def isJoin : Body → Bool
  | .join => true
  | .found _ | .roster .. | .drop _ | .leave | .cell .. | .transfer .. => false

/-- Whether a ROSTER's body agrees with a view; a body of another kind has nothing to disagree with (R69). -/
def rosterAgrees (b : Body) (v : View) : Bool :=
  match b with
  | .roster full joiners cursor remaining =>
    full == v.full && joiners == v.joiners && cursor == v.cursor && remaining.toNat == v.remaining
  | .found _ | .join | .drop _ | .leave | .cell .. | .transfer .. => true

/-- Whether a frame is foreign to a view: any FOUND, and any frame but a JOIN from outside the view (R67). -/
def isForeign (f : Frame) (v : View) : Bool :=
  isFound f.body || (!isJoin f.body && !has (everyone v) f.orig)

/-- Whether a frame shows this station out of step: from its view, neither JOIN nor FOUND, and of another epoch or a
ROSTER that disagrees (R68, R69). -/
def showsOutOfStep (f : Frame) (v : View) : Bool :=
  !isFound f.body && !isJoin f.body && has (everyone v) f.orig
    && (f.epoch != v.epoch || !rosterAgrees f.body v)

/-- Entitlement: whether a station in MEMBER or JOINING accepts an intact frame of another station (R65). -/
def entitled (f : Frame) (v : View) : Bool :=
  match f.body with
  | .cell .. => f.epoch == v.epoch && has v.full f.orig
  | .transfer chunk _ =>
    f.epoch == v.epoch && has v.full f.orig && chunk == v.cursor && decide (0 < v.remaining) && !v.rosterOwed
  | .roster .. => f.epoch == v.epoch && has (everyone v) f.orig && rosterAgrees f.body v
  | .drop _ => f.epoch == v.epoch && has (everyone v) f.orig
  | .leave => f.epoch == v.epoch && has (everyone v) f.orig
  | .join => true
  | .found _ => false

/-- The acceptance answer to another station's frame (R54, R63, R65, R66). -/
def accepts (f : Frame) (intact : Bool) (s : State) : Bool :=
  match s.vu.station with
  | .halted | .listening => false
  | .admitting => intact && !isFound f.body
  | .joining | .member => intact && entitled f s.vu.view

/-- Whether this station is MEMBER or JOINING. -/
def inView (st : StationState) : Bool := st == .member || st == .joining

/-- The frame under judgement of another station's frame (R63). -/
def judgedOther (f : Frame) (intact : Bool) (s : State) : Judged where
  frame := f
  intact := intact
  accept := accepts f intact s
  own := false
  station := s.vu.station
  outOfStep := intact && inView s.vu.station && showsOutOfStep f s.vu.view

/-- The frame under judgement of this station's own frame, whose slot it asserts (R63, R64). -/
def judgedOwn (f : Frame) (s : State) : Judged where
  frame := f
  intact := true
  accept := true
  own := true
  station := s.vu.station
  outOfStep := false

/-- FOREIGN set with the originator's number, and LINE made pending (R67). -/
def setForeign (f : Frame) (s : State) : State :=
  raiseLine (s.setVu { s.vu with foreign := some f.orig })

/-- What an intact frame of another station does at the end of its check part, besides the answer: FOREIGN in MEMBER and
JOINING (R67), and the probing rules in LISTENING (R106). -/
def hearFrame (f : Frame) (s : State) : State :=
  match s.vu.station with
  | .joining | .member => if isForeign f s.vu.view then setForeign f s else s
  | .listening => if isJoin f.body then s else restartProbing s
  | .halted | .admitting => s

/-- The count of asserted bit times after a frame's start bit and the bits that follow it: the bits of 0 that they end in,
each a bit time asserted throughout, where a bit of 1 releases the line (R44, R49, R58). A run that reaches 256 is the row
LINE_STUCK instead (log entry 12). -/
def assertedRun (bits : List Bool) : Nat :=
  min (Config.stuckCount - 1) ((false :: bits).reverse.takeWhile fun b => !b).length

/-- LU into the window at slot 0, its driver given what VU's answer directs (R43, R54). -/
def windowLine (driver : Driver) (reg : BitVec 16) (run : Nat) (l : Lu) : Lu :=
  { l with mode := .window, driver := driver, checkReg := reg, assertedCount := run, bitPos := 0 }

/-- The check register's content over the bits that a check covers (R169). -/
def registerOf (bits : List Bool) : BitVec 16 := checkOf (bits.take (bits.length - 16))

/-- LU at a frame of an unassigned kind code: it stops decoding there, the check register fed with the bits up to the last
kind bit (R54, R58, R169). -/
def unknownKind (bits : List Bool) (l : Lu) : Lu :=
  { giveUpLine (assertedRun bits) l with checkReg := checkOf (bits.take 10) }

/-- Another station's frame at the end of its check part, handed to VU (R54, R63); what cannot be a frame is lost (R54; log
entry 14). -/
def checkEndOther (bits : List Bool) (s : State) : State :=
  match decodeFrame bits with
  | none => s.setLu (unknownKind bits s.lu)
  | some (f, intact) =>
    let j := judgedOther f intact s
    let s1 := if intact then hearFrame f s else s
    (s1.setVu { s1.vu with judged := some j }).setLu
      (windowLine (if j.accept then .ownSlot else .released) (registerOf bits) (assertedRun bits) s1.lu)

/-- This station's own frame at the end of its check part: every bit read back as it was sent, so it is the frame fixed at
the start bit (R48, R54, R64). -/
def checkEndOwn (a : Attempt) (s : State) : State :=
  (s.setVu { s.vu with judged := some (judgedOwn a.frame s) }).setLu
    (windowLine .ownFrame (checkOf (coveredBits a.frame)) (assertedRun (encodeFrame a.frame)) s.lu)

/-- The end of a frame's check part (R54). -/
def checkEnd (bits : List Bool) (s : State) : State :=
  match s.lu.mode, s.su.attempt with
  | .receiving, _ => checkEndOther bits s
  | .sending, some a => checkEndOwn a s
  | _, _ => s

end Sys2Proof.Machine
end

