-- ==== Sys2Proof/Machine/Window.lean ====
section
/-! DEFINITION. The end of the window: completion judged (R70 to R73), a complete frame applied (R74 and the rules of its kind), an
incomplete one settled, and window faults (R75 to R77). -/

namespace Sys2Proof.Machine

/-! ## The required set and the judgement -/

/-- The required set of a frame in a view (R70). -/
def requiredSet (f : Frame) (v : View) : Mask :=
  match f.body with
  | .cell .. | .transfer .. | .roster .. | .join | .leave => everyone v
  | .drop m => without (everyone v) m
  | .found _ => only f.orig

/-- Whether a frame is complete at a station in MEMBER or JOINING, from the slots read asserted (R71). -/
def isComplete (j : Judged) (slots : Mask) (s : State) : Bool :=
  j.intact && (if j.own then has slots (own s) else j.accept)
    && within (requiredSet j.frame s.vu.view) slots

/-- The missing set of an own attempt read to the end of its window; when its own slot was read released the attempt is a
self fault, with an empty set (R64, R83). -/
def missingSet (j : Judged) (slots : Mask) (s : State) : Mask :=
  if has slots (own s) then without (requiredSet j.frame s.vu.view) slots else 0

/-! ## Applying a complete frame -/

/-- The result of an own cell frame, handed through SU to QU: the request is retired or parked (R38, R84). -/
def settleOwn (item : Option Item) (x : Applied) (epoch : Byte) (s : State) : State :=
  match item with
  | some (.request t) =>
    match findRequest t s with
    | some q => settleApplied false q x epoch s
    | none => s
  | some (.claim t) =>
    match findRequest t s with
    | some q => settleApplied true q x epoch s
    | none => s
  | some _ => s
  | none => s

/-- A cell operation applied by TU (R11), its result handed to QU when the frame is this station's own, and a change
reported at a LIVE station (R12, R38, R39). `item` is the own attempt's item. -/
def applyCell (op : CellOp) (c : CellNo) (a b : Half) (f : Frame) (item : Option Item) (s : State) : State :=
  let x := applyOp op f.orig a b (cellAt s c)
  match s.vu.standing with
  | .live =>
    let s1 := settleOwn item x f.epoch (putCell c x.record s)
    if x.changed then report c s1 else s1
  | .pending => if copyReaches s c then putCell c x.record s else s
  | .none | .retained => s

/-- The eight records of a chunk replaced by the images, and the chunk marked known (R14). -/
def replaceChunk (k : BitVec 4) (images : Vector Cell 8) (s : State) : State :=
  s.setTu {
    cells := bank 128 fun i => if i.val / 8 = k.toNat then images[i.val % 8]'(Nat.mod_lt _ (by decide)) else s.tu.cells[i]
    known := s.tu.known ||| (1#16 <<< k.toNat) }

/-- The view after a TRANSFER that leaves frames of the round to come (R124). -/
def advanceRound (v : View) : View := { v with cursor := v.cursor + 1, remaining := v.remaining - 1 }

/-- The view after the promotion that ends a round (R125). -/
def promoteView (v : View) : View :=
  { advanceRound v with full := everyone v, joiners := 0, epoch := v.epoch + 1, rosterOwed := false, remaining := 0 }

/-- The view record replaced. -/
def setView (v : View) (s : State) : State := s.setVu { s.vu with view := v }

/-- A JOINING station promoted with every chunk known: its standing LIVE, the flags cleared, STALL_WAIT stopped, MEMBER
(R15, R125). -/
def promoteStation (s : State) : State :=
  let s1 := s.setTu { s.tu with known := 0 }
  enterMember (s1.setVu { s1.vu with standing := .live, retainedEpoch := 0, stallTimer := none, stallOwed := false })

/-- The promoting TRANSFER at a JOINING station: out of step when a chunk is still unknown, and then not applied here (R15,
R77, R125). -/
def promoteJoining (known : State) (s : State) : State :=
  if known.tu.known = BitVec.allOnes 16 then promoteStation (setView (promoteView s.vu.view) known)
  else withdraw s

/-- The chunk replaced at a JOINING station, and the round moved on, up to the promotion that ends it (R124, R125). -/
def moveRound (k : BitVec 4) (images : Vector Cell 8) (s : State) : State :=
  match s.vu.station with
  | .joining =>
    let s1 := replaceChunk k images s
    if s.vu.view.remaining ≤ 1 then promoteJoining s1 s
    else restartStall (setView (advanceRound s.vu.view) s1)
  | .member =>
    if s.vu.view.remaining ≤ 1 then setView (promoteView s.vu.view) s
    else setView (advanceRound s.vu.view) s
  | .halted | .listening | .admitting => s

/-- A complete TRANSFER, whoever sent it: the cursor moves on, and the attempt record of a TRANSFER, which belonged to the old
cursor, is cleared (R94, R124). -/
def applyTransfer (k : BitVec 4) (images : Vector Cell 8) (s : State) : State :=
  moveRound k images (setRecord .transfer .fresh s)

/-- A complete ROSTER at a station of the view (R121). -/
def applyRoster (s : State) : State :=
  restartStall (setView { s.vu.view with rosterOwed := false } s)

/-- Where a JOIN's originator stands in a view (R108). -/
inductive JoinRow where
  | outside | joiner | fullMember
  deriving DecidableEq, Repr

/-- The row of R108 that fits an originator; one in both sets, which no view holds, is taken as a full member. -/
def joinRow (n : Station) (v : View) : JoinRow :=
  if has v.full n then .fullMember else if has v.joiners n then .joiner else .outside

/-- The view after a complete JOIN (R108). -/
def joinView (n : Station) (v : View) : View :=
  match joinRow n v with
  | .outside => { v with joiners := v.joiners ||| only n, epoch := v.epoch + 1, rosterOwed := true, remaining := Config.roundLength }
  | .joiner => { v with rosterOwed := true, remaining := Config.roundLength }
  | .fullMember =>
    { v with
      full := without v.full (only n)
      joiners := v.joiners ||| only n
      epoch := v.epoch + 1
      rosterOwed := true
      remaining := Config.roundLength }

/-- The JOINs that withdraw the station: from its own number at a MEMBER, which sends none, and from the one full member
at a JOINING station (R109). -/
def joinWithdraws (n : Station) (s : State) : Bool :=
  match s.vu.station with
  | .member => n == own s
  | .joining => s.vu.view.full == only n
  | .halted | .listening | .admitting => false

/-- A complete JOIN (R108, R109). The claims of a full member are released when it moves among the joiners. -/
def applyJoin (n : Station) (s : State) : State :=
  if joinWithdraws n s then withdraw s
  else
    let s1 := setView (joinView n s.vu.view) s
    match joinRow n s.vu.view with
    | .fullMember => releaseClaims (only n) s1
    | .outside | .joiner => s1

/-- A view with its round ended when no joiner is left (R98, R110). -/
def endEmptyRound (v : View) : View :=
  if v.joiners = 0 then { v with remaining := 0, rosterOwed := false } else v

/-- A view without a set of stations, its epoch one higher (R110, R112). -/
def removeFromView (m : Mask) (v : View) : View :=
  endEmptyRound { v with full := without v.full m, joiners := without v.joiners m, epoch := v.epoch + 1 }

/-- A complete DROP: a station named in it withdraws; the others remove the named stations, release their claims and
clear every history (R89, R110, R127). -/
def applyDrop (m : Mask) (s : State) : State :=
  if has m (own s) then withdraw s
  else
    let gone := m &&& everyone s.vu.view
    clearHistories (restartStall (releaseClaims gone (setView (removeFromView m s.vu.view) s)))

/-- A complete LEAVE of another station; one that bears this station's own number withdraws it (R112). -/
def applyLeaveOther (n : Station) (s : State) : State :=
  if n = own s then withdraw s
  else releaseClaims (only n) (setView (removeFromView (only n) s.vu.view) s)

/-- A frame judged complete at a station in MEMBER or JOINING, applied by its kind (R74). `item` is the item of this
station's own attempt. -/
def applyFrame (f : Frame) (item : Option Item) (s : State) : State :=
  match f.body with
  | .cell op c a b => applyCell op c a b f item s
  | .transfer k images => applyTransfer k images s
  | .roster .. => applyRoster s
  | .join => applyJoin f.orig s
  | .drop m => applyDrop m s
  | .leave => if item = some .leave then leaveOwn s else applyLeaveOther f.orig s
  | .found _ => s

/-! ## The window's end, by the station state that governs the frame -/

/-- This station's own complete FOUND (R16, R107). -/
def foundView (f : Frame) (s : State) : State :=
  let s1 := if s.vu.standing = .retained then releaseForFounding s else s
  let v : View := { View.empty with full := only (own s), epoch := f.epoch }
  enterMember (s1.setVu { quiet s1.vu with view := v, standing := .live, retainedEpoch := 0 })

/-- The end of an own window at a LISTENING station: a JOIN is answered when a slot other than its own was asserted, a
FOUND complete when its own was (R72). -/
def endOwnListening (a : Attempt) (slots : Mask) (s : State) : State :=
  let s1 := endAttempt a s
  if has slots (own s) then
    match a.item with
    | .found => foundView a.frame (completeItem .found s1)
    | .probe => if without slots (only (own s)) ≠ 0 then probeAnswered s1 else probeUnanswered s1
    | .drop | .roster | .leave | .stallJoin | .transfer | .claim _ | .request _ => s1
  else incompleteAttempt a.item 0 s1

/-- The end of an own window in MEMBER or JOINING: the frame is applied, or the attempt is incomplete (R71, R74, R83). -/
def endOwnWindow (j : Judged) (a : Attempt) (slots : Mask) (s : State) : State :=
  let s1 := endAttempt a s
  if isComplete j slots s then applyFrame j.frame (some a.item) (completeItem a.item s1)
  else incompleteAttempt a.item (missingSet j slots s) s1

/-- The end of another station's window in MEMBER or JOINING (R71, R77). The slots are taken as they come: that a set without the
own slot, at a station that asserted it, is no window fault here is the model's choice (DESIGN CHOICE, log entry 12). -/
def endOtherWindow (j : Judged) (slots : Mask) (s : State) : State :=
  if isComplete j slots s then applyFrame j.frame none s
  else if j.outOfStep then withdraw s else s

/-- The ROSTER fields that an ADMITTING station may be admitted by: it is named among the joiners, and remaining is 1 to
16 (R73, R119). -/
def admits (j : Judged) (slots : Mask) (s : State) : Option View :=
  match j.frame.body with
  | .roster full joiners cursor remaining =>
    if j.intact && has joiners (own s) && decide (1 ≤ remaining.toNat) && decide (remaining.toNat ≤ 16)
        && within (full ||| joiners) slots then
      some ⟨full, joiners, j.frame.epoch, false, cursor, remaining.toNat⟩
    else none
  | .found _ | .join | .drop _ | .leave | .cell .. | .transfer .. => none

/-- The ROSTER that admits this station, applied (R7, R122). -/
def admitStation (v : View) (s : State) : State :=
  let s1 := clearTable s
  enter .joining (s1.setVu { quiet s1.vu with
    view := v, standing := .pending, retainedEpoch := 0, stallTimer := some Config.stallWait })

/-- An ADMIT_WAIT expiry that waited for the window to end, taken now unless the ROSTER has admitted the station (R118). -/
def takeExpiry (s : State) : State :=
  if s.vu.station = .admitting ∧ s.vu.admitExpired then enterListening s else s

/-- The end of a window at an ADMITTING station (R73, R118, R119). -/
def endAdmitting (j : Judged) (slots : Mask) (s : State) : State :=
  match admits j slots s with
  | some v => admitStation v s
  | none => takeExpiry s

/-- LU and VU once a window has ended: the line rests, the idle count starts from 0, the driver is released, and no frame
is under judgement (R43, R54, R63). -/
def closeWindow (s : State) : State :=
  (s.setVu { s.vu with judged := none }).setLu
    { s.lu with mode := .resting, driver := .released, asserted := false, idleCount := 0, assertedCount := 0 }

/-- What VU does with the frame under judgement at the end of its window, by the state that governs it (R63). -/
def disposeFrame (j : Judged) (slots : Mask) (s : State) : State :=
  match j.station, j.own, s.su.attempt with
  | .halted, _, _ => s
  | .listening, true, some a => endOwnListening a slots s
  | .listening, _, _ => s
  | .admitting, _, _ => endAdmitting j slots s
  | .joining, true, some a => endOwnWindow j a slots s
  | .member, true, some a => endOwnWindow j a slots s
  | .joining, _, _ => endOtherWindow j slots s
  | .member, _, _ => endOtherWindow j slots s

/-- The end of slot 31, with the set of slots read asserted: the frame under judgement is judged and disposed of; without
one, the window is that of a frame that LU only tracked (R54, R61, R63, R71). Where no window runs at this station there is
nothing to end. -/
def windowEnd (slots : Mask) (s : State) : State :=
  match s.lu.mode, s.vu.judged with
  | .window, some j => refresh (disposeFrame j slots (closeWindow s))
  | .window, none => refresh (closeWindow s)
  | .tracking, _ => refresh (closeWindow s)
  | _, _ => s

/-! ## Which window a command ends (log entry 2) -/

/-- The window of a cell frame of operation `op`. -/
def cellWindow (op : CellOp) (j : Judged) : Bool :=
  match j.frame.body with
  | .cell o .. => o == op
  | .found _ | .join | .roster .. | .drop _ | .leave | .transfer .. => false

/-- The window of this station's own JOIN from LISTENING (R105). -/
def probeWindow (j : Judged) : Bool := isJoin j.frame.body && j.own && j.station == .listening

/-- The window of a FOUND. -/
def foundWindow (j : Judged) : Bool := isFound j.frame.body

/-- The window of a JOIN that is not this station's own probe. -/
def joinWindow (j : Judged) : Bool := isJoin j.frame.body && !probeWindow j

/-- Whether a body is a ROSTER. -/
def isRoster : Body → Bool
  | .roster .. => true
  | .found _ | .join | .drop _ | .leave | .cell .. | .transfer .. => false

/-- The window of a ROSTER at a station that is not ADMITTING. -/
def rosterWindow (j : Judged) : Bool := isRoster j.frame.body && j.station != .admitting

/-- The window of a ROSTER at an ADMITTING station. -/
def admissionWindow (j : Judged) : Bool := isRoster j.frame.body && j.station == .admitting

/-- The window of a TRANSFER. -/
def transferWindow (j : Judged) : Bool :=
  match j.frame.body with
  | .transfer .. => true
  | .found _ | .join | .roster .. | .drop _ | .leave | .cell .. => false

/-- The window of a DROP. -/
def dropWindow (j : Judged) : Bool :=
  match j.frame.body with
  | .drop _ => true
  | .found _ | .join | .roster .. | .leave | .cell .. | .transfer .. => false

/-- The window of a LEAVE. -/
def leaveWindow (j : Judged) : Bool :=
  match j.frame.body with
  | .leave => true
  | .found _ | .join | .roster .. | .drop _ | .cell .. | .transfer .. => false

/-- The window of any frame. -/
def anyWindow (_ : Judged) : Bool := true

/-- The end of the window of a frame of one kind. Where the frame under judgement is of another kind, the window that ended
is not this station's to end, and nothing happens here. -/
def windowEndOf (kind : Judged → Bool) (slots : Mask) (s : State) : State :=
  match s.vu.judged with
  | some j => if kind j then windowEnd slots s else s
  | none => windowEnd slots s

/-! ## Window faults -/

/-- Whether this station's slot had been asserted when a fault fell at a slot: it accepted, and its slot is over, or it is a
receiver that had reached its own slot's data phase, which read back released (R57) or found the line stuck (log entry 23). An
originator that had only reached its own slot's data phase is taken not to have asserted it: there a released level is log
entry 8, and a stuck line log entry 23 (DESIGN CHOICE). -/
def assertedBy (j : Judged) (slot : Station) (inData : Bool) (s : State) : Bool :=
  j.accept && (decide (own s < slot) || (own s == slot && inData && !j.own))

/-- A window fault in this station's own frame: a self fault, and out of step when its slot had been asserted; the
attempt is then neither counted nor weighed (R75, R76, R96). -/
def faultOwn (j : Judged) (asserted : Bool) (s : State) : State :=
  match s.su.attempt with
  | none => s
  | some a =>
    if inView j.station && asserted then withdraw (endAttempt a s) else incompleteAttempt a.item 0 (endAttempt a s)

/-- A window fault in another station's frame in MEMBER or JOINING (R75); one already out of step withdraws as at the end
of the window (R77; log entry 10). -/
def faultOther (j : Judged) (asserted : Bool) (s : State) : State :=
  if asserted || j.outOfStep || (j.accept && !has (requiredSet j.frame s.vu.view) (own s)) then withdraw s else s

/-- What a window fault does with the frame under judgement (R75, R76). -/
def disposeFault (j : Judged) (asserted : Bool) (s : State) : State :=
  if j.own then faultOwn j asserted s
  else
    match j.station with
    | .halted | .listening => s
    | .admitting => if asserted ∧ s.vu.station = .admitting then enterListening s else takeExpiry s
    | .joining | .member => faultOther j asserted s

/-- A coding fault inside the window: LU stops reading and waits for idle, and VU takes the frame as incomplete (R57,
R75, R76). The level read was released, so the count of asserted bit times is 0 (R45, R57, R58). -/
def windowFault (slot : Station) (inData : Bool) (s : State) : State :=
  let s1 := (s.setVu { s.vu with judged := none }).setLu (giveUpLine 0 s.lu)
  match s.lu.mode, s.vu.judged with
  | .window, some j => refresh (disposeFault j (assertedBy j slot inData s) s1)
  | .window, none => refresh s1
  | .tracking, _ => refresh s1
  | _, _ => s

end Sys2Proof.Machine
end

