-- ==== Sys2Proof/Machine/Line.lean ====
section
/-! DEFINITION. The Line Unit's events outside the window: idle and DEFERRED, start bits, lost arbitration, read-back faults and
lost frames, the stuck line, and the timers' expiries (R47, R48, R51, R55 to R60, R105, R118, R127). -/

namespace Sys2Proof.Machine

/-- An event of the line or of a timer: while the part is held it receives and counts nothing (R167). -/
def onLine (f : State → State) (s : State) : State := if held s then s else f s

/-- The end of a frame's check part, after which SU works out its offer again (R54, R81). In a frame that a HALT has cut off
LU goes on counting the asserted bit times and hands nothing on, and the check register stays as the HALT found it (R58, R61,
R169; DESIGN CHOICE, log entry 15). -/
def frameCheck (bits : List Bool) (s : State) : State :=
  match s.lu.mode with
  | .receiving | .sending => refresh (checkEnd bits s)
  | .tracking => s.setLu { s.lu with assertedCount := assertedRun bits }
  | .waitIdle | .resting | .window => s

/-- Whether the line may be resting as this station knows it: between frames, and not stuck. -/
def betweenFrames (s : State) : Bool :=
  (s.lu.mode == .waitIdle || s.lu.mode == .resting) && !s.lu.stuck

/-- The idle count reaching `n`: the line is released, and from IDLE_MIN on it is idle and LU decodes again (R47, R56). -/
def idleReaches (n : Nat) (l : Lu) : Lu :=
  { l with
    idleCount := n
    asserted := false
    assertedCount := 0
    mode := if Config.idleMin ≤ n then .resting else l.mode }

/-- LU can begin a start bit: the line rests and is idle (R47, R48). -/
def canBegin (s : State) : Bool :=
  s.lu.mode == .resting && decide (Config.idleMin ≤ s.lu.idleCount)

/-- LU begins the item on offer, when it can and the item is not of class 1 while DEFERRED is set (R48, R60). -/
def startOffered (s : State) : State :=
  match s.su.offer with
  | some i => if canBegin s ∧ ¬(itemClassOne i ∧ s.lu.deferred) then beginItem i s else s
  | none => s

/-- The boundary at which the idle count reaches IDLE_MIN (R47). -/
def lineIdle (s : State) : State :=
  if betweenFrames s ∧ s.lu.idleCount < Config.idleMin then s.setLu (idleReaches Config.idleMin s.lu) else s

/-- DEFERRED cleared at the boundary at which the idle count reaches BARRIER_IDLE, and any class-1 item then on offer
begun at that boundary (R59, R60). -/
def deferredClear (s : State) : State :=
  if betweenFrames s then
    let s1 := refresh (s.setLu { idleReaches Config.barrierIdle s.lu with deferred := false })
    match s1.su.offer with
    | some i => if itemClassOne i then startOffered s1 else s1
    | none => s1
  else s

/-- The line becoming asserted by another station before this one begins: both counts are 0; a resting LU receives the
frame, and one that waits for idle does not decode it (R47, R48, R58). A stuck line is asserted already (log entry 12). -/
def otherStarts (s : State) : State :=
  match s.lu.mode with
  | .resting =>
    s.setLu { s.lu with
      mode := .receiving, idleCount := 0, asserted := true, assertedCount := 0, checkReg := Config.checkStart
      bitPos := 0 }
  | .waitIdle =>
    if s.lu.stuck then s else s.setLu { s.lu with idleCount := 0, asserted := true, assertedCount := 0 }
  | .receiving | .tracking | .sending | .window => s

/-- Arbitration lost: LU stops driving and receives the winner's frame, and the item waits again (R51). -/
def loseArbitration (s : State) : State :=
  match s.lu.mode with
  | .sending =>
    let s1 := lostArbitration s
    refresh (s1.setLu { s1.lu with mode := .receiving, driver := .released })
  | .waitIdle | .resting | .receiving | .tracking | .window => s

/-- The count of asserted bit times after a level read back: a released level ends the run, and an asserted one leaves it
to the clock (R58; log entry 3). -/
def runAfter (level : LineLevel) (l : Lu) : Nat :=
  match level with
  | .released => 0
  | .asserted => l.assertedCount

/-- A read-back fault: before the window a self fault, and in the window, where only a released level differs from the one
driven, what a window fault is (R55, R57). -/
def readBackFault (slot : Station) (inData : Bool) (level : LineLevel) (s : State) : State :=
  match s.lu.mode with
  | .sending => refresh (selfFault (s.setLu (giveUpLine (runAfter level s.lu) s.lu)))
  | .window => windowFault slot inData s
  | .waitIdle | .resting | .receiving | .tracking => s

/-- The count of asserted bit times where a frame is lost: a missing sync assertion is a released line, and the bits up to an
unassigned kind code end in the run that they show (R45, R54, R58). -/
def lossRun : LossCause → Nat
  | .codingFault => 0
  | .unassignedKind bits => assertedRun bits

/-- LU at a frame that it loses while it decodes it: the check register has been fed with the bits that the command brings
(R54, R56, R169; log entry 22). -/
def loseLine (cause : LossCause) (l : Lu) : Lu :=
  match cause with
  | .codingFault => giveUpLine 0 l
  | .unassignedKind bits => unknownKind bits l

/-- A frame lost before its window at a receiver, or at a station that tracks it, whose check register stands (R54, R56; log
entry 15). -/
def frameLost (cause : LossCause) (s : State) : State :=
  match s.lu.mode with
  | .receiving => s.setLu (loseLine cause s.lu)
  | .tracking => s.setLu (giveUpLine (lossRun cause) s.lu)
  | .waitIdle | .resting | .sending | .window => s

/-- LU's part of a stuck line: the indication set, and nothing decoded or sent until the line is idle (R58). -/
def stuckLine (l : Lu) : Lu :=
  { giveUpLine Config.stuckCount l with stuck := true }

/-- A frame in progress abandoned on a stuck line: a self fault for one being sent, lost for one being decoded, and a
window fault at the slot reached in the window (R58). -/
def abandonFrame (slot : Station) (inData : Bool) (s : State) : State :=
  match s.lu.mode with
  | .sending => readBackFault slot inData .asserted s
  | .window => windowFault slot inData s
  | .receiving | .tracking => frameLost .codingFault s
  | .waitIdle | .resting => s

/-- The count of asserted bit times reaches 256 (R58); a line already stuck raises nothing again. -/
def lineSticks (slot : Station) (inData : Bool) (s : State) : State :=
  if s.lu.stuck then s
  else
    let s1 := abandonFrame slot inData s
    raiseLine (s1.setLu (stuckLine s1.lu))

/-- The stuck line released: LINE-STUCK ends, and the idle count runs from 0 (R58). -/
def stuckEnds (s : State) : State :=
  if s.lu.stuck then
    s.setLu { s.lu with stuck := false, asserted := false, idleCount := 0, assertedCount := 0 }
  else s

/-- The probe timer expires: the next JOIN, or a FOUND after the third unanswered one where FP permits, is due (R105). -/
def probeExpires (s : State) : State :=
  if s.vu.station = .listening ∧ s.vu.probeTimer.isSome then
    let found := s.vu.unanswered = Config.probeLimit ∧ s.hp.straps.fp
    refresh (s.setVu { s.vu with probeTimer := none, probeDue := if found then .found else .join })
  else s

/-- ADMIT_WAIT expires: LISTENING with a JOIN due, or, between a frame's check part and the end of its window, at that
window end (R118). -/
def admitExpires (s : State) : State :=
  if s.vu.station = .admitting ∧ s.vu.admitTimer.isSome then
    if s.lu.mode = .window ∧ s.vu.judged.isSome then
      s.setVu { s.vu with admitTimer := none, admitExpired := true }
    else refresh (enterListening s)
  else s

/-- STALL_WAIT expires: a stall JOIN is owed and the timer stands stopped (R127). -/
def stallExpires (s : State) : State :=
  if s.vu.station = .joining ∧ s.vu.stallTimer.isSome then
    refresh (s.setVu { s.vu with stallTimer := none, stallOwed := true })
  else s

end Sys2Proof.Machine
end

