-- ==== Sys2Proof/Machine/CellCommands.lean ====
section
/-! DEFINITION. The meanings of the commands of the ends of the windows of cell frames, one for each row of the table. -/

namespace Sys2Proof.Machine

/-- STORE (R27). -/
def execStore (slots : Mask) (s : State) : Host.Outcome State Fault Refusal :=
  .next (onLine (windowEndOf (cellWindow .store) slots) s)

/-- ADD (R28). -/
def execAdd (slots : Mask) (s : State) : Host.Outcome State Fault Refusal :=
  .next (onLine (windowEndOf (cellWindow .add) slots) s)

/-- AND (R29). -/
def execAnd (slots : Mask) (s : State) : Host.Outcome State Fault Refusal :=
  .next (onLine (windowEndOf (cellWindow .and) slots) s)

/-- OR (R29). -/
def execOr (slots : Mask) (s : State) : Host.Outcome State Fault Refusal :=
  .next (onLine (windowEndOf (cellWindow .or) slots) s)

/-- XOR (R29). -/
def execXor (slots : Mask) (s : State) : Host.Outcome State Fault Refusal :=
  .next (onLine (windowEndOf (cellWindow .xor) slots) s)

/-- BITSET (R30). -/
def execBitset (slots : Mask) (s : State) : Host.Outcome State Fault Refusal :=
  .next (onLine (windowEndOf (cellWindow .bitset) slots) s)

/-- BITCLR (R30). -/
def execBitclr (slots : Mask) (s : State) : Host.Outcome State Fault Refusal :=
  .next (onLine (windowEndOf (cellWindow .bitclr) slots) s)

/-- BITFLIP (R30). -/
def execBitflip (slots : Mask) (s : State) : Host.Outcome State Fault Refusal :=
  .next (onLine (windowEndOf (cellWindow .bitflip) slots) s)

/-- CAS (R31). -/
def execCas (slots : Mask) (s : State) : Host.Outcome State Fault Refusal :=
  .next (onLine (windowEndOf (cellWindow .cas) slots) s)

/-- STEP (R32). -/
def execStep (slots : Mask) (s : State) : Host.Outcome State Fault Refusal :=
  .next (onLine (windowEndOf (cellWindow .step) slots) s)

/-- CLAIM (R34). -/
def execClaim (slots : Mask) (s : State) : Host.Outcome State Fault Refusal :=
  .next (onLine (windowEndOf (cellWindow .claim) slots) s)

/-- RELEASE (R36). -/
def execRelease (slots : Mask) (s : State) : Host.Outcome State Fault Refusal :=
  .next (onLine (windowEndOf (cellWindow .release) slots) s)

/-- RELSTORE (R37). -/
def execRelstore (slots : Mask) (s : State) : Host.Outcome State Fault Refusal :=
  .next (onLine (windowEndOf (cellWindow .relstore) slots) s)

end Sys2Proof.Machine
end

