-- ==== Sys2Proof/Machine/Operands.lean ====
section
/-! DEFINITION. The operand forms at the host port: the byte sequences that a command's bytes make, and the bytes that records,
notices, snapshots, STATUS, VIEW and CONTROL are read as (R160, R161, R170, R171). -/

namespace Sys2Proof.Machine

/-! ## Codes at the port (R170) -/

/-- A station number, or 63 for none. -/
def holderByte : Option Station → Byte
  | some n => n.zeroExtend 8
  | none => BitVec.ofNat 8 Config.noneCode

/-- The flags in bits 3 to 0. -/
def flagsByte (f : Flags) : Byte :=
  BitVec.ofBool f.c ++ BitVec.ofBool f.z ++ BitVec.ofBool f.s ++ BitVec.ofBool f.v |>.zeroExtend 8

/-- One bit of a byte. -/
def bitByte (b : Bool) (i : Nat) : Byte := if b then 1#8 <<< i else 0

/-- The high byte of a 16-bit number. -/
def highByte (x : Half) : Byte := x.extractLsb' 8 8

/-- The low byte of a 16-bit number. -/
def lowByte (x : Half) : Byte := x.extractLsb' 0 8

/-- Admission results. -/
def admissionCode : Admission → Byte
  | .none => 0 | .accepted => 1 | .full => 2 | .badOperand => 3 | .duplicateTag => 4 | .halted => 5

/-- Outcomes. -/
def endingCode : Ending → Byte
  | .done => 1 | .unequal => 2 | .held => 3 | .notHeld => 4 | .cancelled => 5 | .failed => 6 | .withdrawn => 7

/-- Watch results. -/
def watchResultCode : WatchResult → Byte
  | .none => 0 | .taken => 1 | .busyWatch => 2 | .badWatch => 3 | .freed => 4 | .notInUse => 5 | .noticeRemoved => 6

/-- Notice reasons. -/
def reasonCode : Reason → Byte
  | .met => 1 | .lost => 2

/-- Standings. -/
def standingCode : Standing → Byte
  | .none => 1 | .retained => 2 | .pending => 3 | .live => 4

/-- Station states. -/
def stationCode : StationState → Byte
  | .halted => 0 | .listening => 1 | .admitting => 2 | .joining => 3 | .member => 4

/-- Attention causes. -/
def causeCode : Cause → Byte
  | .none => 0 | .state => 1 | .line => 2 | .notice => 3 | .done => 4

/-- Control results. -/
def controlCode : ControlResult → Byte
  | .none => 0 | .taken => 1 | .notHalted => 2 | .notMember => 3 | .cancelledNow => 4 | .cancelPending => 5
  | .noSuchTag => 6 | .badCommand => 7

/-- The operation byte of a request as it was entered: the code, and WAIT in bit 7. -/
def operationByte (op : CellOp) (wait : Bool) : Byte := BitVec.ofNat 8 (opCode op) ||| bitByte wait 7

/-! ## Read sequences (R171) -/

/-- The 11 bytes of a completion record. -/
def completionBytes (c : Completion) : List PortByte :=
  [whole (endingCode c.ending), whole c.tag, whole (operationByte c.op c.wait), whole (c.cell.zeroExtend 8),
   whole (highByte c.value), whole (lowByte c.value), whole (holderByte c.holder), whole c.version,
   ⟨flagsByte c.flags ||| bitByte c.late 7, 0x8F⟩, whole (BitVec.ofNat 8 c.attempts), whole c.epoch]

/-- The 7 bytes of a notice. -/
def noticeBytes (n : Notice) : List PortByte :=
  [whole (reasonCode n.reason), whole (BitVec.ofNat 8 n.watch.val), whole n.tag, whole (highByte n.value),
   whole (lowByte n.value), whole (holderByte n.holder), whole n.version]

/-- The 7 bytes of a cell snapshot. -/
def snapshotBytes (x : Snapshot) : List PortByte :=
  [⟨standingCode x.standing ||| bitByte x.known 7, 0x87⟩, whole (highByte x.record.value), whole (lowByte x.record.value),
   whole (holderByte x.record.holder), whole x.record.version, ⟨flagsByte x.record.flags, 0x0F⟩,
   whole (holderByte x.record.writer)]

/-- The seventh byte of STATUS: the unanswered count and six indications. -/
def statusBits (x : Status) : Byte :=
  (BitVec.ofNat 2 x.unanswered).zeroExtend 8 ||| bitByte x.leavePending 2 ||| bitByte x.leaveHeld 3
    ||| bitByte x.deferred 4 ||| bitByte x.stuck 5 ||| bitByte x.statePending 6 ||| bitByte x.linePending 7

/-- The eighth byte of STATUS: the FOREIGN flag and its station number, 0 when the flag is clear. -/
def foreignByte : Option Station → Byte
  | some n => 0x80 ||| n.zeroExtend 8
  | none => 0

/-- The 12 bytes of STATUS. -/
def statusBytes (x : Status) : List PortByte :=
  [whole (stationCode x.station), whole (standingCode x.standing), whole x.retainedEpoch, whole x.epoch,
   whole (x.straps.sn.zeroExtend 8), ⟨x.straps.br.zeroExtend 8 ||| bitByte x.straps.fp 7, 0x83⟩,
   whole (statusBits x), ⟨foreignByte x.foreign, 0x9F⟩, whole (BitVec.ofNat 8 x.queued),
   whole (BitVec.ofNat 8 x.parked), whole (BitVec.ofNat 8 x.completions), whole (BitVec.ofNat 8 x.notices)]

/-- The four bytes of a mask, high byte first. -/
def maskBytes (m : Mask) : List PortByte :=
  [whole (m.extractLsb' 24 8), whole (m.extractLsb' 16 8), whole (m.extractLsb' 8 8), whole (m.extractLsb' 0 8)]

/-- The 8 bytes of VIEW: the full-member mask, then the joiner mask. -/
def viewBytes (x : Mask × Mask) : List PortByte := maskBytes x.1 ++ maskBytes x.2

/-- The CONTROL byte: the cause in bits 7 to 5, bit 4 0, the result in bits 3 to 0 (R166). -/
def controlByte (s : State) : Byte :=
  (causeCode (attentionCause s) <<< 5) ||| controlCode s.hp.controlResult

/-- Byte `i` of a read sequence. -/
def byteAt (bytes : List PortByte) (i : Nat) : PortByte := bytes.getD i emptyByte

/-! ## Write sequences (R161, R171) -/

/-- The seven bytes of an ARM command. -/
def armBytes (watch cell test : Byte) (operand : Half) (tag : Byte) : List Byte :=
  [0x01, watch, cell, test, highByte operand, lowByte operand, tag]

/-- The two bytes of a DISARM command. -/
def disarmBytes (watch : Byte) : List Byte := [0x02, watch]

/-- The two bytes of a CANCEL command. -/
def cancelBytes (tag : Byte) : List Byte := [0x04, tag]

/-- The two bytes of a MASK command. -/
def maskCommandBytes (enables : Byte) : List Byte := [0x05, enables]

/-- The bytes of a command that the host has still to write at a port that holds `kept`: those after the kept ones when
they are the command's own first bytes, and otherwise all of them (log entry 2). -/
def bytesToWrite (kept command : List Byte) : List Byte :=
  if kept.isPrefixOf command then command.drop kept.length else command

end Sys2Proof.Machine
end

