-- ==== Sys2Proof/Machine/HostPort.lean ====
section
/-! DEFINITION. The host port: reads and writes of the eight ports and the restarts of their sequences (R19, R134, R145, R154,
R159 to R167). -/

namespace Sys2Proof.Machine

/-! ## The eight ports -/

/-- The ports (R159). -/
inductive Port where
  | request | completion | cell | watch | notice | status | view | control
  deriving DecidableEq, Repr

/-- The port that the address inputs A2 to A0 select (R159). -/
def portAt (address : BitVec 3) : Port :=
  match address.toNat with
  | 0 => .request | 1 => .completion | 2 => .cell | 3 => .watch | 4 => .notice | 5 => .status | 6 => .view
  | _ => .control

/-- The command that a read of a port is (R159). -/
def readOf : Port → Instr
  | .request => .requestRead
  | .completion => .completionRead
  | .cell => .cellRead
  | .watch => .watchRead
  | .notice => .noticeRead
  | .status => .statusRead
  | .view => .viewRead
  | .control => .controlRead

/-- The command that a byte written to WATCH is, after the bytes of its sequence that HP keeps (R161). -/
def watchWriteOf (kept : List Byte) (b : Byte) : Instr :=
  match kept with
  | [] => if b = 0x01 ∨ b = 0x02 then .partialSequenceWrite .watch b else .watchBadFirstByte b
  | first :: rest =>
    if first = 0x02 then .disarm b
    else
      match rest with
      | [watch, cell, test, high, low] =>
        if first = 0x01 then .arm watch cell test (high ++ low) b else .partialSequenceWrite .watch b
      | _ => .partialSequenceWrite .watch b

/-- The command that a byte written to CONTROL is, after the byte of its sequence that HP keeps (R161, R165). -/
def controlWriteOf (kept : List Byte) (b : Byte) : Instr :=
  match kept with
  | [] =>
    if b = 0x01 then .start
    else if b = 0x02 then .halt
    else if b = 0x03 then .leaveCommand
    else if b = 0x04 ∨ b = 0x05 then .partialSequenceWrite .control b
    else .controlBadFirstByte b
  | first :: _ => if first = 0x04 then .cancel b else .mask b

/-- The command that a byte written to a port is, at a station that keeps partial sequences (R159, R160, R161). -/
def writeOf (port : Port) (b : Byte) (s : State) : Instr :=
  match port with
  | .request => .requestWrite b
  | .completion => .sequenceRestart .completion b
  | .cell => .cellIndexWrite b
  | .watch => watchWriteOf s.hp.watchBytes b
  | .notice => .sequenceRestart .notice b
  | .status => .sequenceRestart .status b
  | .view => .sequenceRestart .view b
  | .control => controlWriteOf s.hp.controlBytes b

/-- The command that one access of the host is: an assertion of the write strobe with a byte on the data pins, or of the
read strobe, at the port that the address inputs select (R159). -/
def accessOf (address : BitVec 3) (written : Option Byte) (s : State) : Instr :=
  match written with
  | some b => writeOf (portAt address) b s
  | none => readOf (portAt address)

/-! ## Accesses while the part is held -/

/-- A host read: while the part is held it returns the empty indication and does nothing else (R167, R170); without
supply nothing is said of the byte, which is free (log entry 5). -/
def hostRead (f : State → State) (s : State) : State :=
  if s.power = .off then answer ⟨0, 0⟩ s
  else if held s then answer emptyByte s
  else f s

/-- A host write: while the part is held it is disregarded (R167). -/
def hostWrite (f : State → State) (s : State) : State := if held s then s else f s

/-! ## REQUEST -/

/-- A byte written to REQUEST; the seventh submits the entry (R134). -/
def requestByte (b : Byte) (s : State) : State :=
  let bytes := s.qu.entry ++ [b]
  if bytes.length < 7 then s.setQu { s.qu with entry := bytes }
  else
    let s1 := submit (entryOf bytes) s
    if s1.qu.result = .accepted then refresh s1 else s1

/-- A read of REQUEST: the last admission result; a partial entry is discarded (R134). -/
def readRequest (s : State) : State :=
  answer (whole (admissionCode s.qu.result)) (s.setQu { s.qu with entry := [] })

/-! ## COMPLETION and NOTICE -/

/-- A read of COMPLETION: the next byte of the head record, which its last byte removes (R145). -/
def readCompletion (s : State) : State :=
  match s.qu.completions with
  | [] => answer emptyByte s
  | c :: rest =>
    answer (byteAt (completionBytes c) s.qu.pos.val)
      (s.setQu { s.qu with
        completions := if s.qu.pos = 10 then rest else c :: rest
        pos := s.qu.pos + 1 })

/-- The head notice removed and its watch made FREE, in one act (R154). -/
def takeNotice (n : Notice) (rest : List Notice) (s : State) : State :=
  freeWatch n.watch (s.setWu { s.wu with events := rest })

/-- A read of NOTICE: the next byte of the head notice, which its last byte removes (R154). -/
def readNotice (s : State) : State :=
  match s.wu.events with
  | [] => answer emptyByte s
  | n :: rest =>
    let s1 := if s.wu.pos = 6 then takeNotice n rest s else s
    answer (byteAt (noticeBytes n) s.wu.pos.val) (s1.setWu { s1.wu with pos := s.wu.pos + 1 })

/-! ## CELL -/

/-- The snapshot of a cell: the standing, and the record where the copy shows one (R19). -/
def snapshotOf (s : State) (c : CellNo) : Snapshot :=
  let known := s.vu.standing == .pending && chunkKnown s (chunkOf c)
  let shown := s.vu.standing == .live || s.vu.standing == .retained || known
  ⟨s.vu.standing, known, if shown then cellAt s c else .powerOn⟩

/-- An index written to CELL: its low seven bits name the cell (R19). -/
def latchCell (index : Byte) (s : State) : State :=
  s.setHp { s.hp with cellLatch := some (snapshotOf s (index.truncate 7)), cellPos := 0 }

/-- A read of CELL: the next byte of the snapshot, back to the first after the seventh (R160). -/
def readCell (s : State) : State :=
  match s.hp.cellLatch with
  | none => answer emptyByte s
  | some x => answer (byteAt (snapshotBytes x) s.hp.cellPos.val) (s.setHp { s.hp with cellPos := s.hp.cellPos + 1 })

/-! ## STATUS and VIEW -/

/-- The whole status at one moment (R163). -/
def statusOf (s : State) : Status where
  station := s.vu.station
  standing := s.vu.standing
  retainedEpoch := s.vu.retainedEpoch
  epoch := s.vu.view.epoch
  straps := s.hp.straps
  unanswered := s.vu.unanswered
  leavePending := s.vu.leavePending
  leaveHeld := s.vu.leavePending && leaveHeldBack s
  deferred := s.lu.deferred
  stuck := s.lu.stuck
  statePending := s.wu.statePending
  linePending := s.wu.linePending
  foreign := s.vu.foreign
  queued := s.qu.queue.length
  parked := s.qu.park.length
  completions := s.qu.completions.length
  notices := s.wu.events.length

/-- What the read of the first byte of STATUS clears: STATE, LINE and FOREIGN (R67, R156, R163). -/
def clearSticky (s : State) : State :=
  (s.setWu { s.wu with statePending := false, linePending := false }).setVu { s.vu with foreign := none }

/-- The status that a read of STATUS shows: latched afresh at the first byte (R163). -/
def shownStatus (s : State) : Status :=
  if s.hp.statusPos = 0 then statusOf s else s.hp.statusLatch.getD (statusOf s)

/-- A read of STATUS (R163). -/
def readStatus (s : State) : State :=
  let x := shownStatus s
  let s1 := if s.hp.statusPos = 0 then clearSticky s else s
  answer (byteAt (statusBytes x) s.hp.statusPos.val)
    (s1.setHp { s1.hp with statusLatch := some x, statusPos := s.hp.statusPos + 1 })

/-- The masks that a read of VIEW shows: latched afresh at the first byte (R164). -/
def shownView (s : State) : Mask × Mask :=
  let now := (s.vu.view.full, s.vu.view.joiners)
  if s.hp.viewPos = 0 then now else s.hp.viewLatch.getD now

/-- A read of VIEW (R164). -/
def readView (s : State) : State :=
  let x := shownView s
  answer (byteAt (viewBytes x) s.hp.viewPos.val)
    (s.setHp { s.hp with viewLatch := some x, viewPos := s.hp.viewPos + 1 })

/-- A write to COMPLETION, NOTICE, STATUS or VIEW: the position back at the first byte, the data byte disregarded (R160). -/
def restartSequence (port : RestartPort) (_data : Byte) (s : State) : State :=
  match port with
  | .completion => s.setQu { s.qu with pos := 0 }
  | .notice => s.setWu { s.wu with pos := 0 }
  | .status => s.setHp { s.hp with statusPos := 0 }
  | .view => s.setHp { s.hp with viewPos := 0 }

/-! ## WATCH -/

/-- The bytes that HP keeps of a partial WATCH sequence. -/
def keepWatchBytes (bytes : List Byte) (s : State) : State := s.setHp { s.hp with watchBytes := bytes }

/-- A byte written to WATCH: a first byte other than ARM and DISARM ends its sequence; the 2nd byte of a DISARM and the
7th of an ARM take the command; any other is kept (R161). -/
def watchByte (b : Byte) (s : State) : State :=
  let bytes := s.hp.watchBytes ++ [b]
  let s1 := keepWatchBytes [] s
  if bytes.length = 1 then
    if b = 0x01 ∨ b = 0x02 then keepWatchBytes bytes s else watchResult .badWatch s1
  else if bytes.getD 0 0 = 0x02 then judgeDisarm b s1
  else if bytes.length < 7 then keepWatchBytes bytes s
  else judgeArm (bytes.getD 1 0) (bytes.getD 2 0) (bytes.getD 3 0) (bytes.getD 4 0 ++ bytes.getD 5 0) b s1

/-- A read of WATCH: the last result; a partial command is discarded (R161). -/
def readWatch (s : State) : State := answer (whole (watchResultCode s.wu.result)) (keepWatchBytes [] s)

/-! ## CONTROL -/

/-- The bytes that HP keeps of a partial CONTROL sequence. -/
def keepControlBytes (bytes : List Byte) (s : State) : State := s.setHp { s.hp with controlBytes := bytes }

/-- The last control result (R165). -/
def controlResult (x : ControlResult) (s : State) : State := s.setHp { s.hp with controlResult := x }

/-- START (R103, R165). -/
def takeStart (s : State) : State :=
  if s.vu.station = .halted then controlResult .taken (refresh (beginListening s)) else controlResult .notHalted s

/-- HALT (R115, R165). -/
def takeHalt (s : State) : State := controlResult .taken (haltStation s)

/-- LEAVE (R111, R165). -/
def takeLeave (s : State) : State :=
  if s.vu.station = .member then controlResult .taken (refresh (s.setVu { s.vu with leavePending := true }))
  else controlResult .notMember s

/-- CANCEL (R141, R165). -/
def takeCancel (tag : Byte) (s : State) : State :=
  let r := judgeCancel tag s
  controlResult r.1 (if r.1 = .cancelledNow then refresh r.2 else r.2)

/-- MASK (R157, R165). -/
def takeMask (m : Byte) (s : State) : State :=
  controlResult .taken (s.setWu { s.wu with enables := enablesOf m })

/-- A first byte at CONTROL: a command of one byte, the first of two, or none of the five (R161, R170). -/
def controlFirst (b : Byte) (s : State) : State :=
  if b = 0x01 then takeStart s
  else if b = 0x02 then takeHalt s
  else if b = 0x03 then takeLeave s
  else if b = 0x04 ∨ b = 0x05 then keepControlBytes [b] s
  else controlResult .badCommand s

/-- A byte written to CONTROL: a first byte, or the last byte of the CANCEL or MASK whose first byte is kept (R161, R165). -/
def controlWrite (b : Byte) (s : State) : State :=
  match s.hp.controlBytes with
  | [] => controlFirst b s
  | x :: _ => if x = 0x04 then takeCancel b (keepControlBytes [] s) else takeMask b (keepControlBytes [] s)

/-- A read of CONTROL: the cause and the last result; a partial command is discarded (R161, R166). -/
def readControl (s : State) : State := answer (whole (controlByte s)) (keepControlBytes [] s)

/-! ## Whole commands -/

/-- A byte of a command sequence written by itself (R161). -/
def partialByte (port : PartialPort) (b : Byte) (s : State) : State :=
  match port with
  | .watch => watchByte b s
  | .control => controlWrite b s

/-- A WATCH command written: its bytes that are still to come, in order. -/
def watchCommand (command : List Byte) (s : State) : State :=
  (bytesToWrite s.hp.watchBytes command).foldl (fun t b => watchByte b t) s

/-- A CONTROL command written: its bytes that are still to come, in order. -/
def controlCommand (command : List Byte) (s : State) : State :=
  (bytesToWrite s.hp.controlBytes command).foldl (fun t b => controlWrite b t) s

end Sys2Proof.Machine
end

