-- ==== Sys2Proof/Machine/HostCommands.lean ====
section
/-! DEFINITION. The meanings of the commands of the accesses of the host port, one for each row of the table. -/

namespace Sys2Proof.Machine

/-- REQUEST_WRITE (R134, R135). -/
def execRequestWrite (data : Byte) (s : State) : Host.Outcome State Fault Refusal :=
  .next (hostWrite (requestByte data) s)

/-- REQUEST_READ (R134). -/
def execRequestRead (s : State) : Host.Outcome State Fault Refusal :=
  .next (hostRead readRequest s)

/-- COMPLETION_READ (R145). -/
def execCompletionRead (s : State) : Host.Outcome State Fault Refusal :=
  .next (hostRead readCompletion s)

/-- SEQUENCE_RESTART (R160). -/
def execSequenceRestart (port : RestartPort) (data : Byte) (s : State) : Host.Outcome State Fault Refusal :=
  .next (hostWrite (restartSequence port data) s)

/-- CELL_INDEX_WRITE (R19). -/
def execCellIndexWrite (index : Byte) (s : State) : Host.Outcome State Fault Refusal :=
  .next (hostWrite (latchCell index) s)

/-- CELL_READ (R160). -/
def execCellRead (s : State) : Host.Outcome State Fault Refusal :=
  .next (hostRead readCell s)

/-- ARM (R149, R161). -/
def execArm (watch cell test : Byte) (operand : Half) (tag : Byte) (s : State) : Host.Outcome State Fault Refusal :=
  .next (hostWrite (watchCommand (armBytes watch cell test operand tag)) s)

/-- DISARM (R155, R161). -/
def execDisarm (watch : Byte) (s : State) : Host.Outcome State Fault Refusal :=
  .next (hostWrite (watchCommand (disarmBytes watch)) s)

/-- WATCH_BAD_FIRST_BYTE (R161). -/
def execWatchBadFirstByte (data : Byte) (s : State) : Host.Outcome State Fault Refusal :=
  .next (hostWrite (watchByte data) s)

/-- WATCH_READ (R161). -/
def execWatchRead (s : State) : Host.Outcome State Fault Refusal :=
  .next (hostRead readWatch s)

/-- NOTICE_READ (R154). -/
def execNoticeRead (s : State) : Host.Outcome State Fault Refusal :=
  .next (hostRead readNotice s)

/-- STATUS_READ (R163). -/
def execStatusRead (s : State) : Host.Outcome State Fault Refusal :=
  .next (hostRead readStatus s)

/-- VIEW_READ (R164). -/
def execViewRead (s : State) : Host.Outcome State Fault Refusal :=
  .next (hostRead readView s)

/-- START (R103, R165). -/
def execStart (s : State) : Host.Outcome State Fault Refusal :=
  .next (hostWrite (controlCommand [0x01]) s)

/-- HALT (R115, R165). -/
def execHalt (s : State) : Host.Outcome State Fault Refusal :=
  .next (hostWrite (controlCommand [0x02]) s)

/-- LEAVE_COMMAND (R111, R165). -/
def execLeaveCommand (s : State) : Host.Outcome State Fault Refusal :=
  .next (hostWrite (controlCommand [0x03]) s)

/-- CANCEL (R141, R165). -/
def execCancel (tag : Byte) (s : State) : Host.Outcome State Fault Refusal :=
  .next (hostWrite (controlCommand (cancelBytes tag)) s)

/-- MASK (R157, R165). -/
def execMask (enables : Byte) (s : State) : Host.Outcome State Fault Refusal :=
  .next (hostWrite (controlCommand (maskCommandBytes enables)) s)

/-- CONTROL_BAD_FIRST_BYTE (R161). -/
def execControlBadFirstByte (data : Byte) (s : State) : Host.Outcome State Fault Refusal :=
  .next (hostWrite (controlWrite data) s)

/-- CONTROL_READ (R166). -/
def execControlRead (s : State) : Host.Outcome State Fault Refusal :=
  .next (hostRead readControl s)

/-- PARTIAL_SEQUENCE_WRITE (R161). -/
def execPartialSequenceWrite (port : PartialPort) (data : Byte) (s : State) : Host.Outcome State Fault Refusal :=
  .next (hostWrite (partialByte port data) s)

end Sys2Proof.Machine
end

