-- ==== Sys2Proof/Machine/LineCommands.lean ====
section
/-! DEFINITION. The meanings of the commands of the line and the timers, one for each row of the table. -/

namespace Sys2Proof.Machine

/-- LINE_IDLE (R47). -/
def execLineIdle (s : State) : Host.Outcome State Fault Refusal :=
  .next (onLine lineIdle s)

/-- FRAME_START (R48, R81). -/
def execFrameStart (s : State) : Host.Outcome State Fault Refusal :=
  .next (onLine startOffered s)

/-- LOST_ARBITRATION (R51). -/
def execLostArbitration (s : State) : Host.Outcome State Fault Refusal :=
  .next (onLine loseArbitration s)

/-- READ_BACK_FAULT (R55). -/
def execReadBackFault (slot : Station) (inData : Bool) (s : State) (level : LineLevel := .released) :
    Host.Outcome State Fault Refusal :=
  .next (onLine (readBackFault slot inData level) s)

/-- FRAME_CHECK_END (R54, R63). -/
def execFrameCheckEnd (bits : List Bool) (s : State) : Host.Outcome State Fault Refusal :=
  .next (onLine (frameCheck bits) s)

/-- FRAME_LOST (R54, R56). -/
def execFrameLost (s : State) (cause : LossCause := .codingFault) : Host.Outcome State Fault Refusal :=
  .next (onLine (frameLost cause) s)

/-- WINDOW_FAULT (R57, R75). -/
def execWindowFault (slot : Station) (inData : Bool) (s : State) : Host.Outcome State Fault Refusal :=
  .next (onLine (Sys2Proof.Machine.windowFault slot inData) s)

/-- LINE_STUCK (R58). -/
def execLineStuck (slot : Station) (inData : Bool) (s : State) : Host.Outcome State Fault Refusal :=
  .next (onLine (lineSticks slot inData) s)

/-- LINE_STUCK_END (R58). -/
def execLineStuckEnd (s : State) : Host.Outcome State Fault Refusal :=
  .next (onLine stuckEnds s)

/-- DEFERRED_CLEAR (R59, R60). -/
def execDeferredClear (s : State) : Host.Outcome State Fault Refusal :=
  .next (onLine Sys2Proof.Machine.deferredClear s)

/-- PROBE_WAIT_EXPIRY (R105). -/
def execProbeWaitExpiry (s : State) : Host.Outcome State Fault Refusal :=
  .next (onLine probeExpires s)

/-- ADMIT_WAIT_EXPIRY (R118). -/
def execAdmitWaitExpiry (s : State) : Host.Outcome State Fault Refusal :=
  .next (onLine admitExpires s)

/-- STALL_WAIT_EXPIRY (R127). -/
def execStallWaitExpiry (s : State) : Host.Outcome State Fault Refusal :=
  .next (onLine stallExpires s)

/-- ANOTHER_STATION_START_BIT (R48). -/
def execAnotherStationStartBit (s : State) : Host.Outcome State Fault Refusal :=
  .next (onLine otherStarts s)

end Sys2Proof.Machine
end

