-- ==== Sys2Proof/Machine/Reset.lean ====
section
/-! DEFINITION. Power and the RST input: what each event does to every block at once (R10, R61, R78, R116, R147, R158, R162, R165,
R167, R168, section 3.12). -/

namespace Sys2Proof.Machine

/-- Every block but TU and VU at the values that power-on and RST share, the strap latches as they were (R78, R147, R158,
R165, R167, section 3.12). -/
def resetBlocks (s : State) : State :=
  (((((s.setLu .afterReset).setSu .empty).setQu .empty).setWu .empty).setHp (.empty s.hp.straps))

/-- Every block at its power-on values (R10, R116, R168). -/
def powerOnValues (s : State) : State :=
  ((resetBlocks s).setVu (.afterReset .none 0)).setTu .powerOn

/-- The standing and retained epoch that an RST leaves: RETAINED from MEMBER with the epoch of the view, RETAINED kept,
otherwise NONE (R7, R9, R116). -/
def standingAtRst (s : State) : Standing × Byte :=
  if s.vu.station = .member then (.retained, s.vu.view.epoch)
  else if s.vu.standing = .retained then (.retained, s.vu.retainedEpoch)
  else (.none, 0)

/-- The records that an RST leaves: kept with a RETAINED standing, otherwise at power-on values; every chunk unknown
(R8, R10). -/
def tableAtRst (s : State) : Tu :=
  if (standingAtRst s).1 = .retained then { s.tu with known := 0 } else .powerOn

/-- Every block at its RST values (R116, R167). -/
def rstValues (s : State) : State :=
  ((resetBlocks s).setVu (.afterReset (standingAtRst s).1 (standingAtRst s).2)).setTu (tableAtRst s)

/-- The release of a reset: the straps are sampled, and LU is idle-waiting from there (R47, R162, R167). -/
def release (straps : Straps) (s : State) : State :=
  (s.setHp { s.hp with straps := straps }).setLu .afterReset

/-- Power applied: every block at power-on values, the station held (R168). -/
def applyPower (s : State) : State := (powerOnValues s).setPower .hold

/-- The power-on hold ends: the station is released unless RST is still asserted (R168). -/
def endHold (straps : Straps) (s : State) : State :=
  if s.power = .hold then
    if s.rst then s.setPower .on else release straps (s.setPower .on)
  else s

/-- RST asserted: the RST values, and the station held. While it is held already only the pin changes (R167). -/
def assertRst (s : State) : State :=
  if held s then s.setRst true else (rstValues s).setRst true

/-- RST released: the release, unless the part has no supply or the power-on hold still runs (R167, R168). -/
def releaseRst (straps : Straps) (s : State) : State :=
  if s.rst then
    if s.power = .on then release straps (s.setRst false) else s.setRst false
  else s

/-- Supply lost: any frame is cut off and the station is silent until power is applied again (R61). What its registers
hold until then nothing can show; the model has them at the power-on values already (log entry 11). -/
def losePower (s : State) : State := (powerOnValues s).setPower .off

end Sys2Proof.Machine
end

