-- ==== Sys2Proof/Machine/ResetCommands.lean ====
section
/-! DEFINITION. The meanings of the commands of power and the RST input, one for each row of the table. -/

namespace Sys2Proof.Machine

/-- POWER_ON (R168). -/
def execPowerOn (s : State) : Host.Outcome State Fault Refusal :=
  .next (applyPower s)

/-- POWER_ON_HOLD_END (R168). -/
def execPowerOnHoldEnd (straps : Straps) (s : State) : Host.Outcome State Fault Refusal :=
  .next (endHold straps s)

/-- RST_ASSERT (R167). -/
def execRstAssert (s : State) : Host.Outcome State Fault Refusal :=
  .next (assertRst s)

/-- RST_RELEASE (R167). -/
def execRstRelease (straps : Straps) (s : State) : Host.Outcome State Fault Refusal :=
  .next (releaseRst straps s)

/-- POWER_LOSS (R61, R97). -/
def execPowerLoss (s : State) : Host.Outcome State Fault Refusal :=
  .next (losePower s)

end Sys2Proof.Machine
end

