-- ==== Sys2Proof/Machine/ViewCommands.lean ====
section
/-! DEFINITION. The meanings of the commands of the ends of the windows of system frames, of TRANSFERs and of incomplete frames, one for each row of the table. -/

namespace Sys2Proof.Machine

/-- JOIN_PROBE (R105). -/
def execJoinProbe (slots : Mask) (s : State) : Host.Outcome State Fault Refusal :=
  .next (onLine (windowEndOf probeWindow slots) s)

/-- FOUND (R107). -/
def execFound (slots : Mask) (s : State) : Host.Outcome State Fault Refusal :=
  .next (onLine (windowEndOf foundWindow slots) s)

/-- JOIN (R108). -/
def execJoin (slots : Mask) (s : State) : Host.Outcome State Fault Refusal :=
  .next (onLine (windowEndOf joinWindow slots) s)

/-- ROSTER (R121). -/
def execRoster (slots : Mask) (s : State) : Host.Outcome State Fault Refusal :=
  .next (onLine (windowEndOf rosterWindow slots) s)

/-- ROSTER_ADMISSION (R122). -/
def execRosterAdmission (slots : Mask) (s : State) : Host.Outcome State Fault Refusal :=
  .next (onLine (windowEndOf admissionWindow slots) s)

/-- TRANSFER (R124). -/
def execTransfer (slots : Mask) (s : State) : Host.Outcome State Fault Refusal :=
  .next (onLine (windowEndOf transferWindow slots) s)

/-- DROP (R110). -/
def execDrop (slots : Mask) (s : State) : Host.Outcome State Fault Refusal :=
  .next (onLine (windowEndOf dropWindow slots) s)

/-- LEAVE (R112). -/
def execLeave (slots : Mask) (s : State) : Host.Outcome State Fault Refusal :=
  .next (onLine (windowEndOf leaveWindow slots) s)

/-- INCOMPLETE_WINDOW_END (R71). -/
def execIncompleteWindowEnd (slots : Mask) (s : State) : Host.Outcome State Fault Refusal :=
  .next (onLine (windowEndOf anyWindow slots) s)

end Sys2Proof.Machine
end

