-- ==== Sys2Proof/Machine/Dispatch.lean ====
section
/-! DEFINITION. The dispatch: one arm for each command, each one direct call of its meaning. -/

namespace Sys2Proof.Machine

def exec (i : Instr) (s : State) : Host.Outcome State Fault Refusal :=
  match i with
  | .powerOn => Sys2Proof.Machine.execPowerOn s
  | .powerOnHoldEnd straps => Sys2Proof.Machine.execPowerOnHoldEnd straps s
  | .rstAssert => Sys2Proof.Machine.execRstAssert s
  | .rstRelease straps => Sys2Proof.Machine.execRstRelease straps s
  | .requestWrite data => Sys2Proof.Machine.execRequestWrite data s
  | .requestRead => Sys2Proof.Machine.execRequestRead s
  | .completionRead => Sys2Proof.Machine.execCompletionRead s
  | .sequenceRestart port data => Sys2Proof.Machine.execSequenceRestart port data s
  | .cellIndexWrite index => Sys2Proof.Machine.execCellIndexWrite index s
  | .cellRead => Sys2Proof.Machine.execCellRead s
  | .arm watch cell test operand tag => Sys2Proof.Machine.execArm watch cell test operand tag s
  | .disarm watch => Sys2Proof.Machine.execDisarm watch s
  | .watchBadFirstByte data => Sys2Proof.Machine.execWatchBadFirstByte data s
  | .watchRead => Sys2Proof.Machine.execWatchRead s
  | .noticeRead => Sys2Proof.Machine.execNoticeRead s
  | .statusRead => Sys2Proof.Machine.execStatusRead s
  | .viewRead => Sys2Proof.Machine.execViewRead s
  | .start => Sys2Proof.Machine.execStart s
  | .halt => Sys2Proof.Machine.execHalt s
  | .leaveCommand => Sys2Proof.Machine.execLeaveCommand s
  | .cancel tag => Sys2Proof.Machine.execCancel tag s
  | .mask enables => Sys2Proof.Machine.execMask enables s
  | .controlBadFirstByte data => Sys2Proof.Machine.execControlBadFirstByte data s
  | .controlRead => Sys2Proof.Machine.execControlRead s
  | .lineIdle => Sys2Proof.Machine.execLineIdle s
  | .frameStart => Sys2Proof.Machine.execFrameStart s
  | .lostArbitration => Sys2Proof.Machine.execLostArbitration s
  | .readBackFault slot inData level => Sys2Proof.Machine.execReadBackFault slot inData s level
  | .frameCheckEnd bits => Sys2Proof.Machine.execFrameCheckEnd bits s
  | .frameLost cause => Sys2Proof.Machine.execFrameLost s cause
  | .windowFault slot inData => Sys2Proof.Machine.execWindowFault slot inData s
  | .store slots => Sys2Proof.Machine.execStore slots s
  | .add slots => Sys2Proof.Machine.execAdd slots s
  | .and slots => Sys2Proof.Machine.execAnd slots s
  | .or slots => Sys2Proof.Machine.execOr slots s
  | .xor slots => Sys2Proof.Machine.execXor slots s
  | .bitset slots => Sys2Proof.Machine.execBitset slots s
  | .bitclr slots => Sys2Proof.Machine.execBitclr slots s
  | .bitflip slots => Sys2Proof.Machine.execBitflip slots s
  | .cas slots => Sys2Proof.Machine.execCas slots s
  | .step slots => Sys2Proof.Machine.execStep slots s
  | .claim slots => Sys2Proof.Machine.execClaim slots s
  | .release slots => Sys2Proof.Machine.execRelease slots s
  | .relstore slots => Sys2Proof.Machine.execRelstore slots s
  | .joinProbe slots => Sys2Proof.Machine.execJoinProbe slots s
  | .found slots => Sys2Proof.Machine.execFound slots s
  | .join slots => Sys2Proof.Machine.execJoin slots s
  | .roster slots => Sys2Proof.Machine.execRoster slots s
  | .rosterAdmission slots => Sys2Proof.Machine.execRosterAdmission slots s
  | .transfer slots => Sys2Proof.Machine.execTransfer slots s
  | .drop slots => Sys2Proof.Machine.execDrop slots s
  | .leave slots => Sys2Proof.Machine.execLeave slots s
  | .lineStuck slot inData => Sys2Proof.Machine.execLineStuck slot inData s
  | .lineStuckEnd => Sys2Proof.Machine.execLineStuckEnd s
  | .deferredClear => Sys2Proof.Machine.execDeferredClear s
  | .probeWaitExpiry => Sys2Proof.Machine.execProbeWaitExpiry s
  | .admitWaitExpiry => Sys2Proof.Machine.execAdmitWaitExpiry s
  | .stallWaitExpiry => Sys2Proof.Machine.execStallWaitExpiry s
  | .incompleteWindowEnd slots => Sys2Proof.Machine.execIncompleteWindowEnd slots s
  | .anotherStationStartBit => Sys2Proof.Machine.execAnotherStationStartBit s
  | .powerLoss => Sys2Proof.Machine.execPowerLoss s
  | .partialSequenceWrite port data => Sys2Proof.Machine.execPartialSequenceWrite port data s

end Sys2Proof.Machine
end

