-- ==== Sys2Proof/Machine/LineCode.lean ====
section
/-! DEFINITION. The line code: the levels of a bit by eighths of a bit time, their sampling, the bit rate, and arbitration on the
wired line (R44 to R46, R51). The clock takes the levels of the bits that this station sends from here; for what LU reads of
others' the commands stand, and no command's meaning calls these definitions. -/

namespace Sys2Proof.Machine

/-- The line's level, true while asserted: any one station asserting makes it asserted (section 0.6). -/
def lineLevel (drivers : List Bool) : Bool := drivers.any id

/-- The level that a station transmitting bit `b` drives in an eighth of the bit time: asserted in the sync phase, and in
the data phase for a 0 (R44). -/
def bitDrive (b : Bool) (eighth : Fin 8) : Bool := decide (eighth.val < 2) || !b

/-- What the bit time of a transmitted bit shows: asserted throughout where every eighth is driven, and else both levels
(R44). -/
def bitTimeOf (b : Bool) : Config.BitTime :=
  if (List.finRange 8).all (bitDrive b) then .asserted else .mixed

/-- The bits of an own frame as they are sent, from the start bit, which is 0, to the last check bit (R44, R48, R49). -/
def sentBits (f : Frame) : List Bool := false :: encodeFrame f

/-- The bit that a receiver takes from the line's levels by eighths: the level at five eighths, asserted for 0 (R45). -/
def sampleBit (line : Fin 8 → Bool) : Bool := !line 5

/-- Whether a bit time has no sync assertion: the line not asserted at one eighth (R45). -/
def syncMissing (line : Fin 8 → Bool) : Bool := !line 1

/-- The bit time of a strapped rate, in microseconds (R46). -/
def bitTimeMicros (br : BitVec 2) : Nat := 8 / 2 ^ br.toNat

/-- The bit rate of a strapped rate, in kbit/s (R46). -/
def bitRateKbit (br : BitVec 2) : Nat := 125 * 2 ^ br.toNat

/-- The arbitration field of a class and a station number (R49). -/
def arbitrationField (classOne : Bool) (n : Station) : BitVec 6 := BitVec.ofBool classOne ++ n

/-- One arbitration bit among the stations still sending: those that send 1 and read 0 have lost (R51). -/
def arbitrationBit (fields : List (BitVec 6)) (i : Nat) : List (BitVec 6) :=
  if fields.any fun f => !f.getLsbD i then fields.filter fun f => !f.getLsbD i else fields

/-- The fields of the stations left sending after the sixth arbitration bit (R51). -/
def arbitrate (fields : List (BitVec 6)) : List (BitVec 6) :=
  [5, 4, 3, 2, 1, 0].foldl arbitrationBit fields

end Sys2Proof.Machine
end

