-- ==== Sys2Proof/Machine/Tick.lean ====
section
/-! DEFINITION. One bit time in which no command comes: what the part's clock does by itself (R47, R58, R59, R105, R118, R127). It is
the model's step on an empty queue (DESIGN CHOICE, log entry 3). -/

namespace Sys2Proof.Machine

/-- One bit time of a resting line: the idle count one higher up to BARRIER_IDLE, DEFERRED cleared there, and the item on
offer begun at the boundary when the line is idle (R47, R48, R59, R60). -/
def restTick (s : State) : State :=
  let n := min Config.barrierIdle (s.lu.idleCount + 1)
  if n = Config.barrierIdle then
    startOffered (refresh (s.setLu { idleReaches n s.lu with deferred := false }))
  else startOffered (s.setLu (idleReaches n s.lu))

/-- One bit time through which the line is asserted, up to the count at which it is stuck, at the slot and phase that a frame
in its window has reached (R47, R58). -/
def assertedTick (slot : Station) (inData : Bool) (s : State) : State :=
  if s.lu.assertedCount + 1 < Config.stuckCount then
    s.setLu { s.lu with idleCount := 0, assertedCount := s.lu.assertedCount + 1 }
  else lineSticks slot inData s

/-- One bit time that carries both levels: a frame goes on, and both counts are 0 (R47, R58). -/
def mixedTick (s : State) : State := s.setLu { s.lu with idleCount := 0, assertedCount := 0 }

/-- One bit time of rest on a line last met asserted: the idle count one higher. A frame may still pass, so that the line is
not known to rest until the count reaches IDLE_MIN (R47, R56). -/
def gapTick (s : State) : State :=
  if s.lu.idleCount + 1 < Config.idleMin then
    s.setLu { s.lu with idleCount := s.lu.idleCount + 1, assertedCount := 0 }
  else restTick s

/-- One bit time, outside a frame that LU decodes, of a line last met asserted. What it carries no command says, so it is a
free value (log entry 21): a bit time of rest counts towards idle, and any other keeps the idle count at 0 (R47, R56). -/
def busyTick (s : State) : State :=
  let s1 := s.setFreeCount (s.freeCount + 1)
  match Config.lineBit s.freeCount with
  | .released => gapTick s1
  | .mixed => mixedTick s1
  | .asserted => assertedTick 0 false s1

/-- The slot that a window has reached; a window whose end has not come yet stays at its last one (R54, R58). -/
def slotReached (s : State) : Station := BitVec.ofNat 5 (min 31 s.lu.bitPos)

/-- Whether LU drives the data phase of the slot reached: its own, in a frame that it accepts or sends (R43, R54). -/
def drivesSlot (s : State) : Bool :=
  s.lu.mode == .window && s.lu.driver != .released && s.lu.bitPos == (own s).toNat

/-- The bit that this station itself transmits in a bit time inside a frame: the bit reached of its own frame, and the 0 of its
own slot (R44, R48, R54). -/
def drivenBit (s : State) : Option Bool :=
  match s.lu.mode, s.su.attempt with
  | .sending, some a => (sentBits a.frame)[s.lu.bitPos]?
  | _, _ => if drivesSlot s then some false else none

/-- What a bit time inside a frame shows. A bit that this station transmits is as it drives it, since a level other than that is a
command of its own (R44, R51, R55, R57); any other bit is a free value (log entry 21). -/
def frameLevel (s : State) : Config.BitTime :=
  match drivenBit s with
  | some b => bitTimeOf b
  | none => Config.lineBit s.freeCount

/-- The check register after the bit time of the bit reached: in an own frame each bit from position 1 to the last body bit is
fed into it (R169). The bits of another station's frame come together at its check part's end (log entry 22). -/
def checkFed (s : State) : BitVec 16 :=
  match s.lu.mode, s.su.attempt, s.lu.bitPos with
  | .sending, some a, n + 1 =>
    match (coveredBits a.frame)[n]? with
    | some b => checkStep s.lu.checkReg b
    | none => s.lu.checkReg
  | _, _, _ => s.lu.checkReg

/-- LU one bit time on in the frame (R44, R169). -/
def passBit (s : State) : State :=
  (s.setFreeCount (s.freeCount + 1)).setLu { s.lu with
    bitPos := min Config.longestFrame (s.lu.bitPos + 1), checkReg := checkFed s }

/-- One bit time inside a frame, sent, received or tracked. Each bit begins with an assertion, so that none is a bit time of rest
(R44), and an asserted one counts towards the stuck line, which it finds at its end, in the data phase of the slot (R58). -/
def frameTick (s : State) : State :=
  match frameLevel s with
  | .released | .mixed => mixedTick (passBit s)
  | .asserted => assertedTick (slotReached s) true (passBit s)

/-- The line's part of a bit time; a stuck line stays so until it is released (R58). -/
def lineTick (s : State) : State :=
  match s.lu.mode with
  | .waitIdle | .resting =>
    if s.lu.stuck then s else if s.lu.asserted then busyTick s else restTick s
  | .receiving | .tracking | .sending | .window => frameTick s

/-- A running timer one bit time shorter; one that has a single bit time left expires by `expire`. A timer that no longer
stands as it did `before` the bit time was started or stopped within it, and counts from the next one on. -/
def countDown (before timer : Option Nat) (write : Option Nat → State → State) (expire : State → State) (s : State) : State :=
  if timer = before then
    match timer with
    | none => s
    | some n => if n ≤ 1 then expire s else write (some (n - 1)) s
  else s

/-- The timers' part of a bit time, `before` being VU as it was when the bit time began: they run whether the line is busy or
resting (R105, R118, R127). -/
def timerTick (before : Vu) (s : State) : State :=
  let s1 := countDown before.probeTimer s.vu.probeTimer (fun t u => u.setVu { u.vu with probeTimer := t }) probeExpires s
  let s2 := countDown before.admitTimer s1.vu.admitTimer (fun t u => u.setVu { u.vu with admitTimer := t }) admitExpires s1
  countDown before.stallTimer s2.vu.stallTimer (fun t u => u.setVu { u.vu with stallTimer := t }) stallExpires s2

/-- One bit time; while the part is held nothing counts (R58, R167). -/
def tick (s : State) : State := if held s then s else timerTick s.vu (lineTick s)

end Sys2Proof.Machine
end

