-- ==== Sys2Proof/Safety.lean ====
section
/-! DEFINITION. What a sound state of one SC-128 is: the laws that the manual says the station keeps, as predicates on the
state of one station. -/

namespace Sys2Proof.Machine

/-! ## The queues -/

/-- The law of the queues (R136): at most 8 requests queued, at most 4 parked, at most 16 with the completion records, and
no two requests of one tag. -/
def RequestLaw (s : State) : Prop :=
  s.qu.queue.length ≤ Config.queueCapacity ∧ s.qu.park.length ≤ Config.parkCapacity ∧
    admissionTotal s ≤ Config.budget ∧ ((s.qu.queue ++ s.qu.park).map (·.tag)).Nodup

/-- The law of the event queue (R152): exactly one notice for each FIRED watch and none for any other. -/
def NoticeLaw (s : State) : Prop :=
  ∀ i : Fin 16, s.wu.events.countP (fun n => n.watch == i) = if (watchAt s i).state = .fired then 1 else 0

/-! ## The station -/

/-- A HALTED station drives nothing and has nothing to send (R43, R79, R101). -/
def SilenceLaw (s : State) : Prop :=
  s.vu.station = .halted → s.lu.driver = .released ∧ s.su.offer = none ∧ s.su.attempt = none

/-- A part that is held is HALTED, with LU and SU at their reset values (R78, R167, R168, section 3.12). -/
def HeldLaw (s : State) : Prop :=
  held s = true → s.vu.station = .halted ∧ s.lu = .afterReset ∧ s.su = .empty

/-- The standing, the chunk-known flags, the retained epoch, the records and the view record that go with each station
state (R6, R8, R9, R98, R101). -/
def StandingLaw (s : State) : Prop :=
  (s.vu.station = .member ↔ s.vu.standing = .live) ∧
  (s.vu.station = .joining ↔ s.vu.standing = .pending) ∧
  (s.vu.standing ≠ .pending → s.tu.known = 0) ∧
  (s.vu.standing ≠ .retained → s.vu.retainedEpoch = 0) ∧
  (s.vu.standing = .none → s.tu.cells = Tu.powerOn.cells) ∧
  (inView s.vu.station = false → s.vu.view = .empty)

/-- What VU keeps pending belongs to one station state each, and a FOUND is due only after three unanswered JOINs and where
FP permits it (R105, R107, R111, R118, R127). -/
def ProbeLaw (s : State) : Prop :=
  (s.vu.station ≠ .listening → s.vu.unanswered = 0 ∧ s.vu.probeTimer = none ∧ s.vu.probeDue = .nothing) ∧
  (s.vu.station ≠ .admitting → s.vu.admitTimer = none ∧ s.vu.admitExpired = false) ∧
  (s.vu.station ≠ .joining → s.vu.stallTimer = none ∧ s.vu.stallOwed = false) ∧
  (s.vu.station ≠ .member → s.vu.leavePending = false) ∧
  s.vu.unanswered ≤ Config.probeLimit ∧
  (s.vu.probeDue ≠ .nothing → s.vu.probeTimer = none) ∧
  (s.vu.probeDue = .found → s.vu.unanswered = Config.probeLimit ∧ s.hp.straps.fp = true)

/-- This station's own number stands in the full-member set at MEMBER and in the joiner set at JOINING (R98). -/
def OwnNumberLaw (s : State) : Prop :=
  (s.vu.station = .member → has s.vu.view.full (own s) = true) ∧
  (s.vu.station = .joining → has s.vu.view.joiners (own s) = true)

/-- The station states in which each item may be sent (R79). -/
def itemFits : Item → StationState → Bool
  | .drop, st => inView st
  | .stallJoin, st => st == .joining
  | .probe, st => st == .listening
  | .found, st => st == .listening
  | .roster, st => st == .member
  | .leave, st => st == .member
  | .transfer, st => st == .member
  | .claim _, st => st == .member
  | .request _, st => st == .member

/-- Whether the window that runs is that of this station's own frame. -/
def ownWindow : Option Judged → Bool
  | some j => j.own
  | none => false

/-- The station state that governs a frame under judgement, at a station that stands in a state: that state, or HALTED for
another station's frame during which START was taken (R63). -/
def JudgedBy (j : Judged) (st : StationState) : Prop :=
  j.station = st ∨ (j.station = .halted ∧ st = .listening ∧ j.own = false)

/-- LU, SU and VU agree on the frame in progress: an attempt is in progress exactly while this station's own frame is on
the line, items are offered and sent only in their station states, no class-1 item is offered while DEFERRED is set, and a
frame is under judgement only in its window, by the station state that stands, or by HALTED at a station that START has since
put into LISTENING (R60, R63, R78, R79, R80). -/
def AttemptLaw (s : State) : Prop :=
  (s.su.attempt.isSome = true ↔ s.lu.mode = .sending ∨ (s.lu.mode = .window ∧ ownWindow s.vu.judged = true)) ∧
  (∀ a, s.su.attempt = some a → itemFits a.item s.vu.station = true) ∧
  (∀ i, s.su.offer = some i → itemFits i s.vu.station = true ∧ ¬(itemClassOne i = true ∧ s.lu.deferred = true)) ∧
  (∀ j, s.vu.judged = some j → s.lu.mode = .window ∧ JudgedBy j s.vu.station)

/-- LU drives only this station's own frame, while its attempt is in progress, and its own slot in the window of a frame of
another station that VU accepted (R43). -/
def DriverLaw (s : State) : Prop :=
  (s.lu.driver = .ownFrame ↔ s.su.attempt.isSome = true) ∧
  (s.lu.driver = .ownSlot → ∃ j, s.vu.judged = some j ∧ j.accept = true ∧ j.own = false)

/-- LU's counts and its LINE-STUCK indication (R47, R58): the idle count stops at 24, a line that is idle is decoded, and a
stuck line is asserted and not decoded. -/
def LineLaw (s : State) : Prop :=
  s.lu.idleCount ≤ Config.barrierIdle ∧ s.lu.assertedCount ≤ Config.stuckCount ∧
  (Config.idleMin ≤ s.lu.idleCount → s.lu.mode = .resting) ∧
  (s.lu.stuck = true → s.lu.mode = .waitIdle ∧ s.lu.asserted = true)

/-- The laws of one station together. -/
def Coherent (s : State) : Prop :=
  SilenceLaw s ∧ HeldLaw s ∧ StandingLaw s ∧ ProbeLaw s ∧ OwnNumberLaw s ∧ AttemptLaw s ∧ LineLaw s ∧
    DriverLaw s

/-! ## The view -/

/-- The shape of a view (R98): no station in both sets, remaining 1 to 16 while there are joiners and 0 while there are
none, and a ROSTER owed only while there are joiners. -/
def ViewShape (v : View) : Prop :=
  v.full &&& v.joiners = 0 ∧ (v.joiners ≠ 0 → 1 ≤ v.remaining ∧ v.remaining ≤ Config.roundLength) ∧
    (v.joiners = 0 → v.remaining = 0 ∧ v.rosterOwed = false)

/-- A ROSTER under judgement at an ADMITTING station carries disjoint masks, as every view does (R98, R122). -/
def LawfulRoster (s : State) : Prop :=
  ∀ j full joiners cursor remaining, s.vu.judged = some j →
    j.frame.body = .roster full joiners cursor remaining → full &&& joiners = 0

/-! ## Terms that statements use -/

/-- The command that ends the window of a cell frame of an operation. -/
def cellCommand (op : CellOp) (slots : Mask) : Instr :=
  match op with
  | .store => .store slots
  | .add => .add slots
  | .and => .and slots
  | .or => .or slots
  | .xor => .xor slots
  | .bitset => .bitset slots
  | .bitclr => .bitclr slots
  | .bitflip => .bitflip slots
  | .cas => .cas slots
  | .step => .step slots
  | .claim => .claim slots
  | .release => .release slots
  | .relstore => .relstore slots

/-- The commands that end a window (log entry 2). -/
def windowEnds (slots : Mask) : List Instr :=
  [.store, .add, .and, .or, .xor, .bitset, .bitclr, .bitflip, .cas, .step, .claim, .release, .relstore].map
      (cellCommand · slots)
    ++ [.joinProbe slots, .found slots, .join slots, .roster slots, .rosterAdmission slots, .transfer slots, .drop slots,
      .leave slots, .incompleteWindowEnd slots]

/-- The command that ends the window of a frame heard from another station, by its kind (log entry 2). -/
def heardCommand (f : Frame) (slots : Mask) : Instr :=
  match f.body with
  | .cell op _ _ _ => cellCommand op slots
  | .found _ => .found slots
  | .join => .join slots
  | .roster .. => .roster slots
  | .transfer .. => .transfer slots
  | .drop _ => .drop slots
  | .leave => .leave slots

/-- The commands that are reads of a host port. -/
def hostReads : List Instr :=
  [.requestRead, .completionRead, .cellRead, .watchRead, .noticeRead, .statusRead, .viewRead, .controlRead]

/-- The commands of the supply and of the RST input. -/
def resetCommand (c : Instr) : Bool :=
  match c with
  | .powerOn | .powerOnHoldEnd _ | .rstAssert | .rstRelease _ | .powerLoss => true
  | _ => false

/-- A part that is not held, in the window of a frame that it judges by the station state that stands. -/
def Judging (j : Judged) (s : State) : Prop :=
  held s = false ∧ s.lu.mode = .window ∧ s.vu.judged = some j ∧ j.station = s.vu.station

/-- A part that judges another station's frame, complete here by these slots (R71). -/
def JudgingOther (j : Judged) (slots : Mask) (s : State) : Prop :=
  Judging j s ∧ j.own = false ∧ s.su.attempt = none ∧ isComplete j slots s = true

/-- A part that judges its own frame, an attempt at an item (R64). -/
def JudgingOwn (j : Judged) (a : Attempt) (s : State) : Prop :=
  Judging j s ∧ j.own = true ∧ s.su.attempt = some a ∧ j.frame = a.frame

/-- Whether an ARMED watch on cell `c` holds on the record `r`, which a change has left there (R151). -/
def firesOn (c : CellNo) (r : Cell) (s : State) (i : Fin 16) : Bool :=
  let w := watchAt s i
  w.state == .armed && w.cell == c && testHolds (own s) w.test w.operand w.reference r

/-- The notice MET of watch `i` from the record that its evaluation saw (R152). -/
def noticeOf (r : Cell) (s : State) (i : Fin 16) : Notice :=
  ⟨i, (watchAt s i).tag, .met, r.value, r.holder, r.version⟩

/-- Whether a change of cell `c` that left the record `r` wakes a request (R139). -/
def wakesOn (c : CellNo) (r : Cell) (q : Request) : Bool := r.holder == none && q.state == .parked && q.cell == c

/-- This station is the supplier: the lowest-numbered full member of its view (R79). -/
def Supplying (s : State) : Prop :=
  has s.vu.view.full (own s) = true ∧ ∀ n, has s.vu.view.full n = true → (own s).toNat ≤ n.toNat

/-- A ROSTER is owed here (R79). -/
def RosterOwed (s : State) : Prop := s.vu.station = .member ∧ Supplying s ∧ s.vu.view.rosterOwed = true

/-- A TRANSFER is owed here (R79). -/
def TransferOwed (s : State) : Prop :=
  s.vu.station = .member ∧ Supplying s ∧ 0 < s.vu.view.remaining ∧ s.vu.view.rosterOwed = false

/-- A LEAVE is pending and not held back: this station is not the only full member of a view with joiners (R80, R131). -/
def LeaveReady (s : State) : Prop :=
  s.vu.leavePending = true ∧ ¬((∀ n, has s.vu.view.full n = true ↔ n = own s) ∧ s.vu.view.joiners ≠ 0)

/-- What SU has on offer with no attempt in progress: the first of its items in the order of R80, those of class 1 passed over
while DEFERRED is set (R79, R80). -/
def Offered (s : State) : Prop :=
  let classZero := s.su.owedDrop.isSome = true ∨ RosterOwed s ∨ LeaveReady s
  let classOne := ¬classZero ∧ s.lu.deferred = false
  (s.vu.station = .halted ∨ s.vu.station = .admitting → s.su.offer = none) ∧
  (s.vu.station = .listening → s.su.offer = match s.vu.probeDue with
    | .join => some .probe
    | .found => some .found
    | .nothing => none) ∧
  (s.vu.station = .joining → s.su.offer =
    if s.su.owedDrop.isSome then some .drop else if s.vu.stallOwed then some .stallJoin else none) ∧
  (s.vu.station = .member →
    (s.su.owedDrop.isSome = true → s.su.offer = some .drop) ∧
    (s.su.owedDrop = none → RosterOwed s → s.su.offer = some .roster) ∧
    (s.su.owedDrop = none → ¬RosterOwed s → LeaveReady s → s.su.offer = some .leave) ∧
    (¬classZero → s.lu.deferred = true → s.su.offer = none) ∧
    (classOne → TransferOwed s → s.su.offer = some .transfer) ∧
    (∀ tag rest, classOne → ¬TransferOwed s → s.qu.woken = tag :: rest → s.su.offer = some (.claim tag)) ∧
    (∀ q rest, classOne → ¬TransferOwed s → s.qu.woken = [] → s.qu.queue = q :: rest →
      s.su.offer = if q.state = .queued then some (.request q.tag) else none) ∧
    (classOne → ¬TransferOwed s → s.qu.woken = [] → s.qu.queue = [] → s.su.offer = none))

/-- SU with no attempt in progress, its system items and its offer brought into line with the view and the station state that
stand: the owed DROP without the stations that have left the view, the attempt records of the items that are still owed, and
the first item of R80 on offer (R79, R81, R87). -/
def SendingSettled (s t : State) : Prop :=
  t.su.attempt = none ∧ Offered t ∧
  t.su.owedDrop = (match s.su.owedDrop with
    | none => none
    | some m => if m &&& everyone t.vu.view = 0 then none else some (m &&& everyone t.vu.view)) ∧
  t.su.dropRec = (if t.su.owedDrop.isSome then s.su.dropRec else .fresh) ∧
  (RosterOwed t → t.su.rosterRec = s.su.rosterRec) ∧ (¬RosterOwed t → t.su.rosterRec = .fresh) ∧
  (TransferOwed t → t.su.transferRec = s.su.transferRec) ∧ (¬TransferOwed t → t.su.transferRec = .fresh) ∧
  t.su.leaveRec = (if t.vu.leavePending then s.su.leaveRec else .fresh) ∧
  t.su.foundRec = (if t.vu.probeDue = .found then s.su.foundRec else .fresh) ∧
  t.su.stallRec = (if t.vu.stallOwed then s.su.stallRec else .fresh)

/-- The LOST notices of an exit from MEMBER: one for each ARMED watch, in ascending watch number, from the live record of its
cell (R104, R153). -/
def lostNotices (s : State) : List Notice :=
  ((List.finRange 16).filter fun i => (watchAt s i).state == .armed).map fun i =>
    let r := cellAt s (watchAt s i).cell
    ⟨i, (watchAt s i).tag, .lost, r.value, r.holder, r.version⟩

/-- What leaving a station state does to WU: STATE is pending and, from MEMBER, every ARMED watch is FIRED, its LOST notice
behind the notices that stood; every other watch stays as it was (R104, R114, R153, R156). -/
def ExitReported (s t : State) : Prop :=
  if s.vu.station = .member then
    (∀ i, watchAt t i = if (watchAt s i).state = .armed then { watchAt s i with state := .fired } else watchAt s i) ∧
    t.wu = { s.wu with watches := t.wu.watches, events := s.wu.events ++ lostNotices s, statePending := true }
  else t.wu = { s.wu with statePending := true }

/-- The completion record of a request no frame of which was applied, from the station as it stands: the cell's fields from a LIVE
copy and those of power-on otherwise, flags of 0, the attempts made, the view's epoch, and the late-cancel mark with WITHDRAWN
where the request was marked for cancel (R142, R143, R144). -/
def unappliedRecord (ending : Ending) (q : Request) (s : State) : Completion where
  tag := q.tag
  op := q.op
  wait := q.wait
  cell := q.cell
  ending := ending
  value := if s.vu.standing = .live then (cellAt s q.cell).value else 0
  holder := if s.vu.standing = .live then (cellAt s q.cell).holder else none
  version := if s.vu.standing = .live then (cellAt s q.cell).version else 0
  flags := ⟨false, false, false, false⟩
  attempts := q.attempts.count
  epoch := s.vu.view.epoch
  late := decide (ending = .withdrawn) && q.cancelMark

/-- QU once every request is retired WITHDRAWN: the queue from head to tail, then the park list from the oldest-parked
(R146). -/
def allWithdrawn (s : State) : Qu :=
  { s.qu with
    queue := [], park := [], woken := []
    completions := s.qu.completions ++ (s.qu.queue ++ s.qu.park).map fun q => unappliedRecord .withdrawn q s }

/-- What a withdrawal leaves of a station that was MEMBER or JOINING: VU at its reset values but for LISTENING with a JOIN due,
FOREIGN and the standing; SU empty but for that JOIN on offer, and DEFERRED clear; every request retired WITHDRAWN in order; the
ARMED watches LOST from MEMBER; and the table RETAINED from MEMBER and cleared from JOINING (R78, R104, R105, R114, R146,
R153). -/
def Withdrawn (s t : State) : Prop :=
  t.vu = { State.reset.vu with
    station := .listening
    probeDue := .join
    foreign := s.vu.foreign
    standing := if s.vu.station = .member then .retained else .none
    retainedEpoch := if s.vu.station = .member then s.vu.view.epoch else 0 } ∧
  t.tu = (if s.vu.station = .member then s.tu else State.reset.tu) ∧
  t.su = { State.reset.su with offer := some .probe } ∧ t.lu.deferred = false ∧
  t.qu = allWithdrawn s ∧
  ExitReported s t

/-- Whether an ARMED watch fires at an entry into MEMBER: its test holds on the record that the table then shows, from that
record's version as its reference (R104, R151). -/
def firesOnEntry (s t : State) (i : Fin 16) : Bool :=
  let w := watchAt s i
  let r := cellAt t w.cell
  w.state == .armed && testHolds (own s) w.test w.operand r.version r

/-- What an entry into MEMBER does to WU: STATE is pending; every ARMED watch takes its cell's version as the reference, and
those whose test holds are FIRED, their MET notices behind the ones that stood, in ascending watch number (R104, R151, R152,
R156). -/
def EntryReported (s t : State) : Prop :=
  (∀ i, let w := watchAt s i
    watchAt t i = if w.state = .armed
      then { w with
        reference := (cellAt t w.cell).version
        state := if firesOnEntry s t i then .fired else .armed }
      else w) ∧
  t.wu = { s.wu with
    watches := t.wu.watches
    events := s.wu.events ++
      ((List.finRange 16).filter (firesOnEntry s t)).map fun i => noticeOf (cellAt t (watchAt s i).cell) s i
    statePending := true }

/-- An attempt record one self fault later: counted, with an empty missing set, of which the last three stay (R83). -/
def faultedRecord (r : AttemptRec) : AttemptRec := ⟨r.count + 1, (r.history ++ [0]).drop (r.history.length - 2)⟩

/-- QU once a request is retired unapplied: out of the queue, the park list and the woken order, its record posted (R143,
R144). -/
def retiredAs (ending : Ending) (q : Request) (s : State) : Qu :=
  { s.qu with
    queue := s.qu.queue.filter (fun r => r.tag ≠ q.tag)
    park := s.qu.park.filter (fun r => r.tag ≠ q.tag)
    woken := s.qu.woken.filter (fun w => w ≠ q.tag)
    completions := s.qu.completions ++ [unappliedRecord ending q s] }

/-- What a self fault leaves of an attempt at item `i`, whose frame was `f` (R62, R83, R90 to R93, R105, R107, R142): it is
counted with an empty missing set, which owes no DROP, and DEFERRED is set for a class-1 frame. A request waits again, a woken
claim first in woken order; one with a cancel mark is retired CANCELLED, and one at its 8th attempt FAILED. A system item
waits again; its 8th attempt clears the record of a ROSTER or a TRANSFER, ends a stall JOIN, withdraws the station for a DROP and
halts it for a LEAVE. A JOIN from LISTENING is unanswered, and a FOUND is given up at its 8th attempt for a JOIN. -/
def SelfFaulted (i : Item) (f : Frame) (s t : State) : Prop :=
  let still : Prop := t.tu = s.tu ∧ t.wu = s.wu ∧ t.lu.deferred = (s.lu.deferred || classOne f.body)
  let distinct : Prop := ((s.qu.queue ++ s.qu.park).map (·.tag)).Nodup
  let counted (q : Request) : Request := { q with attempts := faultedRecord q.attempts }
  let request (q : Request) (waits : Qu) : Prop :=
    still ∧ t.vu = s.vu ∧ SendingSettled s t ∧
    (q.cancelMark = true → t.qu = retiredAs .cancelled (counted q) s) ∧
    (q.cancelMark = false → q.attempts.count < 7 → t.qu = waits) ∧
    (q.cancelMark = false → q.attempts.count = 7 → t.qu = retiredAs .failed (counted q) s)
  let count := (recordOf i s).count
  let waits : Prop :=
    still ∧ t.vu = s.vu ∧ t.qu = s.qu ∧ SendingSettled (setRecord i (faultedRecord (recordOf i s)) s) t
  t.su.attempt = none ∧ t.hp = s.hp ∧
  match i with
  | .request tag => distinct → ∀ q ∈ s.qu.queue, q.tag = tag → request q { s.qu with
      queue := s.qu.queue.map fun r => if r.tag = tag then { counted q with state := .queued } else r }
  | .claim tag => distinct → ∀ q ∈ s.qu.park, q.tag = tag → request q { s.qu with
      park := s.qu.park.map fun r => if r.tag = tag then { counted q with state := .eligible } else r
      woken := tag :: s.qu.woken }
  | .roster | .transfer => (count < 7 → waits) ∧
      (count = 7 → still ∧ t.vu = s.vu ∧ t.qu = s.qu ∧ SendingSettled (setRecord i ⟨0, []⟩ s) t)
  | .stallJoin => s.vu.station = .joining → (count < 7 → waits) ∧
      (count = 7 → still ∧ t.vu = { s.vu with stallTimer := some 8192, stallOwed := false } ∧ t.qu = s.qu ∧
        SendingSettled s t)
  | .drop => inView s.vu.station = true → (count < 7 → waits) ∧ (count = 7 → Withdrawn s t)
  | .leave => s.vu.station = .member → (count < 7 → waits) ∧
      (count = 7 → t.vu.station = .halted ∧ t.vu.standing = .retained ∧ t.vu.retainedEpoch = s.vu.view.epoch ∧
        t.vu.view = ⟨0, 0, 0, false, 0, 0⟩ ∧ t.vu.leavePending = false ∧ t.su = State.reset.su ∧ t.lu.deferred = false ∧
        t.tu = s.tu ∧ ExitReported s t ∧ t.qu = allWithdrawn s)
  | .probe => s.vu.unanswered ≤ 3 → still ∧ t.qu = s.qu ∧ SendingSettled s t ∧ t.vu = { s.vu with
      unanswered := min 3 (s.vu.unanswered + 1)
      probeDue := .nothing
      probeTimer := some
        (if 2 ≤ s.vu.unanswered ∧ s.hp.straps.fp = false then 4096 else 256 + 16 * s.hp.straps.sn.toNat) }
  | .found => s.vu.station = .listening → s.vu.probeDue = .found → still ∧ t.qu = s.qu ∧
      (count < 7 → t.vu = s.vu ∧ t.su.foundRec = ⟨count + 1, []⟩ ∧ t.su.offer = some .found) ∧
      (count = 7 → t.vu = { s.vu with unanswered := 0, probeTimer := none, probeDue := .join } ∧
        t.su.foundRec = ⟨0, []⟩ ∧ t.su.offer = some .probe)

/-- The record of a cell once its claim is released (R17). -/
def releasedRecord (s : State) (c : CellNo) : Cell :=
  { cellAt s c with holder := none, version := (cellAt s c).version + 1 }

/-- The watches that the claim release of the cells that `frees` picks fires (R17, R151). -/
def firesOnRelease (frees : CellNo → Bool) (s : State) (i : Fin 16) : Bool :=
  let c := (watchAt s i).cell
  frees c && firesOn c (releasedRecord s c) s i

/-- The notices of such a release: cell by cell, and on one cell watch by watch, each ascending (R17, R151). -/
def releaseNotices (frees : CellNo → Bool) (s : State) : List Notice :=
  (allCells.filter frees).flatMap fun c =>
    ((List.finRange 16).filter (firesOn c (releasedRecord s c) s)).map (noticeOf (releasedRecord s c) s)

/-- The PARKED claims that such a release wakes: cell by cell, and on one cell oldest-parked first (R17, R139). -/
def releaseWakes (frees : CellNo → Bool) (s : State) : List Byte :=
  (allCells.filter frees).flatMap fun c =>
    (s.qu.park.filter fun q => q.state == .parked && q.cell == c).map (·.tag)

/-- A parked request after such a release (R95, R139). -/
def wokenBy (frees : CellNo → Bool) (q : Request) : Request :=
  if q.state == .parked && frees q.cell then { q with state := .eligible, attempts := .fresh } else q

/-- What the claim release of the cells that `frees` picks does to WU and QU at a LIVE station: the released cells are
reported in ascending cell order (R17). -/
def ReleaseReported (frees : CellNo → Bool) (s t : State) : Prop :=
  (∀ i, watchAt t i = if firesOnRelease frees s i then { watchAt s i with state := .fired } else watchAt s i) ∧
  t.wu = { s.wu with watches := t.wu.watches, events := s.wu.events ++ releaseNotices frees s } ∧
  t.qu = { s.qu with
    park := s.qu.park.map (wokenBy frees), woken := s.qu.woken ++ releaseWakes frees s }

/-! ## Runs -/

/-- A station every law of which holds. -/
def Sound (s : State) : Prop := RequestLaw s ∧ NoticeLaw s ∧ Coherent s

end Sys2Proof.Machine
end

