-- ==== Sys2Proof/Certificates/Slice0/Obligations.lean ====
section
/-! DEFINITION. The statements for the provers: one definition for each, named as OBLIGATIONS.json lists them. -/

open Sys2Proof Sys2Proof.Machine

/-! ## The queue of commands -/

/-- One step is the command at the front of the queue, run on the state with the rest of the queue; with no command waiting, it
is one bit time of the part's own clock (the model's choice, log entry 3). -/
def Obligations.StepRunsFrontCommand : Prop :=
  (∀ (c : Instr) (s : State), step (s.setPending (c :: s.pending)) = exec c s) ∧
  (∀ s : State, s.pending = [] → step s = .next (tick s))

/-- Every command completes in every state, and none touches the queue of commands, the RST pin and the supply unless it is a
reset command, or the byte on the host data pins unless it is a read. -/
def Obligations.EveryCommandCompletes : Prop :=
  ∀ (c : Instr) (s : State), ∃ t, exec c s = .next t ∧ t.pending = s.pending ∧
    (resetCommand c = false → t.power = s.power ∧ t.rst = s.rst ∧ t.hp.straps = s.hp.straps) ∧
    (c ∉ hostReads → t.hostData = s.hostData ∧ t.freeCount = s.freeCount)

/-! ## Resets -/

/-- What the state right after reset holds: every block at its power-on values, nothing waiting, owed, under judgement or
latched, and every read position at the first byte. -/
def Obligations.ResetStateValues : Prop :=
  let s := State.reset
  s.power = .on ∧ s.rst = false ∧ s.vu.station = .halted ∧ s.vu.view = ⟨0, 0, 0, false, 0, 0⟩ ∧ s.vu.standing = .none ∧
  s.vu.retainedEpoch = 0 ∧ s.vu.unanswered = 0 ∧ s.vu.probeTimer = none ∧ s.vu.admitTimer = none ∧
  s.vu.stallTimer = none ∧ s.vu.leavePending = false ∧ s.vu.foreign = none ∧ s.vu.probeDue = .nothing ∧
  s.vu.admitExpired = false ∧ s.vu.stallOwed = false ∧ s.vu.judged = none ∧
  (∀ c, cellAt s c = ⟨0, none, 0, ⟨false, false, false, false⟩, none⟩) ∧ s.tu.known = 0 ∧
  s.lu.mode = .waitIdle ∧ s.lu.driver = .released ∧ s.lu.idleCount = 0 ∧ s.lu.assertedCount = 0 ∧
  s.lu.deferred = false ∧ s.lu.stuck = false ∧
  s.su.offer = none ∧ s.su.attempt = none ∧ s.su.owedDrop = none ∧ s.su.dropRec = ⟨0, []⟩ ∧ s.su.rosterRec = ⟨0, []⟩ ∧
  s.su.transferRec = ⟨0, []⟩ ∧ s.su.leaveRec = ⟨0, []⟩ ∧ s.su.foundRec = ⟨0, []⟩ ∧ s.su.stallRec = ⟨0, []⟩ ∧
  s.qu.queue = [] ∧ s.qu.park = [] ∧ s.qu.woken = [] ∧ s.qu.completions = [] ∧ s.qu.pos = 0 ∧ s.qu.entry = [] ∧ s.qu.result = .none ∧
  (∀ i, (watchAt s i).state = .free) ∧ s.wu.events = [] ∧ s.wu.pos = 0 ∧ s.wu.result = .none ∧
  s.wu.statePending = false ∧ s.wu.linePending = false ∧ s.wu.enables = ⟨false, false, false, false⟩ ∧
  s.hp.watchBytes = [] ∧ s.hp.controlBytes = [] ∧ s.hp.controlResult = .none ∧ s.hp.cellLatch = none ∧
  s.hp.statusLatch = none ∧ s.hp.viewLatch = none ∧ s.hp.cellPos = 0 ∧ s.hp.statusPos = 0 ∧ s.hp.viewPos = 0

/-- Applying power, and losing it, leave every block at its power-on values, whatever the part last held; POWER_ON
begins the hold, and the hold's end, where RST is released, samples the straps. RST asserted while the part is not held leaves
every block at its RST values, which are those of power-on but for the standing, the retained epoch and the table; asserted
while the part is held already it changes the pin alone. Its release samples the straps and leaves LU idle-waiting, unless the
supply is off or the power-on hold still runs. These are the model's choices: that every block has its power-on values from the
loss of supply on (log entry 11), that the end of a hold that does not run and a release of an RST that is not asserted change
nothing (log entry 12), and, in the equalities with the state after reset, the values of the check register, the line's level
and a FREE watch's fields, the strap latches kept through a hold (log entry 6), and the place of LU in a frame (log entry 22). -/
def Obligations.PowerAndRst : Prop :=
  ∀ s : State,
    (∃ t, exec .powerOn s = .next t ∧ t.power = .hold ∧ t.rst = s.rst ∧ t.lu = State.reset.lu ∧ t.vu = State.reset.vu ∧
      t.tu = State.reset.tu ∧ t.su = State.reset.su ∧ t.qu = State.reset.qu ∧ t.wu = State.reset.wu ∧
      t.hp = { State.reset.hp with straps := s.hp.straps }) ∧
    (∃ t, exec .powerLoss s = .next t ∧ t.power = .off ∧ t.rst = s.rst ∧ t.lu = State.reset.lu ∧ t.vu = State.reset.vu ∧
      t.tu = State.reset.tu ∧ t.su = State.reset.su ∧ t.qu = State.reset.qu ∧ t.wu = State.reset.wu ∧
      t.hp = { State.reset.hp with straps := s.hp.straps }) ∧
    (∀ straps, s.power = .hold → exec (.powerOnHoldEnd straps) s =
      .next (if s.rst = true then { s with power := .on }
        else { s with power := .on, hp := { s.hp with straps := straps }, lu := State.reset.lu })) ∧
    (∀ straps, s.power ≠ .hold → exec (.powerOnHoldEnd straps) s = .next s) ∧
    (held s = false →
      let keeps := s.vu.station = .member ∨ s.vu.standing = .retained
      ∃ t, exec .rstAssert s = .next t ∧ t.power = s.power ∧ t.rst = true ∧ t.lu = State.reset.lu ∧
        t.vu = { State.reset.vu with
          standing := if keeps then .retained else .none
          retainedEpoch := if s.vu.station = .member then s.vu.view.epoch
            else if s.vu.standing = .retained then s.vu.retainedEpoch else 0 } ∧
        t.tu = (if keeps then { s.tu with known := 0 } else State.reset.tu) ∧ t.su = State.reset.su ∧
        t.qu = State.reset.qu ∧ t.wu = State.reset.wu ∧ t.hp = { State.reset.hp with straps := s.hp.straps } ∧
        t.hostData = s.hostData) ∧
    (held s = true → exec .rstAssert s = .next { s with rst := true }) ∧
    (∀ straps, s.rst = true → exec (.rstRelease straps) s =
      .next (if s.power = .on then { s with rst := false, hp := { s.hp with straps := straps }, lu := State.reset.lu }
        else { s with rst := false })) ∧
    (∀ straps, s.rst = false → exec (.rstRelease straps) s = .next s)

/-- RST, taken while the part is not held, and HALT leave the records, the chunk-known flags, the standing and the
retained epoch as the table of R10 says. -/
def Obligations.ResetsAndTheTable : Prop :=
  (∀ s : State, ∃ t, exec .powerOn s = .next t ∧ (∀ c, cellAt t c = Cell.powerOn) ∧ t.tu.known = 0 ∧
    t.vu.standing = .none ∧ t.vu.retainedEpoch = 0 ∧ t.vu.judged = none) ∧
  (∀ s : State, held s = false → ∃ t, exec .rstAssert s = .next t ∧ t.rst = true ∧ t.tu.known = 0 ∧
    t.vu.judged = none ∧ t.qu.completions = [] ∧ t.wu.events = [] ∧
    (s.vu.station = .member → t.tu.cells = s.tu.cells ∧ t.vu.standing = .retained ∧
      t.vu.retainedEpoch = s.vu.view.epoch) ∧
    (s.vu.station ≠ .member → s.vu.standing = .retained →
      t.tu.cells = s.tu.cells ∧ t.vu.standing = .retained ∧ t.vu.retainedEpoch = s.vu.retainedEpoch) ∧
    (s.vu.station ≠ .member → s.vu.standing ≠ .retained →
      (∀ c, cellAt t c = Cell.powerOn) ∧ t.vu.standing = .none ∧ t.vu.retainedEpoch = 0)) ∧
  (∀ s : State, held s = false → StandingLaw s → s.hp.controlBytes = [] → ∃ t, exec .halt s = .next t ∧ t.tu.known = 0 ∧
    t.vu.station = .halted ∧ (s.vu.station ≠ .halted → t.vu.judged = none) ∧
    (s.vu.station = .member → t.tu.cells = s.tu.cells ∧ t.vu.standing = .retained ∧
      t.vu.retainedEpoch = s.vu.view.epoch) ∧
    (s.vu.station = .joining ∨ s.vu.station = .admitting →
      (∀ c, cellAt t c = Cell.powerOn) ∧ t.vu.standing = .none ∧ t.vu.retainedEpoch = 0) ∧
    (s.vu.station = .listening ∨ s.vu.station = .halted →
      t.tu.cells = s.tu.cells ∧ t.vu.standing = s.vu.standing ∧ t.vu.retainedEpoch = s.vu.retainedEpoch))

/-- While the part is held, every command but a read and those of the resets changes nothing, and ATN is released; with
supply, a read answers the empty indication 00h. That this holds without supply too is the model's choice (log entry 11). -/
def Obligations.HeldPartIsSilent : Prop :=
  ∀ (c : Instr) (s : State), held s = true → resetCommand c = false →
    atn s = false ∧
    (c ∉ hostReads → exec c s = .next s) ∧
    (c ∈ hostReads → s.power ≠ .off → exec c s = .next { s with hostData := 0 })

/-! ## Requests and completions -/

/-- A byte written to REQUEST before the seventh is stored in the entry buffer, and nothing else changes. A read of REQUEST
returns the last admission result and discards a partial entry. -/
def Obligations.RequestPort : Prop :=
  ∀ s : State, held s = false →
    (∀ b, s.qu.entry.length < 6 →
      exec (.requestWrite b) s = .next { s with qu := { s.qu with entry := s.qu.entry ++ [b] } }) ∧
    exec .requestRead s = .next { s with
      hostData := match s.qu.result with
        | .none => 0 | .accepted => 1 | .full => 2 | .badOperand => 3 | .duplicateTag => 4 | .halted => 5
      qu := { s.qu with entry := [] } }

/-- The seventh byte of an entry is judged by the tests of R135 in their order: the first that fails gives the result; an
entry that passes joins the tail of the queue as QUEUED. SU then works out its offer again. Nothing else of QU changes, and
no block but SU. -/
def Obligations.SubmissionJudged : Prop :=
  ∀ (s : State) (b0 b1 b2 b3 b4 b5 b6 : Byte), held s = false → s.qu.entry = [b0, b1, b2, b3, b4, b5] →
    let code := b0.toNat % 128
    let a : Half := b3 ++ b4
    let bad := code = 0 ∨ 13 < code ∨ 127 < b2.toNat ∨ ((code = 6 ∨ code = 7 ∨ code = 8) ∧ 15 < a.toNat)
    let known := ∃ q ∈ s.qu.queue ++ s.qu.park, q.tag = b1
    let full := s.qu.queue.length ≥ 8 ∨ s.qu.queue.length + s.qu.park.length + s.qu.completions.length ≥ 16
    ∃ t, exec (.requestWrite b6) s = .next t ∧ t.qu.entry = [] ∧
      (s.vu.station = .halted → t.qu.result = .halted) ∧
      (s.vu.station ≠ .halted → bad → t.qu.result = .badOperand) ∧
      (s.vu.station ≠ .halted → ¬bad → known → t.qu.result = .duplicateTag) ∧
      (s.vu.station ≠ .halted → ¬bad → ¬known → full → t.qu.result = .full) ∧
      (s.vu.station ≠ .halted → ¬bad → ¬known → ¬full → t.qu.result = .accepted ∧
        ∃ op, opCode op = code ∧ t.qu.queue = s.qu.queue ++
          [⟨b1, op, b0.getLsbD 7, b2.truncate 7, a, b5 ++ b6, .queued, ⟨0, []⟩, false⟩]) ∧
      (t.qu.result ≠ .accepted → t.qu.queue = s.qu.queue ∧ t.su = s.su) ∧
      (t.qu.result = .accepted → s.su.attempt = none → SendingSettled s t) ∧
      t.qu.park = s.qu.park ∧ t.qu.woken = s.qu.woken ∧ t.qu.completions = s.qu.completions ∧ t.qu.pos = s.qu.pos ∧
      t.lu = s.lu ∧ t.vu = s.vu ∧ t.tu = s.tu ∧ t.wu = s.wu ∧ t.hp = s.hp ∧ t.su.attempt = s.su.attempt

/-- A read of COMPLETION: the empty indication from an empty queue; otherwise the byte at the read position, which moves on,
and the read of the 11th byte removes the record. -/
def Obligations.CompletionRead : Prop :=
  ∀ s : State, held s = false →
    (s.qu.completions = [] → exec .completionRead s = .next { s with hostData := 0 }) ∧
    (∀ c rest, s.qu.completions = c :: rest →
      ∃ t, exec .completionRead s = .next t ∧
        t.hostData &&& (byteAt (completionBytes c) s.qu.pos.val).given
          = (byteAt (completionBytes c) s.qu.pos.val).value &&& (byteAt (completionBytes c) s.qu.pos.val).given ∧
        (s.qu.pos.val < 10 → t.qu = { s.qu with pos := s.qu.pos + 1 }) ∧
        (s.qu.pos.val = 10 → t.qu = { s.qu with completions := rest, pos := 0 }) ∧
        t.lu = s.lu ∧ t.vu = s.vu ∧ t.tu = s.tu ∧ t.su = s.su ∧ t.wu = s.wu ∧ t.hp = s.hp)

/-- CANCEL answers at once: a QUEUED, PARKED or ELIGIBLE request is removed, CANCELLED posted for it, and SU's offer worked
out again, one in attempt is marked, and an unknown tag changes nothing in QU. -/
def Obligations.CancelJudged : Prop :=
  ∀ (s : State) (tag : Byte), held s = false → s.hp.controlBytes = [] →
    ((∀ q ∈ s.qu.queue ++ s.qu.park, q.tag ≠ tag) →
      exec (.cancel tag) s = .next { s with hp := { s.hp with controlResult := .noSuchTag } }) ∧
    (∀ q, ((s.qu.queue ++ s.qu.park).map (·.tag)).Nodup → q ∈ s.qu.queue ++ s.qu.park → q.tag = tag →
      ∃ t, exec (.cancel tag) s = .next t ∧ t.lu = s.lu ∧ t.vu = s.vu ∧ t.tu = s.tu ∧ t.wu = s.wu ∧
        t.su.attempt = s.su.attempt ∧ t.qu.entry = s.qu.entry ∧ t.qu.result = s.qu.result ∧ t.qu.pos = s.qu.pos ∧
        (q.state = .inAttempt → t.hp.controlResult = .cancelPending ∧ t.qu.completions = s.qu.completions ∧
          t.qu.woken = s.qu.woken ∧
          t.qu.queue = s.qu.queue.map (fun r => if r.tag = tag then { r with cancelMark := true } else r) ∧
          t.qu.park = s.qu.park.map (fun r => if r.tag = tag then { r with cancelMark := true } else r)) ∧
        (q.state ≠ .inAttempt → t.hp.controlResult = .cancelledNow ∧ (s.su.attempt = none → SendingSettled s t) ∧
          t.qu.queue = s.qu.queue.filter (fun r => r.tag ≠ tag) ∧ t.qu.park = s.qu.park.filter (fun r => r.tag ≠ tag) ∧
          t.qu.woken = s.qu.woken.filter (fun r => r ≠ tag) ∧
          t.qu.completions = s.qu.completions ++ [⟨tag, q.op, q.wait, q.cell, .cancelled,
            (if s.vu.standing = .live then (cellAt s q.cell).value else 0),
            (if s.vu.standing = .live then (cellAt s q.cell).holder else none),
            (if s.vu.standing = .live then (cellAt s q.cell).version else 0),
            ⟨false, false, false, false⟩, q.attempts.count, s.vu.view.epoch, false⟩]))

/-! ## The host port -/

/-- An index written to CELL latches the standing and the record: power-on values at NONE and in an unknown chunk of a
PENDING copy, the record elsewhere; a chunk is shown as known in a PENDING copy alone; indexes 128 to 255 name cells 0 to 127 again. The bytes read afterwards come from the
latch, in turn, and back to the first after the seventh; before any index the empty indication is read. -/
def Obligations.CellSnapshot : Prop :=
  ∀ s : State, held s = false →
    (∀ index : Byte, let c : CellNo := index.truncate 7
      ∃ x, exec (.cellIndexWrite index) s = .next { s with hp := { s.hp with cellLatch := some x, cellPos := 0 } } ∧
        x.standing = s.vu.standing ∧ (s.vu.standing ≠ .pending → x.known = false) ∧
        (s.vu.standing = .none → x.record = Cell.powerOn) ∧
        (s.vu.standing = .retained ∨ s.vu.standing = .live → x.record = cellAt s c) ∧
        (s.vu.standing = .pending → x.known = s.tu.known.getLsbD (c.toNat / 8) ∧
          x.record = if s.tu.known.getLsbD (c.toNat / 8) then cellAt s c else Cell.powerOn)) ∧
    (s.hp.cellLatch = none → exec .cellRead s = .next { s with hostData := 0 }) ∧
    (∀ x, s.hp.cellLatch = some x → ∃ t, exec .cellRead s = .next t ∧
      t.hostData &&& (byteAt (snapshotBytes x) s.hp.cellPos.val).given
        = (byteAt (snapshotBytes x) s.hp.cellPos.val).value &&& (byteAt (snapshotBytes x) s.hp.cellPos.val).given ∧
      t.hp = { s.hp with cellPos := s.hp.cellPos + 1 } ∧
      t.lu = s.lu ∧ t.vu = s.vu ∧ t.tu = s.tu ∧ t.su = s.su ∧ t.qu = s.qu ∧ t.wu = s.wu)

/-- The read of the first byte of STATUS latches the whole status, field by field, makes STATE and LINE not pending and clears
FOREIGN, and nothing else; a later byte comes from the latch and clears nothing. -/
def Obligations.StatusRead : Prop :=
  ∀ s : State, held s = false →
    (s.hp.statusPos = 0 → ∃ t, exec .statusRead s = .next t ∧
      t.hostData = (match s.vu.station with
        | .halted => 0 | .listening => 1 | .admitting => 2 | .joining => 3 | .member => 4) ∧
      t.wu = { s.wu with statePending := false, linePending := false } ∧ t.vu = { s.vu with foreign := none } ∧
      t.hp = { s.hp with
        statusPos := 1
        statusLatch := some {
          station := s.vu.station, standing := s.vu.standing, retainedEpoch := s.vu.retainedEpoch
          epoch := s.vu.view.epoch, straps := s.hp.straps, unanswered := s.vu.unanswered
          leavePending := s.vu.leavePending
          leaveHeld := s.vu.leavePending && decide (s.vu.view.full = only (own s)) && decide (s.vu.view.joiners ≠ 0)
          deferred := s.lu.deferred, stuck := s.lu.stuck
          statePending := s.wu.statePending, linePending := s.wu.linePending, foreign := s.vu.foreign
          queued := s.qu.queue.length, parked := s.qu.park.length
          completions := s.qu.completions.length, notices := s.wu.events.length } } ∧
      t.lu = s.lu ∧ t.tu = s.tu ∧ t.su = s.su ∧ t.qu = s.qu) ∧
    (∀ x, s.hp.statusPos ≠ 0 → s.hp.statusLatch = some x → ∃ t, exec .statusRead s = .next t ∧
      t.hostData &&& (byteAt (statusBytes x) s.hp.statusPos.val).given
        = (byteAt (statusBytes x) s.hp.statusPos.val).value &&& (byteAt (statusBytes x) s.hp.statusPos.val).given ∧
      t.hp = { s.hp with statusPos := s.hp.statusPos + 1 } ∧
      t.lu = s.lu ∧ t.vu = s.vu ∧ t.tu = s.tu ∧ t.su = s.su ∧ t.qu = s.qu ∧ t.wu = s.wu)

/-- The bytes of a completion record, of STATUS and of a cell snapshot carry their fields in the order and at the bits of the
layout chapter; the bits that it gives no content are no part of what a read gives (free values, log entry 5), and every other
bit is. -/
def Obligations.ReadLayouts : Prop :=
  (∀ c : Completion,
      let value (i : Nat) := (byteAt (completionBytes c) i).value
      (completionBytes c).length = 11 ∧
      (value 0).toNat = (match c.ending with
        | .done => 1 | .unequal => 2 | .held => 3 | .notHeld => 4 | .cancelled => 5 | .failed => 6 | .withdrawn => 7) ∧
      value 1 = c.tag ∧ (value 2).toNat = opCode c.op + (if c.wait then 128 else 0) ∧ (value 3).toNat = c.cell.toNat ∧
      value 4 ++ value 5 = c.value ∧
      (value 6).toNat = (match c.holder with | some n => n.toNat | none => 63) ∧ value 7 = c.version ∧
      (value 8).getLsbD 3 = c.flags.c ∧ (value 8).getLsbD 2 = c.flags.z ∧ (value 8).getLsbD 1 = c.flags.s ∧
      (value 8).getLsbD 0 = c.flags.v ∧ (value 8).getLsbD 7 = c.late ∧
      (c.attempts ≤ 8 → (value 9).toNat = c.attempts) ∧ value 10 = c.epoch ∧
      ∀ i, i < 11 → (byteAt (completionBytes c) i).given = if i = 8 then 0x8F else 0xFF) ∧
  (∀ x : Status,
      let value (i : Nat) := (byteAt (statusBytes x) i).value
      (statusBytes x).length = 12 ∧
      (value 0).toNat = (match x.station with
        | .halted => 0 | .listening => 1 | .admitting => 2 | .joining => 3 | .member => 4) ∧
      (value 1).toNat = (match x.standing with | .none => 1 | .retained => 2 | .pending => 3 | .live => 4) ∧
      value 2 = x.retainedEpoch ∧ value 3 = x.epoch ∧
      (value 4).toNat = x.straps.sn.toNat ∧ (value 5).toNat % 4 = x.straps.br.toNat ∧ (value 5).getLsbD 7 = x.straps.fp ∧
      (x.unanswered ≤ 3 → (value 6).toNat % 4 = x.unanswered) ∧ (value 6).getLsbD 2 = x.leavePending ∧
      (value 6).getLsbD 3 = x.leaveHeld ∧ (value 6).getLsbD 4 = x.deferred ∧ (value 6).getLsbD 5 = x.stuck ∧
      (value 6).getLsbD 6 = x.statePending ∧ (value 6).getLsbD 7 = x.linePending ∧
      (value 7).getLsbD 7 = x.foreign.isSome ∧ (value 7).toNat % 32 = (x.foreign.map (·.toNat)).getD 0 ∧
      (x.queued ≤ 8 → (value 8).toNat = x.queued) ∧ (x.parked ≤ 4 → (value 9).toNat = x.parked) ∧
      (x.completions ≤ 16 → (value 10).toNat = x.completions) ∧ (x.notices ≤ 16 → (value 11).toNat = x.notices) ∧
      ∀ i, i < 12 → (byteAt (statusBytes x) i).given = if i = 5 then 0x83 else if i = 7 then 0x9F else 0xFF) ∧
  (∀ x : Snapshot,
      let value (i : Nat) := (byteAt (snapshotBytes x) i).value
      (snapshotBytes x).length = 7 ∧
      (value 0).toNat % 8 = (match x.standing with | .none => 1 | .retained => 2 | .pending => 3 | .live => 4) ∧
      (value 0).getLsbD 7 = x.known ∧ value 1 ++ value 2 = x.record.value ∧
      (value 3).toNat = (match x.record.holder with | some n => n.toNat | none => 63) ∧ value 4 = x.record.version ∧
      (value 5).getLsbD 3 = x.record.flags.c ∧ (value 5).getLsbD 2 = x.record.flags.z ∧
      (value 5).getLsbD 1 = x.record.flags.s ∧ (value 5).getLsbD 0 = x.record.flags.v ∧
      (value 6).toNat = (match x.record.writer with | some n => n.toNat | none => 63) ∧
      (byteAt (snapshotBytes x) 0).given = 0x87 ∧ (byteAt (snapshotBytes x) 5).given = 0x0F ∧
      ∀ i, i ≠ 0 → i ≠ 5 → i < 7 → (byteAt (snapshotBytes x) i).given = 0xFF)

/-- A read of VIEW: the first byte latches both masks, every byte comes from the latch, the full mask first and each most
significant byte first, and the read clears nothing. -/
def Obligations.ViewRead : Prop :=
  ∀ s : State, held s = false →
    let masks : Option (Mask × Mask) :=
      if s.hp.viewPos = 0 then some (s.vu.view.full, s.vu.view.joiners) else s.hp.viewLatch
    ∀ full joiners, masks = some (full, joiners) →
      exec .viewRead s = .next { s with
        hostData := ((full ++ joiners).extractLsb' (8 * (7 - s.hp.viewPos.val)) 8)
        hp := { s.hp with viewLatch := some (full, joiners), viewPos := s.hp.viewPos + 1 } }

/-- A write to COMPLETION, NOTICE, STATUS or VIEW returns that port's position to the first byte, and nothing else: the data
byte is disregarded. -/
def Obligations.SequenceRestart : Prop :=
  ∀ (s : State) (data : Byte), held s = false →
    exec (.sequenceRestart .completion data) s = .next { s with qu := { s.qu with pos := 0 } } ∧
    exec (.sequenceRestart .notice data) s = .next { s with wu := { s.wu with pos := 0 } } ∧
    exec (.sequenceRestart .status data) s = .next { s with hp := { s.hp with statusPos := 0 } } ∧
    exec (.sequenceRestart .view data) s = .next { s with hp := { s.hp with viewPos := 0 } }

/-- The eight ports and their sequences. Each access of the host, a read or a byte written at one of the addresses 0 to 7, is
the command of the port that the address selects; at WATCH and CONTROL the byte is the command's first, another of it, or its
last, by the bytes that are kept. An access to one port leaves the other ports' sequences where they stood, but for a DISARM,
which may move that of NOTICE. A byte that a WATCH or CONTROL command still needs more after is kept, a first byte that begins
none ends its sequence with BAD-WATCH or BAD-COMMAND, and a read of the port discards what is kept and returns the last result.
That ARM, DISARM, CANCEL and MASK, taken while the first bytes of their own sequence are kept, write the bytes still to come,
and so do what they do from no bytes at all, is the model's choice (log entry 2). -/
def Obligations.PartialSequences : Prop :=
  (∀ (s : State) (b : Byte),
    accessOf 0 none s = .requestRead ∧ accessOf 1 none s = .completionRead ∧ accessOf 2 none s = .cellRead ∧
    accessOf 3 none s = .watchRead ∧ accessOf 4 none s = .noticeRead ∧ accessOf 5 none s = .statusRead ∧
    accessOf 6 none s = .viewRead ∧ accessOf 7 none s = .controlRead ∧
    accessOf 0 (some b) s = .requestWrite b ∧ accessOf 1 (some b) s = .sequenceRestart .completion b ∧
    accessOf 2 (some b) s = .cellIndexWrite b ∧ accessOf 4 (some b) s = .sequenceRestart .notice b ∧
    accessOf 5 (some b) s = .sequenceRestart .status b ∧ accessOf 6 (some b) s = .sequenceRestart .view b ∧
    (s.hp.watchBytes = [] → accessOf 3 (some b) s =
      if b.toNat = 1 ∨ b.toNat = 2 then .partialSequenceWrite .watch b else .watchBadFirstByte b) ∧
    (s.hp.watchBytes = [2] → accessOf 3 (some b) s = .disarm b) ∧
    (∀ rest, s.hp.watchBytes = 1 :: rest → rest.length < 5 → accessOf 3 (some b) s = .partialSequenceWrite .watch b) ∧
    (∀ watch cell test high low, s.hp.watchBytes = [1, watch, cell, test, high, low] →
      accessOf 3 (some b) s = .arm watch cell test (high ++ low) b) ∧
    (s.hp.controlBytes = [] → accessOf 7 (some b) s =
      if b.toNat = 1 then .start
      else if b.toNat = 2 then .halt
      else if b.toNat = 3 then .leaveCommand
      else if b.toNat = 4 ∨ b.toNat = 5 then .partialSequenceWrite .control b
      else .controlBadFirstByte b) ∧
    (s.hp.controlBytes = [4] → accessOf 7 (some b) s = .cancel b) ∧
    (s.hp.controlBytes = [5] → accessOf 7 (some b) s = .mask b)) ∧
  (∀ (s : State) (address : BitVec 3) (written : Option Byte), held s = false →
    ∃ t, exec (accessOf address written s) s = .next t ∧
      (address ≠ 0 → t.qu.entry = s.qu.entry) ∧ (address ≠ 1 → t.qu.pos = s.qu.pos) ∧
      (address ≠ 2 → t.hp.cellPos = s.hp.cellPos) ∧ (address ≠ 3 → t.hp.watchBytes = s.hp.watchBytes) ∧
      (address ≠ 4 → (∀ b, accessOf address written s ≠ .disarm b) → t.wu.pos = s.wu.pos) ∧
      (address ≠ 5 → t.hp.statusPos = s.hp.statusPos) ∧ (address ≠ 6 → t.hp.viewPos = s.hp.viewPos) ∧
      (address ≠ 7 → t.hp.controlBytes = s.hp.controlBytes)) ∧
  (∀ (s : State) (b : Byte), held s = false →
    (s.hp.watchBytes = [] → b.toNat ≠ 1 → b.toNat ≠ 2 →
      exec (.watchBadFirstByte b) s = .next { s with wu := { s.wu with result := .badWatch } }) ∧
    (s.hp.controlBytes = [] → b.toNat = 0 ∨ 5 < b.toNat →
      exec (.controlBadFirstByte b) s = .next { s with hp := { s.hp with controlResult := .badCommand } }) ∧
    (s.hp.watchBytes = [] → b.toNat = 1 ∨ b.toNat = 2 →
      exec (.partialSequenceWrite .watch b) s = .next { s with hp := { s.hp with watchBytes := [b] } }) ∧
    (∀ rest, s.hp.watchBytes = 1 :: rest → rest.length < 5 →
      exec (.partialSequenceWrite .watch b) s = .next { s with hp := { s.hp with watchBytes := 1 :: rest ++ [b] } }) ∧
    (s.hp.controlBytes = [] → b.toNat = 4 ∨ b.toNat = 5 →
      exec (.partialSequenceWrite .control b) s = .next { s with hp := { s.hp with controlBytes := [b] } }) ∧
    exec .watchRead s = .next { s with
      hostData := match s.wu.result with
        | .none => 0 | .taken => 1 | .busyWatch => 2 | .badWatch => 3 | .freed => 4 | .notInUse => 5
        | .noticeRemoved => 6
      hp := { s.hp with watchBytes := [] } }) ∧
  (∀ (s : State) (kept : List Byte), held s = false →
    let watching : State := { s with hp := { s.hp with watchBytes := kept } }
    let controlling : State := { s with hp := { s.hp with controlBytes := kept } }
    (∀ watch cell test operand tag, s.hp.watchBytes = [] →
      kept <+: [1, watch, cell, test, operand.extractLsb' 8 8, operand.extractLsb' 0 8] →
      exec (.arm watch cell test operand tag) watching = exec (.arm watch cell test operand tag) s ∧
      (kept.length = 6 →
        exec (.partialSequenceWrite .watch tag) watching = exec (.arm watch cell test operand tag) s)) ∧
    (∀ watch, s.hp.watchBytes = [] → kept = [2] →
      exec (.disarm watch) watching = exec (.disarm watch) s ∧
      exec (.partialSequenceWrite .watch watch) watching = exec (.disarm watch) s) ∧
    (∀ tag, s.hp.controlBytes = [] → kept = [4] →
      exec (.cancel tag) controlling = exec (.cancel tag) s ∧
      exec (.partialSequenceWrite .control tag) controlling = exec (.cancel tag) s) ∧
    (∀ m, s.hp.controlBytes = [] → kept = [5] →
      exec (.mask m) controlling = exec (.mask m) s ∧
      exec (.partialSequenceWrite .control m) controlling = exec (.mask m) s))

/-- A read of CONTROL returns the highest-ranked cause that is pending and enabled in bits 7 to 5, bit 4 as 0 and the last
control result in bits 3 to 0; it clears neither. ATN is asserted exactly while that cause is not NONE. -/
def Obligations.ControlRead : Prop :=
  ∀ s : State, held s = false →
    let state := s.wu.statePending && s.wu.enables.state
    let line := s.wu.linePending && s.wu.enables.line
    let notice := decide (s.wu.events ≠ []) && s.wu.enables.notice
    let done := decide (s.qu.completions ≠ []) && s.wu.enables.done
    let cause := if state then 1 else if line then 2 else if notice then 3 else if done then 4 else 0
    let result := match s.hp.controlResult with
      | .none => 0 | .taken => 1 | .notHalted => 2 | .notMember => 3 | .cancelledNow => 4 | .cancelPending => 5
      | .noSuchTag => 6 | .badCommand => 7
    exec .controlRead s = .next { s with
      hostData := BitVec.ofNat 8 (32 * cause + result), hp := { s.hp with controlBytes := [] } } ∧
    (atn s = true ↔ cause ≠ 0)

/-! ## Watches -/

/-- ARM is judged at its last byte: BAD-WATCH, BUSY-WATCH or TAKEN; a taken ARM fills the watch with the test of its code, and in MEMBER takes the
cell's version as the reference and fires at once where the test holds. -/
def Obligations.ArmJudged : Prop :=
  ∀ (s : State) (watch cell test : Byte) (operand : Half) (tag : Byte), held s = false → s.hp.watchBytes = [] →
    let bad := 15 < watch.toNat ∨ 127 < cell.toNat ∨ test.toNat = 0 ∨ 18 < test.toNat ∨
      ((test.toNat = 11 ∨ test.toNat = 12) ∧ 15 < operand.toNat)
    (bad → exec (.arm watch cell test operand tag) s = .next { s with wu := { s.wu with result := .badWatch } }) ∧
    (∀ i : Fin 16, ¬bad → i.val = watch.toNat →
      ((watchAt s i).state ≠ .free →
        exec (.arm watch cell test operand tag) s = .next { s with wu := { s.wu with result := .busyWatch } }) ∧
      ((watchAt s i).state = .free → ∃ (w : Watch) (c : CellNo), w.test = (match test.toNat with
          | 1 => .eq | 2 => .ne | 3 => .lt | 4 => .ge | 5 => .le | 6 => .gt | 7 => .ult | 8 => .uge | 9 => .ule | 10 => .ugt
          | 11 => .bitOne | 12 => .bitZero | 13 => .free | 14 => .held | 15 => .mine | 16 => .changed | 17 => .carry
          | _ => .overflow) ∧ w.state = .armed ∧
        w.cell = c ∧ c.toNat = cell.toNat ∧ w.operand = operand ∧ w.tag = tag ∧
        w.reference = (if s.vu.station = .member then (cellAt s c).version else 0) ∧
        let fires := s.vu.station = .member ∧ testHolds (own s) w.test operand w.reference (cellAt s c) = true
        (¬fires → exec (.arm watch cell test operand tag) s = .next { s with wu := { s.wu with
          result := .taken, watches := s.wu.watches.set i w } }) ∧
        (fires → exec (.arm watch cell test operand tag) s = .next { s with wu := { s.wu with
          result := .taken, watches := s.wu.watches.set i { w with state := .fired }
          events := s.wu.events ++ [⟨i, tag, .met, (cellAt s c).value, (cellAt s c).holder, (cellAt s c).version⟩] } })))

/-- DISARM frees an ARMED watch; for a FIRED one it removes its notice too, and returns the read position to the first byte
when that notice was the head. That a watch made FREE keeps its other fields is the model's choice (log entry 24). -/
def Obligations.DisarmJudged : Prop :=
  ∀ (s : State) (watch : Byte), held s = false → s.hp.watchBytes = [] →
    (15 < watch.toNat → exec (.disarm watch) s = .next { s with wu := { s.wu with result := .badWatch } }) ∧
    (∀ i : Fin 16, i.val = watch.toNat →
      ((watchAt s i).state = .free →
        exec (.disarm watch) s = .next { s with wu := { s.wu with result := .notInUse } }) ∧
      ((watchAt s i).state = .armed → exec (.disarm watch) s = .next { s with wu := { s.wu with
        result := .freed, watches := s.wu.watches.set i { watchAt s i with state := .free } } }) ∧
      ((watchAt s i).state = .fired → exec (.disarm watch) s = .next { s with wu := { s.wu with
        result := .noticeRemoved
        watches := s.wu.watches.set i { watchAt s i with state := .free }
        events := s.wu.events.filter (fun n => n.watch ≠ i)
        pos := if (s.wu.events.head?.map (·.watch)) = some i then 0 else s.wu.pos } }))

/-- The 18 tests, each as the manual's condition on the whole record. -/
def Obligations.WatchTests : Prop :=
  ∀ (me : Station) (operand : Half) (ref : Byte) (r : Cell),
    let v := r.value.toNat
    let n := operand.toNat
    let signed (x : Nat) : Int := if 32768 ≤ x then (x : Int) - 65536 else x
    (testHolds me .eq operand ref r = true ↔ v = n) ∧ (testHolds me .ne operand ref r = true ↔ v ≠ n) ∧
    (testHolds me .lt operand ref r = true ↔ signed v < signed n) ∧
    (testHolds me .ge operand ref r = true ↔ signed v ≥ signed n) ∧
    (testHolds me .le operand ref r = true ↔ signed v ≤ signed n) ∧
    (testHolds me .gt operand ref r = true ↔ signed v > signed n) ∧
    (testHolds me .ult operand ref r = true ↔ v < n) ∧ (testHolds me .uge operand ref r = true ↔ v ≥ n) ∧
    (testHolds me .ule operand ref r = true ↔ v ≤ n) ∧ (testHolds me .ugt operand ref r = true ↔ v > n) ∧
    (n ≤ 15 → (testHolds me .bitOne operand ref r = true ↔ v / 2 ^ n % 2 = 1)) ∧
    (n ≤ 15 → (testHolds me .bitZero operand ref r = true ↔ v / 2 ^ n % 2 = 0)) ∧
    (testHolds me .free operand ref r = true ↔ r.holder = none) ∧
    (testHolds me .held operand ref r = true ↔ r.holder ≠ none) ∧
    (testHolds me .mine operand ref r = true ↔ r.holder = some me) ∧
    (testHolds me .changed operand ref r = true ↔ r.version ≠ ref) ∧
    (testHolds me .carry operand ref r = true ↔ r.flags.c = true) ∧
    (testHolds me .overflow operand ref r = true ↔ r.flags.v = true)

/-- A read of NOTICE: the empty indication from an empty queue; otherwise the byte at the read position, which moves on, and
the read of the 7th byte removes the notice and makes its watch FREE. That a watch made FREE keeps its other fields is the
model's choice (log entry 24). -/
def Obligations.NoticeRead : Prop :=
  ∀ s : State, held s = false →
    (s.wu.events = [] → exec .noticeRead s = .next { s with hostData := 0 }) ∧
    (∀ n rest, s.wu.events = n :: rest →
      let value := match s.wu.pos.val with
        | 0 => (match n.reason with | .met => 1 | .lost => 2)
        | 1 => n.watch.val
        | 2 => n.tag.toNat
        | 3 => n.value.toNat / 256
        | 4 => n.value.toNat % 256
        | 5 => (match n.holder with | some h => h.toNat | none => 63)
        | _ => n.version.toNat
      exec .noticeRead s = .next { s with
        hostData := BitVec.ofNat 8 value
        wu := if s.wu.pos.val < 6 then { s.wu with pos := s.wu.pos + 1 }
          else { s.wu with pos := 0, events := rest,
                           watches := s.wu.watches.set n.watch { watchAt s n.watch with state := .free } } })

/-! ## The control commands -/

/-- HALT in every state: the driver released, DEFERRED cleared, the requests retired WITHDRAWN in order, each record with the
cell as a LIVE copy has it, the attempts made, the epoch of the view being left and the late-cancel mark where it was marked,
SU and the view record emptied, timers and the pending LEAVE cleared, HALTED; from MEMBER the ARMED watches are LOST, their
notices in ascending watch number behind those that stood; in HALTED it changes nothing but the result. FOREIGN, LINE-STUCK,
the idle count, the count of asserted bit times and the enable mask are left as they were. -/
def Obligations.HaltCommand : Prop :=
  ∀ s : State, held s = false → s.hp.controlBytes = [] →
    (s.vu.station = .halted → exec .halt s = .next { s with hp := { s.hp with controlResult := .taken } }) ∧
    (s.vu.station ≠ .halted → ∃ t, exec .halt s = .next t ∧ t.vu.station = .halted ∧
      t.lu.driver = .released ∧ t.lu.deferred = false ∧ t.lu.stuck = s.lu.stuck ∧ t.lu.idleCount = s.lu.idleCount ∧
      t.lu.assertedCount = s.lu.assertedCount ∧ t.su = State.reset.su ∧ t.vu.view = ⟨0, 0, 0, false, 0, 0⟩ ∧ t.vu.unanswered = 0 ∧ t.vu.probeTimer = none ∧
      t.vu.admitTimer = none ∧ t.vu.stallTimer = none ∧ t.vu.leavePending = false ∧ t.vu.judged = none ∧
      t.vu.foreign = s.vu.foreign ∧ t.qu = allWithdrawn s ∧ ExitReported s t ∧
      t.hp = { s.hp with controlResult := .taken })

/-- START in HALTED puts the station in LISTENING with a JOIN due and STATE pending, and leaves the standing, the retained
epoch and the table, and a frame under judgement; in any other state it is answered NOT-HALTED and has no effect. LEAVE at MEMBER sets the pending LEAVE, which SU offers in the order of R80 unless it is held back;
elsewhere it is answered NOT-MEMBER and has no effect. MASK sets the enable mask from bits 3 to 0 of its data byte, and nothing
else changes but the result. -/
def Obligations.ControlCommands : Prop :=
  (∀ s : State, held s = false → s.hp.controlBytes = [] →
    (s.vu.station = .halted → ∃ t, exec .start s = .next t ∧ t.vu.station = .listening ∧ t.vu.unanswered = 0 ∧
      t.vu.probeTimer = none ∧ t.vu.probeDue = .join ∧ t.vu.standing = s.vu.standing ∧
      t.vu.retainedEpoch = s.vu.retainedEpoch ∧ t.vu.judged = s.vu.judged ∧ t.tu = s.tu ∧ t.lu = s.lu ∧ t.qu = s.qu ∧
      (s.su.attempt = none → t.su.offer = some .probe) ∧
      t.wu = { s.wu with statePending := true } ∧ t.hp = { s.hp with controlResult := .taken }) ∧
    (s.vu.station ≠ .halted →
      exec .start s = .next { s with hp := { s.hp with controlResult := .notHalted } })) ∧
  (∀ s : State, held s = false → s.hp.controlBytes = [] →
    (s.vu.station = .member → ∃ t, exec .leaveCommand s = .next t ∧ t.vu = { s.vu with leavePending := true } ∧
      t.su.attempt = s.su.attempt ∧ (s.su.attempt = none → SendingSettled s t) ∧
      t.lu = s.lu ∧ t.tu = s.tu ∧ t.qu = s.qu ∧ t.wu = s.wu ∧ t.hp = { s.hp with controlResult := .taken }) ∧
    (s.vu.station ≠ .member →
      exec .leaveCommand s = .next { s with hp := { s.hp with controlResult := .notMember } })) ∧
  (∀ (s : State) (m : Byte), held s = false → s.hp.controlBytes = [] →
    exec (.mask m) s = .next { s with
      wu := { s.wu with enables := ⟨m.getLsbD 3, m.getLsbD 2, m.getLsbD 1, m.getLsbD 0⟩ }
      hp := { s.hp with controlResult := .taken } })

/-! ## The line -/

/-- The line becoming idle, the clock of the line, and another station's start bit. LINE_IDLE takes a count below 12 to 12 at
once, from where LU decodes again (the model's choice, log entry 3). A bit time, the model's step on an empty queue (log
entry 3), takes the count of a resting line one higher up to 24, clears DEFERRED where it reaches 24, after which SU works
out its offer again, and then does what FRAME_START does: the item on offer begins where the line is idle. While a line met
asserted is not decoded, a bit time counts by what it carries, a free value (log entry 21): one of rest counts towards idle,
at which the line is known to rest, one that carries both levels keeps both counts at 0, and one asserted throughout counts
towards the stuck line, found at 256. Inside a frame a bit time counts so too, none being one of rest. There a bit of an own
frame, from the start bit on, shows what its value makes this station drive, a 0 an asserted bit time and a 1 both levels,
and the own slot of a window that it accepts an asserted one; other bits are free values. Each takes LU one bit or slot on,
an own bit that the check covers is fed into the check register, and the 256th asserted one does what LINE_STUCK does, in the
data phase of the slot reached. The timers' part of a bit time comes after and touches neither LU nor the attempt; where no
timer ran when the bit time began it does nothing, so that one that the stuck line starts runs its whole length. A start bit
of another station returns both counts to 0, and LU decodes the frame unless it waits for idle. These are the model's
choices: that the line was released before that start bit (log entry 3), which changes nothing on a stuck line (log entry
12); that the line shows what this station drives, and the clock tells the slot reached (log entry 21); and that the bit
times of another station's frame feed the register nothing and LU's place in a frame stays as it was outside one (log entry
22). -/
def Obligations.IdleCounting : Prop :=
  (∀ s : State, held s = false → s.lu.stuck = false → s.lu.mode = .waitIdle ∨ s.lu.mode = .resting →
    (s.lu.idleCount < 12 → exec .lineIdle s = .next { s with lu := { s.lu with
      idleCount := 12, mode := .resting, asserted := false, assertedCount := 0 } }) ∧
    (s.pending = [] →
      let starts (u : State) : Host.Outcome State Fault Refusal := if u.su.offer = none then .next u else exec .frameStart u
      let passes (o : Host.Outcome State Fault Refusal) : Prop := ∃ u t, o = .next u ∧ step s = .next t ∧
        t.lu = u.lu ∧ t.su.attempt = u.su.attempt ∧
        (s.vu.probeTimer = none → s.vu.admitTimer = none → s.vu.stallTimer = none → t = u)
      (s.lu.asserted = false → s.lu.idleCount < 23 → passes (starts { s with lu := { s.lu with
        idleCount := s.lu.idleCount + 1, assertedCount := 0
        mode := if 12 ≤ s.lu.idleCount + 1 then .resting else s.lu.mode } })) ∧
      (s.lu.asserted = false → 23 ≤ s.lu.idleCount → s.su.attempt = none → ∃ u, SendingSettled s u ∧
        u = { s with
          lu := { s.lu with idleCount := 24, assertedCount := 0, mode := .resting, deferred := false }
          su := u.su } ∧
        passes (starts u)) ∧
      (s.lu.asserted = true → s.lu.idleCount < 23 → passes (match Config.lineBit s.freeCount with
        | .released => starts { s with
          freeCount := s.freeCount + 1
          lu := { s.lu with
            idleCount := s.lu.idleCount + 1, asserted := decide (s.lu.idleCount < 11), assertedCount := 0
            mode := if 12 ≤ s.lu.idleCount + 1 then .resting else s.lu.mode } }
        | .mixed => .next { s with
          freeCount := s.freeCount + 1, lu := { s.lu with idleCount := 0, assertedCount := 0 } }
        | .asserted => .next (
          if s.lu.assertedCount < 255 then { s with
            freeCount := s.freeCount + 1
            lu := { s.lu with idleCount := 0, assertedCount := s.lu.assertedCount + 1 } }
          else { s with
            freeCount := s.freeCount + 1
            lu := { s.lu with
              mode := .waitIdle, driver := .released, asserted := true, idleCount := 0, assertedCount := 256,
              stuck := true }
            wu := { s.wu with linePending := true } }))))) ∧
  (∀ s : State, held s = false → s.pending = [] →
    s.lu.mode = .receiving ∨ s.lu.mode = .tracking ∨ s.lu.mode = .sending ∨ s.lu.mode = .window →
    let fed : BitVec 16 := match s.lu.mode, s.su.attempt, s.lu.bitPos with
      | .sending, some a, n + 1 => (match (coveredBits a.frame)[n]? with
        | some b => checkStep s.lu.checkReg b
        | none => s.lu.checkReg)
      | _, _, _ => s.lu.checkReg
    let s1 := { s with freeCount := s.freeCount + 1, lu := { s.lu with bitPos := min 391 (s.lu.bitPos + 1), checkReg := fed } }
    let ownSlot : Prop := s.lu.mode = .window ∧ s.lu.driver ≠ .released ∧ s.lu.bitPos = s.hp.straps.sn.toNat
    let whole : Prop := match s.lu.mode, s.su.attempt with
      | .sending, some a => (match (false :: encodeFrame a.frame)[s.lu.bitPos]? with
        | some b => b = false
        | none => Config.lineBit s.freeCount = .asserted)
      | _, _ => ownSlot ∨ Config.lineBit s.freeCount = .asserted
    ∃ u t, (whole → 255 ≤ s.lu.assertedCount →
        exec (.lineStuck (BitVec.ofNat 5 (min 31 s.lu.bitPos)) true) s1 = .next u) ∧
      (whole → s.lu.assertedCount < 255 →
        u = { s1 with lu := { s1.lu with idleCount := 0, assertedCount := s.lu.assertedCount + 1 } }) ∧
      (¬whole → u = { s1 with lu := { s1.lu with idleCount := 0, assertedCount := 0 } }) ∧
      step s = .next t ∧ t.lu = u.lu ∧ t.su.attempt = u.su.attempt ∧
      (u.vu.probeTimer = none → u.vu.admitTimer = none → u.vu.stallTimer = none → t = u) ∧
      (s.vu.probeTimer = none → s.vu.admitTimer = none → s.vu.stallTimer = none → t = u)) ∧
  (∀ s : State, held s = false →
    (s.lu.mode = .resting → exec .anotherStationStartBit s = .next { s with lu := { s.lu with
      mode := .receiving, idleCount := 0, asserted := true, assertedCount := 0, checkReg := 0xFFFF, bitPos := 0 } }) ∧
    (s.lu.mode = .waitIdle → s.lu.stuck = false → exec .anotherStationStartBit s = .next { s with lu := { s.lu with
      idleCount := 0, asserted := true, assertedCount := 0 } }) ∧
    (s.lu.mode = .waitIdle → s.lu.stuck = true → exec .anotherStationStartBit s = .next s))

/-- LU begins the item on offer when the line is idle, but no class-1 item while DEFERRED is set; the frame's contents are
fixed then as the table of R81 says. -/
def Obligations.FrameStart : Prop :=
  ∀ (s : State) (i : Item), held s = false → s.su.offer = some i →
    let begins (f : Frame) : Prop := ∃ t, exec .frameStart s = .next t ∧ t.su = { s.su with offer := none, attempt := some ⟨i, f⟩ } ∧
      t.lu = { s.lu with
        mode := .sending, driver := .ownFrame, asserted := true, idleCount := 0, assertedCount := 0, checkReg := 0xFFFF
        bitPos := 0 } ∧
      t.vu = s.vu ∧ t.tu = s.tu ∧ t.wu = s.wu ∧ t.hp = s.hp ∧ t.qu.completions = s.qu.completions ∧
      (∀ tag, i = .request tag ∨ i = .claim tag →
        t.qu.queue = s.qu.queue.map (fun q => if q.tag = tag then { q with state := .inAttempt } else q) ∧
        t.qu.park = s.qu.park.map (fun q => if q.tag = tag then { q with state := .inAttempt } else q))
    let me := s.hp.straps.sn
    let v := s.vu.view
    (s.lu.mode = .resting → 12 ≤ s.lu.idleCount → ¬(itemClassOne i = true ∧ s.lu.deferred = true) →
      (i = .roster → begins ⟨me, v.epoch, .roster v.full v.joiners v.cursor (BitVec.ofNat 5 v.remaining)⟩) ∧
      (i = .leave → begins ⟨me, v.epoch, .leave⟩) ∧
      (i = .probe ∨ i = .stallJoin → begins ⟨me, 0, .join⟩) ∧
      (i = .found → begins ⟨me, if s.vu.standing = .retained then s.vu.retainedEpoch + 1 else 1,
        .found (decide (s.vu.standing = .retained))⟩) ∧
      (∀ m, i = .drop → s.su.owedDrop = some m → begins ⟨me, v.epoch, .drop m⟩) ∧
      (i = .transfer → ∃ images : Vector Cell 8, begins ⟨me, v.epoch, .transfer v.cursor images⟩ ∧
        ∀ j : Fin 8, images[j] = cellAt s (BitVec.ofNat 7 (8 * v.cursor.toNat + j.val))) ∧
      (∀ tag q, i = .request tag ∨ i = .claim tag → findRequest tag s = some q →
        begins ⟨me, v.epoch, .cell q.op q.cell q.a q.b⟩)) ∧
    (s.lu.mode ≠ .resting ∨ s.lu.idleCount < 12 ∨ (itemClassOne i = true ∧ s.lu.deferred = true) →
      exec .frameStart s = .next s)

/-- DEFERRED clears when the count reaches 24, and the class-1 item then first in order, a TRANSFER, the oldest-woken claim
or the request at the head of the queue, is begun at that boundary; where none is begun, SU has on offer what R80 puts first.
That the command DEFERRED_CLEAR takes the count to 24 at once (log entry 3) and begins the item itself (log entry 13) is the
model's choice. That LU's place in a frame stays as it was outside one is the model's choice (log entry 22). -/
def Obligations.DeferredClears : Prop :=
  ∀ s : State, held s = false → s.lu.stuck = false → s.lu.mode = .waitIdle ∨ s.lu.mode = .resting →
    s.su.attempt = none →
    (∃ t, exec .deferredClear s = .next t ∧ t.lu.deferred = false ∧ t.vu = s.vu ∧ t.tu = s.tu ∧ t.wu = s.wu ∧
      (t.su.attempt = none → SendingSettled s t)) ∧
    (s.vu.station = .halted ∨ s.vu.station = .admitting → ∃ t, exec .deferredClear s = .next t ∧ t.qu = s.qu ∧
      t.lu = { s.lu with deferred := false, idleCount := 24, mode := .resting, asserted := false, assertedCount := 0 }) ∧
    (s.vu.station = .member → s.su.owedDrop = none → s.vu.leavePending = false →
      let v := s.vu.view
      let supplier := Supplying s ∧ v.rosterOwed = false ∧ 0 < v.remaining
      let begins (i : Item) (b : Body) : Prop :=
        ∃ t, exec .deferredClear s = .next t ∧ t.lu.mode = .sending ∧ t.lu.driver = .ownFrame ∧ t.lu.idleCount = 0 ∧
          t.lu.checkReg = 0xFFFF ∧ t.su.offer = none ∧ t.su.attempt = some ⟨i, ⟨s.hp.straps.sn, v.epoch, b⟩⟩
      (supplier → ∃ images : Vector Cell 8, begins .transfer (.transfer v.cursor images) ∧
        ∀ j : Fin 8, images[j] = cellAt s (BitVec.ofNat 7 (8 * v.cursor.toNat + j.val))) ∧
      (¬Supplying s ∨ (v.rosterOwed = false ∧ v.remaining = 0) →
        (∀ tag rest q, s.qu.woken = tag :: rest → findRequest tag s = some q →
          begins (.claim tag) (.cell q.op q.cell q.a q.b)) ∧
        (∀ q rest, s.qu.woken = [] → s.qu.queue = q :: rest → q.state = .queued →
          begins (.request q.tag) (.cell q.op q.cell q.a q.b))))

/-- A lost arbitration is no attempt, whatever the item: LU receives the winner's frame, DEFERRED is not set, and the item waits
again with its attempt record as it was: a request as QUEUED, a woken claim as ELIGIBLE and first in woken order, a system item,
a JOIN or a FOUND as owed or due as it was. A request marked for cancel in the meantime is retired CANCELLED: the model's
reading of R142 (log entry 7). That the check register stays as it stands is the model's choice (log entry 22). -/
def Obligations.ArbitrationLost : Prop :=
  ∀ (s : State) (i : Item) (f : Frame), held s = false → s.lu.mode = .sending → s.su.attempt = some ⟨i, f⟩ →
    let waits (tag : Byte) (st : RequestState) : List Request → List Request :=
      List.map fun r => if r.tag = tag then { r with state := st } else r
    ∃ t, exec .lostArbitration s = .next t ∧ t.lu = { s.lu with mode := .receiving, driver := .released } ∧
      t.vu = s.vu ∧ t.tu = s.tu ∧ t.wu = s.wu ∧ t.hp = s.hp ∧ SendingSettled s t ∧
      (∀ tag q, findRequest tag s = some q → q.cancelMark = false →
        (i = .request tag → t.qu = { s.qu with
          queue := waits tag .queued s.qu.queue, park := waits tag .queued s.qu.park }) ∧
        (i = .claim tag → t.qu = { s.qu with
          queue := waits tag .eligible s.qu.queue, park := waits tag .eligible s.qu.park
          woken := tag :: s.qu.woken })) ∧
      (∀ tag q, i = .request tag ∨ i = .claim tag → findRequest tag s = some q → q.cancelMark = true →
        t.qu = retiredAs .cancelled q s) ∧
      (i ∈ [Item.drop, .roster, .leave, .probe, .found, .stallJoin, .transfer] → t.qu = s.qu)

/-- A read-back fault before the window ends the attempt, whatever its item, as a self fault: LU releases its driver and waits
for idle, the attempt is counted with an empty missing set, DEFERRED is set for a class-1 frame, and the item waits again,
until its 8th attempt is done with as its kind's limit says. A request marked for cancel is retired CANCELLED. A
released level read back ends the count of asserted bit times; that an asserted one leaves it as it stands (log entry 3), and that
LU takes the line as asserted (log entry 21), is the model's choice. -/
def Obligations.SelfFault : Prop :=
  ∀ (s : State) (slot : Station) (inData : Bool) (level : LineLevel) (i : Item) (f : Frame), held s = false →
    s.lu.mode = .sending → s.su.attempt = some ⟨i, f⟩ →
    ∃ t, exec (.readBackFault slot inData level) s = .next t ∧ t.lu.driver = .released ∧ t.lu.mode = .waitIdle ∧
      t.lu.idleCount = 0 ∧ t.lu.asserted = true ∧
      t.lu.assertedCount = (match level with | .released => 0 | .asserted => s.lu.assertedCount) ∧ SelfFaulted i f s t

/-- The end of another station's check part in MEMBER or JOINING: the frame is accepted exactly where the table of R65
says, LU drives its slot exactly then, FOREIGN is set exactly where R67 says, and the frame shows the station out of step
exactly where R68 and R69 say. -/
def Obligations.Acceptance : Prop :=
  ∀ (s : State) (bits : List Bool) (f : Frame), held s = false → s.lu.mode = .receiving →
    s.vu.station = .member ∨ s.vu.station = .joining → decodeFrame bits = some (f, true) →
    let v := s.vu.view
    let inIt := has v.full f.orig = true ∨ has v.joiners f.orig = true
    let same := f.epoch = v.epoch
    let accepted := match f.body with
      | .cell .. => same ∧ has v.full f.orig = true
      | .transfer chunk _ => same ∧ has v.full f.orig = true ∧ chunk = v.cursor ∧ 0 < v.remaining ∧ v.rosterOwed = false
      | .roster full joiners cursor remaining => same ∧ inIt ∧ full = v.full ∧ joiners = v.joiners ∧ cursor = v.cursor ∧
          remaining.toNat = v.remaining
      | .drop _ => same ∧ inIt
      | .leave => same ∧ inIt
      | .join => True
      | .found _ => False
    let foreign := match f.body with
      | .join => False
      | .found _ => True
      | _ => ¬inIt
    let shows := match f.body with
      | .join => False
      | .found _ => False
      | .roster full joiners cursor remaining => inIt ∧
          ¬(same ∧ full = v.full ∧ joiners = v.joiners ∧ cursor = v.cursor ∧ remaining.toNat = v.remaining)
      | _ => inIt ∧ ¬same
    ∃ t j, exec (.frameCheckEnd bits) s = .next t ∧ t.vu.judged = some j ∧ j.frame = f ∧ j.intact = true ∧
      j.own = false ∧ j.station = s.vu.station ∧ (j.accept = true ↔ accepted) ∧ (j.outOfStep = true ↔ shows) ∧
      t.lu.mode = .window ∧
      (t.lu.driver = .ownSlot ↔ accepted) ∧ (foreign → t.vu.foreign = some f.orig ∧ t.wu.linePending = true) ∧
      (¬foreign → t.vu.foreign = s.vu.foreign ∧ t.wu = s.wu) ∧ t.vu.view = s.vu.view ∧ t.vu.station = s.vu.station ∧
      t.tu = s.tu ∧ t.qu = s.qu ∧ t.hp = s.hp

/-- A frame that is not intact is accepted nowhere, an ADMITTING station accepts every intact frame but a FOUND, and a
LISTENING or HALTED station accepts none. A LISTENING station that hears an intact frame of another station, other than a JOIN,
begins its probing again with a JOIN due at once; a JOIN leaves the count, the timer and the due probe as they were. A
station's own frame is accepted by it, and its window runs with the slot it will assert; that this frame is the one fixed at
the start bit, whatever bits the command carries, is the model's reading (log entry 14). Bits of an unassigned kind code, of
which LU does not know the length, make a frame lost before its window: LU gives it up and waits for idle, and VU gets no frame
under judgement and does nothing; that bits which are not as many as their kind has are such a frame too is the model's reading
(log entry 14), and that LU takes the line as asserted when it gives the frame up is its choice (log entry 21). -/
def Obligations.AcceptanceElsewhere : Prop :=
  (∀ (s : State) (bits : List Bool) (f : Frame) (intact : Bool), held s = false → s.lu.mode = .receiving →
    decodeFrame bits = some (f, intact) →
    ∃ t j, exec (.frameCheckEnd bits) s = .next t ∧ t.vu.judged = some j ∧ j.frame = f ∧ t.lu.mode = .window ∧
      (intact = false → j.accept = false ∧ t.lu.driver = .released ∧ t.vu.foreign = s.vu.foreign ∧ t.wu = s.wu ∧
        t.vu.probeDue = s.vu.probeDue ∧ t.vu.unanswered = s.vu.unanswered) ∧
      (s.vu.station = .admitting → (j.accept = true ↔ intact = true ∧ isFound f.body = false)) ∧
      (s.vu.station = .listening ∨ s.vu.station = .halted → j.accept = false ∧ t.lu.driver = .released) ∧ t.tu = s.tu) ∧
  (∀ (s : State) (bits : List Bool) (f : Frame), held s = false → s.lu.mode = .receiving → s.vu.station = .listening →
    s.su.attempt = none → decodeFrame bits = some (f, true) →
    ∃ t, exec (.frameCheckEnd bits) s = .next t ∧ t.vu.station = .listening ∧
      (f.body ≠ .join → t.vu.unanswered = 0 ∧ t.vu.probeTimer = none ∧ t.vu.probeDue = .join ∧
        t.su.offer = some .probe) ∧
      (f.body = .join → t.vu.unanswered = s.vu.unanswered ∧ t.vu.probeTimer = s.vu.probeTimer ∧
        t.vu.probeDue = s.vu.probeDue)) ∧
  (∀ (s : State) (bits : List Bool) (a : Attempt), held s = false → s.lu.mode = .sending → s.su.attempt = some a →
    ∃ t j, exec (.frameCheckEnd bits) s = .next t ∧ t.vu.judged = some j ∧ j.frame = a.frame ∧ j.own = true ∧
      j.intact = true ∧ j.accept = true ∧ j.outOfStep = false ∧ t.lu.mode = .window ∧ t.lu.driver = .ownFrame ∧
      t.su.attempt = some a ∧ t.vu.view = s.vu.view ∧ t.vu.station = s.vu.station ∧ t.tu = s.tu ∧ t.qu = s.qu ∧
      t.wu = s.wu) ∧
  (∀ (s : State) (bits : List Bool), held s = false → s.lu.mode = .receiving →
    let code := (field bits 7 4).toNat
    let assigned := if field bits 1 1 = 1 then (1 ≤ code ∧ code ≤ 13) ∨ code = 15 else 1 ≤ code ∧ code ≤ 5
    ¬assigned ∨ decodeFrame bits = none →
    ∃ t, exec (.frameCheckEnd bits) s = .next t ∧ t.lu.mode = .waitIdle ∧ t.lu.driver = .released ∧ t.lu.idleCount = 0 ∧
      t.lu.asserted = true ∧ t.lu.deferred = s.lu.deferred ∧ t.lu.stuck = s.lu.stuck ∧ t.vu = s.vu ∧ t.tu = s.tu ∧
      t.qu = s.qu ∧ t.wu = s.wu ∧ t.hp = s.hp ∧ (s.su.attempt = none → SendingSettled s t))

/-- A window fault. In another station's frame, a station in MEMBER or JOINING is out of step, and withdrawn to LISTENING,
exactly in the rows of R75 that say so, or where the frame had already shown it out of step, in which the model withdraws it at
the fault (log entry 10); an ADMITTING station goes back to LISTENING when its slot had been asserted, and stays
otherwise; a LISTENING or HALTED station is not affected; the frame is applied nowhere here. In an own frame, a station in
MEMBER or JOINING whose own slot is over withdraws, its attempt neither counted nor weighed; otherwise the attempt is an
ordinary self fault, whatever its item: a request, a claim or a system item is counted with an empty missing set, a JOIN is
unanswered, a FOUND is incomplete. That this holds where the own slot's own data phase reads back released, which withdraws
nothing, is the model's reading of R64 and R76 (log entry 8); a stuck line there is log entry 23. The level met was released, so
that the count of asserted bit times is 0. -/
def Obligations.WindowFaultTable : Prop :=
  (∀ (s : State) (j : Judged) (slot : Station) (inData : Bool), Judging j s → j.own = false → s.su.attempt = none →
    s.vu.station = .member ∨ s.vu.station = .joining →
    let asserted := j.accept = true ∧ (own s < slot ∨ (own s = slot ∧ inData = true))
    let required := has (requiredSet j.frame s.vu.view) (own s) = true
    let stays (t : State) : Prop := t.vu = { s.vu with judged := none } ∧ t.tu = s.tu ∧ t.qu = s.qu ∧ t.wu = s.wu ∧
      SendingSettled s t
    ∃ t, exec (.windowFault slot inData) s = .next t ∧ t.vu.judged = none ∧ t.lu.driver = .released ∧
      t.lu.mode = .waitIdle ∧ t.lu.assertedCount = 0 ∧ t.hp = s.hp ∧
      (j.outOfStep = true → Withdrawn s t) ∧
      (j.outOfStep = false → asserted → Withdrawn s t) ∧
      (j.outOfStep = false → ¬asserted → required → stays t) ∧
      (j.outOfStep = false → ¬asserted → ¬required → j.accept = true → Withdrawn s t) ∧
      (j.outOfStep = false → ¬asserted → ¬required → j.accept = false → stays t)) ∧
  (∀ (s : State) (j : Judged) (slot : Station) (inData : Bool), Judging j s → j.own = false → s.su.attempt = none →
    let asserted := j.accept = true ∧ (own s < slot ∨ (own s = slot ∧ inData = true))
    ∃ t, exec (.windowFault slot inData) s = .next t ∧ t.lu.driver = .released ∧ t.lu.mode = .waitIdle ∧
      t.lu.assertedCount = 0 ∧
      (s.vu.station = .admitting → t.tu = s.tu ∧ t.qu = s.qu ∧ t.vu.standing = s.vu.standing ∧
        t.vu.retainedEpoch = s.vu.retainedEpoch ∧
        (asserted → t.vu.station = .listening ∧ t.vu.probeDue = .join ∧ t.vu.unanswered = 0 ∧ t.vu.admitTimer = none ∧
          t.wu = { s.wu with statePending := true }) ∧
        (¬asserted → s.vu.admitExpired = false → t.vu = { s.vu with judged := none } ∧ t.wu = s.wu)) ∧
      (s.vu.station = .listening ∨ s.vu.station = .halted →
        t.vu = { s.vu with judged := none } ∧ t.tu = s.tu ∧ t.qu = s.qu ∧ t.wu = s.wu)) ∧
  (∀ (s : State) (j : Judged) (slot : Station) (inData : Bool) (i : Item) (f : Frame) (c : Instr),
    JudgingOwn j ⟨i, f⟩ s → j.accept = true → c = .windowFault slot inData ∨ c = .readBackFault slot inData .released →
    ∃ t, exec c s = .next t ∧ t.lu.driver = .released ∧ t.lu.mode = .waitIdle ∧ t.lu.assertedCount = 0 ∧
      t.su.attempt = none ∧ t.hp = s.hp ∧
      (inView s.vu.station = true → own s < slot → Withdrawn s t) ∧
      (inView s.vu.station = false ∨ ¬own s < slot → SelfFaulted i f (s.setVu { s.vu with judged := none }) t))

/-- A frame lost before its window, received or tracked: LU stops decoding and waits for idle, and nothing else changes but
what LU has read. A coding fault is a missing sync assertion, so that it ends the count of asserted bit times; an unassigned
kind code leaves in that count the bits of 0 that the bits up to it end in, and in the check register of a receiver the value
over those bits. The end of a check part leaves in the count of asserted bit times the bits of 0 that the frame's bits end
in. LINE-STUCK is set when the count reaches 256, with LINE made pending, once for as long as the line stays asserted; a
frame being sent is then abandoned as by a read-back fault, and one in its window as by a window fault at the slot reached.
It ends at the release, from which the idle count runs from 0. These are the model's choices: that the bits of a frame set
the count where they come, and that LINE_STUCK takes it to 256 at once (log entry 3); that LU takes the line as asserted when
a frame is lost (log entry 21); that the check register stays as it was at a coding fault (log entry 22); that LU tracks a
frame after a HALT, the check register standing over it (log entry 15); and that a line which sticks in an own slot's own
data phase withdraws nothing, as the statement on window faults says of that slot (log entry 23). That LU's place in a frame
stays as it was outside one is the model's choice (log entry 22). -/
def Obligations.LineTrouble : Prop :=
  (∀ s : State, held s = false →
    let lost (run : Nat) (reg : BitVec 16) : Host.Outcome State Fault Refusal := .next { s with lu := { s.lu with
      mode := .waitIdle, driver := .released, asserted := true, idleCount := 0, assertedCount := run, checkReg := reg } }
    let endsIn (bits : List Bool) (n : Nat) : Prop := (∃ front, bits = front ++ [true] ++ List.replicate n false) ∨
      (bits = List.replicate 10 false ∧ n = 11)
    (s.lu.mode = .receiving ∨ s.lu.mode = .tracking → exec (.frameLost .codingFault) s = lost 0 s.lu.checkReg) ∧
    (∀ bits n, bits.length = 10 → endsIn bits n →
      (s.lu.mode = .receiving → exec (.frameLost (.unassignedKind bits)) s = lost n (checkOf bits)) ∧
      (s.lu.mode = .tracking → exec (.frameLost (.unassignedKind bits)) s = lost n s.lu.checkReg))) ∧
  (∀ (s : State) (front : List Bool) (n : Nat), held s = false → n < 256 →
    let bits := front ++ [true] ++ List.replicate n false
    (s.lu.mode = .receiving → ∃ t, exec (.frameCheckEnd bits) s = .next t ∧ t.lu.assertedCount = n) ∧
    (s.lu.mode = .tracking → exec (.frameCheckEnd bits) s = .next { s with lu := { s.lu with assertedCount := n } })) ∧
  (∀ (s : State) (slot : Station) (inData : Bool), held s = false →
    let stuckFrom (u : State) : State := { u with
      lu := { u.lu with
        mode := .waitIdle, driver := .released, asserted := true, idleCount := 0, assertedCount := 256, stuck := true }
      wu := { u.wu with linePending := true } }
    (s.lu.stuck = false →
      s.lu.mode = .waitIdle ∨ s.lu.mode = .resting ∨ s.lu.mode = .receiving ∨ s.lu.mode = .tracking →
      exec (.lineStuck slot inData) s = .next (stuckFrom s)) ∧
    (s.lu.stuck = false → s.lu.mode = .sending →
      ∃ u, exec (.readBackFault slot inData .asserted) s = .next u ∧ exec (.lineStuck slot inData) s = .next (stuckFrom u) ∧
        ∀ i f, s.su.attempt = some ⟨i, f⟩ → SelfFaulted i f s u) ∧
    (s.lu.stuck = false → s.lu.mode = .window →
      ∃ u, exec (.windowFault slot inData) s = .next u ∧ exec (.lineStuck slot inData) s = .next (stuckFrom u) ∧
        u.vu.judged = none) ∧
    (s.lu.stuck = true → exec (.lineStuck slot inData) s = .next s) ∧
    (s.lu.stuck = true → exec .lineStuckEnd s = .next { s with lu := { s.lu with
      stuck := false, asserted := false, idleCount := 0, assertedCount := 0 } }))

/-- The expiries of the timers: a JOIN, or after the third unanswered one and where FP permits a FOUND, is due; ADMIT_WAIT
returns the station to LISTENING, at the window's end when it falls in a window; STALL_WAIT makes the stall JOIN owed; SU
then offers what R80 puts first. That an expiry command ends a running timer at once is the model's choice (log entry 3). In
a bit time, the model's step on an empty queue (log entry 3), a running timer counts one down, whether the line is busy or
resting, and one with a single bit time left expires. The bit time that finds a line stuck inside a frame is left to the
statement on the line's clock. -/
def Obligations.TimerExpiries : Prop :=
  ∀ s : State, held s = false →
    let v := s.vu
    let probed : Vu := { v with
      probeTimer := none
      probeDue := if v.unanswered = 3 ∧ s.hp.straps.fp = true then .found else .join }
    let stalled : Vu := { v with stallTimer := none, stallOwed := true }
    let listens (t : State) : Prop := t.vu.station = .listening ∧ t.vu.unanswered = 0 ∧ t.vu.probeDue = .join ∧
      t.vu.probeTimer = none ∧ t.vu.admitTimer = none ∧ t.vu.standing = v.standing ∧
      t.vu.retainedEpoch = v.retainedEpoch ∧ t.wu.statePending = true
    (v.station = .listening → v.probeTimer.isSome = true → ∃ t, exec .probeWaitExpiry s = .next t ∧
      t.vu = probed ∧ (s.su.attempt = none → SendingSettled s t) ∧
      t.lu = s.lu ∧ t.tu = s.tu ∧ t.qu = s.qu ∧ t.wu = s.wu) ∧
    (v.station = .admitting → v.admitTimer.isSome = true → (s.lu.mode = .window → v.judged = none) →
      ∃ t, exec .admitWaitExpiry s = .next t ∧ listens t ∧ (s.su.attempt = none → SendingSettled s t) ∧ t.lu = s.lu ∧ t.tu = s.tu ∧ t.qu = s.qu ∧
        t.wu = { s.wu with statePending := true }) ∧
    (v.station = .admitting → v.admitTimer.isSome = true → s.lu.mode = .window → v.judged ≠ none →
      exec .admitWaitExpiry s = .next { s with vu := { v with admitTimer := none, admitExpired := true } }) ∧
    (v.station = .joining → v.stallTimer.isSome = true → ∃ t, exec .stallWaitExpiry s = .next t ∧
      t.vu = stalled ∧ (s.su.attempt = none → SendingSettled s t) ∧
      t.lu = s.lu ∧ t.tu = s.tu ∧ t.qu = s.qu ∧ t.wu = s.wu) ∧
    (s.pending = [] → s.lu.mode = .waitIdle ∨ s.lu.mode = .resting ∨ s.lu.assertedCount < 255 →
      ∃ t, step s = .next t ∧ t.tu = s.tu ∧ t.hp = s.hp ∧
        (v.probeTimer = none → v.admitTimer = none → v.stallTimer = none → t.vu = v) ∧
        (∀ n, v.station = .listening → v.probeTimer = some n → v.admitTimer = none → v.stallTimer = none →
          (1 < n → t.vu = { v with probeTimer := some (n - 1) }) ∧
          (n ≤ 1 → t.vu = probed ∧ (t.su.attempt = none → Offered t))) ∧
        (∀ n, v.station = .admitting → v.probeTimer = none → v.admitTimer = some n → v.stallTimer = none →
          (1 < n → t.vu = { v with admitTimer := some (n - 1) }) ∧
          (n ≤ 1 → (s.lu.mode = .window → v.judged = none) → listens t ∧ (t.su.attempt = none → Offered t)) ∧
          (n ≤ 1 → s.lu.mode = .window → v.judged ≠ none →
            t.vu = { v with admitTimer := none, admitExpired := true })) ∧
        (∀ n, v.station = .joining → v.probeTimer = none → v.admitTimer = none → v.stallTimer = some n →
          (1 < n → t.vu = { v with stallTimer := some (n - 1) }) ∧
          (n ≤ 1 → t.vu = stalled ∧ (t.su.attempt = none → Offered t))))

/-! ## The cell operations -/

/-- The operations that write the value: past the held check the new value, the version one higher, the writer the
originator, the holder as it was, and the flags by R24 to R26; on a cell held by another station HELD, with nothing
written. -/
def Obligations.ValueOperations : Prop :=
  ∀ (orig : Station) (a b : Half) (r : Cell),
    let n := a.toNat % 16
    let signed (x : Nat) : Int := if 32768 ≤ x then (x : Int) - 65536 else x
    let sum := signed r.value.toNat + signed a.toNat
    let writes (op : CellOp) (x : Half) (c v : Bool) : Prop :=
      applyOp op orig a b r =
        ⟨.done, ⟨x, r.holder, r.version + 1, ⟨c, decide (x.toNat = 0), decide (32768 ≤ x.toNat), v⟩, some orig⟩, true,
          ⟨c, decide (x.toNat = 0), decide (32768 ≤ x.toNat), v⟩⟩
    (r.holder = none ∨ r.holder = some orig →
      writes .store a r.flags.c false ∧
      (∃ x, x.toNat = (r.value.toNat + a.toNat) % 65536 ∧
        writes .add x (decide (65536 ≤ r.value.toNat + a.toNat)) (decide (sum < -32768 ∨ 32767 < sum))) ∧
      (∃ x, (∀ i, x.getLsbD i = (r.value.getLsbD i && a.getLsbD i)) ∧ writes .and x r.flags.c false) ∧
      (∃ x, (∀ i, x.getLsbD i = (r.value.getLsbD i || a.getLsbD i)) ∧ writes .or x r.flags.c false) ∧
      (∃ x, (∀ i, x.getLsbD i = (r.value.getLsbD i != a.getLsbD i)) ∧ writes .xor x r.flags.c false) ∧
      (∃ x, (∀ i, x.getLsbD i = if i = n then true else r.value.getLsbD i) ∧ writes .bitset x r.flags.c r.flags.v) ∧
      (∃ x, (∀ i, x.getLsbD i = if i = n then false else r.value.getLsbD i) ∧ writes .bitclr x r.flags.c r.flags.v) ∧
      (∃ x, (∀ i, x.getLsbD i = if i = n then !r.value.getLsbD i else r.value.getLsbD i) ∧
        writes .bitflip x r.flags.c r.flags.v)) ∧
    (∀ h op, r.holder = some h → h ≠ orig →
      op ∈ [CellOp.store, .add, .and, .or, .xor, .bitset, .bitclr, .bitflip] →
      applyOp op orig a b r = ⟨.held, r, false, r.flags⟩)

/-- CAS and STEP: the comparison with A, the write on equality, the record left alone otherwise, and the compare flags in
every case. -/
def Obligations.CompareOperations : Prop :=
  ∀ (orig : Station) (a b : Half) (r : Cell),
    let d := r.value - a
    let signed (x : Nat) : Int := if 32768 ≤ x then (x : Int) - 65536 else x
    let difference := signed r.value.toNat - signed a.toNat
    let compare : Flags := ⟨decide (r.value.toNat < a.toNat), decide (d.toNat = 0), decide (32768 ≤ d.toNat),
      decide (difference < -32768 ∨ 32767 < difference)⟩
    let passes := r.holder = none ∨ r.holder = some orig
    (passes → r.value = a →
      compare = ⟨false, true, false, false⟩ ∧
      applyOp .cas orig a b r =
        ⟨.done, ⟨b, r.holder, r.version + 1, ⟨r.flags.c, decide (b.toNat = 0), decide (32768 ≤ b.toNat), false⟩, some orig⟩, true,
          compare⟩ ∧
      ∃ x, x.toNat = (a.toNat + 1) % 65536 ∧ applyOp .step orig a b r =
        ⟨.done, ⟨x, r.holder, r.version + 1,
          ⟨decide (a.toNat = 65535), decide (x.toNat = 0), decide (32768 ≤ x.toNat), decide (a.toNat = 32767)⟩, some orig⟩, true,
          compare⟩) ∧
    (passes → r.value ≠ a →
      applyOp .cas orig a b r = ⟨.unequal, r, false, compare⟩ ∧ applyOp .step orig a b r = ⟨.unequal, r, false, compare⟩) ∧
    (¬passes →
      applyOp .cas orig a b r = ⟨.held, r, false, compare⟩ ∧ applyOp .step orig a b r = ⟨.held, r, false, compare⟩)

/-- CLAIM, RELEASE and RELSTORE, for each holder the cell can have. -/
def Obligations.HolderOperations : Prop :=
  ∀ (orig : Station) (a b : Half) (r : Cell),
    (r.holder = none →
      applyOp .claim orig a b r = ⟨.done, { r with holder := some orig, version := r.version + 1 }, true, r.flags⟩ ∧
      applyOp .release orig a b r = ⟨.notHeld, r, false, r.flags⟩ ∧
      applyOp .relstore orig a b r = ⟨.notHeld, r, false, r.flags⟩) ∧
    (r.holder = some orig →
      applyOp .claim orig a b r = ⟨.done, r, false, r.flags⟩ ∧
      applyOp .release orig a b r = ⟨.done, { r with holder := none, version := r.version + 1 }, true, r.flags⟩ ∧
      applyOp .relstore orig a b r =
        ⟨.done, ⟨a, none, r.version + 1, ⟨r.flags.c, decide (a.toNat = 0), decide (32768 ≤ a.toNat), false⟩, some orig⟩, true,
          ⟨r.flags.c, decide (a.toNat = 0), decide (32768 ≤ a.toNat), false⟩⟩) ∧
    (∀ h, r.holder = some h → h ≠ orig →
      ∀ op, op = .claim ∨ op = .release ∨ op = .relstore → applyOp op orig a b r = ⟨.held, r, false, r.flags⟩)

/-- The laws of every application: a refusal leaves all five fields, a change raises the version by exactly one and comes
with DONE alone, the writer changes only with the value, and a cell held by another station answers HELD. -/
def Obligations.ApplicationLaws : Prop :=
  ∀ (op : CellOp) (orig : Station) (a b : Half) (r : Cell),
    let x := applyOp op orig a b r
    (x.outcome ≠ .done → x.record = r) ∧
    (x.changed = false → x.record = r) ∧
    (x.changed = true → x.outcome = .done ∧ x.record.version.toNat = (r.version.toNat + 1) % 256) ∧
    (x.outcome = .done → x.changed = false → op = .claim ∧ r.holder = some orig) ∧
    (x.record.value ≠ r.value → x.record.writer = some orig) ∧
    (x.record.writer ≠ r.writer → x.record.writer = some orig ∧ x.changed = true ∧ op ≠ .claim ∧ op ≠ .release) ∧
    (x.record.holder ≠ r.holder → op = .claim ∨ op = .release ∨ op = .relstore) ∧
    ((∃ h, r.holder = some h ∧ h ≠ orig) ↔ x.outcome = .held)

/-! ## Cell frames -/

/-- A complete cell frame of another station at a MEMBER: the operation is applied to the one cell that the frame names; on a
change every ARMED watch on it whose test holds fires, in ascending number, and with holder none the PARKED claims on it
wake, in park order; SU brings its items and its offer into line, and nothing else changes. That LU's place in a frame stays
as it was outside one is the model's choice (log entry 22). -/
def Obligations.CellFrameApplied : Prop :=
  ∀ (op : CellOp) (c : CellNo) (a b : Half) (slots : Mask) (s : State) (j : Judged),
    JudgingOther j slots s → s.vu.station = .member → s.vu.standing = .live → j.frame.body = .cell op c a b →
    let x := applyOp op j.frame.orig a b (cellAt s c)
    let fires (i : Fin 16) : Bool := x.changed && firesOn c x.record s i
    let wakes (q : Request) : Bool := x.changed && wakesOn c x.record q
    ∃ t, exec (cellCommand op slots) s = .next t ∧
      cellAt t c = x.record ∧ (∀ d, d ≠ c → cellAt t d = cellAt s d) ∧ t.tu.known = s.tu.known ∧
      (∀ i, watchAt t i = if fires i then { watchAt s i with state := .fired } else watchAt s i) ∧
      t.wu = { s.wu with
        watches := t.wu.watches
        events := s.wu.events ++ ((List.finRange 16).filter fires).map (noticeOf x.record s) } ∧
      t.qu = { s.qu with
        park := s.qu.park.map (fun q => if wakes q then { q with state := .eligible, attempts := ⟨0, []⟩ } else q)
        woken := s.qu.woken ++ (s.qu.park.filter wakes).map (·.tag) } ∧
      t.vu = { s.vu with judged := none } ∧
      t.lu = { s.lu with
        mode := .resting, driver := .released, asserted := false, idleCount := 0, assertedCount := 0 } ∧
      SendingSettled s t ∧ t.hp = s.hp

/-- A complete cell frame of this station's own, sent for a request: applied and reported as everywhere, DEFERRED set, and
the request retired with its outcome and the record after the application, unless it is a CLAIM with WAIT that met HELD. That
LU's place in a frame stays as it was outside one is the model's choice (log entry 22). -/
def Obligations.OwnCellFrame : Prop :=
  ∀ (op : CellOp) (c : CellNo) (a b : Half) (slots : Mask) (s : State) (j : Judged) (i : Item) (f : Frame) (tag : Byte)
    (q : Request),
    JudgingOwn j ⟨i, f⟩ s → isComplete j slots s = true → s.vu.station = .member → s.vu.standing = .live →
    f.body = .cell op c a b → i = .request tag ∨ i = .claim tag → findRequest tag s = some q →
    let x := applyOp op f.orig a b (cellAt s c)
    let fires (i : Fin 16) : Bool := x.changed && firesOn c x.record s i
    let wakes (r : Request) : Bool := x.changed && wakesOn c x.record r
    let others := s.qu.park.filter (fun r => r.tag ≠ tag)
    ¬(q.op = .claim ∧ q.wait = true ∧ x.outcome = .held ∧ q.cancelMark = false) →
    ∃ t, exec (cellCommand op slots) s = .next t ∧
      cellAt t c = x.record ∧ (∀ d, d ≠ c → cellAt t d = cellAt s d) ∧ t.tu.known = s.tu.known ∧
      (∀ k, watchAt t k = if fires k then { watchAt s k with state := .fired } else watchAt s k) ∧
      t.wu = { s.wu with
        watches := t.wu.watches
        events := s.wu.events ++ ((List.finRange 16).filter fires).map (noticeOf x.record s) } ∧
      t.qu = { s.qu with
        queue := s.qu.queue.filter (fun r => r.tag ≠ tag)
        park := others.map (fun r => if wakes r then { r with state := .eligible, attempts := ⟨0, []⟩ } else r)
        woken := s.qu.woken.filter (fun w => w ≠ tag) ++ (others.filter wakes).map (·.tag)
        completions := s.qu.completions ++
          [⟨tag, q.op, q.wait, q.cell,
            (match x.outcome with | .done => .done | .unequal => .unequal | .held => .held | .notHeld => .notHeld),
            x.record.value, x.record.holder, x.record.version, x.flags, q.attempts.count + 1, f.epoch, q.cancelMark⟩] } ∧
      SendingSettled s t ∧ t.lu = { s.lu with
        mode := .resting, driver := .released, asserted := false, idleCount := 0, assertedCount := 0, deferred := true } ∧
      t.vu = { s.vu with judged := none } ∧ t.hp = s.hp

/-- A CLAIM with WAIT that met HELD, not marked for cancel: from the queue it is parked at the list's tail while the list
has room, and retired when it has none, HELD, its record that of the cell, which stays as it was; a woken claim is parked again at its place. -/
def Obligations.ClaimParks : Prop :=
  ∀ (slots : Mask) (s : State) (j : Judged) (i : Item) (f : Frame) (c : CellNo) (a b : Half) (q : Request),
    JudgingOwn j ⟨i, f⟩ s → isComplete j slots s = true → s.vu.station = .member → s.vu.standing = .live →
    f.body = .cell .claim c a b → (applyOp .claim f.orig a b (cellAt s c)).outcome = .held →
    ((s.qu.queue ++ s.qu.park).map (·.tag)).Nodup → q.op = .claim → q.wait = true → q.cancelMark = false →
    ∃ t, exec (.claim slots) s = .next t ∧ t.tu = s.tu ∧ t.wu = s.wu ∧ t.lu.deferred = true ∧ t.su.attempt = none ∧
      (i = .request q.tag → q ∈ s.qu.queue → s.qu.park.length < 4 → t.qu = { s.qu with
        queue := s.qu.queue.filter (fun r => r.tag ≠ q.tag)
        park := s.qu.park ++ [{ q with state := .parked, attempts := ⟨0, []⟩ }]
        woken := s.qu.woken.filter (fun w => w ≠ q.tag) }) ∧
      (i = .request q.tag → q ∈ s.qu.queue → s.qu.park.length ≥ 4 →
        let r := cellAt s c
        t.qu = { s.qu with
          queue := s.qu.queue.filter (fun r => r.tag ≠ q.tag)
          woken := s.qu.woken.filter (fun w => w ≠ q.tag)
          completions := s.qu.completions ++ [⟨q.tag, .claim, true, q.cell, .held, r.value, r.holder, r.version, r.flags,
            q.attempts.count + 1, f.epoch, false⟩] }) ∧
      (i = .claim q.tag → q ∈ s.qu.park → t.qu = { s.qu with
        park := s.qu.park.map (fun r => if r.tag = q.tag then { r with state := .parked, attempts := ⟨0, []⟩ } else r) })

/-- A complete cell frame at a JOINING station: applied in a known chunk, and with no effect on the records in an unknown
one; nothing is reported. -/
def Obligations.CellFramePending : Prop :=
  ∀ (op : CellOp) (c : CellNo) (a b : Half) (slots : Mask) (s : State) (j : Judged),
    JudgingOther j slots s → s.vu.station = .joining → s.vu.standing = .pending → j.frame.body = .cell op c a b →
    ∃ t, exec (cellCommand op slots) s = .next t ∧
      (∀ d, cellAt t d = if d = c ∧ s.tu.known.getLsbD (c.toNat / 8) = true
        then (applyOp op j.frame.orig a b (cellAt s c)).record else cellAt s d) ∧
      t.tu.known = s.tu.known ∧ t.wu = s.wu ∧ t.qu = s.qu ∧ t.vu = { s.vu with judged := none } ∧
      t.lu.mode = .resting ∧ t.lu.driver = .released

/-! ## The view -/

/-- A complete JOIN of another station, by the table of R108, and the JOINs of R109 that withdraw the station; the claims
that a full member's JOIN releases are reported in ascending cell order, firing watches and waking claims. A JOINING
station's own complete stall JOIN is applied by the joiner row, and STALL_WAIT starts afresh. That LU's place in a frame
stays as it was outside one is the model's choice (log entry 22). -/
def Obligations.JoinApplied : Prop :=
  (∀ (slots : Mask) (s : State) (j : Judged), JudgingOther j slots s → StandingLaw s →
    s.vu.station = .member ∨ s.vu.station = .joining → j.frame.body = .join →
    let n := j.frame.orig
    let v := s.vu.view
    let withdraws := (s.vu.station = .member ∧ n = own s) ∨ (s.vu.station = .joining ∧ v.full = only n)
    let reached (c : CellNo) : Prop := s.vu.station = .member ∨ s.tu.known.getLsbD (c.toNat / 8) = true
    ∃ t, exec (.join slots) s = .next t ∧ t.lu.mode = .resting ∧ t.lu.driver = .released ∧ t.hp = s.hp ∧
      (withdraws → Withdrawn s t) ∧
      (¬withdraws → has v.full n = false → has v.joiners n = false →
        t.vu = { s.vu with
          judged := none, view := ⟨v.full, v.joiners ||| only n, v.epoch + 1, true, v.cursor, 16⟩ } ∧
        t.tu = s.tu ∧ t.wu = s.wu ∧ t.qu = s.qu) ∧
      (¬withdraws → has v.full n = false → has v.joiners n = true →
        t.vu = { s.vu with judged := none, view := ⟨v.full, v.joiners, v.epoch, true, v.cursor, 16⟩ } ∧
        t.tu = s.tu ∧ t.wu = s.wu ∧ t.qu = s.qu) ∧
      (¬withdraws → has v.full n = true → has v.joiners n = false →
        t.vu = { s.vu with
          judged := none
          view := ⟨v.full &&& ~~~only n, v.joiners ||| only n, v.epoch + 1, true, v.cursor, 16⟩ } ∧
        t.tu.known = s.tu.known ∧
        (∀ c, ((cellAt s c).holder = some n ∧ reached c →
            cellAt t c = { cellAt s c with holder := none, version := (cellAt s c).version + 1 }) ∧
          (¬((cellAt s c).holder = some n ∧ reached c) → cellAt t c = cellAt s c)) ∧
        (s.vu.station = .member → ReleaseReported (fun c => (cellAt s c).holder == some n) s t) ∧
        (s.vu.station = .joining → t.wu = s.wu ∧ t.qu = s.qu)) ∧
      (¬withdraws → SendingSettled s t)) ∧
  (∀ (slots : Mask) (s : State) (j : Judged) (f : Frame), JudgingOwn j ⟨.stallJoin, f⟩ s → isComplete j slots s = true →
    s.vu.station = .joining → f.body = .join → f.orig = own s → has s.vu.view.full (own s) = false →
    has s.vu.view.joiners (own s) = true →
    ∃ t, exec (.join slots) s = .next t ∧
      t.vu = { s.vu with
        judged := none
        view := { s.vu.view with rosterOwed := true, remaining := 16 }
        stallTimer := some 8192
        stallOwed := false } ∧
      t.lu = { s.lu with
        mode := .resting, driver := .released, asserted := false, idleCount := 0, assertedCount := 0 } ∧
      SendingSettled s t ∧ t.su.stallRec = ⟨0, []⟩ ∧ t.tu = s.tu ∧ t.wu = s.wu ∧ t.qu = s.qu ∧ t.hp = s.hp)

/-- A complete ROSTER clears roster owed at every station of the view, and restarts STALL_WAIT at a JOINING one; at the
supplier that sent it, it leaves SU with its record. -/
def Obligations.RosterApplied : Prop :=
  ∀ (slots : Mask) (s : State) (j : Judged) (full joiners : Mask) (cursor : BitVec 4) (remaining : BitVec 5),
    j.frame.body = .roster full joiners cursor remaining → isComplete j slots s = true →
    (JudgingOther j slots s → s.vu.station = .member ∨ s.vu.station = .joining →
      ∃ t, exec (.roster slots) s = .next t ∧ t.tu = s.tu ∧ t.wu = s.wu ∧ t.qu = s.qu ∧ t.hp = s.hp ∧
        t.lu.mode = .resting ∧ t.lu.driver = .released ∧ t.lu.deferred = s.lu.deferred ∧
        t.vu = { s.vu with
          judged := none
          view := { s.vu.view with rosterOwed := false }
          stallTimer := if s.vu.station = .joining then some 8192 else s.vu.stallTimer
          stallOwed := if s.vu.station = .joining then false else s.vu.stallOwed }) ∧
    (∀ f, JudgingOwn j ⟨.roster, f⟩ s → s.vu.station = .member →
      ∃ t, exec (.roster slots) s = .next t ∧ t.tu = s.tu ∧ t.wu = s.wu ∧ t.qu = s.qu ∧ t.hp = s.hp ∧
        t.lu.deferred = s.lu.deferred ∧ t.su.attempt = none ∧ t.su.rosterRec = ⟨0, []⟩ ∧
        t.vu = { s.vu with judged := none, view := { s.vu.view with rosterOwed := false } })

/-- A ROSTER at an ADMITTING station: one that names it among the joiners, with remaining 1 to 16, and that is complete by
the ROSTER's own masks, admits it; any other leaves it ADMITTING, its table and standing as they were, unless an ADMIT_WAIT
expiry waits for the window's end. That slots which lack this station's own slot, though it accepted the frame, are taken as they
come, with no window fault, is the model's choice (log entry 12). -/
def Obligations.RosterAdmits : Prop :=
  ∀ (slots : Mask) (s : State) (j : Judged) (full joiners : Mask) (cursor : BitVec 4) (remaining : BitVec 5),
    Judging j s → s.vu.station = .admitting → j.own = false → j.intact = true →
    j.frame.body = .roster full joiners cursor remaining →
    let admits := has joiners (own s) = true ∧ 1 ≤ remaining.toNat ∧ remaining.toNat ≤ 16 ∧
      ∀ n : Station, has full n = true ∨ has joiners n = true → has slots n = true
    ∃ t, exec (.rosterAdmission slots) s = .next t ∧ t.qu = s.qu ∧ t.hp = s.hp ∧ t.lu.mode = .resting ∧
      t.lu.driver = .released ∧ t.vu.judged = none ∧
      (admits → t.vu.station = .joining ∧ t.vu.standing = .pending ∧ t.vu.retainedEpoch = 0 ∧ t.vu.admitTimer = none ∧
        t.vu.stallTimer = some 8192 ∧ t.vu.stallOwed = false ∧
        t.vu.view = ⟨full, joiners, j.frame.epoch, false, cursor, remaining.toNat⟩ ∧
        (∀ c, cellAt t c = Cell.powerOn) ∧ t.tu.known = 0 ∧ t.wu = { s.wu with statePending := true }) ∧
      (¬admits → s.vu.admitExpired = false → t.vu = { s.vu with judged := none } ∧ t.tu = s.tu ∧ t.wu = s.wu) ∧
      (¬admits → s.vu.admitExpired = true → t.vu.station = .listening ∧ t.vu.standing = s.vu.standing ∧
        t.vu.probeDue = .join ∧ t.vu.unanswered = 0 ∧ t.tu = s.tu ∧ t.wu = { s.wu with statePending := true })

/-- A complete TRANSFER, another station's or the supplier's own, that leaves frames of the round to come: the cursor and
remaining move on, a JOINING station takes the images and marks the chunk known, and the attempt record of a TRANSFER is
cleared. An own TRANSFER sets DEFERRED. -/
def Obligations.TransferApplied : Prop :=
  ∀ (slots : Mask) (s : State) (j : Judged) (k : BitVec 4) (images : Vector Cell 8),
    JudgingOther j slots s ∨ (∃ f, JudgingOwn j ⟨.transfer, f⟩ s ∧ isComplete j slots s = true) →
    j.frame.body = .transfer k images → 1 < s.vu.view.remaining →
    let v := s.vu.view
    let next : View := { v with cursor := v.cursor + 1, remaining := v.remaining - 1 }
    let sending (t : State) : Prop := SendingSettled (s.setSu { s.su with transferRec := ⟨0, []⟩ }) t ∧
      t.su.transferRec = ⟨0, []⟩ ∧ t.lu.deferred = (s.lu.deferred || j.own) ∧ t.lu.mode = .resting ∧ t.lu.driver = .released
    (s.vu.station = .member → ∃ t, exec (.transfer slots) s = .next t ∧ t.vu = { s.vu with judged := none, view := next } ∧
      t.tu = s.tu ∧ t.wu = s.wu ∧ t.qu = s.qu ∧ t.hp = s.hp ∧ sending t) ∧
    (s.vu.station = .joining → ∃ t, exec (.transfer slots) s = .next t ∧
      t.vu = { s.vu with judged := none, view := next, stallTimer := some 8192, stallOwed := false } ∧
      (∀ m, m ≠ k → t.tu.known.getLsbD m.toNat = s.tu.known.getLsbD m.toNat) ∧ t.tu.known.getLsbD k.toNat = true ∧
      (∀ c : CellNo, c.toNat / 8 ≠ k.toNat → cellAt t c = cellAt s c) ∧
      (∀ (c : CellNo) (i : Fin 8), c.toNat = 8 * k.toNat + i.val → cellAt t c = images[i]) ∧
      t.wu = s.wu ∧ t.qu = s.qu ∧ t.hp = s.hp ∧ sending t)

/-- The TRANSFER, another station's or the supplier's own, that brings remaining to 0 promotes the joiners: at a MEMBER the view
changes, and in SU a TRANSFER's record is cleared; a JOINING station enters MEMBER with every chunk known, where the ARMED watches whose test holds
fire in ascending number, and withdraws with standing NONE when one is unknown; that the chunk it carries is then not applied is
the model's reading (log entry 16). -/
def Obligations.PromotionApplied : Prop :=
  ∀ (slots : Mask) (s : State) (j : Judged) (k : BitVec 4) (images : Vector Cell 8),
    JudgingOther j slots s ∨ (∃ f, JudgingOwn j ⟨.transfer, f⟩ s ∧ isComplete j slots s = true) →
    j.frame.body = .transfer k images → s.vu.view.remaining = 1 →
    let v := s.vu.view
    let next : View := ⟨v.full ||| v.joiners, 0, v.epoch + 1, false, v.cursor + 1, 0⟩
    let known := ∀ m, m ≠ k → s.tu.known.getLsbD m.toNat = true
    let sending (t : State) : Prop := SendingSettled (s.setSu { s.su with transferRec := ⟨0, []⟩ }) t ∧
      t.lu.deferred = (s.lu.deferred || j.own) ∧ t.lu.mode = .resting ∧ t.lu.driver = .released
    (s.vu.station = .member → ∃ t, exec (.transfer slots) s = .next t ∧ t.vu = { s.vu with judged := none, view := next } ∧
      t.tu = s.tu ∧ t.wu = s.wu ∧ t.qu = s.qu ∧ t.hp = s.hp ∧ sending t) ∧
    (s.vu.station = .joining → known → ∃ t, exec (.transfer slots) s = .next t ∧ t.vu.station = .member ∧
      t.vu.standing = .live ∧ t.vu.view = next ∧ t.vu.retainedEpoch = 0 ∧ t.vu.stallTimer = none ∧
      t.vu.stallOwed = false ∧ t.tu.known = 0 ∧ t.qu = s.qu ∧ t.hp = s.hp ∧ sending t ∧
      (∀ c : CellNo, c.toNat / 8 ≠ k.toNat → cellAt t c = cellAt s c) ∧
      (∀ (c : CellNo) (i : Fin 8), c.toNat = 8 * k.toNat + i.val → cellAt t c = images[i]) ∧ EntryReported s t) ∧
    (s.vu.station = .joining → ¬known → ∃ t, exec (.transfer slots) s = .next t ∧ t.lu.mode = .resting ∧
      t.lu.driver = .released ∧ t.hp = s.hp ∧ Withdrawn s t)

/-- A complete DROP, another station's or an own one: a station that it names withdraws; every other removes the named
stations, releases their claims in ascending cell order, firing watches and waking claims, clears every missing history and
prunes its owed DROP, and the sender's DROP leaves SU. -/
def Obligations.DropApplied : Prop :=
  ∀ (slots : Mask) (s : State) (j : Judged) (m : Mask),
    JudgingOther j slots s ∨ (∃ f, JudgingOwn j ⟨.drop, f⟩ s ∧ isComplete j slots s = true) → StandingLaw s →
    s.vu.station = .member ∨ s.vu.station = .joining → j.frame.body = .drop m →
    let v := s.vu.view
    let full := v.full &&& ~~~m
    let joiners := v.joiners &&& ~~~m
    let gone (c : CellNo) : Bool := match (cellAt s c).holder with
      | some h => has m h && (has v.full h || has v.joiners h)
      | none => false
    let frees (c : CellNo) : Prop :=
      gone c = true ∧ (s.vu.station = .member ∨ s.tu.known.getLsbD (c.toNat / 8) = true)
    let cleared (r : AttemptRec) : AttemptRec := ⟨r.count, []⟩
    let forgets : List Request → List Request := List.map fun q => { q with attempts := cleared q.attempts }
    let requests : Qu := { s.qu with queue := forgets s.qu.queue, park := forgets s.qu.park }
    ∃ t, exec (.drop slots) s = .next t ∧ t.lu.mode = .resting ∧ t.lu.driver = .released ∧ t.hp = s.hp ∧
      (has m (own s) = true → Withdrawn s t) ∧
      (has m (own s) = false →
        t.vu = { s.vu with
          judged := none
          view := ⟨full, joiners, v.epoch + 1, if joiners = 0 then false else v.rosterOwed, v.cursor,
            if joiners = 0 then 0 else v.remaining⟩
          stallTimer := if s.vu.station = .joining then some 8192 else s.vu.stallTimer
          stallOwed := if s.vu.station = .joining then false else s.vu.stallOwed } ∧
        t.tu.known = s.tu.known ∧
        (∀ c, (frees c → cellAt t c = { cellAt s c with holder := none, version := (cellAt s c).version + 1 }) ∧
          (¬frees c → cellAt t c = cellAt s c)) ∧
        (s.vu.station = .member → ReleaseReported gone (s.setQu requests) t) ∧
        (s.vu.station = .joining → t.wu = s.wu ∧ t.qu = requests) ∧
        SendingSettled (s.setSu { s.su with
          owedDrop := if j.own then none else s.su.owedDrop
          dropRec := cleared s.su.dropRec, rosterRec := cleared s.su.rosterRec, transferRec := cleared s.su.transferRec
          leaveRec := cleared s.su.leaveRec, foundRec := cleared s.su.foundRec, stallRec := cleared s.su.stallRec }) t)

/-- A complete LEAVE: the other stations remove the leaver and release its claims; the leaver's own claims are released too,
it keeps its table RETAINED under the epoch from before the LEAVE, its requests are retired WITHDRAWN, and it is HALTED. The
released cells are reported in ascending cell order. That the round ends, with no ROSTER owed, when the leaver was the last
joiner is the model's reading of R98 (log entry 17). -/
def Obligations.LeaveApplied : Prop :=
  ∀ (slots : Mask) (s : State) (j : Judged), StandingLaw s → j.frame.body = .leave → isComplete j slots s = true →
    let n := j.frame.orig
    let v := s.vu.view
    let joiners := v.joiners &&& ~~~only n
    let mine (c : CellNo) : Bool := (cellAt s c).holder == some (own s)
    let released (t : State) (h : Station) (reached : CellNo → Prop) : Prop := ∀ c,
      ((cellAt s c).holder = some h ∧ reached c →
        cellAt t c = { cellAt s c with holder := none, version := (cellAt s c).version + 1 }) ∧
      (¬((cellAt s c).holder = some h ∧ reached c) → cellAt t c = cellAt s c)
    (JudgingOther j slots s → s.vu.station = .member ∨ s.vu.station = .joining → n ≠ own s →
      ∃ t, exec (.leave slots) s = .next t ∧ t.hp = s.hp ∧ t.lu.mode = .resting ∧ t.lu.driver = .released ∧
        t.vu = { s.vu with
          judged := none
          view := ⟨v.full &&& ~~~only n, joiners, v.epoch + 1, if joiners = 0 then false else v.rosterOwed, v.cursor,
            if joiners = 0 then 0 else v.remaining⟩ } ∧
        t.tu.known = s.tu.known ∧ SendingSettled s t ∧
        (s.vu.station = .member → ReleaseReported (fun c => (cellAt s c).holder == some n) s t) ∧
        (s.vu.station = .joining → t.wu = s.wu ∧ t.qu = s.qu) ∧
        released t n (fun c => s.vu.station = .member ∨ s.tu.known.getLsbD (c.toNat / 8) = true)) ∧
    (JudgingOther j slots s → s.vu.station = .member ∨ s.vu.station = .joining → n = own s →
      ∃ t, exec (.leave slots) s = .next t ∧ t.hp = s.hp ∧ t.lu.mode = .resting ∧ t.lu.driver = .released ∧ Withdrawn s t) ∧
    (∀ f, JudgingOwn j ⟨.leave, f⟩ s → s.vu.station = .member →
      ∃ t, exec (.leave slots) s = .next t ∧ t.vu.station = .halted ∧ t.vu.standing = .retained ∧
        t.vu.retainedEpoch = v.epoch ∧ t.vu.view = ⟨0, 0, 0, false, 0, 0⟩ ∧ t.vu.leavePending = false ∧
        t.lu.driver = .released ∧ t.lu.deferred = false ∧ t.su = State.reset.su ∧ t.wu.statePending = true ∧
        released t (own s) (fun _ => True) ∧ (∀ i, (watchAt t i).state ≠ .armed) ∧
        t.wu.events = s.wu.events ++ releaseNotices mine s ++
          ((List.finRange 16).filter (fun i => (watchAt s i).state == .armed && !firesOnRelease mine s i)).map (fun i =>
            ⟨i, (watchAt s i).tag, .lost, (cellAt t (watchAt s i).cell).value, (cellAt t (watchAt s i).cell).holder,
              (cellAt t (watchAt s i).cell).version⟩) ∧
        t.qu.queue = [] ∧ t.qu.park = [] ∧
        t.qu.completions.map (fun x => (x.tag, x.ending, x.epoch)) =
          s.qu.completions.map (fun x => (x.tag, x.ending, x.epoch)) ++
            (s.qu.queue ++ s.qu.park).map (fun q => (q.tag, Ending.withdrawn, v.epoch)))

/-- The end of an own JOIN's window at a LISTENING station, answered or unanswered, and of an own FOUND's, complete or not. A
complete FOUND enters MEMBER, where every ARMED watch takes its cell's version as the reference and is evaluated at once, those whose test holds firing in
ascending number.
That a JOIN whose own slot was read released counts as unanswered is the model's reading (log entry 8). -/
def Obligations.ProbesEnd : Prop :=
  ∀ (slots : Mask) (s : State) (j : Judged) (f : Frame), s.vu.station = .listening →
    let answered := has slots (own s) = true ∧ ∃ n, n ≠ own s ∧ has slots n = true
    let sp := s.hp.straps
    (JudgingOwn j ⟨.probe, f⟩ s → f.body = .join → s.vu.unanswered ≤ 3 → ∃ t, exec (.joinProbe slots) s = .next t ∧
      t.tu = s.tu ∧ t.qu = s.qu ∧ t.hp = s.hp ∧ t.lu.deferred = s.lu.deferred ∧ t.vu.standing = s.vu.standing ∧
      t.vu.retainedEpoch = s.vu.retainedEpoch ∧ t.vu.view = s.vu.view ∧
      (answered → t.vu.station = .admitting ∧ t.vu.unanswered = 0 ∧ t.vu.probeTimer = none ∧
        t.vu.admitTimer = some 8192 ∧ t.wu = { s.wu with statePending := true }) ∧
      (¬answered →
        t.vu.station = .listening ∧ t.vu.unanswered = min 3 (s.vu.unanswered + 1) ∧ t.vu.probeDue = .nothing ∧
        t.vu.probeTimer = some (if 2 ≤ s.vu.unanswered ∧ sp.fp = false then 4096 else 256 + 16 * sp.sn.toNat) ∧
        t.wu = s.wu)) ∧
    (∀ r, JudgingOwn j ⟨.found, f⟩ s → f.body = .found r → s.vu.probeDue = .found →
      ∃ t, exec (.found slots) s = .next t ∧ t.qu = s.qu ∧ t.hp = s.hp ∧ t.su.attempt = none ∧ t.tu.known = s.tu.known ∧
        (has slots (own s) = true → t.vu.station = .member ∧ t.vu.standing = .live ∧ t.vu.retainedEpoch = 0 ∧
          t.vu.view = ⟨only (own s), 0, f.epoch, false, 0, 0⟩ ∧ t.vu.unanswered = 0 ∧ t.vu.probeTimer = none ∧
          EntryReported s t ∧
          (∀ c, ((s.vu.standing = .retained ∧ ∃ h, (cellAt s c).holder = some h ∧ h ≠ own s) →
              cellAt t c = { cellAt s c with holder := none, version := (cellAt s c).version + 1 }) ∧
            (¬(s.vu.standing = .retained ∧ ∃ h, (cellAt s c).holder = some h ∧ h ≠ own s) →
              cellAt t c = cellAt s c))) ∧
        (has slots (own s) = false → t.vu.station = .listening ∧ t.tu = s.tu ∧ t.wu = s.wu ∧
          (s.su.foundRec.count < 7 → t.su.foundRec = ⟨s.su.foundRec.count + 1, []⟩ ∧ t.vu.probeDue = .found ∧
            t.vu.unanswered = s.vu.unanswered ∧ t.su.offer = some .found) ∧
          (s.su.foundRec.count = 7 → t.vu.unanswered = 0 ∧ t.vu.probeDue = .join ∧ t.su.offer = some .probe)))

/-! ## Incomplete frames -/

/-- Which frames are complete in MEMBER and JOINING: those intact here, accepted or, for an own one, with the own slot
asserted, that have every slot of their kind's required set. A window that leaves another station's frame incomplete there
applies nothing; where the frame had shown this station out of step, it withdraws. At a HALTED, LISTENING or ADMITTING
station the end of another station's window applies nothing, whatever the frame and the slots, unless it is a ROSTER at an
ADMITTING station: LU goes back to rest, and only an ADMIT_WAIT expiry that waited for it is taken. A frame disregarded in
HALTED stays under judgement and disregarded when START is taken inside its window, to the window's end or a fault in it. The
window of a frame that is only tracked, or under no judgement, brings LU back to rest and does nothing else. These are the
model's choices: that any command of a window's end ends such a window (log entry 2), the tracking of a frame after a HALT
(log entry 15), that slots which lack this station's own slot, though it accepted the frame, are taken as they come, with no
window fault (log entry 12), and that LU takes the line as asserted after a window fault (log entry 21). That LU's place in a
frame stays as it was outside one is the model's choice (log entry 22). -/
def Obligations.IncompleteElsewhere : Prop :=
  (∀ (j : Judged) (slots : Mask) (s : State),
    let v := s.vu.view
    let inIt (n : Station) : Prop := has v.full n = true ∨ has v.joiners n = true
    let required (n : Station) : Prop := match j.frame.body with
      | .cell .. => inIt n
      | .transfer .. => inIt n
      | .roster .. => inIt n
      | .join => inIt n
      | .leave => inIt n
      | .drop m => inIt n ∧ has m n = false
      | .found _ => n = j.frame.orig
    isComplete j slots s = true ↔ j.intact = true ∧
      (j.own = false → j.accept = true) ∧ (j.own = true → has slots (own s) = true) ∧
      ∀ n, required n → has slots n = true) ∧
  (∀ (slots : Mask) (s : State) (j : Judged), Judging j s → j.own = false → isComplete j slots s = false →
    s.su.attempt = none → StandingLaw s → s.vu.station = .member ∨ s.vu.station = .joining →
    ∃ t, exec (.incompleteWindowEnd slots) s = .next t ∧ t.lu.mode = .resting ∧ t.lu.driver = .released ∧
      t.lu.idleCount = 0 ∧ t.hp = s.hp ∧
      (j.outOfStep = false → t.vu = { s.vu with judged := none } ∧ t.tu = s.tu ∧ t.qu = s.qu ∧ t.wu = s.wu) ∧
      (j.outOfStep = true → Withdrawn s t)) ∧
  (∀ (slots : Mask) (s : State) (c : Instr), held s = false → s.su.attempt = none →
    let rests (t : State) : Prop := t.tu = s.tu ∧ t.qu = s.qu ∧ t.hp = s.hp ∧ SendingSettled s t ∧ t.lu = { s.lu with
      mode := .resting, driver := .released, asserted := false, idleCount := 0, assertedCount := 0 }
    (∀ j, Judging j s → j.own = false → c = heardCommand j.frame slots ∨ c = .incompleteWindowEnd slots →
      s.vu.station = .halted ∨ s.vu.station = .listening ∨ (s.vu.station = .admitting ∧ isRoster j.frame.body = false) →
      ∃ t, exec c s = .next t ∧ rests t ∧
        (s.vu.station ≠ .admitting ∨ s.vu.admitExpired = false → t.vu = { s.vu with judged := none } ∧ t.wu = s.wu) ∧
        (s.vu.station = .admitting → s.vu.admitExpired = true → t.vu.station = .listening ∧ t.vu.probeDue = .join ∧
          t.vu.unanswered = 0 ∧ t.vu.admitTimer = none ∧ t.vu.standing = s.vu.standing ∧
          t.vu.retainedEpoch = s.vu.retainedEpoch ∧ t.vu.view = s.vu.view ∧
          t.wu = { s.wu with statePending := true })) ∧
    (∀ j, Judging j s → j.own = false → c = heardCommand j.frame slots ∨ c = .incompleteWindowEnd slots →
      s.vu.station = .halted → s.hp.controlBytes = [] →
      ∃ u, exec .start s = .next u ∧ u.vu.station = .listening ∧ u.vu.judged = some j ∧
        let disregards (t : State) : Prop := t.vu = { u.vu with judged := none } ∧ t.tu = s.tu ∧ t.qu = s.qu ∧
          t.wu = u.wu ∧ t.hp = u.hp ∧ t.su.offer = some .probe
        (∃ t, exec c u = .next t ∧ disregards t ∧ t.lu = { s.lu with
          mode := .resting, driver := .released, asserted := false, idleCount := 0, assertedCount := 0 }) ∧
        ∀ slot inData, ∃ t, exec (.windowFault slot inData) u = .next t ∧ disregards t ∧ t.lu = { s.lu with
          mode := .waitIdle, driver := .released, asserted := true, idleCount := 0, assertedCount := 0 }) ∧
    (s.lu.mode = .tracking ∨ s.lu.mode = .window → s.vu.judged = none → c ∈ windowEnds slots →
      ∃ t, exec c s = .next t ∧ rests t ∧ t.vu = s.vu ∧ t.wu = s.wu))

/-- An own attempt in a view whose window leaves it incomplete. The missing set is recorded; with three entries that share
stations of the view, the quorum test decides between an owed DROP, widened for a DROP itself, and the withdrawal. Otherwise
the item waits for another attempt: a request as QUEUED, a woken claim as ELIGIBLE and first in woken order. A request marked for
cancel is retired CANCELLED instead, at its 8th attempt too, with no drop decision. The 8th incomplete attempt retires a request
FAILED, clears the record of a ROSTER or a TRANSFER, ends a stall JOIN, withdraws the station for a DROP and halts it for a LEAVE.
An own slot read released makes the attempt a self fault with an empty missing set, and no
withdrawal: the model's reading of R64 (log entry 8). -/
def Obligations.IncompleteOwnRequest : Prop :=
  (∀ (slots : Mask) (s : State) (j : Judged) (i : Item) (f : Frame) (q : Request) (op : CellOp) (c : CellNo) (a b : Half),
    JudgingOwn j ⟨i, f⟩ s → s.vu.station = .member → f.body = .cell op c a b →
    (i = .request q.tag ∧ q ∈ s.qu.queue) ∨ (i = .claim q.tag ∧ q ∈ s.qu.park) →
    isComplete j slots s = false → ((s.qu.queue ++ s.qu.park).map (·.tag)).Nodup →
    q.attempts.count ≤ 7 → s.su.owedDrop = none →
    let v := s.vu.view
    let missing : Mask := if has slots (own s) = true then (v.full ||| v.joiners) &&& ~~~slots else 0
    let history := (q.attempts.history ++ [missing]).drop (q.attempts.history.length - 2)
    let shared := history.foldl (fun m h => m &&& h) (v.full ||| v.joiners)
    let recorded (st : RequestState → RequestState) (r : Request) : Request :=
      if r.tag = q.tag then { r with state := st r.state, attempts := ⟨q.attempts.count + 1, history⟩ } else r
    let waits (t : State) : Prop :=
      (i = .request q.tag → t.qu = { s.qu with queue := s.qu.queue.map (recorded fun _ => .queued) }) ∧
      (i = .claim q.tag → t.qu = { s.qu with
        park := s.qu.park.map (recorded fun _ => .eligible), woken := q.tag :: s.qu.woken })
    let fails (t : State) : Prop := t.qu = { s.qu with
      queue := s.qu.queue.filter (fun r => r.tag ≠ q.tag)
      park := s.qu.park.filter (fun r => r.tag ≠ q.tag)
      woken := s.qu.woken.filter (fun w => w ≠ q.tag)
      completions := s.qu.completions ++ [⟨q.tag, q.op, q.wait, q.cell, .failed,
        (if s.vu.standing = .live then (cellAt s q.cell).value else 0),
        (if s.vu.standing = .live then (cellAt s q.cell).holder else none),
        (if s.vu.standing = .live then (cellAt s q.cell).version else 0),
        ⟨false, false, false, false⟩, 8, v.epoch, false⟩] }
    let still (t : State) : Prop := t.vu = { s.vu with judged := none } ∧ t.tu = s.tu ∧ t.wu = s.wu ∧ t.lu.deferred = true
    let follows (t : State) : Prop := (q.attempts.count < 7 → waits t) ∧ (q.attempts.count = 7 → fails t) ∧ still t
    ∃ t, exec (.incompleteWindowEnd slots) s = .next t ∧ t.lu.mode = .resting ∧ t.lu.driver = .released ∧ t.hp = s.hp ∧
      (q.cancelMark = true → still t ∧ SendingSettled s t ∧
        t.qu = retiredAs .cancelled { q with attempts := ⟨q.attempts.count + 1, history⟩ } s) ∧
      (q.cancelMark = false → history.length < 3 ∨ shared = 0 → follows t ∧ SendingSettled s t) ∧
      (q.cancelMark = false → history.length = 3 → shared ≠ 0 → 2 * size (shared &&& v.full) < size v.full →
        follows t ∧ SendingSettled (s.setSu { s.su with owedDrop := some shared, dropRec := ⟨0, []⟩ }) t ∧
        t.su.offer = some .drop) ∧
      (q.cancelMark = false → history.length = 3 → shared ≠ 0 → size v.full ≤ 2 * size (shared &&& v.full) →
        Withdrawn (s.setQu { s.qu with
          queue := s.qu.queue.map (recorded id), park := s.qu.park.map (recorded id) }) t)) ∧
  (∀ (slots : Mask) (s : State) (j : Judged) (i : Item) (f : Frame), JudgingOwn j ⟨i, f⟩ s →
    i ∈ [Item.drop, .roster, .leave, .stallJoin, .transfer] → itemFits i s.vu.station = true → isFound f.body = false →
    isComplete j slots s = false → (recordOf i s).count ≤ 7 →
    let v := s.vu.view
    let r := recordOf i s
    let required := (v.full ||| v.joiners) &&& ~~~(match f.body with | .drop m => m | _ => 0)
    let missing : Mask := if has slots (own s) = true then required &&& ~~~slots else 0
    let history := (r.history ++ [missing]).drop (r.history.length - 2)
    let shared := history.foldl (fun m h => m &&& h) (v.full ||| v.joiners)
    let weighed := if i = .drop then s.su.owedDrop.getD 0 ||| shared else shared
    let kept := history.length < 3 ∨ shared = 0
    let passes := 2 * size (weighed &&& v.full) < size v.full
    let recorded := setRecord i ⟨r.count + 1, history⟩ s
    let sending := if kept then recorded else recorded.setSu { recorded.su with
      owedDrop := some weighed
      dropRec := if i = .drop then ⟨r.count + 1, []⟩ else ⟨0, []⟩ }
    let quiet (t : State) : Prop := t.tu = s.tu ∧ t.qu = s.qu ∧ t.wu = s.wu ∧
      t.lu.deferred = (s.lu.deferred || classOne f.body)
    ∃ t, exec (.incompleteWindowEnd slots) s = .next t ∧ t.lu.driver = .released ∧ t.lu.mode = .resting ∧ t.hp = s.hp ∧
      (kept ∨ passes → r.count < 7 →
        quiet t ∧ t.vu = { s.vu with judged := none } ∧ SendingSettled sending t) ∧
      (kept ∨ passes → r.count = 7 → i = .roster ∨ i = .transfer →
        quiet t ∧ t.vu = { s.vu with judged := none } ∧ SendingSettled (setRecord i ⟨0, []⟩ sending) t) ∧
      (kept ∨ passes → r.count = 7 → i = .stallJoin →
        quiet t ∧ t.vu = { s.vu with judged := none, stallTimer := some 8192, stallOwed := false } ∧
        SendingSettled sending t) ∧
      (kept ∨ passes → r.count = 7 → i = .drop → Withdrawn s t) ∧
      (kept ∨ passes → r.count = 7 → i = .leave → t.vu.station = .halted ∧ t.vu.standing = .retained ∧
        t.vu.retainedEpoch = v.epoch ∧ t.vu.view = ⟨0, 0, 0, false, 0, 0⟩ ∧ t.vu.leavePending = false ∧
        t.su = State.reset.su ∧ t.lu.deferred = false ∧ t.tu = s.tu ∧ ExitReported s t ∧
        t.qu = allWithdrawn s) ∧
      (¬kept → ¬passes → Withdrawn s t))

/-! ## The laws that every step keeps -/

/-- The law of the queues is kept by every step. -/
def Obligations.StepKeepsRequestLaw : Prop :=
  ∀ s t : State, RequestLaw s → step s = .next t → RequestLaw t

/-- The law of the event queue is kept by every step. -/
def Obligations.StepKeepsNoticeLaw : Prop :=
  ∀ s t : State, NoticeLaw s → step s = .next t → NoticeLaw t

/-- The laws of one station are kept by every step: a HALTED station is silent, the standing and the table go with the
station state, LU drives only its own frame and accepted slots, and no class-1 item is offered while DEFERRED is set. That a
part without supply stands at its reset values is the model's choice (log entry 11). -/
def Obligations.StepKeepsCoherence : Prop :=
  ∀ s t : State, Coherent s → step s = .next t → Coherent t

/-- The law of the view is kept by every step, when a ROSTER to an ADMITTING station carries disjoint masks. -/
def Obligations.StepKeepsViewShape : Prop :=
  ∀ s t : State, ViewShape s.vu.view → LawfulRoster s → step s = .next t → ViewShape t.vu.view

/-- The machine after reset keeps every law. -/
def Obligations.ResetIsSound : Prop := Sound State.reset ∧ ViewShape State.reset.vu.view ∧ LawfulRoster State.reset

/-- Two MEMBER stations of one view with equal tables, each judging the same complete frame of a third station, hold equal
tables and equal views after any one command, the same at both, that leaves both MEMBER. -/
def Obligations.CopiesStayEqual : Prop :=
  ∀ (c : Instr) (slots : Mask) (s1 s2 t1 t2 : State) (j1 j2 : Judged),
    JudgingOther j1 slots s1 → JudgingOther j2 slots s2 → j1.frame = j2.frame →
    s1.vu.station = .member → s2.vu.station = .member → s1.vu.standing = .live → s2.vu.standing = .live →
    s1.vu.view = s2.vu.view → s1.tu.cells = s2.tu.cells →
    exec c s1 = .next t1 → exec c s2 = .next t2 → t1.vu.station = .member → t2.vu.station = .member →
    t1.tu.cells = t2.tu.cells ∧ t1.vu.view = t2.vu.view

/-! ## Frames on the line -/

/-- A frame's bits, as its originator sends them, are read back as that frame with a correct check. -/
def Obligations.FrameRoundTrip : Prop :=
  ∀ f : Frame, decodeFrame (encodeFrame f) = some (f, true)

/-- One bit read wrong among the covered bits of a frame spoils its check: the check value of the bits read differs from that
of the bits sent. -/
def Obligations.CheckFindsOneBit : Prop :=
  ∀ (bits : List Bool) (i : Nat), i < bits.length →
    checkOf (bits.set i (!bits.getD i false)) ≠ checkOf bits

/-- Arbitration leaves exactly the stations whose class and station number are lowest as a 6-bit number. -/
def Obligations.ArbitrationLowest : Prop :=
  ∀ (fields : List (BitVec 6)) (x : BitVec 6), x ∈ arbitrate fields ↔ x ∈ fields ∧ ∀ y ∈ fields, x.toNat ≤ y.toNat
end

