-- ==== Sys2Proof/Laws/State.lean ====
section
/-! SUPPORT. One lemma per field per update of State, each true by definition. -/

namespace Sys2Proof.Machine

section
variable (s : State) (x : Power)

@[simp] theorem State.setPower_power : (s.setPower x).power = x := rfl
@[simp] theorem State.setPower_rst : (s.setPower x).rst = s.rst := rfl
@[simp] theorem State.setPower_lu : (s.setPower x).lu = s.lu := rfl
@[simp] theorem State.setPower_vu : (s.setPower x).vu = s.vu := rfl
@[simp] theorem State.setPower_tu : (s.setPower x).tu = s.tu := rfl
@[simp] theorem State.setPower_su : (s.setPower x).su = s.su := rfl
@[simp] theorem State.setPower_qu : (s.setPower x).qu = s.qu := rfl
@[simp] theorem State.setPower_wu : (s.setPower x).wu = s.wu := rfl
@[simp] theorem State.setPower_hp : (s.setPower x).hp = s.hp := rfl
@[simp] theorem State.setPower_hostData : (s.setPower x).hostData = s.hostData := rfl
@[simp] theorem State.setPower_freeCount : (s.setPower x).freeCount = s.freeCount := rfl
@[simp] theorem State.setPower_pending : (s.setPower x).pending = s.pending := rfl

end

section
variable (s : State) (x : Bool)

@[simp] theorem State.setRst_power : (s.setRst x).power = s.power := rfl
@[simp] theorem State.setRst_rst : (s.setRst x).rst = x := rfl
@[simp] theorem State.setRst_lu : (s.setRst x).lu = s.lu := rfl
@[simp] theorem State.setRst_vu : (s.setRst x).vu = s.vu := rfl
@[simp] theorem State.setRst_tu : (s.setRst x).tu = s.tu := rfl
@[simp] theorem State.setRst_su : (s.setRst x).su = s.su := rfl
@[simp] theorem State.setRst_qu : (s.setRst x).qu = s.qu := rfl
@[simp] theorem State.setRst_wu : (s.setRst x).wu = s.wu := rfl
@[simp] theorem State.setRst_hp : (s.setRst x).hp = s.hp := rfl
@[simp] theorem State.setRst_hostData : (s.setRst x).hostData = s.hostData := rfl
@[simp] theorem State.setRst_freeCount : (s.setRst x).freeCount = s.freeCount := rfl
@[simp] theorem State.setRst_pending : (s.setRst x).pending = s.pending := rfl

end

section
variable (s : State) (x : Lu)

@[simp] theorem State.setLu_power : (s.setLu x).power = s.power := rfl
@[simp] theorem State.setLu_rst : (s.setLu x).rst = s.rst := rfl
@[simp] theorem State.setLu_lu : (s.setLu x).lu = x := rfl
@[simp] theorem State.setLu_vu : (s.setLu x).vu = s.vu := rfl
@[simp] theorem State.setLu_tu : (s.setLu x).tu = s.tu := rfl
@[simp] theorem State.setLu_su : (s.setLu x).su = s.su := rfl
@[simp] theorem State.setLu_qu : (s.setLu x).qu = s.qu := rfl
@[simp] theorem State.setLu_wu : (s.setLu x).wu = s.wu := rfl
@[simp] theorem State.setLu_hp : (s.setLu x).hp = s.hp := rfl
@[simp] theorem State.setLu_hostData : (s.setLu x).hostData = s.hostData := rfl
@[simp] theorem State.setLu_freeCount : (s.setLu x).freeCount = s.freeCount := rfl
@[simp] theorem State.setLu_pending : (s.setLu x).pending = s.pending := rfl

end

section
variable (s : State) (x : Vu)

@[simp] theorem State.setVu_power : (s.setVu x).power = s.power := rfl
@[simp] theorem State.setVu_rst : (s.setVu x).rst = s.rst := rfl
@[simp] theorem State.setVu_lu : (s.setVu x).lu = s.lu := rfl
@[simp] theorem State.setVu_vu : (s.setVu x).vu = x := rfl
@[simp] theorem State.setVu_tu : (s.setVu x).tu = s.tu := rfl
@[simp] theorem State.setVu_su : (s.setVu x).su = s.su := rfl
@[simp] theorem State.setVu_qu : (s.setVu x).qu = s.qu := rfl
@[simp] theorem State.setVu_wu : (s.setVu x).wu = s.wu := rfl
@[simp] theorem State.setVu_hp : (s.setVu x).hp = s.hp := rfl
@[simp] theorem State.setVu_hostData : (s.setVu x).hostData = s.hostData := rfl
@[simp] theorem State.setVu_freeCount : (s.setVu x).freeCount = s.freeCount := rfl
@[simp] theorem State.setVu_pending : (s.setVu x).pending = s.pending := rfl

end

section
variable (s : State) (x : Tu)

@[simp] theorem State.setTu_power : (s.setTu x).power = s.power := rfl
@[simp] theorem State.setTu_rst : (s.setTu x).rst = s.rst := rfl
@[simp] theorem State.setTu_lu : (s.setTu x).lu = s.lu := rfl
@[simp] theorem State.setTu_vu : (s.setTu x).vu = s.vu := rfl
@[simp] theorem State.setTu_tu : (s.setTu x).tu = x := rfl
@[simp] theorem State.setTu_su : (s.setTu x).su = s.su := rfl
@[simp] theorem State.setTu_qu : (s.setTu x).qu = s.qu := rfl
@[simp] theorem State.setTu_wu : (s.setTu x).wu = s.wu := rfl
@[simp] theorem State.setTu_hp : (s.setTu x).hp = s.hp := rfl
@[simp] theorem State.setTu_hostData : (s.setTu x).hostData = s.hostData := rfl
@[simp] theorem State.setTu_freeCount : (s.setTu x).freeCount = s.freeCount := rfl
@[simp] theorem State.setTu_pending : (s.setTu x).pending = s.pending := rfl

end

section
variable (s : State) (x : Su)

@[simp] theorem State.setSu_power : (s.setSu x).power = s.power := rfl
@[simp] theorem State.setSu_rst : (s.setSu x).rst = s.rst := rfl
@[simp] theorem State.setSu_lu : (s.setSu x).lu = s.lu := rfl
@[simp] theorem State.setSu_vu : (s.setSu x).vu = s.vu := rfl
@[simp] theorem State.setSu_tu : (s.setSu x).tu = s.tu := rfl
@[simp] theorem State.setSu_su : (s.setSu x).su = x := rfl
@[simp] theorem State.setSu_qu : (s.setSu x).qu = s.qu := rfl
@[simp] theorem State.setSu_wu : (s.setSu x).wu = s.wu := rfl
@[simp] theorem State.setSu_hp : (s.setSu x).hp = s.hp := rfl
@[simp] theorem State.setSu_hostData : (s.setSu x).hostData = s.hostData := rfl
@[simp] theorem State.setSu_freeCount : (s.setSu x).freeCount = s.freeCount := rfl
@[simp] theorem State.setSu_pending : (s.setSu x).pending = s.pending := rfl

end

section
variable (s : State) (x : Qu)

@[simp] theorem State.setQu_power : (s.setQu x).power = s.power := rfl
@[simp] theorem State.setQu_rst : (s.setQu x).rst = s.rst := rfl
@[simp] theorem State.setQu_lu : (s.setQu x).lu = s.lu := rfl
@[simp] theorem State.setQu_vu : (s.setQu x).vu = s.vu := rfl
@[simp] theorem State.setQu_tu : (s.setQu x).tu = s.tu := rfl
@[simp] theorem State.setQu_su : (s.setQu x).su = s.su := rfl
@[simp] theorem State.setQu_qu : (s.setQu x).qu = x := rfl
@[simp] theorem State.setQu_wu : (s.setQu x).wu = s.wu := rfl
@[simp] theorem State.setQu_hp : (s.setQu x).hp = s.hp := rfl
@[simp] theorem State.setQu_hostData : (s.setQu x).hostData = s.hostData := rfl
@[simp] theorem State.setQu_freeCount : (s.setQu x).freeCount = s.freeCount := rfl
@[simp] theorem State.setQu_pending : (s.setQu x).pending = s.pending := rfl

end

section
variable (s : State) (x : Wu)

@[simp] theorem State.setWu_power : (s.setWu x).power = s.power := rfl
@[simp] theorem State.setWu_rst : (s.setWu x).rst = s.rst := rfl
@[simp] theorem State.setWu_lu : (s.setWu x).lu = s.lu := rfl
@[simp] theorem State.setWu_vu : (s.setWu x).vu = s.vu := rfl
@[simp] theorem State.setWu_tu : (s.setWu x).tu = s.tu := rfl
@[simp] theorem State.setWu_su : (s.setWu x).su = s.su := rfl
@[simp] theorem State.setWu_qu : (s.setWu x).qu = s.qu := rfl
@[simp] theorem State.setWu_wu : (s.setWu x).wu = x := rfl
@[simp] theorem State.setWu_hp : (s.setWu x).hp = s.hp := rfl
@[simp] theorem State.setWu_hostData : (s.setWu x).hostData = s.hostData := rfl
@[simp] theorem State.setWu_freeCount : (s.setWu x).freeCount = s.freeCount := rfl
@[simp] theorem State.setWu_pending : (s.setWu x).pending = s.pending := rfl

end

section
variable (s : State) (x : Hp)

@[simp] theorem State.setHp_power : (s.setHp x).power = s.power := rfl
@[simp] theorem State.setHp_rst : (s.setHp x).rst = s.rst := rfl
@[simp] theorem State.setHp_lu : (s.setHp x).lu = s.lu := rfl
@[simp] theorem State.setHp_vu : (s.setHp x).vu = s.vu := rfl
@[simp] theorem State.setHp_tu : (s.setHp x).tu = s.tu := rfl
@[simp] theorem State.setHp_su : (s.setHp x).su = s.su := rfl
@[simp] theorem State.setHp_qu : (s.setHp x).qu = s.qu := rfl
@[simp] theorem State.setHp_wu : (s.setHp x).wu = s.wu := rfl
@[simp] theorem State.setHp_hp : (s.setHp x).hp = x := rfl
@[simp] theorem State.setHp_hostData : (s.setHp x).hostData = s.hostData := rfl
@[simp] theorem State.setHp_freeCount : (s.setHp x).freeCount = s.freeCount := rfl
@[simp] theorem State.setHp_pending : (s.setHp x).pending = s.pending := rfl

end

section
variable (s : State) (x : Byte)

@[simp] theorem State.setHostData_power : (s.setHostData x).power = s.power := rfl
@[simp] theorem State.setHostData_rst : (s.setHostData x).rst = s.rst := rfl
@[simp] theorem State.setHostData_lu : (s.setHostData x).lu = s.lu := rfl
@[simp] theorem State.setHostData_vu : (s.setHostData x).vu = s.vu := rfl
@[simp] theorem State.setHostData_tu : (s.setHostData x).tu = s.tu := rfl
@[simp] theorem State.setHostData_su : (s.setHostData x).su = s.su := rfl
@[simp] theorem State.setHostData_qu : (s.setHostData x).qu = s.qu := rfl
@[simp] theorem State.setHostData_wu : (s.setHostData x).wu = s.wu := rfl
@[simp] theorem State.setHostData_hp : (s.setHostData x).hp = s.hp := rfl
@[simp] theorem State.setHostData_hostData : (s.setHostData x).hostData = x := rfl
@[simp] theorem State.setHostData_freeCount : (s.setHostData x).freeCount = s.freeCount := rfl
@[simp] theorem State.setHostData_pending : (s.setHostData x).pending = s.pending := rfl

end

section
variable (s : State) (x : Nat)

@[simp] theorem State.setFreeCount_power : (s.setFreeCount x).power = s.power := rfl
@[simp] theorem State.setFreeCount_rst : (s.setFreeCount x).rst = s.rst := rfl
@[simp] theorem State.setFreeCount_lu : (s.setFreeCount x).lu = s.lu := rfl
@[simp] theorem State.setFreeCount_vu : (s.setFreeCount x).vu = s.vu := rfl
@[simp] theorem State.setFreeCount_tu : (s.setFreeCount x).tu = s.tu := rfl
@[simp] theorem State.setFreeCount_su : (s.setFreeCount x).su = s.su := rfl
@[simp] theorem State.setFreeCount_qu : (s.setFreeCount x).qu = s.qu := rfl
@[simp] theorem State.setFreeCount_wu : (s.setFreeCount x).wu = s.wu := rfl
@[simp] theorem State.setFreeCount_hp : (s.setFreeCount x).hp = s.hp := rfl
@[simp] theorem State.setFreeCount_hostData : (s.setFreeCount x).hostData = s.hostData := rfl
@[simp] theorem State.setFreeCount_freeCount : (s.setFreeCount x).freeCount = x := rfl
@[simp] theorem State.setFreeCount_pending : (s.setFreeCount x).pending = s.pending := rfl

end

section
variable (s : State) (x : List Instr)

@[simp] theorem State.setPending_power : (s.setPending x).power = s.power := rfl
@[simp] theorem State.setPending_rst : (s.setPending x).rst = s.rst := rfl
@[simp] theorem State.setPending_lu : (s.setPending x).lu = s.lu := rfl
@[simp] theorem State.setPending_vu : (s.setPending x).vu = s.vu := rfl
@[simp] theorem State.setPending_tu : (s.setPending x).tu = s.tu := rfl
@[simp] theorem State.setPending_su : (s.setPending x).su = s.su := rfl
@[simp] theorem State.setPending_qu : (s.setPending x).qu = s.qu := rfl
@[simp] theorem State.setPending_wu : (s.setPending x).wu = s.wu := rfl
@[simp] theorem State.setPending_hp : (s.setPending x).hp = s.hp := rfl
@[simp] theorem State.setPending_hostData : (s.setPending x).hostData = s.hostData := rfl
@[simp] theorem State.setPending_freeCount : (s.setPending x).freeCount = s.freeCount := rfl
@[simp] theorem State.setPending_pending : (s.setPending x).pending = x := rfl

end

end Sys2Proof.Machine
end

