-- ==== Sys2Proof/Laws/FramesCore.lean ====
section
/-! SUPPORT. What each shared operation of the table, the watches, the requests and the view leaves as it was. -/

namespace Sys2Proof.Machine

/-- A property that every step of a fold keeps is kept by the fold. -/
theorem foldl_keeps {α β : Type} {P : α → Prop} {f : α → β → α} (step : ∀ t i, P t → P (f t i)) :
    ∀ (l : List β) (s : α), P s → P (l.foldl f s)
  | [], _, h => h
  | i :: l, s, h => foldl_keeps step l (f s i) (step s i h)

/-- What `quiet` writes and what it leaves. -/
@[simp] theorem quiet_fields (v : Vu) :
    (quiet v).station = v.station ∧ (quiet v).view = v.view ∧ (quiet v).standing = v.standing ∧
    (quiet v).retainedEpoch = v.retainedEpoch ∧ (quiet v).foreign = v.foreign ∧ (quiet v).unanswered = 0 ∧
    (quiet v).probeTimer = none ∧ (quiet v).probeDue = .nothing ∧ (quiet v).admitTimer = none ∧
    (quiet v).admitExpired = false ∧ (quiet v).stallTimer = none ∧ (quiet v).stallOwed = false ∧
    (quiet v).leavePending = false ∧ (quiet v).judged = none := by
  simp [quiet]

/-- What a line that is given up holds. -/
@[simp] theorem giveUpLine_fields (run : Nat) (l : Lu) :
    (giveUpLine run l).mode = .waitIdle ∧ (giveUpLine run l).driver = .released ∧ (giveUpLine run l).asserted = true ∧
    (giveUpLine run l).idleCount = 0 ∧ (giveUpLine run l).assertedCount = run ∧ (giveUpLine run l).deferred = l.deferred ∧
    (giveUpLine run l).stuck = l.stuck ∧ (giveUpLine run l).checkReg = l.checkReg := by
  simp [giveUpLine]

/-- What a HALT leaves LU with. -/
@[simp] theorem haltLine_fields (l : Lu) :
    (haltLine l).driver = .released ∧ (haltLine l).deferred = false ∧ (haltLine l).stuck = l.stuck ∧
    (haltLine l).asserted = l.asserted ∧ (haltLine l).idleCount = l.idleCount ∧
    (haltLine l).assertedCount = l.assertedCount ∧ (haltLine l).checkReg = l.checkReg := by
  generalize h : haltLine l = t
  unfold haltLine at h
  (repeat' split at h) <;> subst h <;> simp

/-- What `raiseState` leaves as it was. -/
@[simp] theorem raiseState_frame  (s : State) :
    (raiseState s).power = s.power ∧
    (raiseState s).rst = s.rst ∧
    (raiseState s).lu = s.lu ∧
    (raiseState s).vu = s.vu ∧
    (raiseState s).tu = s.tu ∧
    (raiseState s).su = s.su ∧
    (raiseState s).qu = s.qu ∧
    (raiseState s).wu.watches = s.wu.watches ∧
    (raiseState s).wu.events = s.wu.events ∧
    (raiseState s).wu.pos = s.wu.pos ∧
    (raiseState s).wu.result = s.wu.result ∧
    (raiseState s).wu.linePending = s.wu.linePending ∧
    (raiseState s).wu.enables = s.wu.enables ∧
    (raiseState s).hp = s.hp ∧
    (raiseState s).hostData = s.hostData ∧
    (raiseState s).freeCount = s.freeCount ∧
    (raiseState s).pending = s.pending := by
  generalize h : raiseState s = t
  unfold raiseState at h
  try dsimp only at h
  (repeat' split at h) <;> subst h <;> simp

/-- What `raiseLine` leaves as it was. -/
@[simp] theorem raiseLine_frame  (s : State) :
    (raiseLine s).power = s.power ∧
    (raiseLine s).rst = s.rst ∧
    (raiseLine s).lu = s.lu ∧
    (raiseLine s).vu = s.vu ∧
    (raiseLine s).tu = s.tu ∧
    (raiseLine s).su = s.su ∧
    (raiseLine s).qu = s.qu ∧
    (raiseLine s).wu.watches = s.wu.watches ∧
    (raiseLine s).wu.events = s.wu.events ∧
    (raiseLine s).wu.pos = s.wu.pos ∧
    (raiseLine s).wu.result = s.wu.result ∧
    (raiseLine s).wu.statePending = s.wu.statePending ∧
    (raiseLine s).wu.enables = s.wu.enables ∧
    (raiseLine s).hp = s.hp ∧
    (raiseLine s).hostData = s.hostData ∧
    (raiseLine s).freeCount = s.freeCount ∧
    (raiseLine s).pending = s.pending := by
  generalize h : raiseLine s = t
  unfold raiseLine at h
  try dsimp only at h
  (repeat' split at h) <;> subst h <;> simp

/-- What `enter` leaves as it was. -/
@[simp] theorem enter_frame (st : StationState) (s : State) :
    (enter st s).power = s.power ∧
    (enter st s).rst = s.rst ∧
    (enter st s).lu = s.lu ∧
    (enter st s).vu.view = s.vu.view ∧
    (enter st s).vu.standing = s.vu.standing ∧
    (enter st s).vu.retainedEpoch = s.vu.retainedEpoch ∧
    (enter st s).vu.unanswered = s.vu.unanswered ∧
    (enter st s).vu.probeTimer = s.vu.probeTimer ∧
    (enter st s).vu.probeDue = s.vu.probeDue ∧
    (enter st s).vu.admitTimer = s.vu.admitTimer ∧
    (enter st s).vu.admitExpired = s.vu.admitExpired ∧
    (enter st s).vu.stallTimer = s.vu.stallTimer ∧
    (enter st s).vu.stallOwed = s.vu.stallOwed ∧
    (enter st s).vu.leavePending = s.vu.leavePending ∧
    (enter st s).vu.foreign = s.vu.foreign ∧
    (enter st s).vu.judged = s.vu.judged ∧
    (enter st s).tu = s.tu ∧
    (enter st s).su = s.su ∧
    (enter st s).qu = s.qu ∧
    (enter st s).wu.watches = s.wu.watches ∧
    (enter st s).wu.events = s.wu.events ∧
    (enter st s).wu.pos = s.wu.pos ∧
    (enter st s).wu.result = s.wu.result ∧
    (enter st s).wu.linePending = s.wu.linePending ∧
    (enter st s).wu.enables = s.wu.enables ∧
    (enter st s).hp = s.hp ∧
    (enter st s).hostData = s.hostData ∧
    (enter st s).freeCount = s.freeCount ∧
    (enter st s).pending = s.pending := by
  generalize h : enter st s = t
  unfold enter at h
  try dsimp only at h
  (repeat' split at h) <;> subst h <;> simp

/-- What `putCell` leaves as it was. -/
@[simp] theorem putCell_frame (c : CellNo) (r : Cell) (s : State) :
    (putCell c r s).power = s.power ∧
    (putCell c r s).rst = s.rst ∧
    (putCell c r s).lu = s.lu ∧
    (putCell c r s).vu = s.vu ∧
    (putCell c r s).tu.known = s.tu.known ∧
    (putCell c r s).su = s.su ∧
    (putCell c r s).qu = s.qu ∧
    (putCell c r s).wu = s.wu ∧
    (putCell c r s).hp = s.hp ∧
    (putCell c r s).hostData = s.hostData ∧
    (putCell c r s).freeCount = s.freeCount ∧
    (putCell c r s).pending = s.pending := by
  generalize h : putCell c r s = t
  unfold putCell at h
  try dsimp only at h
  (repeat' split at h) <;> subst h <;> simp

/-- What `clearTable` leaves as it was. -/
@[simp] theorem clearTable_frame  (s : State) :
    (clearTable s).power = s.power ∧
    (clearTable s).rst = s.rst ∧
    (clearTable s).lu = s.lu ∧
    (clearTable s).vu = s.vu ∧
    (clearTable s).su = s.su ∧
    (clearTable s).qu = s.qu ∧
    (clearTable s).wu = s.wu ∧
    (clearTable s).hp = s.hp ∧
    (clearTable s).hostData = s.hostData ∧
    (clearTable s).freeCount = s.freeCount ∧
    (clearTable s).pending = s.pending := by
  generalize h : clearTable s = t
  unfold clearTable at h
  try dsimp only at h
  (repeat' split at h) <;> subst h <;> simp

/-- What `answer` leaves as it was. -/
@[simp] theorem answer_frame (x : PortByte) (s : State) :
    (answer x s).power = s.power ∧
    (answer x s).rst = s.rst ∧
    (answer x s).lu = s.lu ∧
    (answer x s).vu = s.vu ∧
    (answer x s).tu = s.tu ∧
    (answer x s).su = s.su ∧
    (answer x s).qu = s.qu ∧
    (answer x s).wu = s.wu ∧
    (answer x s).hp = s.hp ∧
    (answer x s).pending = s.pending := by
  generalize h : answer x s = t
  unfold answer at h
  try dsimp only at h
  (repeat' split at h) <;> subst h <;> simp

/-- What `putWatch` leaves as it was. -/
@[simp] theorem putWatch_frame (i : Fin 16) (w : Watch) (s : State) :
    (putWatch i w s).power = s.power ∧
    (putWatch i w s).rst = s.rst ∧
    (putWatch i w s).lu = s.lu ∧
    (putWatch i w s).vu = s.vu ∧
    (putWatch i w s).tu = s.tu ∧
    (putWatch i w s).su = s.su ∧
    (putWatch i w s).qu = s.qu ∧
    (putWatch i w s).wu.events = s.wu.events ∧
    (putWatch i w s).wu.pos = s.wu.pos ∧
    (putWatch i w s).wu.result = s.wu.result ∧
    (putWatch i w s).wu.statePending = s.wu.statePending ∧
    (putWatch i w s).wu.linePending = s.wu.linePending ∧
    (putWatch i w s).wu.enables = s.wu.enables ∧
    (putWatch i w s).hp = s.hp ∧
    (putWatch i w s).hostData = s.hostData ∧
    (putWatch i w s).freeCount = s.freeCount ∧
    (putWatch i w s).pending = s.pending := by
  generalize h : putWatch i w s = t
  unfold putWatch at h
  try dsimp only at h
  (repeat' split at h) <;> subst h <;> simp

/-- What `fire` leaves as it was. -/
@[simp] theorem fire_frame (reason : Reason) (r : Cell) (i : Fin 16) (s : State) :
    (fire reason r i s).power = s.power ∧
    (fire reason r i s).rst = s.rst ∧
    (fire reason r i s).lu = s.lu ∧
    (fire reason r i s).vu = s.vu ∧
    (fire reason r i s).tu = s.tu ∧
    (fire reason r i s).su = s.su ∧
    (fire reason r i s).qu = s.qu ∧
    (fire reason r i s).wu.pos = s.wu.pos ∧
    (fire reason r i s).wu.result = s.wu.result ∧
    (fire reason r i s).wu.statePending = s.wu.statePending ∧
    (fire reason r i s).wu.linePending = s.wu.linePending ∧
    (fire reason r i s).wu.enables = s.wu.enables ∧
    (fire reason r i s).hp = s.hp ∧
    (fire reason r i s).hostData = s.hostData ∧
    (fire reason r i s).freeCount = s.freeCount ∧
    (fire reason r i s).pending = s.pending := by
  generalize h : fire reason r i s = t
  unfold fire at h
  try dsimp only at h
  (repeat' split at h) <;> subst h <;> simp

/-- What `evaluate` leaves as it was. -/
@[simp] theorem evaluate_frame (i : Fin 16) (s : State) :
    (evaluate i s).power = s.power ∧
    (evaluate i s).rst = s.rst ∧
    (evaluate i s).lu = s.lu ∧
    (evaluate i s).vu = s.vu ∧
    (evaluate i s).tu = s.tu ∧
    (evaluate i s).su = s.su ∧
    (evaluate i s).qu = s.qu ∧
    (evaluate i s).wu.pos = s.wu.pos ∧
    (evaluate i s).wu.result = s.wu.result ∧
    (evaluate i s).wu.statePending = s.wu.statePending ∧
    (evaluate i s).wu.linePending = s.wu.linePending ∧
    (evaluate i s).wu.enables = s.wu.enables ∧
    (evaluate i s).hp = s.hp ∧
    (evaluate i s).hostData = s.hostData ∧
    (evaluate i s).freeCount = s.freeCount ∧
    (evaluate i s).pending = s.pending := by
  generalize h : evaluate i s = t
  unfold evaluate at h
  try dsimp only at h
  (repeat' split at h) <;> subst h <;> simp

/-- What `reportToWatches` leaves as it was. -/
@[simp] theorem reportToWatches_frame (c : CellNo) (s : State) :
    (reportToWatches c s).power = s.power ∧
    (reportToWatches c s).rst = s.rst ∧
    (reportToWatches c s).lu = s.lu ∧
    (reportToWatches c s).vu = s.vu ∧
    (reportToWatches c s).tu = s.tu ∧
    (reportToWatches c s).su = s.su ∧
    (reportToWatches c s).qu = s.qu ∧
    (reportToWatches c s).wu.pos = s.wu.pos ∧
    (reportToWatches c s).wu.result = s.wu.result ∧
    (reportToWatches c s).wu.statePending = s.wu.statePending ∧
    (reportToWatches c s).wu.linePending = s.wu.linePending ∧
    (reportToWatches c s).wu.enables = s.wu.enables ∧
    (reportToWatches c s).hp = s.hp ∧
    (reportToWatches c s).hostData = s.hostData ∧
    (reportToWatches c s).freeCount = s.freeCount ∧
    (reportToWatches c s).pending = s.pending := by
  simp only [reportToWatches]
  refine foldl_keeps (P := fun t : State => t.power = s.power ∧ t.rst = s.rst ∧ t.lu = s.lu ∧ t.vu = s.vu ∧ t.tu = s.tu ∧ t.su = s.su ∧ t.qu = s.qu ∧ t.wu.pos = s.wu.pos ∧ t.wu.result = s.wu.result ∧ t.wu.statePending = s.wu.statePending ∧ t.wu.linePending = s.wu.linePending ∧ t.wu.enables = s.wu.enables ∧ t.hp = s.hp ∧ t.hostData = s.hostData ∧ t.freeCount = s.freeCount ∧ t.pending = s.pending) ?_ _ _ ?_
  · intro t i h
    try split
    all_goals simp_all
  · simp

/-- What `watchesOnEntry` leaves as it was. -/
@[simp] theorem watchesOnEntry_frame  (s : State) :
    (watchesOnEntry s).power = s.power ∧
    (watchesOnEntry s).rst = s.rst ∧
    (watchesOnEntry s).lu = s.lu ∧
    (watchesOnEntry s).vu = s.vu ∧
    (watchesOnEntry s).tu = s.tu ∧
    (watchesOnEntry s).su = s.su ∧
    (watchesOnEntry s).qu = s.qu ∧
    (watchesOnEntry s).wu.pos = s.wu.pos ∧
    (watchesOnEntry s).wu.result = s.wu.result ∧
    (watchesOnEntry s).wu.statePending = s.wu.statePending ∧
    (watchesOnEntry s).wu.linePending = s.wu.linePending ∧
    (watchesOnEntry s).wu.enables = s.wu.enables ∧
    (watchesOnEntry s).hp = s.hp ∧
    (watchesOnEntry s).hostData = s.hostData ∧
    (watchesOnEntry s).freeCount = s.freeCount ∧
    (watchesOnEntry s).pending = s.pending := by
  simp only [watchesOnEntry]
  refine foldl_keeps (P := fun t : State => t.power = s.power ∧ t.rst = s.rst ∧ t.lu = s.lu ∧ t.vu = s.vu ∧ t.tu = s.tu ∧ t.su = s.su ∧ t.qu = s.qu ∧ t.wu.pos = s.wu.pos ∧ t.wu.result = s.wu.result ∧ t.wu.statePending = s.wu.statePending ∧ t.wu.linePending = s.wu.linePending ∧ t.wu.enables = s.wu.enables ∧ t.hp = s.hp ∧ t.hostData = s.hostData ∧ t.freeCount = s.freeCount ∧ t.pending = s.pending) ?_ _ _ ?_
  · intro t i h
    try split
    all_goals simp_all
  · simp

/-- What `watchesOnExit` leaves as it was. -/
@[simp] theorem watchesOnExit_frame  (s : State) :
    (watchesOnExit s).power = s.power ∧
    (watchesOnExit s).rst = s.rst ∧
    (watchesOnExit s).lu = s.lu ∧
    (watchesOnExit s).vu = s.vu ∧
    (watchesOnExit s).tu = s.tu ∧
    (watchesOnExit s).su = s.su ∧
    (watchesOnExit s).qu = s.qu ∧
    (watchesOnExit s).wu.pos = s.wu.pos ∧
    (watchesOnExit s).wu.result = s.wu.result ∧
    (watchesOnExit s).wu.statePending = s.wu.statePending ∧
    (watchesOnExit s).wu.linePending = s.wu.linePending ∧
    (watchesOnExit s).wu.enables = s.wu.enables ∧
    (watchesOnExit s).hp = s.hp ∧
    (watchesOnExit s).hostData = s.hostData ∧
    (watchesOnExit s).freeCount = s.freeCount ∧
    (watchesOnExit s).pending = s.pending := by
  simp only [watchesOnExit]
  refine foldl_keeps (P := fun t : State => t.power = s.power ∧ t.rst = s.rst ∧ t.lu = s.lu ∧ t.vu = s.vu ∧ t.tu = s.tu ∧ t.su = s.su ∧ t.qu = s.qu ∧ t.wu.pos = s.wu.pos ∧ t.wu.result = s.wu.result ∧ t.wu.statePending = s.wu.statePending ∧ t.wu.linePending = s.wu.linePending ∧ t.wu.enables = s.wu.enables ∧ t.hp = s.hp ∧ t.hostData = s.hostData ∧ t.freeCount = s.freeCount ∧ t.pending = s.pending) ?_ _ _ ?_
  · intro t i h
    try split
    all_goals simp_all
  · simp

/-- What `watchResult` leaves as it was. -/
@[simp] theorem watchResult_frame (x : WatchResult) (s : State) :
    (watchResult x s).power = s.power ∧
    (watchResult x s).rst = s.rst ∧
    (watchResult x s).lu = s.lu ∧
    (watchResult x s).vu = s.vu ∧
    (watchResult x s).tu = s.tu ∧
    (watchResult x s).su = s.su ∧
    (watchResult x s).qu = s.qu ∧
    (watchResult x s).wu.watches = s.wu.watches ∧
    (watchResult x s).wu.events = s.wu.events ∧
    (watchResult x s).wu.pos = s.wu.pos ∧
    (watchResult x s).wu.statePending = s.wu.statePending ∧
    (watchResult x s).wu.linePending = s.wu.linePending ∧
    (watchResult x s).wu.enables = s.wu.enables ∧
    (watchResult x s).hp = s.hp ∧
    (watchResult x s).hostData = s.hostData ∧
    (watchResult x s).freeCount = s.freeCount ∧
    (watchResult x s).pending = s.pending := by
  generalize h : watchResult x s = t
  unfold watchResult at h
  try dsimp only at h
  (repeat' split at h) <;> subst h <;> simp

/-- What `freeWatch` leaves as it was. -/
@[simp] theorem freeWatch_frame (i : Fin 16) (s : State) :
    (freeWatch i s).power = s.power ∧
    (freeWatch i s).rst = s.rst ∧
    (freeWatch i s).lu = s.lu ∧
    (freeWatch i s).vu = s.vu ∧
    (freeWatch i s).tu = s.tu ∧
    (freeWatch i s).su = s.su ∧
    (freeWatch i s).qu = s.qu ∧
    (freeWatch i s).wu.events = s.wu.events ∧
    (freeWatch i s).wu.pos = s.wu.pos ∧
    (freeWatch i s).wu.result = s.wu.result ∧
    (freeWatch i s).wu.statePending = s.wu.statePending ∧
    (freeWatch i s).wu.linePending = s.wu.linePending ∧
    (freeWatch i s).wu.enables = s.wu.enables ∧
    (freeWatch i s).hp = s.hp ∧
    (freeWatch i s).hostData = s.hostData ∧
    (freeWatch i s).freeCount = s.freeCount ∧
    (freeWatch i s).pending = s.pending := by
  generalize h : freeWatch i s = t
  unfold freeWatch at h
  try dsimp only at h
  (repeat' split at h) <;> subst h <;> simp

/-- What `removeNotice` leaves as it was. -/
@[simp] theorem removeNotice_frame (i : Fin 16) (s : State) :
    (removeNotice i s).power = s.power ∧
    (removeNotice i s).rst = s.rst ∧
    (removeNotice i s).lu = s.lu ∧
    (removeNotice i s).vu = s.vu ∧
    (removeNotice i s).tu = s.tu ∧
    (removeNotice i s).su = s.su ∧
    (removeNotice i s).qu = s.qu ∧
    (removeNotice i s).wu.watches = s.wu.watches ∧
    (removeNotice i s).wu.result = s.wu.result ∧
    (removeNotice i s).wu.statePending = s.wu.statePending ∧
    (removeNotice i s).wu.linePending = s.wu.linePending ∧
    (removeNotice i s).wu.enables = s.wu.enables ∧
    (removeNotice i s).hp = s.hp ∧
    (removeNotice i s).hostData = s.hostData ∧
    (removeNotice i s).freeCount = s.freeCount ∧
    (removeNotice i s).pending = s.pending := by
  generalize h : removeNotice i s = t
  unfold removeNotice at h
  try dsimp only at h
  (repeat' split at h) <;> subst h <;> simp

/-- What `judgeArm` leaves as it was. -/
@[simp] theorem judgeArm_frame (watch cell test : Byte) (operand : Half) (tag : Byte) (s : State) :
    (judgeArm watch cell test operand tag s).power = s.power ∧
    (judgeArm watch cell test operand tag s).rst = s.rst ∧
    (judgeArm watch cell test operand tag s).lu = s.lu ∧
    (judgeArm watch cell test operand tag s).vu = s.vu ∧
    (judgeArm watch cell test operand tag s).tu = s.tu ∧
    (judgeArm watch cell test operand tag s).su = s.su ∧
    (judgeArm watch cell test operand tag s).qu = s.qu ∧
    (judgeArm watch cell test operand tag s).wu.pos = s.wu.pos ∧
    (judgeArm watch cell test operand tag s).wu.statePending = s.wu.statePending ∧
    (judgeArm watch cell test operand tag s).wu.linePending = s.wu.linePending ∧
    (judgeArm watch cell test operand tag s).wu.enables = s.wu.enables ∧
    (judgeArm watch cell test operand tag s).hp = s.hp ∧
    (judgeArm watch cell test operand tag s).hostData = s.hostData ∧
    (judgeArm watch cell test operand tag s).freeCount = s.freeCount ∧
    (judgeArm watch cell test operand tag s).pending = s.pending := by
  generalize h : judgeArm watch cell test operand tag s = t
  unfold judgeArm at h
  try dsimp only at h
  (repeat' split at h) <;> subst h <;> simp

/-- What `judgeDisarm` leaves as it was. -/
@[simp] theorem judgeDisarm_frame (watch : Byte) (s : State) :
    (judgeDisarm watch s).power = s.power ∧
    (judgeDisarm watch s).rst = s.rst ∧
    (judgeDisarm watch s).lu = s.lu ∧
    (judgeDisarm watch s).vu = s.vu ∧
    (judgeDisarm watch s).tu = s.tu ∧
    (judgeDisarm watch s).su = s.su ∧
    (judgeDisarm watch s).qu = s.qu ∧
    (judgeDisarm watch s).wu.statePending = s.wu.statePending ∧
    (judgeDisarm watch s).wu.linePending = s.wu.linePending ∧
    (judgeDisarm watch s).wu.enables = s.wu.enables ∧
    (judgeDisarm watch s).hp = s.hp ∧
    (judgeDisarm watch s).hostData = s.hostData ∧
    (judgeDisarm watch s).freeCount = s.freeCount ∧
    (judgeDisarm watch s).pending = s.pending := by
  generalize h : judgeDisarm watch s = t
  unfold judgeDisarm at h
  try dsimp only at h
  (repeat' split at h) <;> subst h <;> simp

/-- What `post` leaves as it was. -/
@[simp] theorem post_frame (c : Completion) (s : State) :
    (post c s).power = s.power ∧
    (post c s).rst = s.rst ∧
    (post c s).lu = s.lu ∧
    (post c s).vu = s.vu ∧
    (post c s).tu = s.tu ∧
    (post c s).su = s.su ∧
    (post c s).qu.queue = s.qu.queue ∧
    (post c s).qu.park = s.qu.park ∧
    (post c s).qu.woken = s.qu.woken ∧
    (post c s).qu.pos = s.qu.pos ∧
    (post c s).qu.entry = s.qu.entry ∧
    (post c s).qu.result = s.qu.result ∧
    (post c s).wu = s.wu ∧
    (post c s).hp = s.hp ∧
    (post c s).hostData = s.hostData ∧
    (post c s).freeCount = s.freeCount ∧
    (post c s).pending = s.pending := by
  generalize h : post c s = t
  unfold post at h
  try dsimp only at h
  (repeat' split at h) <;> subst h <;> simp

/-- What `removeRequest` leaves as it was. -/
@[simp] theorem removeRequest_frame (tag : Byte) (s : State) :
    (removeRequest tag s).power = s.power ∧
    (removeRequest tag s).rst = s.rst ∧
    (removeRequest tag s).lu = s.lu ∧
    (removeRequest tag s).vu = s.vu ∧
    (removeRequest tag s).tu = s.tu ∧
    (removeRequest tag s).su = s.su ∧
    (removeRequest tag s).qu.completions = s.qu.completions ∧
    (removeRequest tag s).qu.pos = s.qu.pos ∧
    (removeRequest tag s).qu.entry = s.qu.entry ∧
    (removeRequest tag s).qu.result = s.qu.result ∧
    (removeRequest tag s).wu = s.wu ∧
    (removeRequest tag s).hp = s.hp ∧
    (removeRequest tag s).hostData = s.hostData ∧
    (removeRequest tag s).freeCount = s.freeCount ∧
    (removeRequest tag s).pending = s.pending := by
  generalize h : removeRequest tag s = t
  unfold removeRequest at h
  try dsimp only at h
  (repeat' split at h) <;> subst h <;> simp

/-- What `updateRequest` leaves as it was. -/
@[simp] theorem updateRequest_frame (tag : Byte) (f : Request → Request) (s : State) :
    (updateRequest tag f s).power = s.power ∧
    (updateRequest tag f s).rst = s.rst ∧
    (updateRequest tag f s).lu = s.lu ∧
    (updateRequest tag f s).vu = s.vu ∧
    (updateRequest tag f s).tu = s.tu ∧
    (updateRequest tag f s).su = s.su ∧
    (updateRequest tag f s).qu.woken = s.qu.woken ∧
    (updateRequest tag f s).qu.completions = s.qu.completions ∧
    (updateRequest tag f s).qu.pos = s.qu.pos ∧
    (updateRequest tag f s).qu.entry = s.qu.entry ∧
    (updateRequest tag f s).qu.result = s.qu.result ∧
    (updateRequest tag f s).wu = s.wu ∧
    (updateRequest tag f s).hp = s.hp ∧
    (updateRequest tag f s).hostData = s.hostData ∧
    (updateRequest tag f s).freeCount = s.freeCount ∧
    (updateRequest tag f s).pending = s.pending := by
  generalize h : updateRequest tag f s = t
  unfold updateRequest at h
  try dsimp only at h
  (repeat' split at h) <;> subst h <;> simp

/-- What `retire` leaves as it was. -/
@[simp] theorem retire_frame (c : Completion) (s : State) :
    (retire c s).power = s.power ∧
    (retire c s).rst = s.rst ∧
    (retire c s).lu = s.lu ∧
    (retire c s).vu = s.vu ∧
    (retire c s).tu = s.tu ∧
    (retire c s).su = s.su ∧
    (retire c s).qu.pos = s.qu.pos ∧
    (retire c s).qu.entry = s.qu.entry ∧
    (retire c s).qu.result = s.qu.result ∧
    (retire c s).wu = s.wu ∧
    (retire c s).hp = s.hp ∧
    (retire c s).hostData = s.hostData ∧
    (retire c s).freeCount = s.freeCount ∧
    (retire c s).pending = s.pending := by
  generalize h : retire c s = t
  unfold retire at h
  try dsimp only at h
  (repeat' split at h) <;> subst h <;> simp

/-- What `retireAll` leaves as it was. -/
@[simp] theorem retireAll_frame  (s : State) :
    (retireAll s).power = s.power ∧
    (retireAll s).rst = s.rst ∧
    (retireAll s).lu = s.lu ∧
    (retireAll s).vu = s.vu ∧
    (retireAll s).tu = s.tu ∧
    (retireAll s).su = s.su ∧
    (retireAll s).qu.pos = s.qu.pos ∧
    (retireAll s).qu.entry = s.qu.entry ∧
    (retireAll s).qu.result = s.qu.result ∧
    (retireAll s).wu = s.wu ∧
    (retireAll s).hp = s.hp ∧
    (retireAll s).hostData = s.hostData ∧
    (retireAll s).freeCount = s.freeCount ∧
    (retireAll s).pending = s.pending := by
  generalize h : retireAll s = t
  unfold retireAll at h
  try dsimp only at h
  (repeat' split at h) <;> subst h <;> simp

/-- What `parkHead` leaves as it was. -/
@[simp] theorem parkHead_frame (q : Request) (s : State) :
    (parkHead q s).power = s.power ∧
    (parkHead q s).rst = s.rst ∧
    (parkHead q s).lu = s.lu ∧
    (parkHead q s).vu = s.vu ∧
    (parkHead q s).tu = s.tu ∧
    (parkHead q s).su = s.su ∧
    (parkHead q s).qu.completions = s.qu.completions ∧
    (parkHead q s).qu.pos = s.qu.pos ∧
    (parkHead q s).qu.entry = s.qu.entry ∧
    (parkHead q s).qu.result = s.qu.result ∧
    (parkHead q s).wu = s.wu ∧
    (parkHead q s).hp = s.hp ∧
    (parkHead q s).hostData = s.hostData ∧
    (parkHead q s).freeCount = s.freeCount ∧
    (parkHead q s).pending = s.pending := by
  generalize h : parkHead q s = t
  unfold parkHead at h
  try dsimp only at h
  (repeat' split at h) <;> subst h <;> simp

/-- What `settleApplied` leaves as it was. -/
@[simp] theorem settleApplied_frame (fromPark : Bool) (q : Request) (x : Applied) (epoch : Byte) (s : State) :
    (settleApplied fromPark q x epoch s).power = s.power ∧
    (settleApplied fromPark q x epoch s).rst = s.rst ∧
    (settleApplied fromPark q x epoch s).lu = s.lu ∧
    (settleApplied fromPark q x epoch s).vu = s.vu ∧
    (settleApplied fromPark q x epoch s).tu = s.tu ∧
    (settleApplied fromPark q x epoch s).su = s.su ∧
    (settleApplied fromPark q x epoch s).qu.pos = s.qu.pos ∧
    (settleApplied fromPark q x epoch s).qu.entry = s.qu.entry ∧
    (settleApplied fromPark q x epoch s).qu.result = s.qu.result ∧
    (settleApplied fromPark q x epoch s).wu = s.wu ∧
    (settleApplied fromPark q x epoch s).hp = s.hp ∧
    (settleApplied fromPark q x epoch s).hostData = s.hostData ∧
    (settleApplied fromPark q x epoch s).freeCount = s.freeCount ∧
    (settleApplied fromPark q x epoch s).pending = s.pending := by
  generalize h : settleApplied fromPark q x epoch s = t
  unfold settleApplied at h
  try dsimp only at h
  (repeat' split at h) <;> subst h <;> simp

/-- What `requeueHead` leaves as it was. -/
@[simp] theorem requeueHead_frame (tag : Byte) (s : State) :
    (requeueHead tag s).power = s.power ∧
    (requeueHead tag s).rst = s.rst ∧
    (requeueHead tag s).lu = s.lu ∧
    (requeueHead tag s).vu = s.vu ∧
    (requeueHead tag s).tu = s.tu ∧
    (requeueHead tag s).su = s.su ∧
    (requeueHead tag s).qu.woken = s.qu.woken ∧
    (requeueHead tag s).qu.completions = s.qu.completions ∧
    (requeueHead tag s).qu.pos = s.qu.pos ∧
    (requeueHead tag s).qu.entry = s.qu.entry ∧
    (requeueHead tag s).qu.result = s.qu.result ∧
    (requeueHead tag s).wu = s.wu ∧
    (requeueHead tag s).hp = s.hp ∧
    (requeueHead tag s).hostData = s.hostData ∧
    (requeueHead tag s).freeCount = s.freeCount ∧
    (requeueHead tag s).pending = s.pending := by
  generalize h : requeueHead tag s = t
  unfold requeueHead at h
  try dsimp only at h
  (repeat' split at h) <;> subst h <;> simp

/-- What `requeueClaim` leaves as it was. -/
@[simp] theorem requeueClaim_frame (tag : Byte) (s : State) :
    (requeueClaim tag s).power = s.power ∧
    (requeueClaim tag s).rst = s.rst ∧
    (requeueClaim tag s).lu = s.lu ∧
    (requeueClaim tag s).vu = s.vu ∧
    (requeueClaim tag s).tu = s.tu ∧
    (requeueClaim tag s).su = s.su ∧
    (requeueClaim tag s).qu.completions = s.qu.completions ∧
    (requeueClaim tag s).qu.pos = s.qu.pos ∧
    (requeueClaim tag s).qu.entry = s.qu.entry ∧
    (requeueClaim tag s).qu.result = s.qu.result ∧
    (requeueClaim tag s).wu = s.wu ∧
    (requeueClaim tag s).hp = s.hp ∧
    (requeueClaim tag s).hostData = s.hostData ∧
    (requeueClaim tag s).freeCount = s.freeCount ∧
    (requeueClaim tag s).pending = s.pending := by
  generalize h : requeueClaim tag s = t
  unfold requeueClaim at h
  try dsimp only at h
  (repeat' split at h) <;> subst h <;> simp

/-- What `wake` leaves as it was. -/
@[simp] theorem wake_frame (c : CellNo) (s : State) :
    (wake c s).power = s.power ∧
    (wake c s).rst = s.rst ∧
    (wake c s).lu = s.lu ∧
    (wake c s).vu = s.vu ∧
    (wake c s).tu = s.tu ∧
    (wake c s).su = s.su ∧
    (wake c s).qu.queue = s.qu.queue ∧
    (wake c s).qu.completions = s.qu.completions ∧
    (wake c s).qu.pos = s.qu.pos ∧
    (wake c s).qu.entry = s.qu.entry ∧
    (wake c s).qu.result = s.qu.result ∧
    (wake c s).wu = s.wu ∧
    (wake c s).hp = s.hp ∧
    (wake c s).hostData = s.hostData ∧
    (wake c s).freeCount = s.freeCount ∧
    (wake c s).pending = s.pending := by
  generalize h : wake c s = t
  unfold wake at h
  try dsimp only at h
  (repeat' split at h) <;> subst h <;> simp

/-- What `submit` leaves as it was. -/
@[simp] theorem submit_frame (e : Entry) (s : State) :
    (submit e s).power = s.power ∧
    (submit e s).rst = s.rst ∧
    (submit e s).lu = s.lu ∧
    (submit e s).vu = s.vu ∧
    (submit e s).tu = s.tu ∧
    (submit e s).su = s.su ∧
    (submit e s).qu.park = s.qu.park ∧
    (submit e s).qu.woken = s.qu.woken ∧
    (submit e s).qu.completions = s.qu.completions ∧
    (submit e s).qu.pos = s.qu.pos ∧
    (submit e s).wu = s.wu ∧
    (submit e s).hp = s.hp ∧
    (submit e s).hostData = s.hostData ∧
    (submit e s).freeCount = s.freeCount ∧
    (submit e s).pending = s.pending := by
  generalize h : submit e s = t
  unfold submit at h
  try dsimp only at h
  (repeat' split at h) <;> subst h <;> simp

/-- What `report` leaves as it was. -/
@[simp] theorem report_frame (c : CellNo) (s : State) :
    (report c s).power = s.power ∧
    (report c s).rst = s.rst ∧
    (report c s).lu = s.lu ∧
    (report c s).vu = s.vu ∧
    (report c s).tu = s.tu ∧
    (report c s).su = s.su ∧
    (report c s).qu.queue = s.qu.queue ∧
    (report c s).qu.completions = s.qu.completions ∧
    (report c s).qu.pos = s.qu.pos ∧
    (report c s).qu.entry = s.qu.entry ∧
    (report c s).qu.result = s.qu.result ∧
    (report c s).wu.pos = s.wu.pos ∧
    (report c s).wu.result = s.wu.result ∧
    (report c s).wu.statePending = s.wu.statePending ∧
    (report c s).wu.linePending = s.wu.linePending ∧
    (report c s).wu.enables = s.wu.enables ∧
    (report c s).hp = s.hp ∧
    (report c s).hostData = s.hostData ∧
    (report c s).freeCount = s.freeCount ∧
    (report c s).pending = s.pending := by
  generalize h : report c s = t
  unfold report at h
  try dsimp only at h
  (repeat' split at h) <;> subst h <;> simp

/-- What `freeCells` leaves as it was. -/
@[simp] theorem freeCells_frame (frees : CellNo → Bool) (s : State) :
    (freeCells frees s).power = s.power ∧
    (freeCells frees s).rst = s.rst ∧
    (freeCells frees s).lu = s.lu ∧
    (freeCells frees s).vu = s.vu ∧
    (freeCells frees s).tu.known = s.tu.known ∧
    (freeCells frees s).su = s.su ∧
    (freeCells frees s).qu = s.qu ∧
    (freeCells frees s).wu = s.wu ∧
    (freeCells frees s).hp = s.hp ∧
    (freeCells frees s).hostData = s.hostData ∧
    (freeCells frees s).freeCount = s.freeCount ∧
    (freeCells frees s).pending = s.pending := by
  generalize h : freeCells frees s = t
  unfold freeCells at h
  try dsimp only at h
  (repeat' split at h) <;> subst h <;> simp

/-- What `releaseClaims` leaves as it was. -/
@[simp] theorem releaseClaims_frame (gone : Mask) (s : State) :
    (releaseClaims gone s).power = s.power ∧
    (releaseClaims gone s).rst = s.rst ∧
    (releaseClaims gone s).lu = s.lu ∧
    (releaseClaims gone s).vu = s.vu ∧
    (releaseClaims gone s).tu.known = s.tu.known ∧
    (releaseClaims gone s).su = s.su ∧
    (releaseClaims gone s).qu.queue = s.qu.queue ∧
    (releaseClaims gone s).qu.completions = s.qu.completions ∧
    (releaseClaims gone s).qu.pos = s.qu.pos ∧
    (releaseClaims gone s).qu.entry = s.qu.entry ∧
    (releaseClaims gone s).qu.result = s.qu.result ∧
    (releaseClaims gone s).wu.pos = s.wu.pos ∧
    (releaseClaims gone s).wu.result = s.wu.result ∧
    (releaseClaims gone s).wu.statePending = s.wu.statePending ∧
    (releaseClaims gone s).wu.linePending = s.wu.linePending ∧
    (releaseClaims gone s).wu.enables = s.wu.enables ∧
    (releaseClaims gone s).hp = s.hp ∧
    (releaseClaims gone s).hostData = s.hostData ∧
    (releaseClaims gone s).freeCount = s.freeCount ∧
    (releaseClaims gone s).pending = s.pending := by
  simp only [releaseClaims]
  split
  · refine foldl_keeps (P := fun t : State => t.power = s.power ∧ t.rst = s.rst ∧ t.lu = s.lu ∧ t.vu = s.vu ∧ t.tu.known = s.tu.known ∧ t.su = s.su ∧ t.qu.queue = s.qu.queue ∧ t.qu.completions = s.qu.completions ∧ t.qu.pos = s.qu.pos ∧ t.qu.entry = s.qu.entry ∧ t.qu.result = s.qu.result ∧ t.wu.pos = s.wu.pos ∧ t.wu.result = s.wu.result ∧ t.wu.statePending = s.wu.statePending ∧ t.wu.linePending = s.wu.linePending ∧ t.wu.enables = s.wu.enables ∧ t.hp = s.hp ∧ t.hostData = s.hostData ∧ t.freeCount = s.freeCount ∧ t.pending = s.pending) ?_ _ _ ?_
    · intro t i h
      try split
      all_goals simp_all
    · simp
  · simp

/-- What `releaseForFounding` leaves as it was. -/
@[simp] theorem releaseForFounding_frame  (s : State) :
    (releaseForFounding s).power = s.power ∧
    (releaseForFounding s).rst = s.rst ∧
    (releaseForFounding s).lu = s.lu ∧
    (releaseForFounding s).vu = s.vu ∧
    (releaseForFounding s).tu.known = s.tu.known ∧
    (releaseForFounding s).su = s.su ∧
    (releaseForFounding s).qu = s.qu ∧
    (releaseForFounding s).wu = s.wu ∧
    (releaseForFounding s).hp = s.hp ∧
    (releaseForFounding s).hostData = s.hostData ∧
    (releaseForFounding s).freeCount = s.freeCount ∧
    (releaseForFounding s).pending = s.pending := by
  generalize h : releaseForFounding s = t
  unfold releaseForFounding at h
  try dsimp only at h
  (repeat' split at h) <;> subst h <;> simp

/-- What `enterMember` leaves as it was. -/
@[simp] theorem enterMember_frame  (s : State) :
    (enterMember s).power = s.power ∧
    (enterMember s).rst = s.rst ∧
    (enterMember s).lu = s.lu ∧
    (enterMember s).vu.view = s.vu.view ∧
    (enterMember s).vu.standing = s.vu.standing ∧
    (enterMember s).vu.retainedEpoch = s.vu.retainedEpoch ∧
    (enterMember s).vu.unanswered = s.vu.unanswered ∧
    (enterMember s).vu.probeTimer = s.vu.probeTimer ∧
    (enterMember s).vu.probeDue = s.vu.probeDue ∧
    (enterMember s).vu.admitTimer = s.vu.admitTimer ∧
    (enterMember s).vu.admitExpired = s.vu.admitExpired ∧
    (enterMember s).vu.stallTimer = s.vu.stallTimer ∧
    (enterMember s).vu.stallOwed = s.vu.stallOwed ∧
    (enterMember s).vu.leavePending = s.vu.leavePending ∧
    (enterMember s).vu.foreign = s.vu.foreign ∧
    (enterMember s).vu.judged = s.vu.judged ∧
    (enterMember s).tu = s.tu ∧
    (enterMember s).su = s.su ∧
    (enterMember s).qu = s.qu ∧
    (enterMember s).wu.pos = s.wu.pos ∧
    (enterMember s).wu.result = s.wu.result ∧
    (enterMember s).wu.linePending = s.wu.linePending ∧
    (enterMember s).wu.enables = s.wu.enables ∧
    (enterMember s).hp = s.hp ∧
    (enterMember s).hostData = s.hostData ∧
    (enterMember s).freeCount = s.freeCount ∧
    (enterMember s).pending = s.pending := by
  generalize h : enterMember s = t
  unfold enterMember at h
  try dsimp only at h
  (repeat' split at h) <;> subst h <;> simp

/-- What `leaveQueues` leaves as it was. -/
@[simp] theorem leaveQueues_frame  (s : State) :
    (leaveQueues s).power = s.power ∧
    (leaveQueues s).rst = s.rst ∧
    (leaveQueues s).lu = s.lu ∧
    (leaveQueues s).vu = s.vu ∧
    (leaveQueues s).tu = s.tu ∧
    (leaveQueues s).su = s.su ∧
    (leaveQueues s).qu.pos = s.qu.pos ∧
    (leaveQueues s).qu.entry = s.qu.entry ∧
    (leaveQueues s).qu.result = s.qu.result ∧
    (leaveQueues s).wu.pos = s.wu.pos ∧
    (leaveQueues s).wu.result = s.wu.result ∧
    (leaveQueues s).wu.statePending = s.wu.statePending ∧
    (leaveQueues s).wu.linePending = s.wu.linePending ∧
    (leaveQueues s).wu.enables = s.wu.enables ∧
    (leaveQueues s).hp = s.hp ∧
    (leaveQueues s).hostData = s.hostData ∧
    (leaveQueues s).freeCount = s.freeCount ∧
    (leaveQueues s).pending = s.pending := by
  generalize h : leaveQueues s = t
  unfold leaveQueues at h
  try dsimp only at h
  (repeat' split at h) <;> subst h <;> simp

/-- What `enterListening` leaves as it was. -/
@[simp] theorem enterListening_frame  (s : State) :
    (enterListening s).power = s.power ∧
    (enterListening s).rst = s.rst ∧
    (enterListening s).lu = s.lu ∧
    (enterListening s).vu.view = s.vu.view ∧
    (enterListening s).vu.standing = s.vu.standing ∧
    (enterListening s).vu.retainedEpoch = s.vu.retainedEpoch ∧
    (enterListening s).vu.foreign = s.vu.foreign ∧
    (enterListening s).tu = s.tu ∧
    (enterListening s).su = s.su ∧
    (enterListening s).qu = s.qu ∧
    (enterListening s).wu.watches = s.wu.watches ∧
    (enterListening s).wu.events = s.wu.events ∧
    (enterListening s).wu.pos = s.wu.pos ∧
    (enterListening s).wu.result = s.wu.result ∧
    (enterListening s).wu.linePending = s.wu.linePending ∧
    (enterListening s).wu.enables = s.wu.enables ∧
    (enterListening s).hp = s.hp ∧
    (enterListening s).hostData = s.hostData ∧
    (enterListening s).freeCount = s.freeCount ∧
    (enterListening s).pending = s.pending := by
  generalize h : enterListening s = t
  unfold enterListening at h
  try dsimp only at h
  (repeat' split at h) <;> subst h <;> simp

/-- What `beginListening` leaves as it was. -/
@[simp] theorem beginListening_frame  (s : State) :
    (beginListening s).power = s.power ∧
    (beginListening s).rst = s.rst ∧
    (beginListening s).lu = s.lu ∧
    (beginListening s).vu.view = s.vu.view ∧
    (beginListening s).vu.standing = s.vu.standing ∧
    (beginListening s).vu.retainedEpoch = s.vu.retainedEpoch ∧
    (beginListening s).vu.foreign = s.vu.foreign ∧
    (beginListening s).vu.judged = s.vu.judged ∧
    (beginListening s).tu = s.tu ∧
    (beginListening s).su = s.su ∧
    (beginListening s).qu = s.qu ∧
    (beginListening s).wu.watches = s.wu.watches ∧
    (beginListening s).wu.events = s.wu.events ∧
    (beginListening s).wu.pos = s.wu.pos ∧
    (beginListening s).wu.result = s.wu.result ∧
    (beginListening s).wu.linePending = s.wu.linePending ∧
    (beginListening s).wu.enables = s.wu.enables ∧
    (beginListening s).hp = s.hp ∧
    (beginListening s).hostData = s.hostData ∧
    (beginListening s).freeCount = s.freeCount ∧
    (beginListening s).pending = s.pending := by
  generalize h : beginListening s = t
  unfold beginListening at h
  try dsimp only at h
  (repeat' split at h) <;> subst h <;> simp

/-- What `retain` leaves as it was. -/
@[simp] theorem retain_frame  (s : State) :
    (retain s).power = s.power ∧
    (retain s).rst = s.rst ∧
    (retain s).lu = s.lu ∧
    (retain s).vu.station = s.vu.station ∧
    (retain s).vu.view = s.vu.view ∧
    (retain s).vu.unanswered = s.vu.unanswered ∧
    (retain s).vu.probeTimer = s.vu.probeTimer ∧
    (retain s).vu.probeDue = s.vu.probeDue ∧
    (retain s).vu.admitTimer = s.vu.admitTimer ∧
    (retain s).vu.admitExpired = s.vu.admitExpired ∧
    (retain s).vu.stallTimer = s.vu.stallTimer ∧
    (retain s).vu.stallOwed = s.vu.stallOwed ∧
    (retain s).vu.leavePending = s.vu.leavePending ∧
    (retain s).vu.foreign = s.vu.foreign ∧
    (retain s).vu.judged = s.vu.judged ∧
    (retain s).tu = s.tu ∧
    (retain s).su = s.su ∧
    (retain s).qu = s.qu ∧
    (retain s).wu = s.wu ∧
    (retain s).hp = s.hp ∧
    (retain s).hostData = s.hostData ∧
    (retain s).freeCount = s.freeCount ∧
    (retain s).pending = s.pending := by
  generalize h : retain s = t
  unfold retain at h
  try dsimp only at h
  (repeat' split at h) <;> subst h <;> simp

/-- What `discard` leaves as it was. -/
@[simp] theorem discard_frame  (s : State) :
    (discard s).power = s.power ∧
    (discard s).rst = s.rst ∧
    (discard s).lu = s.lu ∧
    (discard s).vu.station = s.vu.station ∧
    (discard s).vu.view = s.vu.view ∧
    (discard s).vu.unanswered = s.vu.unanswered ∧
    (discard s).vu.probeTimer = s.vu.probeTimer ∧
    (discard s).vu.probeDue = s.vu.probeDue ∧
    (discard s).vu.admitTimer = s.vu.admitTimer ∧
    (discard s).vu.admitExpired = s.vu.admitExpired ∧
    (discard s).vu.stallTimer = s.vu.stallTimer ∧
    (discard s).vu.stallOwed = s.vu.stallOwed ∧
    (discard s).vu.leavePending = s.vu.leavePending ∧
    (discard s).vu.foreign = s.vu.foreign ∧
    (discard s).vu.judged = s.vu.judged ∧
    (discard s).su = s.su ∧
    (discard s).qu = s.qu ∧
    (discard s).wu = s.wu ∧
    (discard s).hp = s.hp ∧
    (discard s).hostData = s.hostData ∧
    (discard s).freeCount = s.freeCount ∧
    (discard s).pending = s.pending := by
  generalize h : discard s = t
  unfold discard at h
  try dsimp only at h
  (repeat' split at h) <;> subst h <;> simp

/-- What `emptyView` leaves as it was. -/
@[simp] theorem emptyView_frame  (s : State) :
    (emptyView s).power = s.power ∧
    (emptyView s).rst = s.rst ∧
    (emptyView s).lu = s.lu ∧
    (emptyView s).vu.station = s.vu.station ∧
    (emptyView s).vu.standing = s.vu.standing ∧
    (emptyView s).vu.retainedEpoch = s.vu.retainedEpoch ∧
    (emptyView s).vu.unanswered = s.vu.unanswered ∧
    (emptyView s).vu.probeTimer = s.vu.probeTimer ∧
    (emptyView s).vu.probeDue = s.vu.probeDue ∧
    (emptyView s).vu.admitTimer = s.vu.admitTimer ∧
    (emptyView s).vu.admitExpired = s.vu.admitExpired ∧
    (emptyView s).vu.stallTimer = s.vu.stallTimer ∧
    (emptyView s).vu.stallOwed = s.vu.stallOwed ∧
    (emptyView s).vu.leavePending = s.vu.leavePending ∧
    (emptyView s).vu.foreign = s.vu.foreign ∧
    (emptyView s).vu.judged = s.vu.judged ∧
    (emptyView s).tu = s.tu ∧
    (emptyView s).su = s.su ∧
    (emptyView s).qu = s.qu ∧
    (emptyView s).wu = s.wu ∧
    (emptyView s).hp = s.hp ∧
    (emptyView s).hostData = s.hostData ∧
    (emptyView s).freeCount = s.freeCount ∧
    (emptyView s).pending = s.pending := by
  generalize h : emptyView s = t
  unfold emptyView at h
  try dsimp only at h
  (repeat' split at h) <;> subst h <;> simp

/-- What `emptySending` leaves as it was. -/
@[simp] theorem emptySending_frame  (s : State) :
    (emptySending s).power = s.power ∧
    (emptySending s).rst = s.rst ∧
    (emptySending s).lu.mode = s.lu.mode ∧
    (emptySending s).lu.driver = s.lu.driver ∧
    (emptySending s).lu.asserted = s.lu.asserted ∧
    (emptySending s).lu.idleCount = s.lu.idleCount ∧
    (emptySending s).lu.assertedCount = s.lu.assertedCount ∧
    (emptySending s).lu.stuck = s.lu.stuck ∧
    (emptySending s).lu.checkReg = s.lu.checkReg ∧
    (emptySending s).vu = s.vu ∧
    (emptySending s).tu = s.tu ∧
    (emptySending s).qu = s.qu ∧
    (emptySending s).wu = s.wu ∧
    (emptySending s).hp = s.hp ∧
    (emptySending s).hostData = s.hostData ∧
    (emptySending s).freeCount = s.freeCount ∧
    (emptySending s).pending = s.pending := by
  generalize h : emptySending s = t
  unfold emptySending at h
  try dsimp only at h
  (repeat' split at h) <;> subst h <;> simp

/-- What `withdraw` leaves as it was. -/
@[simp] theorem withdraw_frame  (s : State) :
    (withdraw s).power = s.power ∧
    (withdraw s).rst = s.rst ∧
    (withdraw s).lu.mode = s.lu.mode ∧
    (withdraw s).lu.driver = s.lu.driver ∧
    (withdraw s).lu.asserted = s.lu.asserted ∧
    (withdraw s).lu.idleCount = s.lu.idleCount ∧
    (withdraw s).lu.assertedCount = s.lu.assertedCount ∧
    (withdraw s).lu.stuck = s.lu.stuck ∧
    (withdraw s).lu.checkReg = s.lu.checkReg ∧
    (withdraw s).vu.foreign = s.vu.foreign ∧
    (withdraw s).qu.pos = s.qu.pos ∧
    (withdraw s).qu.entry = s.qu.entry ∧
    (withdraw s).qu.result = s.qu.result ∧
    (withdraw s).wu.pos = s.wu.pos ∧
    (withdraw s).wu.result = s.wu.result ∧
    (withdraw s).wu.linePending = s.wu.linePending ∧
    (withdraw s).wu.enables = s.wu.enables ∧
    (withdraw s).hp = s.hp ∧
    (withdraw s).hostData = s.hostData ∧
    (withdraw s).freeCount = s.freeCount ∧
    (withdraw s).pending = s.pending := by
  generalize h : withdraw s = t
  unfold withdraw at h
  try dsimp only at h
  (repeat' split at h) <;> subst h <;> simp

/-- What `haltStanding` leaves as it was. -/
@[simp] theorem haltStanding_frame  (s : State) :
    (haltStanding s).power = s.power ∧
    (haltStanding s).rst = s.rst ∧
    (haltStanding s).lu = s.lu ∧
    (haltStanding s).vu.station = s.vu.station ∧
    (haltStanding s).vu.view = s.vu.view ∧
    (haltStanding s).vu.unanswered = s.vu.unanswered ∧
    (haltStanding s).vu.probeTimer = s.vu.probeTimer ∧
    (haltStanding s).vu.probeDue = s.vu.probeDue ∧
    (haltStanding s).vu.admitTimer = s.vu.admitTimer ∧
    (haltStanding s).vu.admitExpired = s.vu.admitExpired ∧
    (haltStanding s).vu.stallTimer = s.vu.stallTimer ∧
    (haltStanding s).vu.stallOwed = s.vu.stallOwed ∧
    (haltStanding s).vu.leavePending = s.vu.leavePending ∧
    (haltStanding s).vu.foreign = s.vu.foreign ∧
    (haltStanding s).vu.judged = s.vu.judged ∧
    (haltStanding s).su = s.su ∧
    (haltStanding s).qu = s.qu ∧
    (haltStanding s).wu = s.wu ∧
    (haltStanding s).hp = s.hp ∧
    (haltStanding s).hostData = s.hostData ∧
    (haltStanding s).freeCount = s.freeCount ∧
    (haltStanding s).pending = s.pending := by
  generalize h : haltStanding s = t
  unfold haltStanding at h
  try dsimp only at h
  (repeat' split at h) <;> subst h <;> simp

/-- What `enterHalted` leaves as it was. -/
@[simp] theorem enterHalted_frame  (s : State) :
    (enterHalted s).power = s.power ∧
    (enterHalted s).rst = s.rst ∧
    (enterHalted s).lu = s.lu ∧
    (enterHalted s).vu.standing = s.vu.standing ∧
    (enterHalted s).vu.retainedEpoch = s.vu.retainedEpoch ∧
    (enterHalted s).vu.foreign = s.vu.foreign ∧
    (enterHalted s).tu = s.tu ∧
    (enterHalted s).su = s.su ∧
    (enterHalted s).qu = s.qu ∧
    (enterHalted s).wu.watches = s.wu.watches ∧
    (enterHalted s).wu.events = s.wu.events ∧
    (enterHalted s).wu.pos = s.wu.pos ∧
    (enterHalted s).wu.result = s.wu.result ∧
    (enterHalted s).wu.linePending = s.wu.linePending ∧
    (enterHalted s).wu.enables = s.wu.enables ∧
    (enterHalted s).hp = s.hp ∧
    (enterHalted s).hostData = s.hostData ∧
    (enterHalted s).freeCount = s.freeCount ∧
    (enterHalted s).pending = s.pending := by
  generalize h : enterHalted s = t
  unfold enterHalted at h
  try dsimp only at h
  (repeat' split at h) <;> subst h <;> simp

/-- What `haltStation` leaves as it was. -/
@[simp] theorem haltStation_frame  (s : State) :
    (haltStation s).power = s.power ∧
    (haltStation s).rst = s.rst ∧
    (haltStation s).lu.stuck = s.lu.stuck ∧
    (haltStation s).lu.checkReg = s.lu.checkReg ∧
    (haltStation s).vu.foreign = s.vu.foreign ∧
    (haltStation s).qu.pos = s.qu.pos ∧
    (haltStation s).qu.entry = s.qu.entry ∧
    (haltStation s).qu.result = s.qu.result ∧
    (haltStation s).wu.pos = s.wu.pos ∧
    (haltStation s).wu.result = s.wu.result ∧
    (haltStation s).wu.linePending = s.wu.linePending ∧
    (haltStation s).wu.enables = s.wu.enables ∧
    (haltStation s).hp = s.hp ∧
    (haltStation s).hostData = s.hostData ∧
    (haltStation s).freeCount = s.freeCount ∧
    (haltStation s).pending = s.pending := by
  generalize h : haltStation s = t
  unfold haltStation at h
  try dsimp only at h
  (repeat' split at h) <;> subst h <;> simp

/-- What `leaveOwn` leaves as it was. -/
@[simp] theorem leaveOwn_frame  (s : State) :
    (leaveOwn s).power = s.power ∧
    (leaveOwn s).rst = s.rst ∧
    (leaveOwn s).lu.mode = s.lu.mode ∧
    (leaveOwn s).lu.driver = s.lu.driver ∧
    (leaveOwn s).lu.asserted = s.lu.asserted ∧
    (leaveOwn s).lu.idleCount = s.lu.idleCount ∧
    (leaveOwn s).lu.assertedCount = s.lu.assertedCount ∧
    (leaveOwn s).lu.stuck = s.lu.stuck ∧
    (leaveOwn s).lu.checkReg = s.lu.checkReg ∧
    (leaveOwn s).vu.foreign = s.vu.foreign ∧
    (leaveOwn s).tu.known = s.tu.known ∧
    (leaveOwn s).qu.pos = s.qu.pos ∧
    (leaveOwn s).qu.entry = s.qu.entry ∧
    (leaveOwn s).qu.result = s.qu.result ∧
    (leaveOwn s).wu.pos = s.wu.pos ∧
    (leaveOwn s).wu.result = s.wu.result ∧
    (leaveOwn s).wu.linePending = s.wu.linePending ∧
    (leaveOwn s).wu.enables = s.wu.enables ∧
    (leaveOwn s).hp = s.hp ∧
    (leaveOwn s).hostData = s.hostData ∧
    (leaveOwn s).freeCount = s.freeCount ∧
    (leaveOwn s).pending = s.pending := by
  generalize h : leaveOwn s = t
  unfold leaveOwn at h
  try dsimp only at h
  (repeat' split at h) <;> subst h <;> simp

/-- What `probeUnanswered` leaves as it was. -/
@[simp] theorem probeUnanswered_frame  (s : State) :
    (probeUnanswered s).power = s.power ∧
    (probeUnanswered s).rst = s.rst ∧
    (probeUnanswered s).lu = s.lu ∧
    (probeUnanswered s).vu.station = s.vu.station ∧
    (probeUnanswered s).vu.view = s.vu.view ∧
    (probeUnanswered s).vu.standing = s.vu.standing ∧
    (probeUnanswered s).vu.retainedEpoch = s.vu.retainedEpoch ∧
    (probeUnanswered s).vu.admitTimer = s.vu.admitTimer ∧
    (probeUnanswered s).vu.admitExpired = s.vu.admitExpired ∧
    (probeUnanswered s).vu.stallTimer = s.vu.stallTimer ∧
    (probeUnanswered s).vu.stallOwed = s.vu.stallOwed ∧
    (probeUnanswered s).vu.leavePending = s.vu.leavePending ∧
    (probeUnanswered s).vu.foreign = s.vu.foreign ∧
    (probeUnanswered s).vu.judged = s.vu.judged ∧
    (probeUnanswered s).tu = s.tu ∧
    (probeUnanswered s).su = s.su ∧
    (probeUnanswered s).qu = s.qu ∧
    (probeUnanswered s).wu = s.wu ∧
    (probeUnanswered s).hp = s.hp ∧
    (probeUnanswered s).hostData = s.hostData ∧
    (probeUnanswered s).freeCount = s.freeCount ∧
    (probeUnanswered s).pending = s.pending := by
  generalize h : probeUnanswered s = t
  unfold probeUnanswered at h
  try dsimp only at h
  (repeat' split at h) <;> subst h <;> simp

/-- What `probeAnswered` leaves as it was. -/
@[simp] theorem probeAnswered_frame  (s : State) :
    (probeAnswered s).power = s.power ∧
    (probeAnswered s).rst = s.rst ∧
    (probeAnswered s).lu = s.lu ∧
    (probeAnswered s).vu.view = s.vu.view ∧
    (probeAnswered s).vu.standing = s.vu.standing ∧
    (probeAnswered s).vu.retainedEpoch = s.vu.retainedEpoch ∧
    (probeAnswered s).vu.foreign = s.vu.foreign ∧
    (probeAnswered s).tu = s.tu ∧
    (probeAnswered s).su = s.su ∧
    (probeAnswered s).qu = s.qu ∧
    (probeAnswered s).wu.watches = s.wu.watches ∧
    (probeAnswered s).wu.events = s.wu.events ∧
    (probeAnswered s).wu.pos = s.wu.pos ∧
    (probeAnswered s).wu.result = s.wu.result ∧
    (probeAnswered s).wu.linePending = s.wu.linePending ∧
    (probeAnswered s).wu.enables = s.wu.enables ∧
    (probeAnswered s).hp = s.hp ∧
    (probeAnswered s).hostData = s.hostData ∧
    (probeAnswered s).freeCount = s.freeCount ∧
    (probeAnswered s).pending = s.pending := by
  generalize h : probeAnswered s = t
  unfold probeAnswered at h
  try dsimp only at h
  (repeat' split at h) <;> subst h <;> simp

/-- What `restartProbing` leaves as it was. -/
@[simp] theorem restartProbing_frame  (s : State) :
    (restartProbing s).power = s.power ∧
    (restartProbing s).rst = s.rst ∧
    (restartProbing s).lu = s.lu ∧
    (restartProbing s).vu.station = s.vu.station ∧
    (restartProbing s).vu.view = s.vu.view ∧
    (restartProbing s).vu.standing = s.vu.standing ∧
    (restartProbing s).vu.retainedEpoch = s.vu.retainedEpoch ∧
    (restartProbing s).vu.admitTimer = s.vu.admitTimer ∧
    (restartProbing s).vu.admitExpired = s.vu.admitExpired ∧
    (restartProbing s).vu.stallTimer = s.vu.stallTimer ∧
    (restartProbing s).vu.stallOwed = s.vu.stallOwed ∧
    (restartProbing s).vu.leavePending = s.vu.leavePending ∧
    (restartProbing s).vu.foreign = s.vu.foreign ∧
    (restartProbing s).vu.judged = s.vu.judged ∧
    (restartProbing s).tu = s.tu ∧
    (restartProbing s).su = s.su ∧
    (restartProbing s).qu = s.qu ∧
    (restartProbing s).wu = s.wu ∧
    (restartProbing s).hp = s.hp ∧
    (restartProbing s).hostData = s.hostData ∧
    (restartProbing s).freeCount = s.freeCount ∧
    (restartProbing s).pending = s.pending := by
  generalize h : restartProbing s = t
  unfold restartProbing at h
  try dsimp only at h
  (repeat' split at h) <;> subst h <;> simp

end Sys2Proof.Machine
end

