-- ==== Sys2Proof/Laws/FramesLine.lean ====
section
/-! SUPPORT. What each operation of sending, acceptance, the window, the line and the clock leaves as it was. -/

namespace Sys2Proof.Machine

/-- What LU's own start bit writes and what it leaves. -/
@[simp] theorem startBitLine_fields (l : Lu) :
    (startBitLine l).mode = .sending ∧ (startBitLine l).driver = .ownFrame ∧ (startBitLine l).asserted = true ∧
    (startBitLine l).idleCount = 0 ∧ (startBitLine l).assertedCount = 0 ∧
    (startBitLine l).deferred = l.deferred ∧ (startBitLine l).stuck = l.stuck ∧
    (startBitLine l).checkReg = Config.checkStart := by
  simp [startBitLine]

/-- The count of asserted bit times that a frame's bits leave stays below that of a stuck line. -/
theorem assertedRun_le (bits : List Bool) : assertedRun bits ≤ Config.stuckCount :=
  Nat.le_trans (Nat.min_le_left _ _) (Nat.sub_le _ _)

/-- The count that bits leave is the number of bits of 0 that they end in after a bit of 1 (R44, R58). -/
theorem assertedRun_zeros (front : List Bool) {n : Nat} (h : n < Config.stuckCount) :
    assertedRun (front ++ [true] ++ List.replicate n false) = n := by
  have run : ((false :: (front ++ [true] ++ List.replicate n false)).reverse.takeWhile fun b => !b)
      = List.replicate n false := by
    rw [← List.cons_append, List.reverse_append, List.reverse_replicate, List.takeWhile_append_of_pos (by simp)]
    simp
  rw [assertedRun, run, List.length_replicate]
  exact Nat.min_eq_right (by omega)

/-- What a frame of an unassigned kind code leaves LU with (R54, R58, R169). -/
@[simp] theorem unknownKind_fields (bits : List Bool) (l : Lu) :
    (unknownKind bits l).mode = .waitIdle ∧ (unknownKind bits l).driver = .released ∧
    (unknownKind bits l).asserted = true ∧ (unknownKind bits l).idleCount = 0 ∧
    (unknownKind bits l).assertedCount = assertedRun bits ∧ (unknownKind bits l).deferred = l.deferred ∧
    (unknownKind bits l).stuck = l.stuck ∧ (unknownKind bits l).checkReg = checkOf (bits.take 10) := by
  simp [unknownKind]

/-- What a frame lost while it is decoded leaves LU with (R54, R56, R58). -/
@[simp] theorem loseLine_fields (cause : LossCause) (l : Lu) :
    (loseLine cause l).mode = .waitIdle ∧ (loseLine cause l).driver = .released ∧ (loseLine cause l).asserted = true ∧
    (loseLine cause l).idleCount = 0 ∧ (loseLine cause l).assertedCount = lossRun cause ∧
    (loseLine cause l).deferred = l.deferred ∧ (loseLine cause l).stuck = l.stuck := by
  cases cause <;> simp [loseLine, lossRun]

/-- The count where a frame is lost stays below that of a stuck line. -/
theorem lossRun_le (cause : LossCause) : lossRun cause ≤ Config.stuckCount := by
  cases cause
  · exact Nat.zero_le _
  · exact assertedRun_le _

/-- The count after a level read back is at most what it was. -/
theorem runAfter_le (level : LineLevel) (l : Lu) : runAfter level l ≤ l.assertedCount := by
  cases level <;> simp [runAfter]

/-- What the start of a window writes and what it leaves. -/
@[simp] theorem windowLine_fields (d : Driver) (r : BitVec 16) (run : Nat) (l : Lu) :
    (windowLine d r run l).mode = .window ∧ (windowLine d r run l).driver = d ∧ (windowLine d r run l).checkReg = r ∧
    (windowLine d r run l).asserted = l.asserted ∧ (windowLine d r run l).idleCount = l.idleCount ∧
    (windowLine d r run l).assertedCount = run ∧ (windowLine d r run l).deferred = l.deferred ∧
    (windowLine d r run l).stuck = l.stuck := by
  simp [windowLine]

/-- What an idle count of `n` leaves LU with. -/
@[simp] theorem idleReaches_fields (n : Nat) (l : Lu) :
    (idleReaches n l).idleCount = n ∧ (idleReaches n l).asserted = false ∧ (idleReaches n l).assertedCount = 0 ∧
    (idleReaches n l).mode = (if Config.idleMin ≤ n then .resting else l.mode) ∧
    (idleReaches n l).driver = l.driver ∧ (idleReaches n l).deferred = l.deferred ∧
    (idleReaches n l).stuck = l.stuck ∧ (idleReaches n l).checkReg = l.checkReg := by
  simp [idleReaches]

/-- What a stuck line leaves LU with. -/
@[simp] theorem stuckLine_fields (l : Lu) :
    (stuckLine l).mode = .waitIdle ∧ (stuckLine l).driver = .released ∧ (stuckLine l).asserted = true ∧
    (stuckLine l).idleCount = 0 ∧ (stuckLine l).assertedCount = Config.stuckCount ∧ (stuckLine l).stuck = true ∧
    (stuckLine l).deferred = l.deferred ∧ (stuckLine l).checkReg = l.checkReg := by
  simp [stuckLine]

/-- What `pruneItems` leaves as it was. -/
@[simp] theorem pruneItems_frame  (s : State) :
    (pruneItems s).power = s.power ∧
    (pruneItems s).rst = s.rst ∧
    (pruneItems s).lu = s.lu ∧
    (pruneItems s).vu = s.vu ∧
    (pruneItems s).tu = s.tu ∧
    (pruneItems s).su.offer = s.su.offer ∧
    (pruneItems s).su.attempt = s.su.attempt ∧
    (pruneItems s).qu = s.qu ∧
    (pruneItems s).wu = s.wu ∧
    (pruneItems s).hp = s.hp ∧
    (pruneItems s).hostData = s.hostData ∧
    (pruneItems s).freeCount = s.freeCount ∧
    (pruneItems s).pending = s.pending := by
  generalize h : pruneItems s = t
  unfold pruneItems at h
  try dsimp only at h
  (repeat' split at h) <;> subst h <;> simp

/-- What `setOffer` leaves as it was. -/
@[simp] theorem setOffer_frame  (s : State) :
    (setOffer s).power = s.power ∧
    (setOffer s).rst = s.rst ∧
    (setOffer s).lu = s.lu ∧
    (setOffer s).vu = s.vu ∧
    (setOffer s).tu = s.tu ∧
    (setOffer s).su.attempt = s.su.attempt ∧
    (setOffer s).su.owedDrop = s.su.owedDrop ∧
    (setOffer s).su.dropRec = s.su.dropRec ∧
    (setOffer s).su.rosterRec = s.su.rosterRec ∧
    (setOffer s).su.transferRec = s.su.transferRec ∧
    (setOffer s).su.leaveRec = s.su.leaveRec ∧
    (setOffer s).su.foundRec = s.su.foundRec ∧
    (setOffer s).su.stallRec = s.su.stallRec ∧
    (setOffer s).qu = s.qu ∧
    (setOffer s).wu = s.wu ∧
    (setOffer s).hp = s.hp ∧
    (setOffer s).hostData = s.hostData ∧
    (setOffer s).freeCount = s.freeCount ∧
    (setOffer s).pending = s.pending := by
  generalize h : setOffer s = t
  unfold setOffer at h
  try dsimp only at h
  (repeat' split at h) <;> subst h <;> simp

/-- What `refresh` leaves as it was. -/
@[simp] theorem refresh_frame  (s : State) :
    (refresh s).power = s.power ∧
    (refresh s).rst = s.rst ∧
    (refresh s).lu = s.lu ∧
    (refresh s).vu = s.vu ∧
    (refresh s).tu = s.tu ∧
    (refresh s).su.attempt = s.su.attempt ∧
    (refresh s).qu = s.qu ∧
    (refresh s).wu = s.wu ∧
    (refresh s).hp = s.hp ∧
    (refresh s).hostData = s.hostData ∧
    (refresh s).freeCount = s.freeCount ∧
    (refresh s).pending = s.pending := by
  generalize h : refresh s = t
  unfold refresh at h
  try dsimp only at h
  (repeat' split at h) <;> subst h <;> simp

/-- What `markInAttempt` leaves as it was. -/
@[simp] theorem markInAttempt_frame (i : Item) (s : State) :
    (markInAttempt i s).power = s.power ∧
    (markInAttempt i s).rst = s.rst ∧
    (markInAttempt i s).lu = s.lu ∧
    (markInAttempt i s).vu = s.vu ∧
    (markInAttempt i s).tu = s.tu ∧
    (markInAttempt i s).su = s.su ∧
    (markInAttempt i s).qu.completions = s.qu.completions ∧
    (markInAttempt i s).qu.pos = s.qu.pos ∧
    (markInAttempt i s).qu.entry = s.qu.entry ∧
    (markInAttempt i s).qu.result = s.qu.result ∧
    (markInAttempt i s).wu = s.wu ∧
    (markInAttempt i s).hp = s.hp ∧
    (markInAttempt i s).hostData = s.hostData ∧
    (markInAttempt i s).freeCount = s.freeCount ∧
    (markInAttempt i s).pending = s.pending := by
  generalize h : markInAttempt i s = t
  unfold markInAttempt at h
  try dsimp only at h
  (repeat' split at h) <;> subst h <;> simp

/-- What `beginItem` leaves as it was. -/
@[simp] theorem beginItem_frame (i : Item) (s : State) :
    (beginItem i s).power = s.power ∧
    (beginItem i s).rst = s.rst ∧
    (beginItem i s).lu.deferred = s.lu.deferred ∧
    (beginItem i s).lu.stuck = s.lu.stuck ∧
    (beginItem i s).vu = s.vu ∧
    (beginItem i s).tu = s.tu ∧
    (beginItem i s).su.owedDrop = s.su.owedDrop ∧
    (beginItem i s).su.dropRec = s.su.dropRec ∧
    (beginItem i s).su.rosterRec = s.su.rosterRec ∧
    (beginItem i s).su.transferRec = s.su.transferRec ∧
    (beginItem i s).su.leaveRec = s.su.leaveRec ∧
    (beginItem i s).su.foundRec = s.su.foundRec ∧
    (beginItem i s).su.stallRec = s.su.stallRec ∧
    (beginItem i s).qu.completions = s.qu.completions ∧
    (beginItem i s).qu.pos = s.qu.pos ∧
    (beginItem i s).qu.entry = s.qu.entry ∧
    (beginItem i s).qu.result = s.qu.result ∧
    (beginItem i s).wu = s.wu ∧
    (beginItem i s).hp = s.hp ∧
    (beginItem i s).hostData = s.hostData ∧
    (beginItem i s).freeCount = s.freeCount ∧
    (beginItem i s).pending = s.pending := by
  generalize h : beginItem i s = t
  unfold beginItem at h
  try dsimp only at h
  (repeat' split at h) <;> subst h <;> simp

/-- What `setRecord` leaves as it was. -/
@[simp] theorem setRecord_frame (i : Item) (r : AttemptRec) (s : State) :
    (setRecord i r s).power = s.power ∧
    (setRecord i r s).rst = s.rst ∧
    (setRecord i r s).lu = s.lu ∧
    (setRecord i r s).vu = s.vu ∧
    (setRecord i r s).tu = s.tu ∧
    (setRecord i r s).su.offer = s.su.offer ∧
    (setRecord i r s).su.attempt = s.su.attempt ∧
    (setRecord i r s).su.owedDrop = s.su.owedDrop ∧
    (setRecord i r s).qu.woken = s.qu.woken ∧
    (setRecord i r s).qu.completions = s.qu.completions ∧
    (setRecord i r s).qu.pos = s.qu.pos ∧
    (setRecord i r s).qu.entry = s.qu.entry ∧
    (setRecord i r s).qu.result = s.qu.result ∧
    (setRecord i r s).wu = s.wu ∧
    (setRecord i r s).hp = s.hp ∧
    (setRecord i r s).hostData = s.hostData ∧
    (setRecord i r s).freeCount = s.freeCount ∧
    (setRecord i r s).pending = s.pending := by
  generalize h : setRecord i r s = t
  unfold setRecord at h
  try dsimp only at h
  (repeat' split at h) <;> subst h <;> simp

/-- What `clearHistories` leaves as it was. -/
@[simp] theorem clearHistories_frame  (s : State) :
    (clearHistories s).power = s.power ∧
    (clearHistories s).rst = s.rst ∧
    (clearHistories s).lu = s.lu ∧
    (clearHistories s).vu = s.vu ∧
    (clearHistories s).tu = s.tu ∧
    (clearHistories s).su.offer = s.su.offer ∧
    (clearHistories s).su.attempt = s.su.attempt ∧
    (clearHistories s).su.owedDrop = s.su.owedDrop ∧
    (clearHistories s).qu.woken = s.qu.woken ∧
    (clearHistories s).qu.completions = s.qu.completions ∧
    (clearHistories s).qu.pos = s.qu.pos ∧
    (clearHistories s).qu.entry = s.qu.entry ∧
    (clearHistories s).qu.result = s.qu.result ∧
    (clearHistories s).wu = s.wu ∧
    (clearHistories s).hp = s.hp ∧
    (clearHistories s).hostData = s.hostData ∧
    (clearHistories s).freeCount = s.freeCount ∧
    (clearHistories s).pending = s.pending := by
  generalize h : clearHistories s = t
  unfold clearHistories at h
  try dsimp only at h
  (repeat' split at h) <;> subst h <;> simp

/-- What `endAttempt` leaves as it was. -/
@[simp] theorem endAttempt_frame (a : Attempt) (s : State) :
    (endAttempt a s).power = s.power ∧
    (endAttempt a s).rst = s.rst ∧
    (endAttempt a s).lu.mode = s.lu.mode ∧
    (endAttempt a s).lu.driver = s.lu.driver ∧
    (endAttempt a s).lu.asserted = s.lu.asserted ∧
    (endAttempt a s).lu.idleCount = s.lu.idleCount ∧
    (endAttempt a s).lu.assertedCount = s.lu.assertedCount ∧
    (endAttempt a s).lu.stuck = s.lu.stuck ∧
    (endAttempt a s).lu.checkReg = s.lu.checkReg ∧
    (endAttempt a s).vu = s.vu ∧
    (endAttempt a s).tu = s.tu ∧
    (endAttempt a s).su.offer = s.su.offer ∧
    (endAttempt a s).su.owedDrop = s.su.owedDrop ∧
    (endAttempt a s).su.dropRec = s.su.dropRec ∧
    (endAttempt a s).su.rosterRec = s.su.rosterRec ∧
    (endAttempt a s).su.transferRec = s.su.transferRec ∧
    (endAttempt a s).su.leaveRec = s.su.leaveRec ∧
    (endAttempt a s).su.foundRec = s.su.foundRec ∧
    (endAttempt a s).su.stallRec = s.su.stallRec ∧
    (endAttempt a s).qu = s.qu ∧
    (endAttempt a s).wu = s.wu ∧
    (endAttempt a s).hp = s.hp ∧
    (endAttempt a s).hostData = s.hostData ∧
    (endAttempt a s).freeCount = s.freeCount ∧
    (endAttempt a s).pending = s.pending := by
  generalize h : endAttempt a s = t
  unfold endAttempt at h
  try dsimp only at h
  (repeat' split at h) <;> subst h <;> simp

/-- What `oweDrop` leaves as it was. -/
@[simp] theorem oweDrop_frame (i : Item) (m : Mask) (s : State) :
    (oweDrop i m s).power = s.power ∧
    (oweDrop i m s).rst = s.rst ∧
    (oweDrop i m s).lu = s.lu ∧
    (oweDrop i m s).vu = s.vu ∧
    (oweDrop i m s).tu = s.tu ∧
    (oweDrop i m s).su.offer = s.su.offer ∧
    (oweDrop i m s).su.attempt = s.su.attempt ∧
    (oweDrop i m s).su.rosterRec = s.su.rosterRec ∧
    (oweDrop i m s).su.transferRec = s.su.transferRec ∧
    (oweDrop i m s).su.leaveRec = s.su.leaveRec ∧
    (oweDrop i m s).su.foundRec = s.su.foundRec ∧
    (oweDrop i m s).su.stallRec = s.su.stallRec ∧
    (oweDrop i m s).qu = s.qu ∧
    (oweDrop i m s).wu = s.wu ∧
    (oweDrop i m s).hp = s.hp ∧
    (oweDrop i m s).hostData = s.hostData ∧
    (oweDrop i m s).freeCount = s.freeCount ∧
    (oweDrop i m s).pending = s.pending := by
  generalize h : oweDrop i m s = t
  unfold oweDrop at h
  try dsimp only at h
  (repeat' split at h) <;> subst h <;> simp

/-- What `returnItem` leaves as it was. -/
@[simp] theorem returnItem_frame (i : Item) (s : State) :
    (returnItem i s).power = s.power ∧
    (returnItem i s).rst = s.rst ∧
    (returnItem i s).lu = s.lu ∧
    (returnItem i s).vu = s.vu ∧
    (returnItem i s).tu = s.tu ∧
    (returnItem i s).su = s.su ∧
    (returnItem i s).qu.completions = s.qu.completions ∧
    (returnItem i s).qu.pos = s.qu.pos ∧
    (returnItem i s).qu.entry = s.qu.entry ∧
    (returnItem i s).qu.result = s.qu.result ∧
    (returnItem i s).wu = s.wu ∧
    (returnItem i s).hp = s.hp ∧
    (returnItem i s).hostData = s.hostData ∧
    (returnItem i s).freeCount = s.freeCount ∧
    (returnItem i s).pending = s.pending := by
  generalize h : returnItem i s = t
  unfold returnItem at h
  try dsimp only at h
  (repeat' split at h) <;> subst h <;> simp

/-- What `restartStall` leaves as it was. -/
@[simp] theorem restartStall_frame  (s : State) :
    (restartStall s).power = s.power ∧
    (restartStall s).rst = s.rst ∧
    (restartStall s).lu = s.lu ∧
    (restartStall s).vu.station = s.vu.station ∧
    (restartStall s).vu.view = s.vu.view ∧
    (restartStall s).vu.standing = s.vu.standing ∧
    (restartStall s).vu.retainedEpoch = s.vu.retainedEpoch ∧
    (restartStall s).vu.unanswered = s.vu.unanswered ∧
    (restartStall s).vu.probeTimer = s.vu.probeTimer ∧
    (restartStall s).vu.probeDue = s.vu.probeDue ∧
    (restartStall s).vu.admitTimer = s.vu.admitTimer ∧
    (restartStall s).vu.admitExpired = s.vu.admitExpired ∧
    (restartStall s).vu.leavePending = s.vu.leavePending ∧
    (restartStall s).vu.foreign = s.vu.foreign ∧
    (restartStall s).vu.judged = s.vu.judged ∧
    (restartStall s).tu = s.tu ∧
    (restartStall s).su = s.su ∧
    (restartStall s).qu = s.qu ∧
    (restartStall s).wu = s.wu ∧
    (restartStall s).hp = s.hp ∧
    (restartStall s).hostData = s.hostData ∧
    (restartStall s).freeCount = s.freeCount ∧
    (restartStall s).pending = s.pending := by
  generalize h : restartStall s = t
  unfold restartStall at h
  try dsimp only at h
  (repeat' split at h) <;> subst h <;> simp

/-- What `attemptLimit` leaves as it was. -/
@[simp] theorem attemptLimit_frame (i : Item) (s : State) :
    (attemptLimit i s).power = s.power ∧
    (attemptLimit i s).rst = s.rst ∧
    (attemptLimit i s).lu.stuck = s.lu.stuck ∧
    (attemptLimit i s).lu.checkReg = s.lu.checkReg ∧
    (attemptLimit i s).vu.foreign = s.vu.foreign ∧
    (attemptLimit i s).qu.pos = s.qu.pos ∧
    (attemptLimit i s).qu.entry = s.qu.entry ∧
    (attemptLimit i s).qu.result = s.qu.result ∧
    (attemptLimit i s).wu.pos = s.wu.pos ∧
    (attemptLimit i s).wu.result = s.wu.result ∧
    (attemptLimit i s).wu.linePending = s.wu.linePending ∧
    (attemptLimit i s).wu.enables = s.wu.enables ∧
    (attemptLimit i s).hp = s.hp ∧
    (attemptLimit i s).hostData = s.hostData ∧
    (attemptLimit i s).freeCount = s.freeCount ∧
    (attemptLimit i s).pending = s.pending := by
  generalize h : attemptLimit i s = t
  unfold attemptLimit at h
  try dsimp only at h
  (repeat' split at h) <;> subst h <;> simp

/-- What `decideItem` leaves as it was. -/
@[simp] theorem decideItem_frame (i : Item) (s : State) :
    (decideItem i s).power = s.power ∧
    (decideItem i s).rst = s.rst ∧
    (decideItem i s).lu.stuck = s.lu.stuck ∧
    (decideItem i s).lu.checkReg = s.lu.checkReg ∧
    (decideItem i s).vu.foreign = s.vu.foreign ∧
    (decideItem i s).qu.pos = s.qu.pos ∧
    (decideItem i s).qu.entry = s.qu.entry ∧
    (decideItem i s).qu.result = s.qu.result ∧
    (decideItem i s).wu.pos = s.wu.pos ∧
    (decideItem i s).wu.result = s.wu.result ∧
    (decideItem i s).wu.linePending = s.wu.linePending ∧
    (decideItem i s).wu.enables = s.wu.enables ∧
    (decideItem i s).hp = s.hp ∧
    (decideItem i s).hostData = s.hostData ∧
    (decideItem i s).freeCount = s.freeCount ∧
    (decideItem i s).pending = s.pending := by
  generalize h : decideItem i s = t
  unfold decideItem at h
  try dsimp only at h
  (repeat' split at h) <;> subst h <;> simp

/-- What `foundIncomplete` leaves as it was. -/
@[simp] theorem foundIncomplete_frame  (s : State) :
    (foundIncomplete s).power = s.power ∧
    (foundIncomplete s).rst = s.rst ∧
    (foundIncomplete s).lu = s.lu ∧
    (foundIncomplete s).vu.station = s.vu.station ∧
    (foundIncomplete s).vu.view = s.vu.view ∧
    (foundIncomplete s).vu.standing = s.vu.standing ∧
    (foundIncomplete s).vu.retainedEpoch = s.vu.retainedEpoch ∧
    (foundIncomplete s).vu.admitTimer = s.vu.admitTimer ∧
    (foundIncomplete s).vu.admitExpired = s.vu.admitExpired ∧
    (foundIncomplete s).vu.stallTimer = s.vu.stallTimer ∧
    (foundIncomplete s).vu.stallOwed = s.vu.stallOwed ∧
    (foundIncomplete s).vu.leavePending = s.vu.leavePending ∧
    (foundIncomplete s).vu.foreign = s.vu.foreign ∧
    (foundIncomplete s).vu.judged = s.vu.judged ∧
    (foundIncomplete s).tu = s.tu ∧
    (foundIncomplete s).su.offer = s.su.offer ∧
    (foundIncomplete s).su.attempt = s.su.attempt ∧
    (foundIncomplete s).su.owedDrop = s.su.owedDrop ∧
    (foundIncomplete s).qu.woken = s.qu.woken ∧
    (foundIncomplete s).qu.completions = s.qu.completions ∧
    (foundIncomplete s).qu.pos = s.qu.pos ∧
    (foundIncomplete s).qu.entry = s.qu.entry ∧
    (foundIncomplete s).qu.result = s.qu.result ∧
    (foundIncomplete s).wu = s.wu ∧
    (foundIncomplete s).hp = s.hp ∧
    (foundIncomplete s).hostData = s.hostData ∧
    (foundIncomplete s).freeCount = s.freeCount ∧
    (foundIncomplete s).pending = s.pending := by
  generalize h : foundIncomplete s = t
  unfold foundIncomplete at h
  try dsimp only at h
  (repeat' split at h) <;> subst h <;> simp

/-- What `weighMiss` leaves as it was. -/
@[simp] theorem weighMiss_frame (i : Item) (s : State) :
    (weighMiss i s).power = s.power ∧
    (weighMiss i s).rst = s.rst ∧
    (weighMiss i s).lu.stuck = s.lu.stuck ∧
    (weighMiss i s).lu.checkReg = s.lu.checkReg ∧
    (weighMiss i s).vu.foreign = s.vu.foreign ∧
    (weighMiss i s).qu.pos = s.qu.pos ∧
    (weighMiss i s).qu.entry = s.qu.entry ∧
    (weighMiss i s).qu.result = s.qu.result ∧
    (weighMiss i s).wu.pos = s.wu.pos ∧
    (weighMiss i s).wu.result = s.wu.result ∧
    (weighMiss i s).wu.linePending = s.wu.linePending ∧
    (weighMiss i s).wu.enables = s.wu.enables ∧
    (weighMiss i s).hp = s.hp ∧
    (weighMiss i s).hostData = s.hostData ∧
    (weighMiss i s).freeCount = s.freeCount ∧
    (weighMiss i s).pending = s.pending := by
  generalize h : weighMiss i s = t
  unfold weighMiss at h
  try dsimp only at h
  (repeat' split at h) <;> subst h <;> simp

/-- What `incompleteAttempt` leaves as it was. -/
@[simp] theorem incompleteAttempt_frame (i : Item) (missing : Mask) (s : State) :
    (incompleteAttempt i missing s).power = s.power ∧
    (incompleteAttempt i missing s).rst = s.rst ∧
    (incompleteAttempt i missing s).lu.stuck = s.lu.stuck ∧
    (incompleteAttempt i missing s).lu.checkReg = s.lu.checkReg ∧
    (incompleteAttempt i missing s).vu.foreign = s.vu.foreign ∧
    (incompleteAttempt i missing s).qu.pos = s.qu.pos ∧
    (incompleteAttempt i missing s).qu.entry = s.qu.entry ∧
    (incompleteAttempt i missing s).qu.result = s.qu.result ∧
    (incompleteAttempt i missing s).wu.pos = s.wu.pos ∧
    (incompleteAttempt i missing s).wu.result = s.wu.result ∧
    (incompleteAttempt i missing s).wu.linePending = s.wu.linePending ∧
    (incompleteAttempt i missing s).wu.enables = s.wu.enables ∧
    (incompleteAttempt i missing s).hp = s.hp ∧
    (incompleteAttempt i missing s).hostData = s.hostData ∧
    (incompleteAttempt i missing s).freeCount = s.freeCount ∧
    (incompleteAttempt i missing s).pending = s.pending := by
  generalize h : incompleteAttempt i missing s = t
  unfold incompleteAttempt at h
  try dsimp only at h
  (repeat' split at h) <;> subst h <;> simp

/-- What `selfFault` leaves as it was. -/
@[simp] theorem selfFault_frame  (s : State) :
    (selfFault s).power = s.power ∧
    (selfFault s).rst = s.rst ∧
    (selfFault s).lu.stuck = s.lu.stuck ∧
    (selfFault s).lu.checkReg = s.lu.checkReg ∧
    (selfFault s).vu.foreign = s.vu.foreign ∧
    (selfFault s).qu.pos = s.qu.pos ∧
    (selfFault s).qu.entry = s.qu.entry ∧
    (selfFault s).qu.result = s.qu.result ∧
    (selfFault s).wu.pos = s.wu.pos ∧
    (selfFault s).wu.result = s.wu.result ∧
    (selfFault s).wu.linePending = s.wu.linePending ∧
    (selfFault s).wu.enables = s.wu.enables ∧
    (selfFault s).hp = s.hp ∧
    (selfFault s).hostData = s.hostData ∧
    (selfFault s).freeCount = s.freeCount ∧
    (selfFault s).pending = s.pending := by
  generalize h : selfFault s = t
  unfold selfFault at h
  try dsimp only at h
  (repeat' split at h) <;> subst h <;> simp

/-- What `lostArbitration` leaves as it was. -/
@[simp] theorem lostArbitration_frame  (s : State) :
    (lostArbitration s).power = s.power ∧
    (lostArbitration s).rst = s.rst ∧
    (lostArbitration s).lu = s.lu ∧
    (lostArbitration s).vu = s.vu ∧
    (lostArbitration s).tu = s.tu ∧
    (lostArbitration s).su.offer = s.su.offer ∧
    (lostArbitration s).su.owedDrop = s.su.owedDrop ∧
    (lostArbitration s).su.dropRec = s.su.dropRec ∧
    (lostArbitration s).su.rosterRec = s.su.rosterRec ∧
    (lostArbitration s).su.transferRec = s.su.transferRec ∧
    (lostArbitration s).su.leaveRec = s.su.leaveRec ∧
    (lostArbitration s).su.foundRec = s.su.foundRec ∧
    (lostArbitration s).su.stallRec = s.su.stallRec ∧
    (lostArbitration s).qu.pos = s.qu.pos ∧
    (lostArbitration s).qu.entry = s.qu.entry ∧
    (lostArbitration s).qu.result = s.qu.result ∧
    (lostArbitration s).wu = s.wu ∧
    (lostArbitration s).hp = s.hp ∧
    (lostArbitration s).hostData = s.hostData ∧
    (lostArbitration s).freeCount = s.freeCount ∧
    (lostArbitration s).pending = s.pending := by
  generalize h : lostArbitration s = t
  unfold lostArbitration at h
  try dsimp only at h
  (repeat' split at h) <;> subst h <;> simp

/-- What `completeItem` leaves as it was. -/
@[simp] theorem completeItem_frame (i : Item) (s : State) :
    (completeItem i s).power = s.power ∧
    (completeItem i s).rst = s.rst ∧
    (completeItem i s).lu = s.lu ∧
    (completeItem i s).vu.station = s.vu.station ∧
    (completeItem i s).vu.view = s.vu.view ∧
    (completeItem i s).vu.standing = s.vu.standing ∧
    (completeItem i s).vu.retainedEpoch = s.vu.retainedEpoch ∧
    (completeItem i s).vu.unanswered = s.vu.unanswered ∧
    (completeItem i s).vu.probeTimer = s.vu.probeTimer ∧
    (completeItem i s).vu.probeDue = s.vu.probeDue ∧
    (completeItem i s).vu.admitTimer = s.vu.admitTimer ∧
    (completeItem i s).vu.admitExpired = s.vu.admitExpired ∧
    (completeItem i s).vu.foreign = s.vu.foreign ∧
    (completeItem i s).vu.judged = s.vu.judged ∧
    (completeItem i s).tu = s.tu ∧
    (completeItem i s).su.offer = s.su.offer ∧
    (completeItem i s).su.attempt = s.su.attempt ∧
    (completeItem i s).qu.woken = s.qu.woken ∧
    (completeItem i s).qu.completions = s.qu.completions ∧
    (completeItem i s).qu.pos = s.qu.pos ∧
    (completeItem i s).qu.entry = s.qu.entry ∧
    (completeItem i s).qu.result = s.qu.result ∧
    (completeItem i s).wu = s.wu ∧
    (completeItem i s).hp = s.hp ∧
    (completeItem i s).hostData = s.hostData ∧
    (completeItem i s).freeCount = s.freeCount ∧
    (completeItem i s).pending = s.pending := by
  generalize h : completeItem i s = t
  unfold completeItem at h
  try dsimp only at h
  (repeat' split at h) <;> subst h <;> simp

/-- What `setForeign` leaves as it was. -/
@[simp] theorem setForeign_frame (f : Frame) (s : State) :
    (setForeign f s).power = s.power ∧
    (setForeign f s).rst = s.rst ∧
    (setForeign f s).lu = s.lu ∧
    (setForeign f s).vu.station = s.vu.station ∧
    (setForeign f s).vu.view = s.vu.view ∧
    (setForeign f s).vu.standing = s.vu.standing ∧
    (setForeign f s).vu.retainedEpoch = s.vu.retainedEpoch ∧
    (setForeign f s).vu.unanswered = s.vu.unanswered ∧
    (setForeign f s).vu.probeTimer = s.vu.probeTimer ∧
    (setForeign f s).vu.probeDue = s.vu.probeDue ∧
    (setForeign f s).vu.admitTimer = s.vu.admitTimer ∧
    (setForeign f s).vu.admitExpired = s.vu.admitExpired ∧
    (setForeign f s).vu.stallTimer = s.vu.stallTimer ∧
    (setForeign f s).vu.stallOwed = s.vu.stallOwed ∧
    (setForeign f s).vu.leavePending = s.vu.leavePending ∧
    (setForeign f s).vu.judged = s.vu.judged ∧
    (setForeign f s).tu = s.tu ∧
    (setForeign f s).su = s.su ∧
    (setForeign f s).qu = s.qu ∧
    (setForeign f s).wu.watches = s.wu.watches ∧
    (setForeign f s).wu.events = s.wu.events ∧
    (setForeign f s).wu.pos = s.wu.pos ∧
    (setForeign f s).wu.result = s.wu.result ∧
    (setForeign f s).wu.statePending = s.wu.statePending ∧
    (setForeign f s).wu.enables = s.wu.enables ∧
    (setForeign f s).hp = s.hp ∧
    (setForeign f s).hostData = s.hostData ∧
    (setForeign f s).freeCount = s.freeCount ∧
    (setForeign f s).pending = s.pending := by
  generalize h : setForeign f s = t
  unfold setForeign at h
  try dsimp only at h
  (repeat' split at h) <;> subst h <;> simp

/-- What `hearFrame` leaves as it was. -/
@[simp] theorem hearFrame_frame (f : Frame) (s : State) :
    (hearFrame f s).power = s.power ∧
    (hearFrame f s).rst = s.rst ∧
    (hearFrame f s).lu = s.lu ∧
    (hearFrame f s).vu.station = s.vu.station ∧
    (hearFrame f s).vu.view = s.vu.view ∧
    (hearFrame f s).vu.standing = s.vu.standing ∧
    (hearFrame f s).vu.retainedEpoch = s.vu.retainedEpoch ∧
    (hearFrame f s).vu.admitTimer = s.vu.admitTimer ∧
    (hearFrame f s).vu.admitExpired = s.vu.admitExpired ∧
    (hearFrame f s).vu.stallTimer = s.vu.stallTimer ∧
    (hearFrame f s).vu.stallOwed = s.vu.stallOwed ∧
    (hearFrame f s).vu.leavePending = s.vu.leavePending ∧
    (hearFrame f s).vu.judged = s.vu.judged ∧
    (hearFrame f s).tu = s.tu ∧
    (hearFrame f s).su = s.su ∧
    (hearFrame f s).qu = s.qu ∧
    (hearFrame f s).wu.watches = s.wu.watches ∧
    (hearFrame f s).wu.events = s.wu.events ∧
    (hearFrame f s).wu.pos = s.wu.pos ∧
    (hearFrame f s).wu.result = s.wu.result ∧
    (hearFrame f s).wu.statePending = s.wu.statePending ∧
    (hearFrame f s).wu.enables = s.wu.enables ∧
    (hearFrame f s).hp = s.hp ∧
    (hearFrame f s).hostData = s.hostData ∧
    (hearFrame f s).freeCount = s.freeCount ∧
    (hearFrame f s).pending = s.pending := by
  generalize h : hearFrame f s = t
  unfold hearFrame at h
  try dsimp only at h
  (repeat' split at h) <;> subst h <;> simp

/-- What `checkEndOther` leaves as it was. -/
@[simp] theorem checkEndOther_frame (bits : List Bool) (s : State) :
    (checkEndOther bits s).power = s.power ∧
    (checkEndOther bits s).rst = s.rst ∧
    (checkEndOther bits s).lu.deferred = s.lu.deferred ∧
    (checkEndOther bits s).lu.stuck = s.lu.stuck ∧
    (checkEndOther bits s).vu.station = s.vu.station ∧
    (checkEndOther bits s).vu.view = s.vu.view ∧
    (checkEndOther bits s).vu.standing = s.vu.standing ∧
    (checkEndOther bits s).vu.retainedEpoch = s.vu.retainedEpoch ∧
    (checkEndOther bits s).vu.admitTimer = s.vu.admitTimer ∧
    (checkEndOther bits s).vu.admitExpired = s.vu.admitExpired ∧
    (checkEndOther bits s).vu.stallTimer = s.vu.stallTimer ∧
    (checkEndOther bits s).vu.stallOwed = s.vu.stallOwed ∧
    (checkEndOther bits s).vu.leavePending = s.vu.leavePending ∧
    (checkEndOther bits s).tu = s.tu ∧
    (checkEndOther bits s).su = s.su ∧
    (checkEndOther bits s).qu = s.qu ∧
    (checkEndOther bits s).wu.watches = s.wu.watches ∧
    (checkEndOther bits s).wu.events = s.wu.events ∧
    (checkEndOther bits s).wu.pos = s.wu.pos ∧
    (checkEndOther bits s).wu.result = s.wu.result ∧
    (checkEndOther bits s).wu.statePending = s.wu.statePending ∧
    (checkEndOther bits s).wu.enables = s.wu.enables ∧
    (checkEndOther bits s).hp = s.hp ∧
    (checkEndOther bits s).hostData = s.hostData ∧
    (checkEndOther bits s).freeCount = s.freeCount ∧
    (checkEndOther bits s).pending = s.pending := by
  generalize h : checkEndOther bits s = t
  unfold checkEndOther at h
  try dsimp only at h
  (repeat' split at h) <;> subst h <;> simp

/-- What `checkEndOwn` leaves as it was. -/
@[simp] theorem checkEndOwn_frame (a : Attempt) (s : State) :
    (checkEndOwn a s).power = s.power ∧
    (checkEndOwn a s).rst = s.rst ∧
    (checkEndOwn a s).lu.asserted = s.lu.asserted ∧
    (checkEndOwn a s).lu.idleCount = s.lu.idleCount ∧
    (checkEndOwn a s).lu.assertedCount = assertedRun (encodeFrame a.frame) ∧
    (checkEndOwn a s).lu.deferred = s.lu.deferred ∧
    (checkEndOwn a s).lu.stuck = s.lu.stuck ∧
    (checkEndOwn a s).vu.station = s.vu.station ∧
    (checkEndOwn a s).vu.view = s.vu.view ∧
    (checkEndOwn a s).vu.standing = s.vu.standing ∧
    (checkEndOwn a s).vu.retainedEpoch = s.vu.retainedEpoch ∧
    (checkEndOwn a s).vu.unanswered = s.vu.unanswered ∧
    (checkEndOwn a s).vu.probeTimer = s.vu.probeTimer ∧
    (checkEndOwn a s).vu.probeDue = s.vu.probeDue ∧
    (checkEndOwn a s).vu.admitTimer = s.vu.admitTimer ∧
    (checkEndOwn a s).vu.admitExpired = s.vu.admitExpired ∧
    (checkEndOwn a s).vu.stallTimer = s.vu.stallTimer ∧
    (checkEndOwn a s).vu.stallOwed = s.vu.stallOwed ∧
    (checkEndOwn a s).vu.leavePending = s.vu.leavePending ∧
    (checkEndOwn a s).vu.foreign = s.vu.foreign ∧
    (checkEndOwn a s).tu = s.tu ∧
    (checkEndOwn a s).su = s.su ∧
    (checkEndOwn a s).qu = s.qu ∧
    (checkEndOwn a s).wu = s.wu ∧
    (checkEndOwn a s).hp = s.hp ∧
    (checkEndOwn a s).hostData = s.hostData ∧
    (checkEndOwn a s).freeCount = s.freeCount ∧
    (checkEndOwn a s).pending = s.pending := by
  generalize h : checkEndOwn a s = t
  unfold checkEndOwn at h
  try dsimp only at h
  (repeat' split at h) <;> subst h <;> simp

/-- What `checkEnd` leaves as it was. -/
@[simp] theorem checkEnd_frame (bits : List Bool) (s : State) :
    (checkEnd bits s).power = s.power ∧
    (checkEnd bits s).rst = s.rst ∧
    (checkEnd bits s).lu.deferred = s.lu.deferred ∧
    (checkEnd bits s).lu.stuck = s.lu.stuck ∧
    (checkEnd bits s).vu.station = s.vu.station ∧
    (checkEnd bits s).vu.view = s.vu.view ∧
    (checkEnd bits s).vu.standing = s.vu.standing ∧
    (checkEnd bits s).vu.retainedEpoch = s.vu.retainedEpoch ∧
    (checkEnd bits s).vu.admitTimer = s.vu.admitTimer ∧
    (checkEnd bits s).vu.admitExpired = s.vu.admitExpired ∧
    (checkEnd bits s).vu.stallTimer = s.vu.stallTimer ∧
    (checkEnd bits s).vu.stallOwed = s.vu.stallOwed ∧
    (checkEnd bits s).vu.leavePending = s.vu.leavePending ∧
    (checkEnd bits s).tu = s.tu ∧
    (checkEnd bits s).su = s.su ∧
    (checkEnd bits s).qu = s.qu ∧
    (checkEnd bits s).wu.watches = s.wu.watches ∧
    (checkEnd bits s).wu.events = s.wu.events ∧
    (checkEnd bits s).wu.pos = s.wu.pos ∧
    (checkEnd bits s).wu.result = s.wu.result ∧
    (checkEnd bits s).wu.statePending = s.wu.statePending ∧
    (checkEnd bits s).wu.enables = s.wu.enables ∧
    (checkEnd bits s).hp = s.hp ∧
    (checkEnd bits s).hostData = s.hostData ∧
    (checkEnd bits s).freeCount = s.freeCount ∧
    (checkEnd bits s).pending = s.pending := by
  generalize h : checkEnd bits s = t
  unfold checkEnd at h
  try dsimp only at h
  (repeat' split at h) <;> subst h <;> simp

/-- What `settleOwn` leaves as it was. -/
@[simp] theorem settleOwn_frame (item : Option Item) (x : Applied) (epoch : Byte) (s : State) :
    (settleOwn item x epoch s).power = s.power ∧
    (settleOwn item x epoch s).rst = s.rst ∧
    (settleOwn item x epoch s).lu = s.lu ∧
    (settleOwn item x epoch s).vu = s.vu ∧
    (settleOwn item x epoch s).tu = s.tu ∧
    (settleOwn item x epoch s).su = s.su ∧
    (settleOwn item x epoch s).qu.pos = s.qu.pos ∧
    (settleOwn item x epoch s).qu.entry = s.qu.entry ∧
    (settleOwn item x epoch s).qu.result = s.qu.result ∧
    (settleOwn item x epoch s).wu = s.wu ∧
    (settleOwn item x epoch s).hp = s.hp ∧
    (settleOwn item x epoch s).hostData = s.hostData ∧
    (settleOwn item x epoch s).freeCount = s.freeCount ∧
    (settleOwn item x epoch s).pending = s.pending := by
  generalize h : settleOwn item x epoch s = t
  unfold settleOwn at h
  try dsimp only at h
  (repeat' split at h) <;> subst h <;> simp

/-- What `applyCell` leaves as it was. -/
@[simp] theorem applyCell_frame (op : CellOp) (c : CellNo) (a b : Half) (f : Frame) (item : Option Item) (s : State) :
    (applyCell op c a b f item s).power = s.power ∧
    (applyCell op c a b f item s).rst = s.rst ∧
    (applyCell op c a b f item s).lu = s.lu ∧
    (applyCell op c a b f item s).vu = s.vu ∧
    (applyCell op c a b f item s).tu.known = s.tu.known ∧
    (applyCell op c a b f item s).su = s.su ∧
    (applyCell op c a b f item s).qu.pos = s.qu.pos ∧
    (applyCell op c a b f item s).qu.entry = s.qu.entry ∧
    (applyCell op c a b f item s).qu.result = s.qu.result ∧
    (applyCell op c a b f item s).wu.pos = s.wu.pos ∧
    (applyCell op c a b f item s).wu.result = s.wu.result ∧
    (applyCell op c a b f item s).wu.statePending = s.wu.statePending ∧
    (applyCell op c a b f item s).wu.linePending = s.wu.linePending ∧
    (applyCell op c a b f item s).wu.enables = s.wu.enables ∧
    (applyCell op c a b f item s).hp = s.hp ∧
    (applyCell op c a b f item s).hostData = s.hostData ∧
    (applyCell op c a b f item s).freeCount = s.freeCount ∧
    (applyCell op c a b f item s).pending = s.pending := by
  generalize h : applyCell op c a b f item s = t
  unfold applyCell at h
  try dsimp only at h
  (repeat' split at h) <;> subst h <;> simp

/-- What `replaceChunk` leaves as it was. -/
@[simp] theorem replaceChunk_frame (k : BitVec 4) (images : Vector Cell 8) (s : State) :
    (replaceChunk k images s).power = s.power ∧
    (replaceChunk k images s).rst = s.rst ∧
    (replaceChunk k images s).lu = s.lu ∧
    (replaceChunk k images s).vu = s.vu ∧
    (replaceChunk k images s).su = s.su ∧
    (replaceChunk k images s).qu = s.qu ∧
    (replaceChunk k images s).wu = s.wu ∧
    (replaceChunk k images s).hp = s.hp ∧
    (replaceChunk k images s).hostData = s.hostData ∧
    (replaceChunk k images s).freeCount = s.freeCount ∧
    (replaceChunk k images s).pending = s.pending := by
  generalize h : replaceChunk k images s = t
  unfold replaceChunk at h
  try dsimp only at h
  (repeat' split at h) <;> subst h <;> simp

/-- What `setView` leaves as it was. -/
@[simp] theorem setView_frame (v : View) (s : State) :
    (setView v s).power = s.power ∧
    (setView v s).rst = s.rst ∧
    (setView v s).lu = s.lu ∧
    (setView v s).vu.station = s.vu.station ∧
    (setView v s).vu.standing = s.vu.standing ∧
    (setView v s).vu.retainedEpoch = s.vu.retainedEpoch ∧
    (setView v s).vu.unanswered = s.vu.unanswered ∧
    (setView v s).vu.probeTimer = s.vu.probeTimer ∧
    (setView v s).vu.probeDue = s.vu.probeDue ∧
    (setView v s).vu.admitTimer = s.vu.admitTimer ∧
    (setView v s).vu.admitExpired = s.vu.admitExpired ∧
    (setView v s).vu.stallTimer = s.vu.stallTimer ∧
    (setView v s).vu.stallOwed = s.vu.stallOwed ∧
    (setView v s).vu.leavePending = s.vu.leavePending ∧
    (setView v s).vu.foreign = s.vu.foreign ∧
    (setView v s).vu.judged = s.vu.judged ∧
    (setView v s).tu = s.tu ∧
    (setView v s).su = s.su ∧
    (setView v s).qu = s.qu ∧
    (setView v s).wu = s.wu ∧
    (setView v s).hp = s.hp ∧
    (setView v s).hostData = s.hostData ∧
    (setView v s).freeCount = s.freeCount ∧
    (setView v s).pending = s.pending := by
  generalize h : setView v s = t
  unfold setView at h
  try dsimp only at h
  (repeat' split at h) <;> subst h <;> simp

/-- What `promoteStation` leaves as it was. -/
@[simp] theorem promoteStation_frame  (s : State) :
    (promoteStation s).power = s.power ∧
    (promoteStation s).rst = s.rst ∧
    (promoteStation s).lu = s.lu ∧
    (promoteStation s).vu.view = s.vu.view ∧
    (promoteStation s).vu.unanswered = s.vu.unanswered ∧
    (promoteStation s).vu.probeTimer = s.vu.probeTimer ∧
    (promoteStation s).vu.probeDue = s.vu.probeDue ∧
    (promoteStation s).vu.admitTimer = s.vu.admitTimer ∧
    (promoteStation s).vu.admitExpired = s.vu.admitExpired ∧
    (promoteStation s).vu.leavePending = s.vu.leavePending ∧
    (promoteStation s).vu.foreign = s.vu.foreign ∧
    (promoteStation s).vu.judged = s.vu.judged ∧
    (promoteStation s).tu.cells = s.tu.cells ∧
    (promoteStation s).su = s.su ∧
    (promoteStation s).qu = s.qu ∧
    (promoteStation s).wu.pos = s.wu.pos ∧
    (promoteStation s).wu.result = s.wu.result ∧
    (promoteStation s).wu.linePending = s.wu.linePending ∧
    (promoteStation s).wu.enables = s.wu.enables ∧
    (promoteStation s).hp = s.hp ∧
    (promoteStation s).hostData = s.hostData ∧
    (promoteStation s).freeCount = s.freeCount ∧
    (promoteStation s).pending = s.pending := by
  generalize h : promoteStation s = t
  unfold promoteStation at h
  try dsimp only at h
  (repeat' split at h) <;> subst h <;> simp

/-- What `moveRound` leaves as it was. -/
@[simp] theorem moveRound_frame (k : BitVec 4) (images : Vector Cell 8) (s : State) :
    (moveRound k images s).power = s.power ∧
    (moveRound k images s).rst = s.rst ∧
    (moveRound k images s).lu.mode = s.lu.mode ∧
    (moveRound k images s).lu.driver = s.lu.driver ∧
    (moveRound k images s).lu.asserted = s.lu.asserted ∧
    (moveRound k images s).lu.idleCount = s.lu.idleCount ∧
    (moveRound k images s).lu.assertedCount = s.lu.assertedCount ∧
    (moveRound k images s).lu.stuck = s.lu.stuck ∧
    (moveRound k images s).lu.checkReg = s.lu.checkReg ∧
    (moveRound k images s).vu.foreign = s.vu.foreign ∧
    (moveRound k images s).qu.pos = s.qu.pos ∧
    (moveRound k images s).qu.entry = s.qu.entry ∧
    (moveRound k images s).qu.result = s.qu.result ∧
    (moveRound k images s).wu.pos = s.wu.pos ∧
    (moveRound k images s).wu.result = s.wu.result ∧
    (moveRound k images s).wu.linePending = s.wu.linePending ∧
    (moveRound k images s).wu.enables = s.wu.enables ∧
    (moveRound k images s).hp = s.hp ∧
    (moveRound k images s).hostData = s.hostData ∧
    (moveRound k images s).freeCount = s.freeCount ∧
    (moveRound k images s).pending = s.pending := by
  generalize h : moveRound k images s = t
  unfold moveRound at h
  dsimp only [promoteJoining] at h
  (repeat' split at h) <;> subst h <;> simp

/-- What `applyTransfer` leaves as it was. -/
@[simp] theorem applyTransfer_frame (k : BitVec 4) (images : Vector Cell 8) (s : State) :
    (applyTransfer k images s).power = s.power ∧
    (applyTransfer k images s).rst = s.rst ∧
    (applyTransfer k images s).lu.mode = s.lu.mode ∧
    (applyTransfer k images s).lu.driver = s.lu.driver ∧
    (applyTransfer k images s).lu.asserted = s.lu.asserted ∧
    (applyTransfer k images s).lu.idleCount = s.lu.idleCount ∧
    (applyTransfer k images s).lu.assertedCount = s.lu.assertedCount ∧
    (applyTransfer k images s).lu.stuck = s.lu.stuck ∧
    (applyTransfer k images s).lu.checkReg = s.lu.checkReg ∧
    (applyTransfer k images s).vu.foreign = s.vu.foreign ∧
    (applyTransfer k images s).qu.pos = s.qu.pos ∧
    (applyTransfer k images s).qu.entry = s.qu.entry ∧
    (applyTransfer k images s).qu.result = s.qu.result ∧
    (applyTransfer k images s).wu.pos = s.wu.pos ∧
    (applyTransfer k images s).wu.result = s.wu.result ∧
    (applyTransfer k images s).wu.linePending = s.wu.linePending ∧
    (applyTransfer k images s).wu.enables = s.wu.enables ∧
    (applyTransfer k images s).hp = s.hp ∧
    (applyTransfer k images s).hostData = s.hostData ∧
    (applyTransfer k images s).freeCount = s.freeCount ∧
    (applyTransfer k images s).pending = s.pending := by
  simp [applyTransfer]

/-- What `applyRoster` leaves as it was. -/
@[simp] theorem applyRoster_frame  (s : State) :
    (applyRoster s).power = s.power ∧
    (applyRoster s).rst = s.rst ∧
    (applyRoster s).lu = s.lu ∧
    (applyRoster s).vu.station = s.vu.station ∧
    (applyRoster s).vu.standing = s.vu.standing ∧
    (applyRoster s).vu.retainedEpoch = s.vu.retainedEpoch ∧
    (applyRoster s).vu.unanswered = s.vu.unanswered ∧
    (applyRoster s).vu.probeTimer = s.vu.probeTimer ∧
    (applyRoster s).vu.probeDue = s.vu.probeDue ∧
    (applyRoster s).vu.admitTimer = s.vu.admitTimer ∧
    (applyRoster s).vu.admitExpired = s.vu.admitExpired ∧
    (applyRoster s).vu.leavePending = s.vu.leavePending ∧
    (applyRoster s).vu.foreign = s.vu.foreign ∧
    (applyRoster s).vu.judged = s.vu.judged ∧
    (applyRoster s).tu = s.tu ∧
    (applyRoster s).su = s.su ∧
    (applyRoster s).qu = s.qu ∧
    (applyRoster s).wu = s.wu ∧
    (applyRoster s).hp = s.hp ∧
    (applyRoster s).hostData = s.hostData ∧
    (applyRoster s).freeCount = s.freeCount ∧
    (applyRoster s).pending = s.pending := by
  generalize h : applyRoster s = t
  unfold applyRoster at h
  try dsimp only at h
  (repeat' split at h) <;> subst h <;> simp

/-- What `applyJoin` leaves as it was. -/
@[simp] theorem applyJoin_frame (n : Station) (s : State) :
    (applyJoin n s).power = s.power ∧
    (applyJoin n s).rst = s.rst ∧
    (applyJoin n s).lu.mode = s.lu.mode ∧
    (applyJoin n s).lu.driver = s.lu.driver ∧
    (applyJoin n s).lu.asserted = s.lu.asserted ∧
    (applyJoin n s).lu.idleCount = s.lu.idleCount ∧
    (applyJoin n s).lu.assertedCount = s.lu.assertedCount ∧
    (applyJoin n s).lu.stuck = s.lu.stuck ∧
    (applyJoin n s).lu.checkReg = s.lu.checkReg ∧
    (applyJoin n s).vu.foreign = s.vu.foreign ∧
    (applyJoin n s).qu.pos = s.qu.pos ∧
    (applyJoin n s).qu.entry = s.qu.entry ∧
    (applyJoin n s).qu.result = s.qu.result ∧
    (applyJoin n s).wu.pos = s.wu.pos ∧
    (applyJoin n s).wu.result = s.wu.result ∧
    (applyJoin n s).wu.linePending = s.wu.linePending ∧
    (applyJoin n s).wu.enables = s.wu.enables ∧
    (applyJoin n s).hp = s.hp ∧
    (applyJoin n s).hostData = s.hostData ∧
    (applyJoin n s).freeCount = s.freeCount ∧
    (applyJoin n s).pending = s.pending := by
  generalize h : applyJoin n s = t
  unfold applyJoin at h
  try dsimp only at h
  (repeat' split at h) <;> subst h <;> simp

/-- What `applyDrop` leaves as it was. -/
@[simp] theorem applyDrop_frame (m : Mask) (s : State) :
    (applyDrop m s).power = s.power ∧
    (applyDrop m s).rst = s.rst ∧
    (applyDrop m s).lu.mode = s.lu.mode ∧
    (applyDrop m s).lu.driver = s.lu.driver ∧
    (applyDrop m s).lu.asserted = s.lu.asserted ∧
    (applyDrop m s).lu.idleCount = s.lu.idleCount ∧
    (applyDrop m s).lu.assertedCount = s.lu.assertedCount ∧
    (applyDrop m s).lu.stuck = s.lu.stuck ∧
    (applyDrop m s).lu.checkReg = s.lu.checkReg ∧
    (applyDrop m s).vu.foreign = s.vu.foreign ∧
    (applyDrop m s).qu.pos = s.qu.pos ∧
    (applyDrop m s).qu.entry = s.qu.entry ∧
    (applyDrop m s).qu.result = s.qu.result ∧
    (applyDrop m s).wu.pos = s.wu.pos ∧
    (applyDrop m s).wu.result = s.wu.result ∧
    (applyDrop m s).wu.linePending = s.wu.linePending ∧
    (applyDrop m s).wu.enables = s.wu.enables ∧
    (applyDrop m s).hp = s.hp ∧
    (applyDrop m s).hostData = s.hostData ∧
    (applyDrop m s).freeCount = s.freeCount ∧
    (applyDrop m s).pending = s.pending := by
  generalize h : applyDrop m s = t
  unfold applyDrop at h
  try dsimp only at h
  (repeat' split at h) <;> subst h <;> simp

/-- What `applyLeaveOther` leaves as it was. -/
@[simp] theorem applyLeaveOther_frame (n : Station) (s : State) :
    (applyLeaveOther n s).power = s.power ∧
    (applyLeaveOther n s).rst = s.rst ∧
    (applyLeaveOther n s).lu.mode = s.lu.mode ∧
    (applyLeaveOther n s).lu.driver = s.lu.driver ∧
    (applyLeaveOther n s).lu.asserted = s.lu.asserted ∧
    (applyLeaveOther n s).lu.idleCount = s.lu.idleCount ∧
    (applyLeaveOther n s).lu.assertedCount = s.lu.assertedCount ∧
    (applyLeaveOther n s).lu.stuck = s.lu.stuck ∧
    (applyLeaveOther n s).lu.checkReg = s.lu.checkReg ∧
    (applyLeaveOther n s).vu.foreign = s.vu.foreign ∧
    (applyLeaveOther n s).qu.pos = s.qu.pos ∧
    (applyLeaveOther n s).qu.entry = s.qu.entry ∧
    (applyLeaveOther n s).qu.result = s.qu.result ∧
    (applyLeaveOther n s).wu.pos = s.wu.pos ∧
    (applyLeaveOther n s).wu.result = s.wu.result ∧
    (applyLeaveOther n s).wu.linePending = s.wu.linePending ∧
    (applyLeaveOther n s).wu.enables = s.wu.enables ∧
    (applyLeaveOther n s).hp = s.hp ∧
    (applyLeaveOther n s).hostData = s.hostData ∧
    (applyLeaveOther n s).freeCount = s.freeCount ∧
    (applyLeaveOther n s).pending = s.pending := by
  generalize h : applyLeaveOther n s = t
  unfold applyLeaveOther at h
  try dsimp only at h
  (repeat' split at h) <;> subst h <;> simp

/-- What `applyFrame` leaves as it was. -/
@[simp] theorem applyFrame_frame (f : Frame) (item : Option Item) (s : State) :
    (applyFrame f item s).power = s.power ∧
    (applyFrame f item s).rst = s.rst ∧
    (applyFrame f item s).lu.mode = s.lu.mode ∧
    (applyFrame f item s).lu.driver = s.lu.driver ∧
    (applyFrame f item s).lu.asserted = s.lu.asserted ∧
    (applyFrame f item s).lu.idleCount = s.lu.idleCount ∧
    (applyFrame f item s).lu.assertedCount = s.lu.assertedCount ∧
    (applyFrame f item s).lu.stuck = s.lu.stuck ∧
    (applyFrame f item s).lu.checkReg = s.lu.checkReg ∧
    (applyFrame f item s).vu.foreign = s.vu.foreign ∧
    (applyFrame f item s).qu.pos = s.qu.pos ∧
    (applyFrame f item s).qu.entry = s.qu.entry ∧
    (applyFrame f item s).qu.result = s.qu.result ∧
    (applyFrame f item s).wu.pos = s.wu.pos ∧
    (applyFrame f item s).wu.result = s.wu.result ∧
    (applyFrame f item s).wu.linePending = s.wu.linePending ∧
    (applyFrame f item s).wu.enables = s.wu.enables ∧
    (applyFrame f item s).hp = s.hp ∧
    (applyFrame f item s).hostData = s.hostData ∧
    (applyFrame f item s).freeCount = s.freeCount ∧
    (applyFrame f item s).pending = s.pending := by
  generalize h : applyFrame f item s = t
  unfold applyFrame at h
  try dsimp only at h
  (repeat' split at h) <;> subst h <;> simp

/-- What `foundView` leaves as it was. -/
@[simp] theorem foundView_frame (f : Frame) (s : State) :
    (foundView f s).power = s.power ∧
    (foundView f s).rst = s.rst ∧
    (foundView f s).lu = s.lu ∧
    (foundView f s).vu.foreign = s.vu.foreign ∧
    (foundView f s).tu.known = s.tu.known ∧
    (foundView f s).su = s.su ∧
    (foundView f s).qu = s.qu ∧
    (foundView f s).wu.pos = s.wu.pos ∧
    (foundView f s).wu.result = s.wu.result ∧
    (foundView f s).wu.linePending = s.wu.linePending ∧
    (foundView f s).wu.enables = s.wu.enables ∧
    (foundView f s).hp = s.hp ∧
    (foundView f s).hostData = s.hostData ∧
    (foundView f s).freeCount = s.freeCount ∧
    (foundView f s).pending = s.pending := by
  generalize h : foundView f s = t
  unfold foundView at h
  try dsimp only at h
  (repeat' split at h) <;> subst h <;> simp

/-- What `endOwnListening` leaves as it was. -/
@[simp] theorem endOwnListening_frame (a : Attempt) (slots : Mask) (s : State) :
    (endOwnListening a slots s).power = s.power ∧
    (endOwnListening a slots s).rst = s.rst ∧
    (endOwnListening a slots s).lu.stuck = s.lu.stuck ∧
    (endOwnListening a slots s).lu.checkReg = s.lu.checkReg ∧
    (endOwnListening a slots s).vu.foreign = s.vu.foreign ∧
    (endOwnListening a slots s).qu.pos = s.qu.pos ∧
    (endOwnListening a slots s).qu.entry = s.qu.entry ∧
    (endOwnListening a slots s).qu.result = s.qu.result ∧
    (endOwnListening a slots s).wu.pos = s.wu.pos ∧
    (endOwnListening a slots s).wu.result = s.wu.result ∧
    (endOwnListening a slots s).wu.linePending = s.wu.linePending ∧
    (endOwnListening a slots s).wu.enables = s.wu.enables ∧
    (endOwnListening a slots s).hp = s.hp ∧
    (endOwnListening a slots s).hostData = s.hostData ∧
    (endOwnListening a slots s).freeCount = s.freeCount ∧
    (endOwnListening a slots s).pending = s.pending := by
  generalize h : endOwnListening a slots s = t
  unfold endOwnListening at h
  try dsimp only at h
  (repeat' split at h) <;> subst h <;> simp

/-- What `endOwnWindow` leaves as it was. -/
@[simp] theorem endOwnWindow_frame (j : Judged) (a : Attempt) (slots : Mask) (s : State) :
    (endOwnWindow j a slots s).power = s.power ∧
    (endOwnWindow j a slots s).rst = s.rst ∧
    (endOwnWindow j a slots s).lu.stuck = s.lu.stuck ∧
    (endOwnWindow j a slots s).lu.checkReg = s.lu.checkReg ∧
    (endOwnWindow j a slots s).vu.foreign = s.vu.foreign ∧
    (endOwnWindow j a slots s).qu.pos = s.qu.pos ∧
    (endOwnWindow j a slots s).qu.entry = s.qu.entry ∧
    (endOwnWindow j a slots s).qu.result = s.qu.result ∧
    (endOwnWindow j a slots s).wu.pos = s.wu.pos ∧
    (endOwnWindow j a slots s).wu.result = s.wu.result ∧
    (endOwnWindow j a slots s).wu.linePending = s.wu.linePending ∧
    (endOwnWindow j a slots s).wu.enables = s.wu.enables ∧
    (endOwnWindow j a slots s).hp = s.hp ∧
    (endOwnWindow j a slots s).hostData = s.hostData ∧
    (endOwnWindow j a slots s).freeCount = s.freeCount ∧
    (endOwnWindow j a slots s).pending = s.pending := by
  generalize h : endOwnWindow j a slots s = t
  unfold endOwnWindow at h
  try dsimp only at h
  (repeat' split at h) <;> subst h <;> simp

/-- What `endOtherWindow` leaves as it was. -/
@[simp] theorem endOtherWindow_frame (j : Judged) (slots : Mask) (s : State) :
    (endOtherWindow j slots s).power = s.power ∧
    (endOtherWindow j slots s).rst = s.rst ∧
    (endOtherWindow j slots s).lu.mode = s.lu.mode ∧
    (endOtherWindow j slots s).lu.driver = s.lu.driver ∧
    (endOtherWindow j slots s).lu.asserted = s.lu.asserted ∧
    (endOtherWindow j slots s).lu.idleCount = s.lu.idleCount ∧
    (endOtherWindow j slots s).lu.assertedCount = s.lu.assertedCount ∧
    (endOtherWindow j slots s).lu.stuck = s.lu.stuck ∧
    (endOtherWindow j slots s).lu.checkReg = s.lu.checkReg ∧
    (endOtherWindow j slots s).vu.foreign = s.vu.foreign ∧
    (endOtherWindow j slots s).qu.pos = s.qu.pos ∧
    (endOtherWindow j slots s).qu.entry = s.qu.entry ∧
    (endOtherWindow j slots s).qu.result = s.qu.result ∧
    (endOtherWindow j slots s).wu.pos = s.wu.pos ∧
    (endOtherWindow j slots s).wu.result = s.wu.result ∧
    (endOtherWindow j slots s).wu.linePending = s.wu.linePending ∧
    (endOtherWindow j slots s).wu.enables = s.wu.enables ∧
    (endOtherWindow j slots s).hp = s.hp ∧
    (endOtherWindow j slots s).hostData = s.hostData ∧
    (endOtherWindow j slots s).freeCount = s.freeCount ∧
    (endOtherWindow j slots s).pending = s.pending := by
  generalize h : endOtherWindow j slots s = t
  unfold endOtherWindow at h
  try dsimp only at h
  (repeat' split at h) <;> subst h <;> simp

/-- What `admitStation` leaves as it was. -/
@[simp] theorem admitStation_frame (v : View) (s : State) :
    (admitStation v s).power = s.power ∧
    (admitStation v s).rst = s.rst ∧
    (admitStation v s).lu = s.lu ∧
    (admitStation v s).vu.foreign = s.vu.foreign ∧
    (admitStation v s).su = s.su ∧
    (admitStation v s).qu = s.qu ∧
    (admitStation v s).wu.watches = s.wu.watches ∧
    (admitStation v s).wu.events = s.wu.events ∧
    (admitStation v s).wu.pos = s.wu.pos ∧
    (admitStation v s).wu.result = s.wu.result ∧
    (admitStation v s).wu.linePending = s.wu.linePending ∧
    (admitStation v s).wu.enables = s.wu.enables ∧
    (admitStation v s).hp = s.hp ∧
    (admitStation v s).hostData = s.hostData ∧
    (admitStation v s).freeCount = s.freeCount ∧
    (admitStation v s).pending = s.pending := by
  generalize h : admitStation v s = t
  unfold admitStation at h
  try dsimp only at h
  (repeat' split at h) <;> subst h <;> simp

/-- What `takeExpiry` leaves as it was. -/
@[simp] theorem takeExpiry_frame  (s : State) :
    (takeExpiry s).power = s.power ∧
    (takeExpiry s).rst = s.rst ∧
    (takeExpiry s).lu = s.lu ∧
    (takeExpiry s).vu.view = s.vu.view ∧
    (takeExpiry s).vu.standing = s.vu.standing ∧
    (takeExpiry s).vu.retainedEpoch = s.vu.retainedEpoch ∧
    (takeExpiry s).vu.foreign = s.vu.foreign ∧
    (takeExpiry s).tu = s.tu ∧
    (takeExpiry s).su = s.su ∧
    (takeExpiry s).qu = s.qu ∧
    (takeExpiry s).wu.watches = s.wu.watches ∧
    (takeExpiry s).wu.events = s.wu.events ∧
    (takeExpiry s).wu.pos = s.wu.pos ∧
    (takeExpiry s).wu.result = s.wu.result ∧
    (takeExpiry s).wu.linePending = s.wu.linePending ∧
    (takeExpiry s).wu.enables = s.wu.enables ∧
    (takeExpiry s).hp = s.hp ∧
    (takeExpiry s).hostData = s.hostData ∧
    (takeExpiry s).freeCount = s.freeCount ∧
    (takeExpiry s).pending = s.pending := by
  generalize h : takeExpiry s = t
  unfold takeExpiry at h
  try dsimp only at h
  (repeat' split at h) <;> subst h <;> simp

/-- What `endAdmitting` leaves as it was. -/
@[simp] theorem endAdmitting_frame (j : Judged) (slots : Mask) (s : State) :
    (endAdmitting j slots s).power = s.power ∧
    (endAdmitting j slots s).rst = s.rst ∧
    (endAdmitting j slots s).lu = s.lu ∧
    (endAdmitting j slots s).vu.foreign = s.vu.foreign ∧
    (endAdmitting j slots s).su = s.su ∧
    (endAdmitting j slots s).qu = s.qu ∧
    (endAdmitting j slots s).wu.watches = s.wu.watches ∧
    (endAdmitting j slots s).wu.events = s.wu.events ∧
    (endAdmitting j slots s).wu.pos = s.wu.pos ∧
    (endAdmitting j slots s).wu.result = s.wu.result ∧
    (endAdmitting j slots s).wu.linePending = s.wu.linePending ∧
    (endAdmitting j slots s).wu.enables = s.wu.enables ∧
    (endAdmitting j slots s).hp = s.hp ∧
    (endAdmitting j slots s).hostData = s.hostData ∧
    (endAdmitting j slots s).freeCount = s.freeCount ∧
    (endAdmitting j slots s).pending = s.pending := by
  generalize h : endAdmitting j slots s = t
  unfold endAdmitting at h
  try dsimp only at h
  (repeat' split at h) <;> subst h <;> simp

/-- What `closeWindow` leaves as it was. -/
@[simp] theorem closeWindow_frame  (s : State) :
    (closeWindow s).power = s.power ∧
    (closeWindow s).rst = s.rst ∧
    (closeWindow s).lu.deferred = s.lu.deferred ∧
    (closeWindow s).lu.stuck = s.lu.stuck ∧
    (closeWindow s).lu.checkReg = s.lu.checkReg ∧
    (closeWindow s).vu.station = s.vu.station ∧
    (closeWindow s).vu.view = s.vu.view ∧
    (closeWindow s).vu.standing = s.vu.standing ∧
    (closeWindow s).vu.retainedEpoch = s.vu.retainedEpoch ∧
    (closeWindow s).vu.unanswered = s.vu.unanswered ∧
    (closeWindow s).vu.probeTimer = s.vu.probeTimer ∧
    (closeWindow s).vu.probeDue = s.vu.probeDue ∧
    (closeWindow s).vu.admitTimer = s.vu.admitTimer ∧
    (closeWindow s).vu.admitExpired = s.vu.admitExpired ∧
    (closeWindow s).vu.stallTimer = s.vu.stallTimer ∧
    (closeWindow s).vu.stallOwed = s.vu.stallOwed ∧
    (closeWindow s).vu.leavePending = s.vu.leavePending ∧
    (closeWindow s).vu.foreign = s.vu.foreign ∧
    (closeWindow s).tu = s.tu ∧
    (closeWindow s).su = s.su ∧
    (closeWindow s).qu = s.qu ∧
    (closeWindow s).wu = s.wu ∧
    (closeWindow s).hp = s.hp ∧
    (closeWindow s).hostData = s.hostData ∧
    (closeWindow s).freeCount = s.freeCount ∧
    (closeWindow s).pending = s.pending := by
  generalize h : closeWindow s = t
  unfold closeWindow at h
  try dsimp only at h
  (repeat' split at h) <;> subst h <;> simp

/-- What `disposeFrame` leaves as it was. -/
@[simp] theorem disposeFrame_frame (j : Judged) (slots : Mask) (s : State) :
    (disposeFrame j slots s).power = s.power ∧
    (disposeFrame j slots s).rst = s.rst ∧
    (disposeFrame j slots s).lu.stuck = s.lu.stuck ∧
    (disposeFrame j slots s).lu.checkReg = s.lu.checkReg ∧
    (disposeFrame j slots s).vu.foreign = s.vu.foreign ∧
    (disposeFrame j slots s).qu.pos = s.qu.pos ∧
    (disposeFrame j slots s).qu.entry = s.qu.entry ∧
    (disposeFrame j slots s).qu.result = s.qu.result ∧
    (disposeFrame j slots s).wu.pos = s.wu.pos ∧
    (disposeFrame j slots s).wu.result = s.wu.result ∧
    (disposeFrame j slots s).wu.linePending = s.wu.linePending ∧
    (disposeFrame j slots s).wu.enables = s.wu.enables ∧
    (disposeFrame j slots s).hp = s.hp ∧
    (disposeFrame j slots s).hostData = s.hostData ∧
    (disposeFrame j slots s).freeCount = s.freeCount ∧
    (disposeFrame j slots s).pending = s.pending := by
  generalize h : disposeFrame j slots s = t
  unfold disposeFrame at h
  try dsimp only at h
  (repeat' split at h) <;> subst h <;> simp

/-- What `windowEnd` leaves as it was. -/
@[simp] theorem windowEnd_frame (slots : Mask) (s : State) :
    (windowEnd slots s).power = s.power ∧
    (windowEnd slots s).rst = s.rst ∧
    (windowEnd slots s).lu.stuck = s.lu.stuck ∧
    (windowEnd slots s).lu.checkReg = s.lu.checkReg ∧
    (windowEnd slots s).vu.foreign = s.vu.foreign ∧
    (windowEnd slots s).qu.pos = s.qu.pos ∧
    (windowEnd slots s).qu.entry = s.qu.entry ∧
    (windowEnd slots s).qu.result = s.qu.result ∧
    (windowEnd slots s).wu.pos = s.wu.pos ∧
    (windowEnd slots s).wu.result = s.wu.result ∧
    (windowEnd slots s).wu.linePending = s.wu.linePending ∧
    (windowEnd slots s).wu.enables = s.wu.enables ∧
    (windowEnd slots s).hp = s.hp ∧
    (windowEnd slots s).hostData = s.hostData ∧
    (windowEnd slots s).freeCount = s.freeCount ∧
    (windowEnd slots s).pending = s.pending := by
  generalize h : windowEnd slots s = t
  unfold windowEnd at h
  try dsimp only at h
  (repeat' split at h) <;> subst h <;> simp

/-- What `windowEndOf` leaves as it was. -/
@[simp] theorem windowEndOf_frame (kind : Judged → Bool) (slots : Mask) (s : State) :
    (windowEndOf kind slots s).power = s.power ∧
    (windowEndOf kind slots s).rst = s.rst ∧
    (windowEndOf kind slots s).lu.stuck = s.lu.stuck ∧
    (windowEndOf kind slots s).lu.checkReg = s.lu.checkReg ∧
    (windowEndOf kind slots s).vu.foreign = s.vu.foreign ∧
    (windowEndOf kind slots s).qu.pos = s.qu.pos ∧
    (windowEndOf kind slots s).qu.entry = s.qu.entry ∧
    (windowEndOf kind slots s).qu.result = s.qu.result ∧
    (windowEndOf kind slots s).wu.pos = s.wu.pos ∧
    (windowEndOf kind slots s).wu.result = s.wu.result ∧
    (windowEndOf kind slots s).wu.linePending = s.wu.linePending ∧
    (windowEndOf kind slots s).wu.enables = s.wu.enables ∧
    (windowEndOf kind slots s).hp = s.hp ∧
    (windowEndOf kind slots s).hostData = s.hostData ∧
    (windowEndOf kind slots s).freeCount = s.freeCount ∧
    (windowEndOf kind slots s).pending = s.pending := by
  generalize h : windowEndOf kind slots s = t
  unfold windowEndOf at h
  try dsimp only at h
  (repeat' split at h) <;> subst h <;> simp

/-- What `faultOwn` leaves as it was. -/
@[simp] theorem faultOwn_frame (j : Judged) (asserted : Bool) (s : State) :
    (faultOwn j asserted s).power = s.power ∧
    (faultOwn j asserted s).rst = s.rst ∧
    (faultOwn j asserted s).lu.stuck = s.lu.stuck ∧
    (faultOwn j asserted s).lu.checkReg = s.lu.checkReg ∧
    (faultOwn j asserted s).vu.foreign = s.vu.foreign ∧
    (faultOwn j asserted s).qu.pos = s.qu.pos ∧
    (faultOwn j asserted s).qu.entry = s.qu.entry ∧
    (faultOwn j asserted s).qu.result = s.qu.result ∧
    (faultOwn j asserted s).wu.pos = s.wu.pos ∧
    (faultOwn j asserted s).wu.result = s.wu.result ∧
    (faultOwn j asserted s).wu.linePending = s.wu.linePending ∧
    (faultOwn j asserted s).wu.enables = s.wu.enables ∧
    (faultOwn j asserted s).hp = s.hp ∧
    (faultOwn j asserted s).hostData = s.hostData ∧
    (faultOwn j asserted s).freeCount = s.freeCount ∧
    (faultOwn j asserted s).pending = s.pending := by
  generalize h : faultOwn j asserted s = t
  unfold faultOwn at h
  try dsimp only at h
  (repeat' split at h) <;> subst h <;> simp

/-- What `faultOther` leaves as it was. -/
@[simp] theorem faultOther_frame (j : Judged) (asserted : Bool) (s : State) :
    (faultOther j asserted s).power = s.power ∧
    (faultOther j asserted s).rst = s.rst ∧
    (faultOther j asserted s).lu.mode = s.lu.mode ∧
    (faultOther j asserted s).lu.driver = s.lu.driver ∧
    (faultOther j asserted s).lu.asserted = s.lu.asserted ∧
    (faultOther j asserted s).lu.idleCount = s.lu.idleCount ∧
    (faultOther j asserted s).lu.assertedCount = s.lu.assertedCount ∧
    (faultOther j asserted s).lu.stuck = s.lu.stuck ∧
    (faultOther j asserted s).lu.checkReg = s.lu.checkReg ∧
    (faultOther j asserted s).vu.foreign = s.vu.foreign ∧
    (faultOther j asserted s).qu.pos = s.qu.pos ∧
    (faultOther j asserted s).qu.entry = s.qu.entry ∧
    (faultOther j asserted s).qu.result = s.qu.result ∧
    (faultOther j asserted s).wu.pos = s.wu.pos ∧
    (faultOther j asserted s).wu.result = s.wu.result ∧
    (faultOther j asserted s).wu.linePending = s.wu.linePending ∧
    (faultOther j asserted s).wu.enables = s.wu.enables ∧
    (faultOther j asserted s).hp = s.hp ∧
    (faultOther j asserted s).hostData = s.hostData ∧
    (faultOther j asserted s).freeCount = s.freeCount ∧
    (faultOther j asserted s).pending = s.pending := by
  generalize h : faultOther j asserted s = t
  unfold faultOther at h
  try dsimp only at h
  (repeat' split at h) <;> subst h <;> simp

/-- What `disposeFault` leaves as it was. -/
@[simp] theorem disposeFault_frame (j : Judged) (asserted : Bool) (s : State) :
    (disposeFault j asserted s).power = s.power ∧
    (disposeFault j asserted s).rst = s.rst ∧
    (disposeFault j asserted s).lu.stuck = s.lu.stuck ∧
    (disposeFault j asserted s).lu.checkReg = s.lu.checkReg ∧
    (disposeFault j asserted s).vu.foreign = s.vu.foreign ∧
    (disposeFault j asserted s).qu.pos = s.qu.pos ∧
    (disposeFault j asserted s).qu.entry = s.qu.entry ∧
    (disposeFault j asserted s).qu.result = s.qu.result ∧
    (disposeFault j asserted s).wu.pos = s.wu.pos ∧
    (disposeFault j asserted s).wu.result = s.wu.result ∧
    (disposeFault j asserted s).wu.linePending = s.wu.linePending ∧
    (disposeFault j asserted s).wu.enables = s.wu.enables ∧
    (disposeFault j asserted s).hp = s.hp ∧
    (disposeFault j asserted s).hostData = s.hostData ∧
    (disposeFault j asserted s).freeCount = s.freeCount ∧
    (disposeFault j asserted s).pending = s.pending := by
  generalize h : disposeFault j asserted s = t
  unfold disposeFault at h
  try dsimp only at h
  (repeat' split at h) <;> subst h <;> simp

/-- What `windowFault` leaves as it was. -/
@[simp] theorem windowFault_frame (slot : Station) (inData : Bool) (s : State) :
    (windowFault slot inData s).power = s.power ∧
    (windowFault slot inData s).rst = s.rst ∧
    (windowFault slot inData s).lu.stuck = s.lu.stuck ∧
    (windowFault slot inData s).lu.checkReg = s.lu.checkReg ∧
    (windowFault slot inData s).vu.foreign = s.vu.foreign ∧
    (windowFault slot inData s).qu.pos = s.qu.pos ∧
    (windowFault slot inData s).qu.entry = s.qu.entry ∧
    (windowFault slot inData s).qu.result = s.qu.result ∧
    (windowFault slot inData s).wu.pos = s.wu.pos ∧
    (windowFault slot inData s).wu.result = s.wu.result ∧
    (windowFault slot inData s).wu.linePending = s.wu.linePending ∧
    (windowFault slot inData s).wu.enables = s.wu.enables ∧
    (windowFault slot inData s).hp = s.hp ∧
    (windowFault slot inData s).hostData = s.hostData ∧
    (windowFault slot inData s).freeCount = s.freeCount ∧
    (windowFault slot inData s).pending = s.pending := by
  generalize h : windowFault slot inData s = t
  unfold windowFault at h
  try dsimp only at h
  (repeat' split at h) <;> subst h <;> simp

/-- What `frameCheck` leaves as it was. -/
@[simp] theorem frameCheck_frame (bits : List Bool) (s : State) :
    (frameCheck bits s).power = s.power ∧
    (frameCheck bits s).rst = s.rst ∧
    (frameCheck bits s).lu.deferred = s.lu.deferred ∧
    (frameCheck bits s).lu.stuck = s.lu.stuck ∧
    (frameCheck bits s).vu.station = s.vu.station ∧
    (frameCheck bits s).vu.view = s.vu.view ∧
    (frameCheck bits s).vu.standing = s.vu.standing ∧
    (frameCheck bits s).vu.retainedEpoch = s.vu.retainedEpoch ∧
    (frameCheck bits s).vu.admitTimer = s.vu.admitTimer ∧
    (frameCheck bits s).vu.admitExpired = s.vu.admitExpired ∧
    (frameCheck bits s).vu.stallTimer = s.vu.stallTimer ∧
    (frameCheck bits s).vu.stallOwed = s.vu.stallOwed ∧
    (frameCheck bits s).vu.leavePending = s.vu.leavePending ∧
    (frameCheck bits s).tu = s.tu ∧
    (frameCheck bits s).su.attempt = s.su.attempt ∧
    (frameCheck bits s).qu = s.qu ∧
    (frameCheck bits s).wu.watches = s.wu.watches ∧
    (frameCheck bits s).wu.events = s.wu.events ∧
    (frameCheck bits s).wu.pos = s.wu.pos ∧
    (frameCheck bits s).wu.result = s.wu.result ∧
    (frameCheck bits s).wu.statePending = s.wu.statePending ∧
    (frameCheck bits s).wu.enables = s.wu.enables ∧
    (frameCheck bits s).hp = s.hp ∧
    (frameCheck bits s).hostData = s.hostData ∧
    (frameCheck bits s).freeCount = s.freeCount ∧
    (frameCheck bits s).pending = s.pending := by
  generalize h : frameCheck bits s = t
  unfold frameCheck at h
  try dsimp only at h
  (repeat' split at h) <;> subst h <;> simp

/-- What `startOffered` leaves as it was. -/
@[simp] theorem startOffered_frame  (s : State) :
    (startOffered s).power = s.power ∧
    (startOffered s).rst = s.rst ∧
    (startOffered s).lu.deferred = s.lu.deferred ∧
    (startOffered s).lu.stuck = s.lu.stuck ∧
    (startOffered s).vu = s.vu ∧
    (startOffered s).tu = s.tu ∧
    (startOffered s).su.owedDrop = s.su.owedDrop ∧
    (startOffered s).su.dropRec = s.su.dropRec ∧
    (startOffered s).su.rosterRec = s.su.rosterRec ∧
    (startOffered s).su.transferRec = s.su.transferRec ∧
    (startOffered s).su.leaveRec = s.su.leaveRec ∧
    (startOffered s).su.foundRec = s.su.foundRec ∧
    (startOffered s).su.stallRec = s.su.stallRec ∧
    (startOffered s).qu.completions = s.qu.completions ∧
    (startOffered s).qu.pos = s.qu.pos ∧
    (startOffered s).qu.entry = s.qu.entry ∧
    (startOffered s).qu.result = s.qu.result ∧
    (startOffered s).wu = s.wu ∧
    (startOffered s).hp = s.hp ∧
    (startOffered s).hostData = s.hostData ∧
    (startOffered s).freeCount = s.freeCount ∧
    (startOffered s).pending = s.pending := by
  generalize h : startOffered s = t
  unfold startOffered at h
  try dsimp only at h
  (repeat' split at h) <;> subst h <;> simp

/-- What `lineIdle` leaves as it was. -/
@[simp] theorem lineIdle_frame  (s : State) :
    (lineIdle s).power = s.power ∧
    (lineIdle s).rst = s.rst ∧
    (lineIdle s).lu.driver = s.lu.driver ∧
    (lineIdle s).lu.deferred = s.lu.deferred ∧
    (lineIdle s).lu.stuck = s.lu.stuck ∧
    (lineIdle s).lu.checkReg = s.lu.checkReg ∧
    (lineIdle s).vu = s.vu ∧
    (lineIdle s).tu = s.tu ∧
    (lineIdle s).su = s.su ∧
    (lineIdle s).qu = s.qu ∧
    (lineIdle s).wu = s.wu ∧
    (lineIdle s).hp = s.hp ∧
    (lineIdle s).hostData = s.hostData ∧
    (lineIdle s).freeCount = s.freeCount ∧
    (lineIdle s).pending = s.pending := by
  generalize h : lineIdle s = t
  unfold lineIdle at h
  try dsimp only at h
  (repeat' split at h) <;> subst h <;> simp

/-- What `deferredClear` leaves as it was. -/
@[simp] theorem deferredClear_frame  (s : State) :
    (deferredClear s).power = s.power ∧
    (deferredClear s).rst = s.rst ∧
    (deferredClear s).lu.stuck = s.lu.stuck ∧
    (deferredClear s).vu = s.vu ∧
    (deferredClear s).tu = s.tu ∧
    (deferredClear s).qu.completions = s.qu.completions ∧
    (deferredClear s).qu.pos = s.qu.pos ∧
    (deferredClear s).qu.entry = s.qu.entry ∧
    (deferredClear s).qu.result = s.qu.result ∧
    (deferredClear s).wu = s.wu ∧
    (deferredClear s).hp = s.hp ∧
    (deferredClear s).hostData = s.hostData ∧
    (deferredClear s).freeCount = s.freeCount ∧
    (deferredClear s).pending = s.pending := by
  generalize h : deferredClear s = t
  unfold deferredClear at h
  try dsimp only at h
  (repeat' split at h) <;> subst h <;> simp

/-- What `otherStarts` leaves as it was. -/
@[simp] theorem otherStarts_frame  (s : State) :
    (otherStarts s).power = s.power ∧
    (otherStarts s).rst = s.rst ∧
    (otherStarts s).lu.driver = s.lu.driver ∧
    (otherStarts s).lu.deferred = s.lu.deferred ∧
    (otherStarts s).lu.stuck = s.lu.stuck ∧
    (otherStarts s).vu = s.vu ∧
    (otherStarts s).tu = s.tu ∧
    (otherStarts s).su = s.su ∧
    (otherStarts s).qu = s.qu ∧
    (otherStarts s).wu = s.wu ∧
    (otherStarts s).hp = s.hp ∧
    (otherStarts s).hostData = s.hostData ∧
    (otherStarts s).freeCount = s.freeCount ∧
    (otherStarts s).pending = s.pending := by
  generalize h : otherStarts s = t
  unfold otherStarts at h
  try dsimp only at h
  (repeat' split at h) <;> subst h <;> simp

/-- What `loseArbitration` leaves as it was. -/
@[simp] theorem loseArbitration_frame  (s : State) :
    (loseArbitration s).power = s.power ∧
    (loseArbitration s).rst = s.rst ∧
    (loseArbitration s).lu.asserted = s.lu.asserted ∧
    (loseArbitration s).lu.idleCount = s.lu.idleCount ∧
    (loseArbitration s).lu.assertedCount = s.lu.assertedCount ∧
    (loseArbitration s).lu.deferred = s.lu.deferred ∧
    (loseArbitration s).lu.stuck = s.lu.stuck ∧
    (loseArbitration s).lu.checkReg = s.lu.checkReg ∧
    (loseArbitration s).vu = s.vu ∧
    (loseArbitration s).tu = s.tu ∧
    (loseArbitration s).qu.pos = s.qu.pos ∧
    (loseArbitration s).qu.entry = s.qu.entry ∧
    (loseArbitration s).qu.result = s.qu.result ∧
    (loseArbitration s).wu = s.wu ∧
    (loseArbitration s).hp = s.hp ∧
    (loseArbitration s).hostData = s.hostData ∧
    (loseArbitration s).freeCount = s.freeCount ∧
    (loseArbitration s).pending = s.pending := by
  generalize h : loseArbitration s = t
  unfold loseArbitration at h
  try dsimp only at h
  (repeat' split at h) <;> subst h <;> simp

/-- What `readBackFault` leaves as it was. -/
@[simp] theorem readBackFault_frame (slot : Station) (inData : Bool) (level : LineLevel) (s : State) :
    (readBackFault slot inData level s).power = s.power ∧
    (readBackFault slot inData level s).rst = s.rst ∧
    (readBackFault slot inData level s).lu.stuck = s.lu.stuck ∧
    (readBackFault slot inData level s).lu.checkReg = s.lu.checkReg ∧
    (readBackFault slot inData level s).vu.foreign = s.vu.foreign ∧
    (readBackFault slot inData level s).qu.pos = s.qu.pos ∧
    (readBackFault slot inData level s).qu.entry = s.qu.entry ∧
    (readBackFault slot inData level s).qu.result = s.qu.result ∧
    (readBackFault slot inData level s).wu.pos = s.wu.pos ∧
    (readBackFault slot inData level s).wu.result = s.wu.result ∧
    (readBackFault slot inData level s).wu.linePending = s.wu.linePending ∧
    (readBackFault slot inData level s).wu.enables = s.wu.enables ∧
    (readBackFault slot inData level s).hp = s.hp ∧
    (readBackFault slot inData level s).hostData = s.hostData ∧
    (readBackFault slot inData level s).freeCount = s.freeCount ∧
    (readBackFault slot inData level s).pending = s.pending := by
  generalize h : readBackFault slot inData level s = t
  unfold readBackFault at h
  try dsimp only at h
  (repeat' split at h) <;> subst h <;> simp

/-- What `frameLost` leaves as it was. -/
@[simp] theorem frameLost_frame (cause : LossCause) (s : State) :
    (frameLost cause s).power = s.power ∧
    (frameLost cause s).rst = s.rst ∧
    (frameLost cause s).lu.deferred = s.lu.deferred ∧
    (frameLost cause s).lu.stuck = s.lu.stuck ∧
    (frameLost cause s).vu = s.vu ∧
    (frameLost cause s).tu = s.tu ∧
    (frameLost cause s).su = s.su ∧
    (frameLost cause s).qu = s.qu ∧
    (frameLost cause s).wu = s.wu ∧
    (frameLost cause s).hp = s.hp ∧
    (frameLost cause s).hostData = s.hostData ∧
    (frameLost cause s).freeCount = s.freeCount ∧
    (frameLost cause s).pending = s.pending := by
  generalize h : frameLost cause s = t
  unfold frameLost at h
  try dsimp only at h
  (repeat' split at h) <;> subst h <;> simp

/-- A coding fault leaves the check register as it stands (log entry 22). -/
@[simp] theorem frameLost_codingFault_checkReg (s : State) : (frameLost .codingFault s).lu.checkReg = s.lu.checkReg := by
  unfold frameLost loseLine
  split <;> simp

/-- What `abandonFrame` leaves as it was. -/
@[simp] theorem abandonFrame_frame (slot : Station) (inData : Bool) (s : State) :
    (abandonFrame slot inData s).power = s.power ∧
    (abandonFrame slot inData s).rst = s.rst ∧
    (abandonFrame slot inData s).lu.stuck = s.lu.stuck ∧
    (abandonFrame slot inData s).lu.checkReg = s.lu.checkReg ∧
    (abandonFrame slot inData s).vu.foreign = s.vu.foreign ∧
    (abandonFrame slot inData s).qu.pos = s.qu.pos ∧
    (abandonFrame slot inData s).qu.entry = s.qu.entry ∧
    (abandonFrame slot inData s).qu.result = s.qu.result ∧
    (abandonFrame slot inData s).wu.pos = s.wu.pos ∧
    (abandonFrame slot inData s).wu.result = s.wu.result ∧
    (abandonFrame slot inData s).wu.linePending = s.wu.linePending ∧
    (abandonFrame slot inData s).wu.enables = s.wu.enables ∧
    (abandonFrame slot inData s).hp = s.hp ∧
    (abandonFrame slot inData s).hostData = s.hostData ∧
    (abandonFrame slot inData s).freeCount = s.freeCount ∧
    (abandonFrame slot inData s).pending = s.pending := by
  generalize h : abandonFrame slot inData s = t
  unfold abandonFrame at h
  try dsimp only at h
  (repeat' split at h) <;> subst h <;> simp

/-- What `lineSticks` leaves as it was. -/
@[simp] theorem lineSticks_frame (slot : Station) (inData : Bool) (s : State) :
    (lineSticks slot inData s).power = s.power ∧
    (lineSticks slot inData s).rst = s.rst ∧
    (lineSticks slot inData s).lu.checkReg = s.lu.checkReg ∧
    (lineSticks slot inData s).vu.foreign = s.vu.foreign ∧
    (lineSticks slot inData s).qu.pos = s.qu.pos ∧
    (lineSticks slot inData s).qu.entry = s.qu.entry ∧
    (lineSticks slot inData s).qu.result = s.qu.result ∧
    (lineSticks slot inData s).wu.pos = s.wu.pos ∧
    (lineSticks slot inData s).wu.result = s.wu.result ∧
    (lineSticks slot inData s).wu.enables = s.wu.enables ∧
    (lineSticks slot inData s).hp = s.hp ∧
    (lineSticks slot inData s).hostData = s.hostData ∧
    (lineSticks slot inData s).freeCount = s.freeCount ∧
    (lineSticks slot inData s).pending = s.pending := by
  generalize h : lineSticks slot inData s = t
  unfold lineSticks at h
  try dsimp only at h
  (repeat' split at h) <;> subst h <;> simp

/-- What `stuckEnds` leaves as it was. -/
@[simp] theorem stuckEnds_frame  (s : State) :
    (stuckEnds s).power = s.power ∧
    (stuckEnds s).rst = s.rst ∧
    (stuckEnds s).lu.mode = s.lu.mode ∧
    (stuckEnds s).lu.driver = s.lu.driver ∧
    (stuckEnds s).lu.deferred = s.lu.deferred ∧
    (stuckEnds s).lu.checkReg = s.lu.checkReg ∧
    (stuckEnds s).vu = s.vu ∧
    (stuckEnds s).tu = s.tu ∧
    (stuckEnds s).su = s.su ∧
    (stuckEnds s).qu = s.qu ∧
    (stuckEnds s).wu = s.wu ∧
    (stuckEnds s).hp = s.hp ∧
    (stuckEnds s).hostData = s.hostData ∧
    (stuckEnds s).freeCount = s.freeCount ∧
    (stuckEnds s).pending = s.pending := by
  generalize h : stuckEnds s = t
  unfold stuckEnds at h
  try dsimp only at h
  (repeat' split at h) <;> subst h <;> simp

/-- What `probeExpires` leaves as it was. -/
@[simp] theorem probeExpires_frame  (s : State) :
    (probeExpires s).power = s.power ∧
    (probeExpires s).rst = s.rst ∧
    (probeExpires s).lu = s.lu ∧
    (probeExpires s).vu.station = s.vu.station ∧
    (probeExpires s).vu.view = s.vu.view ∧
    (probeExpires s).vu.standing = s.vu.standing ∧
    (probeExpires s).vu.retainedEpoch = s.vu.retainedEpoch ∧
    (probeExpires s).vu.unanswered = s.vu.unanswered ∧
    (probeExpires s).vu.admitTimer = s.vu.admitTimer ∧
    (probeExpires s).vu.admitExpired = s.vu.admitExpired ∧
    (probeExpires s).vu.stallTimer = s.vu.stallTimer ∧
    (probeExpires s).vu.stallOwed = s.vu.stallOwed ∧
    (probeExpires s).vu.leavePending = s.vu.leavePending ∧
    (probeExpires s).vu.foreign = s.vu.foreign ∧
    (probeExpires s).vu.judged = s.vu.judged ∧
    (probeExpires s).tu = s.tu ∧
    (probeExpires s).su.attempt = s.su.attempt ∧
    (probeExpires s).qu = s.qu ∧
    (probeExpires s).wu = s.wu ∧
    (probeExpires s).hp = s.hp ∧
    (probeExpires s).hostData = s.hostData ∧
    (probeExpires s).freeCount = s.freeCount ∧
    (probeExpires s).pending = s.pending := by
  generalize h : probeExpires s = t
  unfold probeExpires at h
  try dsimp only at h
  (repeat' split at h) <;> subst h <;> simp

/-- What `admitExpires` leaves as it was. -/
@[simp] theorem admitExpires_frame  (s : State) :
    (admitExpires s).power = s.power ∧
    (admitExpires s).rst = s.rst ∧
    (admitExpires s).lu = s.lu ∧
    (admitExpires s).vu.view = s.vu.view ∧
    (admitExpires s).vu.standing = s.vu.standing ∧
    (admitExpires s).vu.retainedEpoch = s.vu.retainedEpoch ∧
    (admitExpires s).vu.foreign = s.vu.foreign ∧
    (admitExpires s).tu = s.tu ∧
    (admitExpires s).su.attempt = s.su.attempt ∧
    (admitExpires s).qu = s.qu ∧
    (admitExpires s).wu.watches = s.wu.watches ∧
    (admitExpires s).wu.events = s.wu.events ∧
    (admitExpires s).wu.pos = s.wu.pos ∧
    (admitExpires s).wu.result = s.wu.result ∧
    (admitExpires s).wu.linePending = s.wu.linePending ∧
    (admitExpires s).wu.enables = s.wu.enables ∧
    (admitExpires s).hp = s.hp ∧
    (admitExpires s).hostData = s.hostData ∧
    (admitExpires s).freeCount = s.freeCount ∧
    (admitExpires s).pending = s.pending := by
  generalize h : admitExpires s = t
  unfold admitExpires at h
  try dsimp only at h
  (repeat' split at h) <;> subst h <;> simp

/-- What `stallExpires` leaves as it was. -/
@[simp] theorem stallExpires_frame  (s : State) :
    (stallExpires s).power = s.power ∧
    (stallExpires s).rst = s.rst ∧
    (stallExpires s).lu = s.lu ∧
    (stallExpires s).vu.station = s.vu.station ∧
    (stallExpires s).vu.view = s.vu.view ∧
    (stallExpires s).vu.standing = s.vu.standing ∧
    (stallExpires s).vu.retainedEpoch = s.vu.retainedEpoch ∧
    (stallExpires s).vu.unanswered = s.vu.unanswered ∧
    (stallExpires s).vu.probeTimer = s.vu.probeTimer ∧
    (stallExpires s).vu.probeDue = s.vu.probeDue ∧
    (stallExpires s).vu.admitTimer = s.vu.admitTimer ∧
    (stallExpires s).vu.admitExpired = s.vu.admitExpired ∧
    (stallExpires s).vu.leavePending = s.vu.leavePending ∧
    (stallExpires s).vu.foreign = s.vu.foreign ∧
    (stallExpires s).vu.judged = s.vu.judged ∧
    (stallExpires s).tu = s.tu ∧
    (stallExpires s).su.attempt = s.su.attempt ∧
    (stallExpires s).qu = s.qu ∧
    (stallExpires s).wu = s.wu ∧
    (stallExpires s).hp = s.hp ∧
    (stallExpires s).hostData = s.hostData ∧
    (stallExpires s).freeCount = s.freeCount ∧
    (stallExpires s).pending = s.pending := by
  generalize h : stallExpires s = t
  unfold stallExpires at h
  try dsimp only at h
  (repeat' split at h) <;> subst h <;> simp

/-- What `restTick` leaves as it was. -/
@[simp] theorem restTick_frame  (s : State) :
    (restTick s).power = s.power ∧
    (restTick s).rst = s.rst ∧
    (restTick s).lu.stuck = s.lu.stuck ∧
    (restTick s).vu = s.vu ∧
    (restTick s).tu = s.tu ∧
    (restTick s).qu.completions = s.qu.completions ∧
    (restTick s).qu.pos = s.qu.pos ∧
    (restTick s).qu.entry = s.qu.entry ∧
    (restTick s).qu.result = s.qu.result ∧
    (restTick s).wu = s.wu ∧
    (restTick s).hp = s.hp ∧
    (restTick s).hostData = s.hostData ∧
    (restTick s).freeCount = s.freeCount ∧
    (restTick s).pending = s.pending := by
  generalize h : restTick s = t
  unfold restTick at h
  try dsimp only at h
  (repeat' split at h) <;> subst h <;> simp

/-- What `gapTick` leaves as it was. -/
@[simp] theorem gapTick_frame  (s : State) :
    (gapTick s).power = s.power ∧
    (gapTick s).rst = s.rst ∧
    (gapTick s).lu.stuck = s.lu.stuck ∧
    (gapTick s).vu = s.vu ∧
    (gapTick s).tu = s.tu ∧
    (gapTick s).qu.completions = s.qu.completions ∧
    (gapTick s).qu.pos = s.qu.pos ∧
    (gapTick s).qu.entry = s.qu.entry ∧
    (gapTick s).qu.result = s.qu.result ∧
    (gapTick s).wu = s.wu ∧
    (gapTick s).hp = s.hp ∧
    (gapTick s).hostData = s.hostData ∧
    (gapTick s).freeCount = s.freeCount ∧
    (gapTick s).pending = s.pending := by
  generalize h : gapTick s = t
  unfold gapTick at h
  try dsimp only at h
  (repeat' split at h) <;> subst h <;> simp

/-- What `assertedTick` leaves as it was. -/
@[simp] theorem assertedTick_frame (slot : Station) (inData : Bool) (s : State) :
    (assertedTick slot inData s).power = s.power ∧
    (assertedTick slot inData s).rst = s.rst ∧
    (assertedTick slot inData s).lu.checkReg = s.lu.checkReg ∧
    (assertedTick slot inData s).vu.foreign = s.vu.foreign ∧
    (assertedTick slot inData s).qu.pos = s.qu.pos ∧
    (assertedTick slot inData s).qu.entry = s.qu.entry ∧
    (assertedTick slot inData s).qu.result = s.qu.result ∧
    (assertedTick slot inData s).wu.pos = s.wu.pos ∧
    (assertedTick slot inData s).wu.result = s.wu.result ∧
    (assertedTick slot inData s).wu.enables = s.wu.enables ∧
    (assertedTick slot inData s).hp = s.hp ∧
    (assertedTick slot inData s).hostData = s.hostData ∧
    (assertedTick slot inData s).freeCount = s.freeCount ∧
    (assertedTick slot inData s).pending = s.pending := by
  generalize h : assertedTick slot inData s = t
  unfold assertedTick at h
  try dsimp only at h
  (repeat' split at h) <;> subst h <;> simp

/-- What `mixedTick` leaves as it was. -/
@[simp] theorem mixedTick_frame (s : State) :
    mixedTick s = s.setLu { s.lu with idleCount := 0, assertedCount := 0 } := rfl

/-- What `busyTick` leaves as it was. -/
@[simp] theorem busyTick_frame  (s : State) :
    (busyTick s).power = s.power ∧
    (busyTick s).rst = s.rst ∧
    (busyTick s).vu.foreign = s.vu.foreign ∧
    (busyTick s).qu.pos = s.qu.pos ∧
    (busyTick s).qu.entry = s.qu.entry ∧
    (busyTick s).qu.result = s.qu.result ∧
    (busyTick s).wu.pos = s.wu.pos ∧
    (busyTick s).wu.result = s.wu.result ∧
    (busyTick s).wu.enables = s.wu.enables ∧
    (busyTick s).hp = s.hp ∧
    (busyTick s).hostData = s.hostData ∧
    (busyTick s).pending = s.pending := by
  generalize h : busyTick s = t
  unfold busyTick at h
  try dsimp only at h
  (repeat' split at h) <;> subst h <;> simp

/-- What `passBit` leaves as it was: all but the place in the frame, the check register and the count of free values. -/
@[simp] theorem passBit_frame (s : State) :
    (passBit s).power = s.power ∧ (passBit s).rst = s.rst ∧ (passBit s).vu = s.vu ∧ (passBit s).tu = s.tu ∧
    (passBit s).su = s.su ∧ (passBit s).qu = s.qu ∧ (passBit s).wu = s.wu ∧ (passBit s).hp = s.hp ∧
    (passBit s).hostData = s.hostData ∧ (passBit s).pending = s.pending ∧ (passBit s).lu.mode = s.lu.mode ∧
    (passBit s).lu.driver = s.lu.driver ∧ (passBit s).lu.asserted = s.lu.asserted ∧
    (passBit s).lu.idleCount = s.lu.idleCount ∧ (passBit s).lu.assertedCount = s.lu.assertedCount ∧
    (passBit s).lu.deferred = s.lu.deferred ∧ (passBit s).lu.stuck = s.lu.stuck := by
  and_intros <;> rfl

/-- A transmitted bit of 0 shows an asserted bit time and one of 1 both levels (R44). -/
@[simp] theorem bitTimeOf_eq (b : Bool) : bitTimeOf b = if b then .mixed else .asserted := by
  cases b <;> decide

/-- What `frameTick` leaves as it was. -/
@[simp] theorem frameTick_frame  (s : State) :
    (frameTick s).power = s.power ∧
    (frameTick s).rst = s.rst ∧
    (frameTick s).vu.foreign = s.vu.foreign ∧
    (frameTick s).qu.pos = s.qu.pos ∧
    (frameTick s).qu.entry = s.qu.entry ∧
    (frameTick s).qu.result = s.qu.result ∧
    (frameTick s).wu.pos = s.wu.pos ∧
    (frameTick s).wu.result = s.wu.result ∧
    (frameTick s).wu.enables = s.wu.enables ∧
    (frameTick s).hp = s.hp ∧
    (frameTick s).hostData = s.hostData ∧
    (frameTick s).pending = s.pending := by
  generalize h : frameTick s = t
  unfold frameTick at h
  try dsimp only at h
  (repeat' split at h) <;> subst h <;> simp

/-- What `lineTick` leaves as it was. -/
@[simp] theorem lineTick_frame  (s : State) :
    (lineTick s).power = s.power ∧
    (lineTick s).rst = s.rst ∧
    (lineTick s).vu.foreign = s.vu.foreign ∧
    (lineTick s).qu.pos = s.qu.pos ∧
    (lineTick s).qu.entry = s.qu.entry ∧
    (lineTick s).qu.result = s.qu.result ∧
    (lineTick s).wu.pos = s.wu.pos ∧
    (lineTick s).wu.result = s.wu.result ∧
    (lineTick s).wu.enables = s.wu.enables ∧
    (lineTick s).hp = s.hp ∧
    (lineTick s).hostData = s.hostData ∧
    (lineTick s).pending = s.pending := by
  generalize h : lineTick s = t
  unfold lineTick at h
  try dsimp only at h
  (repeat' split at h) <;> subst h <;> simp

/-- What `timerTick` leaves as it was. -/
@[simp] theorem timerTick_frame (before : Vu) (s : State) :
    (timerTick before s).power = s.power ∧
    (timerTick before s).rst = s.rst ∧
    (timerTick before s).lu = s.lu ∧
    (timerTick before s).vu.view = s.vu.view ∧
    (timerTick before s).vu.standing = s.vu.standing ∧
    (timerTick before s).vu.retainedEpoch = s.vu.retainedEpoch ∧
    (timerTick before s).vu.foreign = s.vu.foreign ∧
    (timerTick before s).tu = s.tu ∧
    (timerTick before s).su.attempt = s.su.attempt ∧
    (timerTick before s).qu = s.qu ∧
    (timerTick before s).wu.watches = s.wu.watches ∧
    (timerTick before s).wu.events = s.wu.events ∧
    (timerTick before s).wu.pos = s.wu.pos ∧
    (timerTick before s).wu.result = s.wu.result ∧
    (timerTick before s).wu.linePending = s.wu.linePending ∧
    (timerTick before s).wu.enables = s.wu.enables ∧
    (timerTick before s).hp = s.hp ∧
    (timerTick before s).hostData = s.hostData ∧
    (timerTick before s).freeCount = s.freeCount ∧
    (timerTick before s).pending = s.pending := by
  generalize h : timerTick before s = t
  unfold timerTick countDown at h
  dsimp only at h
  (repeat' split at h) <;> subst h <;> simp

/-- What `tick` leaves as it was. -/
@[simp] theorem tick_frame  (s : State) :
    (tick s).power = s.power ∧
    (tick s).rst = s.rst ∧
    (tick s).vu.foreign = s.vu.foreign ∧
    (tick s).qu.pos = s.qu.pos ∧
    (tick s).qu.entry = s.qu.entry ∧
    (tick s).qu.result = s.qu.result ∧
    (tick s).wu.pos = s.wu.pos ∧
    (tick s).wu.result = s.wu.result ∧
    (tick s).wu.enables = s.wu.enables ∧
    (tick s).hp = s.hp ∧
    (tick s).hostData = s.hostData ∧
    (tick s).pending = s.pending := by
  generalize h : tick s = t
  unfold tick at h
  try dsimp only at h
  (repeat' split at h) <;> subst h <;> simp

end Sys2Proof.Machine
end

