-- ==== Sys2Proof/Laws/FramesHost.lean ====
section
/-! SUPPORT. What each operation of the host port and of the resets leaves as it was. -/

namespace Sys2Proof.Machine

/-- What `judgeCancel` leaves as it was. -/
@[simp] theorem judgeCancel_frame (tag : Byte) (s : State) :
    (judgeCancel tag s).2.power = s.power ∧
    (judgeCancel tag s).2.rst = s.rst ∧
    (judgeCancel tag s).2.lu = s.lu ∧
    (judgeCancel tag s).2.vu = s.vu ∧
    (judgeCancel tag s).2.tu = s.tu ∧
    (judgeCancel tag s).2.su = s.su ∧
    (judgeCancel tag s).2.wu = s.wu ∧
    (judgeCancel tag s).2.hp = s.hp ∧
    (judgeCancel tag s).2.hostData = s.hostData ∧
    (judgeCancel tag s).2.freeCount = s.freeCount ∧
    (judgeCancel tag s).2.pending = s.pending ∧
    (judgeCancel tag s).2.qu.pos = s.qu.pos ∧
    (judgeCancel tag s).2.qu.entry = s.qu.entry ∧
    (judgeCancel tag s).2.qu.result = s.qu.result := by
  generalize h : judgeCancel tag s = t
  unfold judgeCancel at h
  (repeat' split at h) <;> subst h <;> simp

/-- What `requestByte` leaves as it was. -/
@[simp] theorem requestByte_frame (b : Byte) (s : State) :
    (requestByte b s).power = s.power ∧
    (requestByte b s).rst = s.rst ∧
    (requestByte b s).lu = s.lu ∧
    (requestByte b s).vu = s.vu ∧
    (requestByte b s).tu = s.tu ∧
    (requestByte b s).su.attempt = s.su.attempt ∧
    (requestByte b s).qu.park = s.qu.park ∧
    (requestByte b s).qu.woken = s.qu.woken ∧
    (requestByte b s).qu.completions = s.qu.completions ∧
    (requestByte b s).qu.pos = s.qu.pos ∧
    (requestByte b s).wu = s.wu ∧
    (requestByte b s).hp = s.hp ∧
    (requestByte b s).hostData = s.hostData ∧
    (requestByte b s).freeCount = s.freeCount ∧
    (requestByte b s).pending = s.pending := by
  generalize h : requestByte b s = t
  unfold requestByte at h
  try dsimp only at h
  (repeat' split at h) <;> subst h <;> simp

/-- What `readRequest` leaves as it was. -/
@[simp] theorem readRequest_frame  (s : State) :
    (readRequest s).power = s.power ∧
    (readRequest s).rst = s.rst ∧
    (readRequest s).lu = s.lu ∧
    (readRequest s).vu = s.vu ∧
    (readRequest s).tu = s.tu ∧
    (readRequest s).su = s.su ∧
    (readRequest s).qu.queue = s.qu.queue ∧
    (readRequest s).qu.park = s.qu.park ∧
    (readRequest s).qu.woken = s.qu.woken ∧
    (readRequest s).qu.completions = s.qu.completions ∧
    (readRequest s).qu.pos = s.qu.pos ∧
    (readRequest s).qu.result = s.qu.result ∧
    (readRequest s).wu = s.wu ∧
    (readRequest s).hp = s.hp ∧
    (readRequest s).pending = s.pending := by
  generalize h : readRequest s = t
  unfold readRequest at h
  try dsimp only at h
  (repeat' split at h) <;> subst h <;> simp

/-- What `readCompletion` leaves as it was. -/
@[simp] theorem readCompletion_frame  (s : State) :
    (readCompletion s).power = s.power ∧
    (readCompletion s).rst = s.rst ∧
    (readCompletion s).lu = s.lu ∧
    (readCompletion s).vu = s.vu ∧
    (readCompletion s).tu = s.tu ∧
    (readCompletion s).su = s.su ∧
    (readCompletion s).qu.queue = s.qu.queue ∧
    (readCompletion s).qu.park = s.qu.park ∧
    (readCompletion s).qu.woken = s.qu.woken ∧
    (readCompletion s).qu.entry = s.qu.entry ∧
    (readCompletion s).qu.result = s.qu.result ∧
    (readCompletion s).wu = s.wu ∧
    (readCompletion s).hp = s.hp ∧
    (readCompletion s).pending = s.pending := by
  generalize h : readCompletion s = t
  unfold readCompletion at h
  try dsimp only at h
  (repeat' split at h) <;> subst h <;> simp

/-- What `takeNotice` leaves as it was. -/
@[simp] theorem takeNotice_frame (n : Notice) (rest : List Notice) (s : State) :
    (takeNotice n rest s).power = s.power ∧
    (takeNotice n rest s).rst = s.rst ∧
    (takeNotice n rest s).lu = s.lu ∧
    (takeNotice n rest s).vu = s.vu ∧
    (takeNotice n rest s).tu = s.tu ∧
    (takeNotice n rest s).su = s.su ∧
    (takeNotice n rest s).qu = s.qu ∧
    (takeNotice n rest s).wu.pos = s.wu.pos ∧
    (takeNotice n rest s).wu.result = s.wu.result ∧
    (takeNotice n rest s).wu.statePending = s.wu.statePending ∧
    (takeNotice n rest s).wu.linePending = s.wu.linePending ∧
    (takeNotice n rest s).wu.enables = s.wu.enables ∧
    (takeNotice n rest s).hp = s.hp ∧
    (takeNotice n rest s).hostData = s.hostData ∧
    (takeNotice n rest s).freeCount = s.freeCount ∧
    (takeNotice n rest s).pending = s.pending := by
  generalize h : takeNotice n rest s = t
  unfold takeNotice at h
  try dsimp only at h
  (repeat' split at h) <;> subst h <;> simp

/-- What `readNotice` leaves as it was. -/
@[simp] theorem readNotice_frame  (s : State) :
    (readNotice s).power = s.power ∧
    (readNotice s).rst = s.rst ∧
    (readNotice s).lu = s.lu ∧
    (readNotice s).vu = s.vu ∧
    (readNotice s).tu = s.tu ∧
    (readNotice s).su = s.su ∧
    (readNotice s).qu = s.qu ∧
    (readNotice s).wu.result = s.wu.result ∧
    (readNotice s).wu.statePending = s.wu.statePending ∧
    (readNotice s).wu.linePending = s.wu.linePending ∧
    (readNotice s).wu.enables = s.wu.enables ∧
    (readNotice s).hp = s.hp ∧
    (readNotice s).pending = s.pending := by
  generalize h : readNotice s = t
  unfold readNotice at h
  try dsimp only at h
  (repeat' split at h) <;> subst h <;> simp

/-- What `latchCell` leaves as it was. -/
@[simp] theorem latchCell_frame (index : Byte) (s : State) :
    (latchCell index s).power = s.power ∧
    (latchCell index s).rst = s.rst ∧
    (latchCell index s).lu = s.lu ∧
    (latchCell index s).vu = s.vu ∧
    (latchCell index s).tu = s.tu ∧
    (latchCell index s).su = s.su ∧
    (latchCell index s).qu = s.qu ∧
    (latchCell index s).wu = s.wu ∧
    (latchCell index s).hp.straps = s.hp.straps ∧
    (latchCell index s).hp.watchBytes = s.hp.watchBytes ∧
    (latchCell index s).hp.controlBytes = s.hp.controlBytes ∧
    (latchCell index s).hp.controlResult = s.hp.controlResult ∧
    (latchCell index s).hp.statusLatch = s.hp.statusLatch ∧
    (latchCell index s).hp.statusPos = s.hp.statusPos ∧
    (latchCell index s).hp.viewLatch = s.hp.viewLatch ∧
    (latchCell index s).hp.viewPos = s.hp.viewPos ∧
    (latchCell index s).hostData = s.hostData ∧
    (latchCell index s).freeCount = s.freeCount ∧
    (latchCell index s).pending = s.pending := by
  generalize h : latchCell index s = t
  unfold latchCell at h
  try dsimp only at h
  (repeat' split at h) <;> subst h <;> simp

/-- What `readCell` leaves as it was. -/
@[simp] theorem readCell_frame  (s : State) :
    (readCell s).power = s.power ∧
    (readCell s).rst = s.rst ∧
    (readCell s).lu = s.lu ∧
    (readCell s).vu = s.vu ∧
    (readCell s).tu = s.tu ∧
    (readCell s).su = s.su ∧
    (readCell s).qu = s.qu ∧
    (readCell s).wu = s.wu ∧
    (readCell s).hp.straps = s.hp.straps ∧
    (readCell s).hp.watchBytes = s.hp.watchBytes ∧
    (readCell s).hp.controlBytes = s.hp.controlBytes ∧
    (readCell s).hp.controlResult = s.hp.controlResult ∧
    (readCell s).hp.cellLatch = s.hp.cellLatch ∧
    (readCell s).hp.statusLatch = s.hp.statusLatch ∧
    (readCell s).hp.statusPos = s.hp.statusPos ∧
    (readCell s).hp.viewLatch = s.hp.viewLatch ∧
    (readCell s).hp.viewPos = s.hp.viewPos ∧
    (readCell s).pending = s.pending := by
  generalize h : readCell s = t
  unfold readCell at h
  try dsimp only at h
  (repeat' split at h) <;> subst h <;> simp

/-- What `clearSticky` leaves as it was. -/
@[simp] theorem clearSticky_frame  (s : State) :
    (clearSticky s).power = s.power ∧
    (clearSticky s).rst = s.rst ∧
    (clearSticky s).lu = s.lu ∧
    (clearSticky s).vu.station = s.vu.station ∧
    (clearSticky s).vu.view = s.vu.view ∧
    (clearSticky s).vu.standing = s.vu.standing ∧
    (clearSticky s).vu.retainedEpoch = s.vu.retainedEpoch ∧
    (clearSticky s).vu.unanswered = s.vu.unanswered ∧
    (clearSticky s).vu.probeTimer = s.vu.probeTimer ∧
    (clearSticky s).vu.probeDue = s.vu.probeDue ∧
    (clearSticky s).vu.admitTimer = s.vu.admitTimer ∧
    (clearSticky s).vu.admitExpired = s.vu.admitExpired ∧
    (clearSticky s).vu.stallTimer = s.vu.stallTimer ∧
    (clearSticky s).vu.stallOwed = s.vu.stallOwed ∧
    (clearSticky s).vu.leavePending = s.vu.leavePending ∧
    (clearSticky s).vu.judged = s.vu.judged ∧
    (clearSticky s).tu = s.tu ∧
    (clearSticky s).su = s.su ∧
    (clearSticky s).qu = s.qu ∧
    (clearSticky s).wu.watches = s.wu.watches ∧
    (clearSticky s).wu.events = s.wu.events ∧
    (clearSticky s).wu.pos = s.wu.pos ∧
    (clearSticky s).wu.result = s.wu.result ∧
    (clearSticky s).wu.enables = s.wu.enables ∧
    (clearSticky s).hp = s.hp ∧
    (clearSticky s).hostData = s.hostData ∧
    (clearSticky s).freeCount = s.freeCount ∧
    (clearSticky s).pending = s.pending := by
  generalize h : clearSticky s = t
  unfold clearSticky at h
  try dsimp only at h
  (repeat' split at h) <;> subst h <;> simp

/-- What `readStatus` leaves as it was. -/
@[simp] theorem readStatus_frame  (s : State) :
    (readStatus s).power = s.power ∧
    (readStatus s).rst = s.rst ∧
    (readStatus s).lu = s.lu ∧
    (readStatus s).vu.station = s.vu.station ∧
    (readStatus s).vu.view = s.vu.view ∧
    (readStatus s).vu.standing = s.vu.standing ∧
    (readStatus s).vu.retainedEpoch = s.vu.retainedEpoch ∧
    (readStatus s).vu.unanswered = s.vu.unanswered ∧
    (readStatus s).vu.probeTimer = s.vu.probeTimer ∧
    (readStatus s).vu.probeDue = s.vu.probeDue ∧
    (readStatus s).vu.admitTimer = s.vu.admitTimer ∧
    (readStatus s).vu.admitExpired = s.vu.admitExpired ∧
    (readStatus s).vu.stallTimer = s.vu.stallTimer ∧
    (readStatus s).vu.stallOwed = s.vu.stallOwed ∧
    (readStatus s).vu.leavePending = s.vu.leavePending ∧
    (readStatus s).vu.judged = s.vu.judged ∧
    (readStatus s).tu = s.tu ∧
    (readStatus s).su = s.su ∧
    (readStatus s).qu = s.qu ∧
    (readStatus s).wu.watches = s.wu.watches ∧
    (readStatus s).wu.events = s.wu.events ∧
    (readStatus s).wu.pos = s.wu.pos ∧
    (readStatus s).wu.result = s.wu.result ∧
    (readStatus s).wu.enables = s.wu.enables ∧
    (readStatus s).hp.straps = s.hp.straps ∧
    (readStatus s).hp.watchBytes = s.hp.watchBytes ∧
    (readStatus s).hp.controlBytes = s.hp.controlBytes ∧
    (readStatus s).hp.controlResult = s.hp.controlResult ∧
    (readStatus s).hp.cellLatch = s.hp.cellLatch ∧
    (readStatus s).hp.cellPos = s.hp.cellPos ∧
    (readStatus s).hp.viewLatch = s.hp.viewLatch ∧
    (readStatus s).hp.viewPos = s.hp.viewPos ∧
    (readStatus s).pending = s.pending := by
  generalize h : readStatus s = t
  unfold readStatus at h
  try dsimp only at h
  (repeat' split at h) <;> subst h <;> simp

/-- What `readView` leaves as it was. -/
@[simp] theorem readView_frame  (s : State) :
    (readView s).power = s.power ∧
    (readView s).rst = s.rst ∧
    (readView s).lu = s.lu ∧
    (readView s).vu = s.vu ∧
    (readView s).tu = s.tu ∧
    (readView s).su = s.su ∧
    (readView s).qu = s.qu ∧
    (readView s).wu = s.wu ∧
    (readView s).hp.straps = s.hp.straps ∧
    (readView s).hp.watchBytes = s.hp.watchBytes ∧
    (readView s).hp.controlBytes = s.hp.controlBytes ∧
    (readView s).hp.controlResult = s.hp.controlResult ∧
    (readView s).hp.cellLatch = s.hp.cellLatch ∧
    (readView s).hp.cellPos = s.hp.cellPos ∧
    (readView s).hp.statusLatch = s.hp.statusLatch ∧
    (readView s).hp.statusPos = s.hp.statusPos ∧
    (readView s).pending = s.pending := by
  generalize h : readView s = t
  unfold readView at h
  try dsimp only at h
  (repeat' split at h) <;> subst h <;> simp

/-- What `restartSequence` leaves as it was. -/
@[simp] theorem restartSequence_frame (port : RestartPort) (data : Byte) (s : State) :
    (restartSequence port data s).power = s.power ∧
    (restartSequence port data s).rst = s.rst ∧
    (restartSequence port data s).lu = s.lu ∧
    (restartSequence port data s).vu = s.vu ∧
    (restartSequence port data s).tu = s.tu ∧
    (restartSequence port data s).su = s.su ∧
    (restartSequence port data s).qu.queue = s.qu.queue ∧
    (restartSequence port data s).qu.park = s.qu.park ∧
    (restartSequence port data s).qu.woken = s.qu.woken ∧
    (restartSequence port data s).qu.completions = s.qu.completions ∧
    (restartSequence port data s).qu.entry = s.qu.entry ∧
    (restartSequence port data s).qu.result = s.qu.result ∧
    (restartSequence port data s).wu.watches = s.wu.watches ∧
    (restartSequence port data s).wu.events = s.wu.events ∧
    (restartSequence port data s).wu.result = s.wu.result ∧
    (restartSequence port data s).wu.statePending = s.wu.statePending ∧
    (restartSequence port data s).wu.linePending = s.wu.linePending ∧
    (restartSequence port data s).wu.enables = s.wu.enables ∧
    (restartSequence port data s).hp.straps = s.hp.straps ∧
    (restartSequence port data s).hp.watchBytes = s.hp.watchBytes ∧
    (restartSequence port data s).hp.controlBytes = s.hp.controlBytes ∧
    (restartSequence port data s).hp.controlResult = s.hp.controlResult ∧
    (restartSequence port data s).hp.cellLatch = s.hp.cellLatch ∧
    (restartSequence port data s).hp.cellPos = s.hp.cellPos ∧
    (restartSequence port data s).hp.statusLatch = s.hp.statusLatch ∧
    (restartSequence port data s).hp.viewLatch = s.hp.viewLatch ∧
    (restartSequence port data s).hostData = s.hostData ∧
    (restartSequence port data s).freeCount = s.freeCount ∧
    (restartSequence port data s).pending = s.pending := by
  generalize h : restartSequence port data s = t
  unfold restartSequence at h
  try dsimp only at h
  (repeat' split at h) <;> subst h <;> simp

/-- What `keepWatchBytes` leaves as it was. -/
@[simp] theorem keepWatchBytes_frame (bytes : List Byte) (s : State) :
    (keepWatchBytes bytes s).power = s.power ∧
    (keepWatchBytes bytes s).rst = s.rst ∧
    (keepWatchBytes bytes s).lu = s.lu ∧
    (keepWatchBytes bytes s).vu = s.vu ∧
    (keepWatchBytes bytes s).tu = s.tu ∧
    (keepWatchBytes bytes s).su = s.su ∧
    (keepWatchBytes bytes s).qu = s.qu ∧
    (keepWatchBytes bytes s).wu = s.wu ∧
    (keepWatchBytes bytes s).hp.straps = s.hp.straps ∧
    (keepWatchBytes bytes s).hp.controlBytes = s.hp.controlBytes ∧
    (keepWatchBytes bytes s).hp.controlResult = s.hp.controlResult ∧
    (keepWatchBytes bytes s).hp.cellLatch = s.hp.cellLatch ∧
    (keepWatchBytes bytes s).hp.cellPos = s.hp.cellPos ∧
    (keepWatchBytes bytes s).hp.statusLatch = s.hp.statusLatch ∧
    (keepWatchBytes bytes s).hp.statusPos = s.hp.statusPos ∧
    (keepWatchBytes bytes s).hp.viewLatch = s.hp.viewLatch ∧
    (keepWatchBytes bytes s).hp.viewPos = s.hp.viewPos ∧
    (keepWatchBytes bytes s).hostData = s.hostData ∧
    (keepWatchBytes bytes s).freeCount = s.freeCount ∧
    (keepWatchBytes bytes s).pending = s.pending := by
  generalize h : keepWatchBytes bytes s = t
  unfold keepWatchBytes at h
  try dsimp only at h
  (repeat' split at h) <;> subst h <;> simp

/-- What `watchByte` leaves as it was. -/
@[simp] theorem watchByte_frame (b : Byte) (s : State) :
    (watchByte b s).power = s.power ∧
    (watchByte b s).rst = s.rst ∧
    (watchByte b s).lu = s.lu ∧
    (watchByte b s).vu = s.vu ∧
    (watchByte b s).tu = s.tu ∧
    (watchByte b s).su = s.su ∧
    (watchByte b s).qu = s.qu ∧
    (watchByte b s).wu.statePending = s.wu.statePending ∧
    (watchByte b s).wu.linePending = s.wu.linePending ∧
    (watchByte b s).wu.enables = s.wu.enables ∧
    (watchByte b s).hp.straps = s.hp.straps ∧
    (watchByte b s).hp.controlBytes = s.hp.controlBytes ∧
    (watchByte b s).hp.controlResult = s.hp.controlResult ∧
    (watchByte b s).hp.cellLatch = s.hp.cellLatch ∧
    (watchByte b s).hp.cellPos = s.hp.cellPos ∧
    (watchByte b s).hp.statusLatch = s.hp.statusLatch ∧
    (watchByte b s).hp.statusPos = s.hp.statusPos ∧
    (watchByte b s).hp.viewLatch = s.hp.viewLatch ∧
    (watchByte b s).hp.viewPos = s.hp.viewPos ∧
    (watchByte b s).hostData = s.hostData ∧
    (watchByte b s).freeCount = s.freeCount ∧
    (watchByte b s).pending = s.pending := by
  generalize h : watchByte b s = t
  unfold watchByte at h
  try dsimp only at h
  (repeat' split at h) <;> subst h <;> simp

/-- What `readWatch` leaves as it was. -/
@[simp] theorem readWatch_frame  (s : State) :
    (readWatch s).power = s.power ∧
    (readWatch s).rst = s.rst ∧
    (readWatch s).lu = s.lu ∧
    (readWatch s).vu = s.vu ∧
    (readWatch s).tu = s.tu ∧
    (readWatch s).su = s.su ∧
    (readWatch s).qu = s.qu ∧
    (readWatch s).wu = s.wu ∧
    (readWatch s).hp.straps = s.hp.straps ∧
    (readWatch s).hp.controlBytes = s.hp.controlBytes ∧
    (readWatch s).hp.controlResult = s.hp.controlResult ∧
    (readWatch s).hp.cellLatch = s.hp.cellLatch ∧
    (readWatch s).hp.cellPos = s.hp.cellPos ∧
    (readWatch s).hp.statusLatch = s.hp.statusLatch ∧
    (readWatch s).hp.statusPos = s.hp.statusPos ∧
    (readWatch s).hp.viewLatch = s.hp.viewLatch ∧
    (readWatch s).hp.viewPos = s.hp.viewPos ∧
    (readWatch s).pending = s.pending := by
  generalize h : readWatch s = t
  unfold readWatch at h
  try dsimp only at h
  (repeat' split at h) <;> subst h <;> simp

/-- What `keepControlBytes` leaves as it was. -/
@[simp] theorem keepControlBytes_frame (bytes : List Byte) (s : State) :
    (keepControlBytes bytes s).power = s.power ∧
    (keepControlBytes bytes s).rst = s.rst ∧
    (keepControlBytes bytes s).lu = s.lu ∧
    (keepControlBytes bytes s).vu = s.vu ∧
    (keepControlBytes bytes s).tu = s.tu ∧
    (keepControlBytes bytes s).su = s.su ∧
    (keepControlBytes bytes s).qu = s.qu ∧
    (keepControlBytes bytes s).wu = s.wu ∧
    (keepControlBytes bytes s).hp.straps = s.hp.straps ∧
    (keepControlBytes bytes s).hp.watchBytes = s.hp.watchBytes ∧
    (keepControlBytes bytes s).hp.controlResult = s.hp.controlResult ∧
    (keepControlBytes bytes s).hp.cellLatch = s.hp.cellLatch ∧
    (keepControlBytes bytes s).hp.cellPos = s.hp.cellPos ∧
    (keepControlBytes bytes s).hp.statusLatch = s.hp.statusLatch ∧
    (keepControlBytes bytes s).hp.statusPos = s.hp.statusPos ∧
    (keepControlBytes bytes s).hp.viewLatch = s.hp.viewLatch ∧
    (keepControlBytes bytes s).hp.viewPos = s.hp.viewPos ∧
    (keepControlBytes bytes s).hostData = s.hostData ∧
    (keepControlBytes bytes s).freeCount = s.freeCount ∧
    (keepControlBytes bytes s).pending = s.pending := by
  generalize h : keepControlBytes bytes s = t
  unfold keepControlBytes at h
  try dsimp only at h
  (repeat' split at h) <;> subst h <;> simp

/-- What `controlResult` leaves as it was. -/
@[simp] theorem controlResult_frame (x : ControlResult) (s : State) :
    (controlResult x s).power = s.power ∧
    (controlResult x s).rst = s.rst ∧
    (controlResult x s).lu = s.lu ∧
    (controlResult x s).vu = s.vu ∧
    (controlResult x s).tu = s.tu ∧
    (controlResult x s).su = s.su ∧
    (controlResult x s).qu = s.qu ∧
    (controlResult x s).wu = s.wu ∧
    (controlResult x s).hp.straps = s.hp.straps ∧
    (controlResult x s).hp.watchBytes = s.hp.watchBytes ∧
    (controlResult x s).hp.controlBytes = s.hp.controlBytes ∧
    (controlResult x s).hp.cellLatch = s.hp.cellLatch ∧
    (controlResult x s).hp.cellPos = s.hp.cellPos ∧
    (controlResult x s).hp.statusLatch = s.hp.statusLatch ∧
    (controlResult x s).hp.statusPos = s.hp.statusPos ∧
    (controlResult x s).hp.viewLatch = s.hp.viewLatch ∧
    (controlResult x s).hp.viewPos = s.hp.viewPos ∧
    (controlResult x s).hostData = s.hostData ∧
    (controlResult x s).freeCount = s.freeCount ∧
    (controlResult x s).pending = s.pending := by
  generalize h : controlResult x s = t
  unfold controlResult at h
  try dsimp only at h
  (repeat' split at h) <;> subst h <;> simp

/-- What `takeStart` leaves as it was. -/
@[simp] theorem takeStart_frame  (s : State) :
    (takeStart s).power = s.power ∧
    (takeStart s).rst = s.rst ∧
    (takeStart s).lu = s.lu ∧
    (takeStart s).vu.view = s.vu.view ∧
    (takeStart s).vu.standing = s.vu.standing ∧
    (takeStart s).vu.retainedEpoch = s.vu.retainedEpoch ∧
    (takeStart s).vu.foreign = s.vu.foreign ∧
    (takeStart s).vu.judged = s.vu.judged ∧
    (takeStart s).tu = s.tu ∧
    (takeStart s).su.attempt = s.su.attempt ∧
    (takeStart s).qu = s.qu ∧
    (takeStart s).wu.watches = s.wu.watches ∧
    (takeStart s).wu.events = s.wu.events ∧
    (takeStart s).wu.pos = s.wu.pos ∧
    (takeStart s).wu.result = s.wu.result ∧
    (takeStart s).wu.linePending = s.wu.linePending ∧
    (takeStart s).wu.enables = s.wu.enables ∧
    (takeStart s).hp.straps = s.hp.straps ∧
    (takeStart s).hp.watchBytes = s.hp.watchBytes ∧
    (takeStart s).hp.controlBytes = s.hp.controlBytes ∧
    (takeStart s).hp.cellLatch = s.hp.cellLatch ∧
    (takeStart s).hp.cellPos = s.hp.cellPos ∧
    (takeStart s).hp.statusLatch = s.hp.statusLatch ∧
    (takeStart s).hp.statusPos = s.hp.statusPos ∧
    (takeStart s).hp.viewLatch = s.hp.viewLatch ∧
    (takeStart s).hp.viewPos = s.hp.viewPos ∧
    (takeStart s).hostData = s.hostData ∧
    (takeStart s).freeCount = s.freeCount ∧
    (takeStart s).pending = s.pending := by
  generalize h : takeStart s = t
  unfold takeStart at h
  try dsimp only at h
  (repeat' split at h) <;> subst h <;> simp

/-- What `takeHalt` leaves as it was. -/
@[simp] theorem takeHalt_frame  (s : State) :
    (takeHalt s).power = s.power ∧
    (takeHalt s).rst = s.rst ∧
    (takeHalt s).lu.stuck = s.lu.stuck ∧
    (takeHalt s).lu.checkReg = s.lu.checkReg ∧
    (takeHalt s).vu.foreign = s.vu.foreign ∧
    (takeHalt s).qu.pos = s.qu.pos ∧
    (takeHalt s).qu.entry = s.qu.entry ∧
    (takeHalt s).qu.result = s.qu.result ∧
    (takeHalt s).wu.pos = s.wu.pos ∧
    (takeHalt s).wu.result = s.wu.result ∧
    (takeHalt s).wu.linePending = s.wu.linePending ∧
    (takeHalt s).wu.enables = s.wu.enables ∧
    (takeHalt s).hp.straps = s.hp.straps ∧
    (takeHalt s).hp.watchBytes = s.hp.watchBytes ∧
    (takeHalt s).hp.controlBytes = s.hp.controlBytes ∧
    (takeHalt s).hp.cellLatch = s.hp.cellLatch ∧
    (takeHalt s).hp.cellPos = s.hp.cellPos ∧
    (takeHalt s).hp.statusLatch = s.hp.statusLatch ∧
    (takeHalt s).hp.statusPos = s.hp.statusPos ∧
    (takeHalt s).hp.viewLatch = s.hp.viewLatch ∧
    (takeHalt s).hp.viewPos = s.hp.viewPos ∧
    (takeHalt s).hostData = s.hostData ∧
    (takeHalt s).freeCount = s.freeCount ∧
    (takeHalt s).pending = s.pending := by
  generalize h : takeHalt s = t
  unfold takeHalt at h
  try dsimp only at h
  (repeat' split at h) <;> subst h <;> simp

/-- What `takeLeave` leaves as it was. -/
@[simp] theorem takeLeave_frame  (s : State) :
    (takeLeave s).power = s.power ∧
    (takeLeave s).rst = s.rst ∧
    (takeLeave s).lu = s.lu ∧
    (takeLeave s).vu.station = s.vu.station ∧
    (takeLeave s).vu.view = s.vu.view ∧
    (takeLeave s).vu.standing = s.vu.standing ∧
    (takeLeave s).vu.retainedEpoch = s.vu.retainedEpoch ∧
    (takeLeave s).vu.unanswered = s.vu.unanswered ∧
    (takeLeave s).vu.probeTimer = s.vu.probeTimer ∧
    (takeLeave s).vu.probeDue = s.vu.probeDue ∧
    (takeLeave s).vu.admitTimer = s.vu.admitTimer ∧
    (takeLeave s).vu.admitExpired = s.vu.admitExpired ∧
    (takeLeave s).vu.stallTimer = s.vu.stallTimer ∧
    (takeLeave s).vu.stallOwed = s.vu.stallOwed ∧
    (takeLeave s).vu.foreign = s.vu.foreign ∧
    (takeLeave s).vu.judged = s.vu.judged ∧
    (takeLeave s).tu = s.tu ∧
    (takeLeave s).su.attempt = s.su.attempt ∧
    (takeLeave s).qu = s.qu ∧
    (takeLeave s).wu = s.wu ∧
    (takeLeave s).hp.straps = s.hp.straps ∧
    (takeLeave s).hp.watchBytes = s.hp.watchBytes ∧
    (takeLeave s).hp.controlBytes = s.hp.controlBytes ∧
    (takeLeave s).hp.cellLatch = s.hp.cellLatch ∧
    (takeLeave s).hp.cellPos = s.hp.cellPos ∧
    (takeLeave s).hp.statusLatch = s.hp.statusLatch ∧
    (takeLeave s).hp.statusPos = s.hp.statusPos ∧
    (takeLeave s).hp.viewLatch = s.hp.viewLatch ∧
    (takeLeave s).hp.viewPos = s.hp.viewPos ∧
    (takeLeave s).hostData = s.hostData ∧
    (takeLeave s).freeCount = s.freeCount ∧
    (takeLeave s).pending = s.pending := by
  generalize h : takeLeave s = t
  unfold takeLeave at h
  try dsimp only at h
  (repeat' split at h) <;> subst h <;> simp

/-- What `takeCancel` leaves as it was. -/
@[simp] theorem takeCancel_frame (tag : Byte) (s : State) :
    (takeCancel tag s).power = s.power ∧
    (takeCancel tag s).rst = s.rst ∧
    (takeCancel tag s).lu = s.lu ∧
    (takeCancel tag s).vu = s.vu ∧
    (takeCancel tag s).tu = s.tu ∧
    (takeCancel tag s).su.attempt = s.su.attempt ∧
    (takeCancel tag s).qu.pos = s.qu.pos ∧
    (takeCancel tag s).qu.entry = s.qu.entry ∧
    (takeCancel tag s).qu.result = s.qu.result ∧
    (takeCancel tag s).wu = s.wu ∧
    (takeCancel tag s).hp.straps = s.hp.straps ∧
    (takeCancel tag s).hp.watchBytes = s.hp.watchBytes ∧
    (takeCancel tag s).hp.controlBytes = s.hp.controlBytes ∧
    (takeCancel tag s).hp.cellLatch = s.hp.cellLatch ∧
    (takeCancel tag s).hp.cellPos = s.hp.cellPos ∧
    (takeCancel tag s).hp.statusLatch = s.hp.statusLatch ∧
    (takeCancel tag s).hp.statusPos = s.hp.statusPos ∧
    (takeCancel tag s).hp.viewLatch = s.hp.viewLatch ∧
    (takeCancel tag s).hp.viewPos = s.hp.viewPos ∧
    (takeCancel tag s).hostData = s.hostData ∧
    (takeCancel tag s).freeCount = s.freeCount ∧
    (takeCancel tag s).pending = s.pending := by
  generalize h : takeCancel tag s = t
  unfold takeCancel at h
  try dsimp only at h
  (repeat' split at h) <;> subst h <;> simp

/-- What `takeMask` leaves as it was. -/
@[simp] theorem takeMask_frame (m : Byte) (s : State) :
    (takeMask m s).power = s.power ∧
    (takeMask m s).rst = s.rst ∧
    (takeMask m s).lu = s.lu ∧
    (takeMask m s).vu = s.vu ∧
    (takeMask m s).tu = s.tu ∧
    (takeMask m s).su = s.su ∧
    (takeMask m s).qu = s.qu ∧
    (takeMask m s).wu.watches = s.wu.watches ∧
    (takeMask m s).wu.events = s.wu.events ∧
    (takeMask m s).wu.pos = s.wu.pos ∧
    (takeMask m s).wu.result = s.wu.result ∧
    (takeMask m s).wu.statePending = s.wu.statePending ∧
    (takeMask m s).wu.linePending = s.wu.linePending ∧
    (takeMask m s).hp.straps = s.hp.straps ∧
    (takeMask m s).hp.watchBytes = s.hp.watchBytes ∧
    (takeMask m s).hp.controlBytes = s.hp.controlBytes ∧
    (takeMask m s).hp.cellLatch = s.hp.cellLatch ∧
    (takeMask m s).hp.cellPos = s.hp.cellPos ∧
    (takeMask m s).hp.statusLatch = s.hp.statusLatch ∧
    (takeMask m s).hp.statusPos = s.hp.statusPos ∧
    (takeMask m s).hp.viewLatch = s.hp.viewLatch ∧
    (takeMask m s).hp.viewPos = s.hp.viewPos ∧
    (takeMask m s).hostData = s.hostData ∧
    (takeMask m s).freeCount = s.freeCount ∧
    (takeMask m s).pending = s.pending := by
  generalize h : takeMask m s = t
  unfold takeMask at h
  try dsimp only at h
  (repeat' split at h) <;> subst h <;> simp

/-- What `controlFirst` leaves as it was. -/
@[simp] theorem controlFirst_frame (b : Byte) (s : State) :
    (controlFirst b s).power = s.power ∧
    (controlFirst b s).rst = s.rst ∧
    (controlFirst b s).lu.stuck = s.lu.stuck ∧
    (controlFirst b s).lu.checkReg = s.lu.checkReg ∧
    (controlFirst b s).vu.foreign = s.vu.foreign ∧
    (controlFirst b s).qu.pos = s.qu.pos ∧
    (controlFirst b s).qu.entry = s.qu.entry ∧
    (controlFirst b s).qu.result = s.qu.result ∧
    (controlFirst b s).wu.pos = s.wu.pos ∧
    (controlFirst b s).wu.result = s.wu.result ∧
    (controlFirst b s).wu.linePending = s.wu.linePending ∧
    (controlFirst b s).wu.enables = s.wu.enables ∧
    (controlFirst b s).hp.straps = s.hp.straps ∧
    (controlFirst b s).hp.watchBytes = s.hp.watchBytes ∧
    (controlFirst b s).hp.cellLatch = s.hp.cellLatch ∧
    (controlFirst b s).hp.cellPos = s.hp.cellPos ∧
    (controlFirst b s).hp.statusLatch = s.hp.statusLatch ∧
    (controlFirst b s).hp.statusPos = s.hp.statusPos ∧
    (controlFirst b s).hp.viewLatch = s.hp.viewLatch ∧
    (controlFirst b s).hp.viewPos = s.hp.viewPos ∧
    (controlFirst b s).hostData = s.hostData ∧
    (controlFirst b s).freeCount = s.freeCount ∧
    (controlFirst b s).pending = s.pending := by
  generalize h : controlFirst b s = t
  unfold controlFirst at h
  try dsimp only at h
  (repeat' split at h) <;> subst h <;> simp

/-- What `controlWrite` leaves as it was. -/
@[simp] theorem controlWrite_frame (b : Byte) (s : State) :
    (controlWrite b s).power = s.power ∧
    (controlWrite b s).rst = s.rst ∧
    (controlWrite b s).lu.stuck = s.lu.stuck ∧
    (controlWrite b s).lu.checkReg = s.lu.checkReg ∧
    (controlWrite b s).vu.foreign = s.vu.foreign ∧
    (controlWrite b s).qu.pos = s.qu.pos ∧
    (controlWrite b s).qu.entry = s.qu.entry ∧
    (controlWrite b s).qu.result = s.qu.result ∧
    (controlWrite b s).wu.pos = s.wu.pos ∧
    (controlWrite b s).wu.result = s.wu.result ∧
    (controlWrite b s).wu.linePending = s.wu.linePending ∧
    (controlWrite b s).hp.straps = s.hp.straps ∧
    (controlWrite b s).hp.watchBytes = s.hp.watchBytes ∧
    (controlWrite b s).hp.cellLatch = s.hp.cellLatch ∧
    (controlWrite b s).hp.cellPos = s.hp.cellPos ∧
    (controlWrite b s).hp.statusLatch = s.hp.statusLatch ∧
    (controlWrite b s).hp.statusPos = s.hp.statusPos ∧
    (controlWrite b s).hp.viewLatch = s.hp.viewLatch ∧
    (controlWrite b s).hp.viewPos = s.hp.viewPos ∧
    (controlWrite b s).hostData = s.hostData ∧
    (controlWrite b s).freeCount = s.freeCount ∧
    (controlWrite b s).pending = s.pending := by
  generalize h : controlWrite b s = t
  unfold controlWrite at h
  try dsimp only at h
  (repeat' split at h) <;> subst h <;> simp

/-- What `readControl` leaves as it was. -/
@[simp] theorem readControl_frame  (s : State) :
    (readControl s).power = s.power ∧
    (readControl s).rst = s.rst ∧
    (readControl s).lu = s.lu ∧
    (readControl s).vu = s.vu ∧
    (readControl s).tu = s.tu ∧
    (readControl s).su = s.su ∧
    (readControl s).qu = s.qu ∧
    (readControl s).wu = s.wu ∧
    (readControl s).hp.straps = s.hp.straps ∧
    (readControl s).hp.watchBytes = s.hp.watchBytes ∧
    (readControl s).hp.controlResult = s.hp.controlResult ∧
    (readControl s).hp.cellLatch = s.hp.cellLatch ∧
    (readControl s).hp.cellPos = s.hp.cellPos ∧
    (readControl s).hp.statusLatch = s.hp.statusLatch ∧
    (readControl s).hp.statusPos = s.hp.statusPos ∧
    (readControl s).hp.viewLatch = s.hp.viewLatch ∧
    (readControl s).hp.viewPos = s.hp.viewPos ∧
    (readControl s).pending = s.pending := by
  generalize h : readControl s = t
  unfold readControl at h
  try dsimp only at h
  (repeat' split at h) <;> subst h <;> simp

/-- What `partialByte` leaves as it was. -/
@[simp] theorem partialByte_frame (port : PartialPort) (b : Byte) (s : State) :
    (partialByte port b s).power = s.power ∧
    (partialByte port b s).rst = s.rst ∧
    (partialByte port b s).lu.stuck = s.lu.stuck ∧
    (partialByte port b s).lu.checkReg = s.lu.checkReg ∧
    (partialByte port b s).vu.foreign = s.vu.foreign ∧
    (partialByte port b s).qu.pos = s.qu.pos ∧
    (partialByte port b s).qu.entry = s.qu.entry ∧
    (partialByte port b s).qu.result = s.qu.result ∧
    (partialByte port b s).wu.linePending = s.wu.linePending ∧
    (partialByte port b s).hp.straps = s.hp.straps ∧
    (partialByte port b s).hp.cellLatch = s.hp.cellLatch ∧
    (partialByte port b s).hp.cellPos = s.hp.cellPos ∧
    (partialByte port b s).hp.statusLatch = s.hp.statusLatch ∧
    (partialByte port b s).hp.statusPos = s.hp.statusPos ∧
    (partialByte port b s).hp.viewLatch = s.hp.viewLatch ∧
    (partialByte port b s).hp.viewPos = s.hp.viewPos ∧
    (partialByte port b s).hostData = s.hostData ∧
    (partialByte port b s).freeCount = s.freeCount ∧
    (partialByte port b s).pending = s.pending := by
  generalize h : partialByte port b s = t
  unfold partialByte at h
  try dsimp only at h
  (repeat' split at h) <;> subst h <;> simp

/-- What `watchCommand` leaves as it was. -/
@[simp] theorem watchCommand_frame (command : List Byte) (s : State) :
    (watchCommand command s).power = s.power ∧
    (watchCommand command s).rst = s.rst ∧
    (watchCommand command s).lu = s.lu ∧
    (watchCommand command s).vu = s.vu ∧
    (watchCommand command s).tu = s.tu ∧
    (watchCommand command s).su = s.su ∧
    (watchCommand command s).qu = s.qu ∧
    (watchCommand command s).wu.statePending = s.wu.statePending ∧
    (watchCommand command s).wu.linePending = s.wu.linePending ∧
    (watchCommand command s).wu.enables = s.wu.enables ∧
    (watchCommand command s).hp.straps = s.hp.straps ∧
    (watchCommand command s).hp.controlBytes = s.hp.controlBytes ∧
    (watchCommand command s).hp.controlResult = s.hp.controlResult ∧
    (watchCommand command s).hp.cellLatch = s.hp.cellLatch ∧
    (watchCommand command s).hp.cellPos = s.hp.cellPos ∧
    (watchCommand command s).hp.statusLatch = s.hp.statusLatch ∧
    (watchCommand command s).hp.statusPos = s.hp.statusPos ∧
    (watchCommand command s).hp.viewLatch = s.hp.viewLatch ∧
    (watchCommand command s).hp.viewPos = s.hp.viewPos ∧
    (watchCommand command s).hostData = s.hostData ∧
    (watchCommand command s).freeCount = s.freeCount ∧
    (watchCommand command s).pending = s.pending := by
  simp only [watchCommand]
  refine foldl_keeps (P := fun t : State => t.power = s.power ∧ t.rst = s.rst ∧ t.lu = s.lu ∧ t.vu = s.vu ∧ t.tu = s.tu ∧ t.su = s.su ∧ t.qu = s.qu ∧ t.wu.statePending = s.wu.statePending ∧ t.wu.linePending = s.wu.linePending ∧ t.wu.enables = s.wu.enables ∧ t.hp.straps = s.hp.straps ∧ t.hp.controlBytes = s.hp.controlBytes ∧ t.hp.controlResult = s.hp.controlResult ∧ t.hp.cellLatch = s.hp.cellLatch ∧ t.hp.cellPos = s.hp.cellPos ∧ t.hp.statusLatch = s.hp.statusLatch ∧ t.hp.statusPos = s.hp.statusPos ∧ t.hp.viewLatch = s.hp.viewLatch ∧ t.hp.viewPos = s.hp.viewPos ∧ t.hostData = s.hostData ∧ t.freeCount = s.freeCount ∧ t.pending = s.pending) ?_ _ _ ?_
  · intro t i h
    try split
    all_goals simp_all
  · simp

/-- What `controlCommand` leaves as it was. -/
@[simp] theorem controlCommand_frame (command : List Byte) (s : State) :
    (controlCommand command s).power = s.power ∧
    (controlCommand command s).rst = s.rst ∧
    (controlCommand command s).lu.stuck = s.lu.stuck ∧
    (controlCommand command s).lu.checkReg = s.lu.checkReg ∧
    (controlCommand command s).vu.foreign = s.vu.foreign ∧
    (controlCommand command s).qu.pos = s.qu.pos ∧
    (controlCommand command s).qu.entry = s.qu.entry ∧
    (controlCommand command s).qu.result = s.qu.result ∧
    (controlCommand command s).wu.pos = s.wu.pos ∧
    (controlCommand command s).wu.result = s.wu.result ∧
    (controlCommand command s).wu.linePending = s.wu.linePending ∧
    (controlCommand command s).hp.straps = s.hp.straps ∧
    (controlCommand command s).hp.watchBytes = s.hp.watchBytes ∧
    (controlCommand command s).hp.cellLatch = s.hp.cellLatch ∧
    (controlCommand command s).hp.cellPos = s.hp.cellPos ∧
    (controlCommand command s).hp.statusLatch = s.hp.statusLatch ∧
    (controlCommand command s).hp.statusPos = s.hp.statusPos ∧
    (controlCommand command s).hp.viewLatch = s.hp.viewLatch ∧
    (controlCommand command s).hp.viewPos = s.hp.viewPos ∧
    (controlCommand command s).hostData = s.hostData ∧
    (controlCommand command s).freeCount = s.freeCount ∧
    (controlCommand command s).pending = s.pending := by
  simp only [controlCommand]
  refine foldl_keeps (P := fun t : State => t.power = s.power ∧ t.rst = s.rst ∧ t.lu.stuck = s.lu.stuck ∧ t.lu.checkReg = s.lu.checkReg ∧ t.vu.foreign = s.vu.foreign ∧ t.qu.pos = s.qu.pos ∧ t.qu.entry = s.qu.entry ∧ t.qu.result = s.qu.result ∧ t.wu.pos = s.wu.pos ∧ t.wu.result = s.wu.result ∧ t.wu.linePending = s.wu.linePending ∧ t.hp.straps = s.hp.straps ∧ t.hp.watchBytes = s.hp.watchBytes ∧ t.hp.cellLatch = s.hp.cellLatch ∧ t.hp.cellPos = s.hp.cellPos ∧ t.hp.statusLatch = s.hp.statusLatch ∧ t.hp.statusPos = s.hp.statusPos ∧ t.hp.viewLatch = s.hp.viewLatch ∧ t.hp.viewPos = s.hp.viewPos ∧ t.hostData = s.hostData ∧ t.freeCount = s.freeCount ∧ t.pending = s.pending) ?_ _ _ ?_
  · intro t i h
    try split
    all_goals simp_all
  · simp

/-- What `resetBlocks` leaves as it was. -/
@[simp] theorem resetBlocks_frame  (s : State) :
    (resetBlocks s).power = s.power ∧
    (resetBlocks s).rst = s.rst ∧
    (resetBlocks s).vu = s.vu ∧
    (resetBlocks s).tu = s.tu ∧
    (resetBlocks s).hostData = s.hostData ∧
    (resetBlocks s).freeCount = s.freeCount ∧
    (resetBlocks s).pending = s.pending := by
  generalize h : resetBlocks s = t
  unfold resetBlocks at h
  try dsimp only at h
  (repeat' split at h) <;> subst h <;> simp

/-- What `powerOnValues` leaves as it was. -/
@[simp] theorem powerOnValues_frame  (s : State) :
    (powerOnValues s).power = s.power ∧
    (powerOnValues s).rst = s.rst ∧
    (powerOnValues s).hostData = s.hostData ∧
    (powerOnValues s).freeCount = s.freeCount ∧
    (powerOnValues s).pending = s.pending := by
  generalize h : powerOnValues s = t
  unfold powerOnValues at h
  try dsimp only at h
  (repeat' split at h) <;> subst h <;> simp

/-- What `rstValues` leaves as it was. -/
@[simp] theorem rstValues_frame  (s : State) :
    (rstValues s).power = s.power ∧
    (rstValues s).rst = s.rst ∧
    (rstValues s).hostData = s.hostData ∧
    (rstValues s).freeCount = s.freeCount ∧
    (rstValues s).pending = s.pending := by
  generalize h : rstValues s = t
  unfold rstValues at h
  try dsimp only at h
  (repeat' split at h) <;> subst h <;> simp

/-- What `release` leaves as it was. -/
@[simp] theorem release_frame (straps : Straps) (s : State) :
    (release straps s).power = s.power ∧
    (release straps s).rst = s.rst ∧
    (release straps s).vu = s.vu ∧
    (release straps s).tu = s.tu ∧
    (release straps s).su = s.su ∧
    (release straps s).qu = s.qu ∧
    (release straps s).wu = s.wu ∧
    (release straps s).hp.watchBytes = s.hp.watchBytes ∧
    (release straps s).hp.controlBytes = s.hp.controlBytes ∧
    (release straps s).hp.controlResult = s.hp.controlResult ∧
    (release straps s).hp.cellLatch = s.hp.cellLatch ∧
    (release straps s).hp.cellPos = s.hp.cellPos ∧
    (release straps s).hp.statusLatch = s.hp.statusLatch ∧
    (release straps s).hp.statusPos = s.hp.statusPos ∧
    (release straps s).hp.viewLatch = s.hp.viewLatch ∧
    (release straps s).hp.viewPos = s.hp.viewPos ∧
    (release straps s).hostData = s.hostData ∧
    (release straps s).freeCount = s.freeCount ∧
    (release straps s).pending = s.pending := by
  generalize h : release straps s = t
  unfold release at h
  try dsimp only at h
  (repeat' split at h) <;> subst h <;> simp

/-- What `applyPower` leaves as it was. -/
@[simp] theorem applyPower_frame  (s : State) :
    (applyPower s).rst = s.rst ∧
    (applyPower s).hostData = s.hostData ∧
    (applyPower s).freeCount = s.freeCount ∧
    (applyPower s).pending = s.pending := by
  generalize h : applyPower s = t
  unfold applyPower at h
  try dsimp only at h
  (repeat' split at h) <;> subst h <;> simp

/-- What `endHold` leaves as it was. -/
@[simp] theorem endHold_frame (straps : Straps) (s : State) :
    (endHold straps s).rst = s.rst ∧
    (endHold straps s).vu = s.vu ∧
    (endHold straps s).tu = s.tu ∧
    (endHold straps s).su = s.su ∧
    (endHold straps s).qu = s.qu ∧
    (endHold straps s).wu = s.wu ∧
    (endHold straps s).hp.watchBytes = s.hp.watchBytes ∧
    (endHold straps s).hp.controlBytes = s.hp.controlBytes ∧
    (endHold straps s).hp.controlResult = s.hp.controlResult ∧
    (endHold straps s).hp.cellLatch = s.hp.cellLatch ∧
    (endHold straps s).hp.cellPos = s.hp.cellPos ∧
    (endHold straps s).hp.statusLatch = s.hp.statusLatch ∧
    (endHold straps s).hp.statusPos = s.hp.statusPos ∧
    (endHold straps s).hp.viewLatch = s.hp.viewLatch ∧
    (endHold straps s).hp.viewPos = s.hp.viewPos ∧
    (endHold straps s).hostData = s.hostData ∧
    (endHold straps s).freeCount = s.freeCount ∧
    (endHold straps s).pending = s.pending := by
  generalize h : endHold straps s = t
  unfold endHold at h
  try dsimp only at h
  (repeat' split at h) <;> subst h <;> simp

/-- What `assertRst` leaves as it was. -/
@[simp] theorem assertRst_frame  (s : State) :
    (assertRst s).power = s.power ∧
    (assertRst s).hostData = s.hostData ∧
    (assertRst s).freeCount = s.freeCount ∧
    (assertRst s).pending = s.pending := by
  generalize h : assertRst s = t
  unfold assertRst at h
  try dsimp only at h
  (repeat' split at h) <;> subst h <;> simp

/-- What `releaseRst` leaves as it was. -/
@[simp] theorem releaseRst_frame (straps : Straps) (s : State) :
    (releaseRst straps s).power = s.power ∧
    (releaseRst straps s).vu = s.vu ∧
    (releaseRst straps s).tu = s.tu ∧
    (releaseRst straps s).su = s.su ∧
    (releaseRst straps s).qu = s.qu ∧
    (releaseRst straps s).wu = s.wu ∧
    (releaseRst straps s).hp.watchBytes = s.hp.watchBytes ∧
    (releaseRst straps s).hp.controlBytes = s.hp.controlBytes ∧
    (releaseRst straps s).hp.controlResult = s.hp.controlResult ∧
    (releaseRst straps s).hp.cellLatch = s.hp.cellLatch ∧
    (releaseRst straps s).hp.cellPos = s.hp.cellPos ∧
    (releaseRst straps s).hp.statusLatch = s.hp.statusLatch ∧
    (releaseRst straps s).hp.statusPos = s.hp.statusPos ∧
    (releaseRst straps s).hp.viewLatch = s.hp.viewLatch ∧
    (releaseRst straps s).hp.viewPos = s.hp.viewPos ∧
    (releaseRst straps s).hostData = s.hostData ∧
    (releaseRst straps s).freeCount = s.freeCount ∧
    (releaseRst straps s).pending = s.pending := by
  generalize h : releaseRst straps s = t
  unfold releaseRst at h
  try dsimp only at h
  (repeat' split at h) <;> subst h <;> simp

/-- What `losePower` leaves as it was. -/
@[simp] theorem losePower_frame  (s : State) :
    (losePower s).rst = s.rst ∧
    (losePower s).hostData = s.hostData ∧
    (losePower s).freeCount = s.freeCount ∧
    (losePower s).pending = s.pending := by
  generalize h : losePower s = t
  unfold losePower at h
  try dsimp only at h
  (repeat' split at h) <;> subst h <;> simp

end Sys2Proof.Machine
end

