-- ==== Sys2Proof/Laws/Fields.lean ====
section
/-! SUPPORT. What the shared transitions of VU, SU and LU write, field by field; what they leave is in the frame lemmas. -/

namespace Sys2Proof.Machine

section
variable (s : State)

@[simp] theorem enter_station (st : StationState) : (enter st s).vu.station = st := by
  unfold enter; split <;> simp_all

@[simp] theorem setForeign_foreign (f : Frame) : (setForeign f s).vu.foreign = some f.orig := by
  simp [setForeign]

@[simp] theorem setForeign_linePending (f : Frame) : (setForeign f s).wu.linePending = true := by
  simp [setForeign, raiseLine]

@[simp] theorem raiseLine_linePending : (raiseLine s).wu.linePending = true := rfl

@[simp] theorem raiseState_statePending : (raiseState s).wu.statePending = true := rfl

/-- A change of station state makes STATE pending (R102). -/
theorem enter_statePending {st : StationState} (h : s.vu.station ≠ st) : (enter st s).wu.statePending = true := by
  simp [enter, h]

@[simp] theorem clearTable_tu : (clearTable s).tu = Tu.powerOn := rfl

@[simp] theorem retain_fields :
    (retain s).vu.standing = .retained ∧ (retain s).vu.retainedEpoch = s.vu.view.epoch := ⟨rfl, rfl⟩

@[simp] theorem discard_fields :
    (discard s).vu.standing = .none ∧ (discard s).vu.retainedEpoch = 0 ∧ (discard s).tu = Tu.powerOn := ⟨rfl, rfl, rfl⟩

@[simp] theorem emptyView_view : (emptyView s).vu.view = .empty := rfl

@[simp] theorem setView_view (v : View) : (setView v s).vu.view = v := rfl

@[simp] theorem emptySending_fields : (emptySending s).su = .empty ∧ (emptySending s).lu.deferred = false := ⟨rfl, rfl⟩

/-- LISTENING as it is entered (R105). -/
@[simp] theorem enterListening_fields :
    (enterListening s).vu.station = .listening ∧ (enterListening s).vu.unanswered = 0 ∧
    (enterListening s).vu.probeTimer = none ∧ (enterListening s).vu.probeDue = .join ∧
    (enterListening s).vu.admitTimer = none ∧ (enterListening s).vu.admitExpired = false ∧
    (enterListening s).vu.stallTimer = none ∧ (enterListening s).vu.stallOwed = false ∧
    (enterListening s).vu.leavePending = false ∧ (enterListening s).vu.judged = none := by
  simp [enterListening]

/-- An entry into LISTENING from another state, whole: VU, and STATE pending (R102, R105). -/
theorem enterListening_eq (h : s.vu.station ≠ .listening) :
    enterListening s = (s.setVu { quiet s.vu with station := .listening, probeDue := .join }).setWu
      { s.wu with statePending := true } := by
  simp [enterListening, enter, h, raiseState]
  rfl

/-- LISTENING as START enters it (R63, R103, R105). -/
@[simp] theorem beginListening_fields :
    (beginListening s).vu.station = .listening ∧ (beginListening s).vu.unanswered = 0 ∧
    (beginListening s).vu.probeTimer = none ∧ (beginListening s).vu.probeDue = .join ∧
    (beginListening s).vu.admitTimer = none ∧ (beginListening s).vu.admitExpired = false ∧
    (beginListening s).vu.stallTimer = none ∧ (beginListening s).vu.stallOwed = false ∧
    (beginListening s).vu.leavePending = false ∧ (beginListening s).vu.judged = s.vu.judged := by
  simp [beginListening]

/-- HALTED as it is entered (R115). -/
@[simp] theorem enterHalted_fields :
    (enterHalted s).vu.station = .halted ∧ (enterHalted s).vu.view = .empty ∧ (enterHalted s).vu.unanswered = 0 ∧
    (enterHalted s).vu.probeTimer = none ∧ (enterHalted s).vu.probeDue = .nothing ∧
    (enterHalted s).vu.admitTimer = none ∧ (enterHalted s).vu.admitExpired = false ∧
    (enterHalted s).vu.stallTimer = none ∧ (enterHalted s).vu.stallOwed = false ∧
    (enterHalted s).vu.leavePending = false ∧ (enterHalted s).vu.judged = none := by
  simp [enterHalted]

/-- An answered probe (R105, R118). -/
@[simp] theorem probeAnswered_fields :
    (probeAnswered s).vu.station = .admitting ∧ (probeAnswered s).vu.unanswered = 0 ∧
    (probeAnswered s).vu.probeTimer = none ∧ (probeAnswered s).vu.probeDue = .nothing ∧
    (probeAnswered s).vu.admitTimer = some Config.admitWait ∧ (probeAnswered s).vu.admitExpired = false ∧
    (probeAnswered s).vu.stallTimer = none ∧ (probeAnswered s).vu.stallOwed = false ∧
    (probeAnswered s).vu.leavePending = false ∧ (probeAnswered s).vu.judged = none := by
  simp [probeAnswered]

/-- A probing that begins again (R106). -/
@[simp] theorem restartProbing_fields :
    (restartProbing s).vu.unanswered = 0 ∧ (restartProbing s).vu.probeTimer = none ∧
    (restartProbing s).vu.probeDue = .join := ⟨rfl, rfl, rfl⟩

@[simp] theorem probeUnanswered_probeDue : (probeUnanswered s).vu.probeDue = .nothing := rfl

/-- The station of an entry into MEMBER (R104). -/
@[simp] theorem enterMember_station : (enterMember s).vu.station = .member := by
  simp [enterMember]

@[simp] theorem endAttempt_fields (a : Attempt) :
    (endAttempt a s).su.attempt = none ∧
    (endAttempt a s).lu.deferred = (s.lu.deferred || classOne a.frame.body) := ⟨rfl, rfl⟩

@[simp] theorem setOffer_offer : (setOffer s).su.offer = chosenOffer s := rfl

@[simp] theorem closeWindow_fields :
    (closeWindow s).vu.judged = none ∧ (closeWindow s).lu.mode = .resting ∧ (closeWindow s).lu.driver = .released ∧
    (closeWindow s).lu.asserted = false ∧ (closeWindow s).lu.idleCount = 0 ∧
    (closeWindow s).lu.assertedCount = 0 := ⟨rfl, rfl, rfl, rfl, rfl, rfl⟩

@[simp] theorem lostArbitration_attempt : (lostArbitration s).su.attempt = none := by
  generalize h : lostArbitration s = t
  unfold lostArbitration at h
  dsimp only at h
  (repeat' split at h) <;> subst h <;> simp_all

@[simp] theorem promoteStation_fields :
    (promoteStation s).vu.station = .member ∧ (promoteStation s).vu.standing = .live ∧
    (promoteStation s).vu.retainedEpoch = 0 ∧ (promoteStation s).vu.stallTimer = none ∧
    (promoteStation s).vu.stallOwed = false ∧ (promoteStation s).tu.known = 0 := by
  simp [promoteStation]

@[simp] theorem foundView_fields (f : Frame) :
    (foundView f s).vu.station = .member ∧ (foundView f s).vu.standing = .live ∧
    (foundView f s).vu.retainedEpoch = 0 ∧
    (foundView f s).vu.view = { View.empty with full := only (own s), epoch := f.epoch } ∧
    (foundView f s).vu.unanswered = 0 ∧ (foundView f s).vu.probeTimer = none ∧
    (foundView f s).vu.probeDue = .nothing ∧ (foundView f s).vu.admitTimer = none ∧
    (foundView f s).vu.admitExpired = false ∧ (foundView f s).vu.stallTimer = none ∧
    (foundView f s).vu.stallOwed = false ∧ (foundView f s).vu.leavePending = false ∧
    (foundView f s).vu.judged = none := by
  simp [foundView]

@[simp] theorem admitStation_fields (v : View) :
    (admitStation v s).vu.station = .joining ∧ (admitStation v s).vu.standing = .pending ∧ (admitStation v s).vu.retainedEpoch = 0 ∧
    (admitStation v s).vu.view = v ∧ (admitStation v s).tu = Tu.powerOn ∧ (admitStation v s).vu.unanswered = 0 ∧
    (admitStation v s).vu.probeTimer = none ∧ (admitStation v s).vu.probeDue = .nothing ∧ (admitStation v s).vu.admitTimer = none ∧
    (admitStation v s).vu.admitExpired = false ∧ (admitStation v s).vu.stallTimer = some Config.stallWait ∧
    (admitStation v s).vu.stallOwed = false ∧ (admitStation v s).vu.leavePending = false ∧ (admitStation v s).vu.judged = none := by
  simp [admitStation]

/-- `own` looks at the straps alone. -/
theorem own_congr {s t : State} (h : t.hp.straps = s.hp.straps) : own t = own s := by
  simp [own, h]

/-! ## Withdrawal, halt and LEAVE, by the station state they are taken in -/

/-- A withdrawal from MEMBER (R114). -/
theorem withdraw_member (h : s.vu.station = .member) :
    withdraw s = enterListening (emptyView (retain (emptySending (leaveQueues s)))) := by
  simp [withdraw, h]

/-- A withdrawal from JOINING (R114). -/
theorem withdraw_joining (h : s.vu.station = .joining) :
    withdraw s = enterListening (emptyView (discard (emptySending (leaveQueues s)))) := by
  simp [withdraw, h]

/-- Outside a view a withdrawal has no effect (R113). -/
theorem withdraw_outside (h : inView s.vu.station = false) : withdraw s = s := by
  cases hs : s.vu.station <;> simp_all [withdraw, inView]

/-- A halt in HALTED changes nothing (R115). -/
theorem haltStation_halted (h : s.vu.station = .halted) : haltStation s = s := by
  simp [haltStation, h]

end

end Sys2Proof.Machine
end

