-- ==== Sys2Proof/Laws/Settled.lean ====
section
/-! SUPPORT. The station between frames: the part of `Coherent` that every operation of a window's end keeps, operation by
operation. -/

namespace Sys2Proof.Machine

/-- The laws of a station that has no frame in progress and drives nothing; SU's offer is left out, since `refresh` chooses
it anew. -/
structure Settled (s : State) : Prop where
  free : held s = false
  standing : StandingLaw s
  probe : ProbeLaw s
  number : OwnNumberLaw s
  line : LineLaw s
  driver : s.lu.driver = .released
  mode : s.lu.mode ≠ .sending ∧ s.lu.mode ≠ .window
  attempt : s.su.attempt = none
  judged : s.vu.judged = none

/-- `held` looks at the power and the RST pin alone. -/
theorem held_congr {s t : State} (hp : t.power = s.power) (hr : t.rst = s.rst) : held t = held s := by
  simp [held, hp, hr]

/-- What `Settled` looks at; two states that agree on it are settled alike. -/
theorem Settled.congr {s t : State} (h : Settled s) (hpw : t.power = s.power) (hr : t.rst = s.rst)
    (hv : t.vu = s.vu) (ht : t.tu = s.tu ∨ (t.tu.known = s.tu.known ∧ s.vu.standing ≠ .none))
    (hl : t.lu.driver = s.lu.driver ∧ t.lu.mode = s.lu.mode ∧ t.lu.idleCount = s.lu.idleCount ∧
      t.lu.assertedCount = s.lu.assertedCount ∧ t.lu.stuck = s.lu.stuck ∧ t.lu.asserted = s.lu.asserted)
    (ha : t.su.attempt = s.su.attempt) (hs : t.hp.straps = s.hp.straps) : Settled t := by
  obtain ⟨h1, h2, h3, h4, h5, h6, h7, h8, h9⟩ := h
  obtain ⟨l1, l2, l3, l4, l5, l6⟩ := hl
  refine ⟨by rw [held_congr hpw hr, h1], ?_, ?_, ?_, ?_, by rw [l1, h6], by rw [l2]; exact h7, by rw [ha, h8],
    by rw [hv, h9]⟩
  · unfold StandingLaw at *
    rw [hv]
    rcases ht with ht | ⟨hk, hn⟩
    · rw [ht]; exact h2
    · rw [hk]; exact ⟨h2.1, h2.2.1, h2.2.2.1, h2.2.2.2.1, fun e => absurd e hn, h2.2.2.2.2.2⟩
  · unfold ProbeLaw at *; rw [hv, hs]; exact h3
  · unfold OwnNumberLaw own at *; rw [hv, hs]; exact h4
  · unfold LineLaw at *; rw [l2, l3, l4, l5, l6]; exact h5

section
variable {s : State}

/-- Closes `Settled (op s)` for an operation that touches nothing `Settled` looks at. -/
theorem Settled.setWu (h : Settled s) (x : Wu) : Settled (s.setWu x) := by
  refine h.congr ?_ ?_ ?_ ?_ ?_ ?_ ?_ <;> simp

theorem Settled.setQu (h : Settled s) (x : Qu) : Settled (s.setQu x) := by
  refine h.congr ?_ ?_ ?_ ?_ ?_ ?_ ?_ <;> simp

theorem Settled.retire (h : Settled s) (c : Completion) : Settled (retire c s) := by
  refine h.congr ?_ ?_ ?_ ?_ ?_ ?_ ?_ <;> simp

theorem Settled.settleApplied (h : Settled s) (b : Bool) (q : Request) (x : Applied) (e : Byte) :
    Settled (settleApplied b q x e s) := by
  refine h.congr ?_ ?_ ?_ ?_ ?_ ?_ ?_ <;> simp

theorem Settled.report (h : Settled s) (c : CellNo) : Settled (report c s) := by
  refine h.congr ?_ ?_ ?_ ?_ ?_ ?_ ?_ <;> simp

theorem Settled.returnItem (h : Settled s) (i : Item) : Settled (returnItem i s) := by
  refine h.congr ?_ ?_ ?_ ?_ ?_ ?_ ?_ <;> simp

theorem Settled.setRecord (h : Settled s) (i : Item) (r : AttemptRec) : Settled (setRecord i r s) := by
  refine h.congr ?_ ?_ ?_ ?_ ?_ ?_ ?_ <;> simp

theorem Settled.clearHistories (h : Settled s) : Settled (clearHistories s) := by
  refine h.congr ?_ ?_ ?_ ?_ ?_ ?_ ?_ <;> simp

theorem Settled.oweDrop (h : Settled s) (i : Item) (m : Mask) : Settled (oweDrop i m s) := by
  refine h.congr ?_ ?_ ?_ ?_ ?_ ?_ ?_ <;> simp

theorem Settled.refresh (h : Settled s) : Settled (refresh s) := by
  refine h.congr ?_ ?_ ?_ ?_ ?_ ?_ ?_ <;> simp

theorem Settled.putCell (h : Settled s) (c : CellNo) (r : Cell) (hn : s.vu.standing ≠ .none) :
    Settled (putCell c r s) := by
  refine h.congr ?_ ?_ ?_ (.inr ?_) ?_ ?_ ?_ <;> simp [hn]

theorem Settled.releaseClaims (h : Settled s) (m : Mask) (hn : s.vu.standing ≠ .none) :
    Settled (releaseClaims m s) := by
  refine h.congr ?_ ?_ ?_ (.inr ?_) ?_ ?_ ?_ <;> simp [hn]

/-- A station of a view has a standing. -/
theorem StandingLaw.not_none (h : StandingLaw s) (hv : inView s.vu.station = true) : s.vu.standing ≠ .none := by
  intro e
  unfold StandingLaw at h
  rw [e] at h
  simp [inView] at h hv
  rcases hv with hv | hv <;> simp_all

/-! ## Withdrawal and halt -/

/-- LISTENING or HALTED as they are entered is settled where the standing fits. -/
theorem Settled.outside {t : State} (hf : held t = false) (hst : t.vu.station = .halted ∨ t.vu.station = .listening)
    (hsd : t.vu.standing = .none ∨ t.vu.standing = .retained) (hk : t.tu.known = 0)
    (he : t.vu.standing = .none → t.vu.retainedEpoch = 0 ∧ t.tu.cells = Tu.powerOn.cells) (hv : t.vu.view = .empty)
    (hu : t.vu.unanswered = 0) (hp : t.vu.probeTimer = none)
    (hd : t.vu.probeDue = (if t.vu.station = .listening then .join else .nothing))
    (ha : t.vu.admitTimer = none ∧ t.vu.admitExpired = false ∧ t.vu.stallTimer = none ∧ t.vu.stallOwed = false ∧
      t.vu.leavePending = false ∧ t.vu.judged = none)
    (hl : LineLaw t) (hdr : t.lu.driver = .released) (hm : t.lu.mode ≠ .sending ∧ t.lu.mode ≠ .window)
    (hat : t.su.attempt = none) : Settled t := by
  obtain ⟨a1, a2, a3, a4, a5, a6⟩ := ha
  refine ⟨hf, ?_, ?_, ?_, hl, hdr, hm, hat, a6⟩
  · unfold StandingLaw
    rcases hst with h | h <;> rcases hsd with h' | h' <;> simp_all [inView]
  · unfold ProbeLaw
    rcases hst with h | h <;> simp_all
  · unfold OwnNumberLaw
    rcases hst with h | h <;> simp_all

/-- A withdrawal leaves a settled station (R114). -/
theorem Settled.withdraw (h : Settled s) : Settled (withdraw s) := by
  cases hs : s.vu.station
  case member =>
    have hst := h.standing
    unfold StandingLaw at hst
    have hl := h.line
    unfold LineLaw at hl
    rw [withdraw_member s hs]
    apply Settled.outside <;> simp_all [held_congr (s := s), h.free, LineLaw, h.driver, h.mode, Su.empty]
  case joining =>
    have hst := h.standing
    unfold StandingLaw at hst
    have hl := h.line
    unfold LineLaw at hl
    rw [withdraw_joining s hs]
    apply Settled.outside <;> simp_all [held_congr (s := s), h.free, LineLaw, h.driver, h.mode, Su.empty, Tu.powerOn]
  all_goals rw [withdraw_outside s (by simp [hs, inView])]; exact h

/-- A halted line is settled. -/
theorem haltLine_settled {l : Lu} (hm : l.mode ≠ .sending ∧ l.mode ≠ .window) (hi : Config.idleMin ≤ l.idleCount → l.mode = .resting)
    (hs : l.stuck = true → l.mode = .waitIdle ∧ l.asserted = true) (h1 : l.idleCount ≤ Config.barrierIdle)
    (h2 : l.assertedCount ≤ Config.stuckCount) :
    (haltLine l).idleCount ≤ Config.barrierIdle ∧ (haltLine l).assertedCount ≤ Config.stuckCount ∧
    (Config.idleMin ≤ (haltLine l).idleCount → (haltLine l).mode = .resting) ∧
    ((haltLine l).stuck = true → (haltLine l).mode = .waitIdle ∧ (haltLine l).asserted = true) ∧
    (haltLine l).mode ≠ .sending ∧ (haltLine l).mode ≠ .window := by
  unfold haltLine
  cases h : l.mode <;> simp_all

/-- The halt leaves a settled station (R115). -/
theorem Settled.haltStation (h : Settled s) : Settled (haltStation s) := by
  have hst := h.standing
  unfold StandingLaw at hst
  have hl := h.line
  unfold LineLaw at hl
  have hk := haltLine_settled h.mode hl.2.2.1 hl.2.2.2 hl.1 hl.2.1
  cases hs : s.vu.station
  case halted => rw [haltStation_halted s hs]; exact h
  all_goals
    unfold Machine.haltStation haltStanding
    simp only [hs, leaveQueues_frame, reduceCtorEq, if_false]
    apply Settled.outside <;> simp_all [held_congr (s := s), h.free, LineLaw, Su.empty, Tu.powerOn]
  all_goals (cases hh : s.vu.standing <;> simp_all)

/-- This station's own LEAVE leaves it settled (R112). -/
theorem Settled.leaveOwn (h : Settled s) (hs : s.vu.station = .member) : Settled (leaveOwn s) := by
  have hst := h.standing
  unfold StandingLaw at hst
  have hl := h.line
  unfold LineLaw at hl
  unfold Machine.leaveOwn
  apply Settled.outside <;> simp_all [held_congr (s := s), h.free, LineLaw, h.driver, h.mode, Su.empty]

/-- LISTENING entered again from ADMITTING (R118). -/
theorem Settled.enterListening (h : Settled s) (hs : s.vu.station = .admitting) : Settled (enterListening s) := by
  have hst := h.standing
  unfold StandingLaw at hst
  have hl := h.line
  unfold LineLaw at hl
  apply Settled.outside <;> simp_all [held_congr (s := s), h.free, LineLaw, h.driver, h.mode, h.attempt, inView]
  all_goals (cases hh : s.vu.standing <;> simp_all)

/-! ## Probing -/

/-- An unanswered probe (R105). -/
theorem Settled.probeUnanswered (h : Settled s) (hs : s.vu.station = .listening) : Settled (probeUnanswered s) := by
  obtain ⟨h1, h2, h3, h4, h5, h6, h7, h8, h9⟩ := h
  constructor <;>
    simp_all [held_congr (s := s), StandingLaw, ProbeLaw, OwnNumberLaw, LineLaw, Machine.probeUnanswered, held]
  split <;> simp_all [Config.probeLimit] <;> omega

/-- An answered probe (R105, R118). -/
theorem Settled.probeAnswered (h : Settled s) (hs : s.vu.station = .listening) : Settled (probeAnswered s) := by
  obtain ⟨h1, h2, h3, h4, h5, h6, h7, h8, h9⟩ := h
  constructor <;>
    simp_all [held_congr (s := s), StandingLaw, ProbeLaw, OwnNumberLaw, LineLaw, inView]

/-- Probing begun again (R106, R107). -/
theorem Settled.restartProbing (h : Settled s) (hs : s.vu.station = .listening) : Settled (restartProbing s) := by
  obtain ⟨h1, h2, h3, h4, h5, h6, h7, h8, h9⟩ := h
  constructor <;>
    simp_all [held_congr (s := s), StandingLaw, ProbeLaw, OwnNumberLaw, LineLaw, inView]

/-- The admission wait's end, when it waited for the window's (R118). -/
theorem Settled.takeExpiry (h : Settled s) : Settled (takeExpiry s) := by
  unfold Machine.takeExpiry
  split
  · exact h.enterListening (by simp_all)
  · exact h

/-! ## After an attempt -/

/-- STALL_WAIT restarted (R127). -/
theorem Settled.restartStall (h : Settled s) : Settled (restartStall s) := by
  unfold Machine.restartStall
  split
  · obtain ⟨h1, h2, h3, h4, h5, h6, h7, h8, h9⟩ := h
    constructor <;> simp_all [held, StandingLaw, ProbeLaw, OwnNumberLaw, LineLaw, inView, own]
  · exact h

/-- The attempt limit (R90 to R92). -/
theorem Settled.attemptLimit (h : Settled s) (i : Item) : Settled (attemptLimit i s) := by
  unfold Machine.attemptLimit
  split
  · exact h.returnItem i
  · cases i <;> simp only
    case request t => split; exacts [h.retire _, h]
    case claim t => split; exacts [h.retire _, h]
    case drop => exact h.withdraw
    case leave => exact h.haltStation
    case roster => exact h.setRecord _ _
    case transfer => exact h.setRecord _ _
    case stallJoin => exact (h.setRecord _ _).restartStall
    all_goals exact h

/-- The drop decision and the attempt limit (R85 to R92). -/
theorem Settled.decideItem (h : Settled s) (i : Item) : Settled (decideItem i s) := by
  unfold Machine.decideItem
  split
  · exact h.withdraw
  · exact (h.oweDrop _ _).attemptLimit i
  · exact h.attemptLimit i

/-- An incomplete FOUND (R93). -/
theorem Settled.foundIncomplete (h : Settled s) (hs : s.vu.station = .listening) : Settled (foundIncomplete s) := by
  unfold Machine.foundIncomplete
  dsimp only
  split
  · exact h.setRecord _ _
  · exact (h.setRecord _ _).restartProbing (by simpa using hs)

/-- What follows a recorded miss (R85, R95, R142). -/
theorem Settled.weighMiss (h : Settled s) (i : Item) : Settled (weighMiss i s) := by
  unfold Machine.weighMiss
  split
  · split
    · exact h.retire _
    · exact h.decideItem i
  · exact h.decideItem i

/-- An incomplete attempt (R83 to R95). -/
theorem Settled.incompleteAttempt (h : Settled s) {i : Item} (hi : itemFits i s.vu.station = true) (m : Mask) :
    Settled (incompleteAttempt i m s) := by
  cases i
  case probe => exact h.probeUnanswered (by simpa [itemFits] using hi)
  case found => exact h.foundIncomplete (by simpa [itemFits] using hi)
  all_goals (unfold Machine.incompleteAttempt; exact (h.setRecord _ _).weighMiss _)

/-- A complete attempt's system item (R84). -/
theorem Settled.completeItem (h : Settled s) (i : Item) : Settled (completeItem i s) := by
  have hdrop : Settled (s.setSu { s.su with owedDrop := none }) := by
    refine h.congr ?_ ?_ ?_ ?_ ?_ ?_ ?_ <;> simp
  have hleave : Settled (s.setVu { s.vu with leavePending := false }) := by
    obtain ⟨h1, h2, h3, h4, h5, h6, h7, h8, h9⟩ := h
    constructor <;> simp_all [held, StandingLaw, ProbeLaw, OwnNumberLaw, LineLaw, own]
  cases i <;> unfold Machine.completeItem <;> simp only
  case drop => exact hdrop.setRecord _ _
  case leave => exact hleave.setRecord _ _
  case stallJoin => exact (h.setRecord _ _).restartStall
  case roster => exact h.setRecord _ _
  case transfer => exact h.setRecord _ _
  case found => exact h.setRecord _ _
  all_goals exact h

/-! ## A complete frame -/

/-- Whether the settled station is in a view does not change the fields that a new view record touches. -/
theorem Settled.setView (h : Settled s) (hv : inView s.vu.station = true) {v : View}
    (hf : s.vu.station = .member → has v.full (own s) = true)
    (hj : s.vu.station = .joining → has v.joiners (own s) = true) : Settled (setView v s) := by
  obtain ⟨h1, h2, h3, h4, h5, h6, h7, h8, h9⟩ := h
  constructor <;> simp_all [held, StandingLaw, ProbeLaw, OwnNumberLaw, LineLaw, Machine.setView, own]

theorem has_or (a b : Mask) (n : Station) : has (a ||| b) n = (has a n || has b n) := by simp [has]

theorem has_without (a b : Mask) (n : Station) : has (without a b) n = (has a n && !has b n) := by
  simp [has, without, n.isLt]

theorem has_only (m n : Station) : has (only m) n = (m == n) := by
  revert m n; decide

theorem Settled.settleOwn (h : Settled s) (item : Option Item) (x : Applied) (e : Byte) :
    Settled (settleOwn item x e s) := by
  refine h.congr ?_ ?_ ?_ ?_ ?_ ?_ ?_ <;> simp

/-- A cell operation applied (R11, R12). -/
theorem Settled.applyCell (h : Settled s) (op : CellOp) (c : CellNo) (a b : Half) (f : Frame) (item : Option Item) :
    Settled (applyCell op c a b f item s) := by
  unfold Machine.applyCell
  dsimp only
  split
  · rename_i hl
    have h1 := (h.putCell c (applyOp op f.orig a b (cellAt s c)).record (by simp [hl])).settleOwn item
      (applyOp op f.orig a b (cellAt s c)) f.epoch
    split
    · exact h1.report c
    · exact h1
  · rename_i hl
    split
    · exact h.putCell c _ (by simp [hl])
    · exact h
  all_goals exact h

/-- The view after the promotion holds every station of the view (R125). -/
theorem promoteView_full (v : View) : (promoteView v).full = everyone v := rfl

/-- A TRANSFER applied (R124, R125). -/
theorem Settled.moveRound (h : Settled s) (k : BitVec 4) (images : Vector Cell 8) :
    Settled (moveRound k images s) := by
  have hst := h.standing
  have hn := h.number
  have hp := h.probe
  have hl := h.line
  unfold Machine.moveRound
  dsimp only
  split
  · rename_i hs
    split
    · unfold promoteJoining
      split
      · obtain ⟨h1, h2, h3, h4, h5, h6, h7, h8, h9⟩ := h
        constructor <;>
          simp_all [held_congr (s := s), StandingLaw, ProbeLaw, OwnNumberLaw, LineLaw, own, inView, promoteView_full,
            everyone, has_or]
      · exact h.withdraw
    · apply Settled.restartStall
      have h0 : Settled (Machine.setView (advanceRound s.vu.view) s) :=
        h.setView (by simp [inView, hs]) (by simp [hs]) (fun _ => by simpa [advanceRound] using hn.2 hs)
      obtain ⟨h1, h2, h3, h4, h5, h6, h7, h8, h9⟩ := h0
      constructor <;> simp_all [held_congr (s := s), StandingLaw, ProbeLaw, OwnNumberLaw, LineLaw, own, inView]
  · rename_i hs
    split
    · exact h.setView (by simp [inView, hs])
        (fun _ => by simp [promoteView_full, everyone, has_or, hn.1 hs]) (by simp [hs])
    · exact h.setView (by simp [inView, hs]) (fun _ => by simpa [advanceRound] using hn.1 hs) (by simp [hs])
  all_goals exact h

/-- A TRANSFER applied, its old record cleared (R94). -/
theorem Settled.applyTransfer (h : Settled s) (k : BitVec 4) (images : Vector Cell 8) :
    Settled (applyTransfer k images s) :=
  (h.setRecord .transfer .fresh).moveRound k images

/-- A ROSTER applied (R121). -/
theorem Settled.applyRoster (h : Settled s) (hv : inView s.vu.station = true) : Settled (applyRoster s) := by
  unfold Machine.applyRoster
  refine Settled.restartStall (h.setView hv (fun hs => ?_) (fun hs => ?_))
  · exact h.number.1 hs
  · exact h.number.2 hs

/-- A JOIN applied (R108, R109). -/
theorem Settled.applyJoin (h : Settled s) (hv : inView s.vu.station = true) (n : Station) : Settled (applyJoin n s) := by
  unfold Machine.applyJoin
  split
  · exact h.withdraw
  · rename_i hw
    have h1 : Settled (Machine.setView (joinView n s.vu.view) s) := by
      refine h.setView hv (fun hs => ?_) (fun hs => ?_)
      · have hne : n ≠ own s := by simpa [joinWithdraws, hs] using hw
        have := h.number.1 hs
        unfold joinView
        split <;> simp_all [has_without, has_only]
      · have := h.number.2 hs
        unfold joinView
        split <;> simp_all [has_or]
    dsimp only
    split
    · exact h1.releaseClaims _ (by simpa using h.standing.not_none hv)
    all_goals exact h1

/-- A view without some stations still holds the others (R110, R112). -/
theorem removeFromView_has (m : Mask) (v : View) (n : Station) (hn : has m n = false) :
    has (removeFromView m v).full n = has v.full n ∧ has (removeFromView m v).joiners n = has v.joiners n := by
  unfold removeFromView endEmptyRound
  split <;> simp [has_without, hn]

/-- A DROP applied (R89, R110, R127). -/
theorem Settled.applyDrop (h : Settled s) (hv : inView s.vu.station = true) (m : Mask) : Settled (applyDrop m s) := by
  unfold Machine.applyDrop
  split
  · exact h.withdraw
  · rename_i hm
    have hm : has m (own s) = false := by simpa using hm
    obtain ⟨e1, e2⟩ := removeFromView_has m s.vu.view (own s) hm
    exact (((h.setView hv (fun hs => by rw [e1]; exact h.number.1 hs) (fun hs => by rw [e2]; exact h.number.2 hs)).releaseClaims
      _ (by simpa using h.standing.not_none hv)).restartStall).clearHistories

/-- Another station's LEAVE applied (R112). -/
theorem Settled.applyLeaveOther (h : Settled s) (hv : inView s.vu.station = true) (n : Station) :
    Settled (applyLeaveOther n s) := by
  unfold Machine.applyLeaveOther
  split
  · exact h.withdraw
  · rename_i hne
    obtain ⟨e1, e2⟩ := removeFromView_has (only n) s.vu.view (own s) (by simpa [has_only] using hne)
    exact (h.setView hv (fun hs => by rw [e1]; exact h.number.1 hs) (fun hs => by rw [e2]; exact h.number.2 hs)).releaseClaims
      _ (by simpa using h.standing.not_none hv)

/-- A complete frame applied by its kind (R74). An own LEAVE is sent at MEMBER alone. -/
theorem Settled.applyFrame (h : Settled s) (hv : inView s.vu.station = true) (f : Frame) (item : Option Item)
    (hi : item = some .leave → s.vu.station = .member) : Settled (applyFrame f item s) := by
  unfold Machine.applyFrame
  split
  · exact h.applyCell ..
  · exact h.applyTransfer ..
  · exact h.applyRoster hv
  · exact h.applyJoin hv _
  · exact h.applyDrop hv _
  · split
    · exact h.leaveOwn (hi (by assumption))
    · exact h.applyLeaveOther hv _
  · exact h

/-! ## The window's end -/

/-- This station's own FOUND (R16, R107). -/
theorem Settled.foundView (h : Settled s) (f : Frame) (hs : s.vu.station = .listening) : Settled (foundView f s) := by
  have hst := h.standing
  obtain ⟨h1, h2, h3, h4, h5, h6, h7, h8, h9⟩ := h
  constructor <;>
    simp_all [held_congr (s := s), StandingLaw, ProbeLaw, OwnNumberLaw, LineLaw, inView, own, has_only]

/-- The ROSTER that admits the station (R122). -/
theorem Settled.admitStation (h : Settled s) {v : View} (hv : has v.joiners (own s) = true) : Settled (admitStation v s) := by
  obtain ⟨h1, h2, h3, h4, h5, h6, h7, h8, h9⟩ := h
  constructor <;>
    simp_all [held_congr (s := s), StandingLaw, ProbeLaw, OwnNumberLaw, LineLaw, inView, own, Tu.powerOn]

theorem admits_joiner {j : Judged} {slots : Mask} {v : View} (h : admits j slots s = some v) :
    has v.joiners (own s) = true := by
  unfold admits at h
  (repeat' split at h) <;> simp_all
  exact h ▸ by simp_all

theorem Settled.endAdmitting (h : Settled s) (j : Judged) (slots : Mask) : Settled (endAdmitting j slots s) := by
  unfold Machine.endAdmitting
  split
  · rename_i hv; exact h.admitStation (admits_joiner hv)
  · exact h.takeExpiry

theorem Settled.endOtherWindow (h : Settled s) (hv : inView s.vu.station = true) (j : Judged) (slots : Mask) :
    Settled (endOtherWindow j slots s) := by
  unfold Machine.endOtherWindow
  split
  · exact h.applyFrame hv _ _ (by simp)
  · split
    · exact h.withdraw
    · exact h

theorem endAttempt_settled (h : Settled (s.setSu { s.su with attempt := none })) (a : Attempt) :
    Settled (endAttempt a s) := by
  refine h.congr ?_ ?_ ?_ ?_ ?_ ?_ ?_ <;> simp

theorem endOwnListening_settled (h : Settled (s.setSu { s.su with attempt := none })) {a : Attempt} (slots : Mask)
    (hs : s.vu.station = .listening) (hi : itemFits a.item s.vu.station = true) :
    Settled (endOwnListening a slots s) := by
  have h1 := endAttempt_settled h a
  have hs1 : (endAttempt a s).vu.station = .listening := by simpa using hs
  unfold Machine.endOwnListening
  dsimp only
  split
  · split
    · exact (h1.completeItem _).foundView _ (by simpa [Machine.completeItem] using hs)
    · split
      · exact h1.probeAnswered hs1
      · exact h1.probeUnanswered hs1
    all_goals exact h1
  · exact h1.incompleteAttempt (by simpa using hi) _

theorem completeItem_station (i : Item) : (completeItem i s).vu.station = s.vu.station := by
  simp

theorem endOwnWindow_settled (h : Settled (s.setSu { s.su with attempt := none })) (j : Judged) {a : Attempt}
    (slots : Mask) (hv : inView s.vu.station = true) (hi : itemFits a.item s.vu.station = true) :
    Settled (endOwnWindow j a slots s) := by
  have h1 := endAttempt_settled h a
  unfold Machine.endOwnWindow
  dsimp only
  split
  · refine (h1.completeItem _).applyFrame (by simpa using hv) _ _ (fun e => ?_)
    have e : a.item = .leave := by simpa using e
    simpa [e, itemFits] using hi
  · exact h1.incompleteAttempt (by simpa using hi) _

/-- The end of a window, before `refresh`, is settled. The hypotheses are what `Coherent` says of a frame under judgement. -/
theorem disposeFrame_settled (h : Settled (s.setSu { s.su with attempt := none })) {j : Judged} (slots : Mask)
    (hst : j.station = s.vu.station) (hown : s.su.attempt.isSome = j.own)
    (hfit : ∀ a, s.su.attempt = some a → itemFits a.item s.vu.station = true) : Settled (disposeFrame j slots s) := by
  have h0 : s.su.attempt = none → Settled s := fun e => by
    refine h.congr ?_ ?_ ?_ ?_ ?_ ?_ ?_ <;> simp [e]
  cases ha : s.su.attempt with
  | none =>
    have hs := h0 ha
    have ho : j.own = false := by rw [← hown, ha]; rfl
    unfold Machine.disposeFrame
    rw [ha, hst, ho]
    cases hj : s.vu.station
    case halted => exact hs
    case listening => exact hs
    case admitting => exact hs.endAdmitting ..
    case joining => exact hs.endOtherWindow (by simp [hj, inView]) ..
    case member => exact hs.endOtherWindow (by simp [hj, inView]) ..
  | some a =>
    have hf := hfit a ha
    have ho : j.own = true := by rw [← hown, ha]; rfl
    unfold Machine.disposeFrame
    rw [ha, hst, ho]
    cases hj : s.vu.station <;> simp only
    case halted => exfalso; rw [hj] at hf; revert hf; cases a.item <;> simp [itemFits, inView]
    case admitting => exfalso; rw [hj] at hf; revert hf; cases a.item <;> simp [itemFits, inView]
    case listening => exact endOwnListening_settled h slots hj hf
    case joining => exact endOwnWindow_settled h j slots (by simp [hj, inView]) hf
    case member => exact endOwnWindow_settled h j slots (by simp [hj, inView]) hf

/-! ## Faults -/

theorem Settled.faultOther (h : Settled s) (j : Judged) (asserted : Bool) : Settled (faultOther j asserted s) := by
  unfold Machine.faultOther
  split
  · exact h.withdraw
  · exact h

theorem faultOwn_settled (h : Settled (s.setSu { s.su with attempt := none })) (j : Judged) (asserted : Bool)
    (hfit : ∀ a, s.su.attempt = some a → itemFits a.item s.vu.station = true) : Settled (faultOwn j asserted s) := by
  unfold Machine.faultOwn
  split
  · rename_i ha
    refine h.congr ?_ ?_ ?_ ?_ ?_ ?_ ?_ <;> simp [ha]
  · rename_i a ha
    have h1 := endAttempt_settled h a
    split
    · exact h1.withdraw
    · exact h1.incompleteAttempt (by simpa using hfit a ha) _

theorem disposeFault_settled (h : Settled (s.setSu { s.su with attempt := none })) {j : Judged} (asserted : Bool)
    (hown : s.su.attempt.isSome = j.own) (hfit : ∀ a, s.su.attempt = some a → itemFits a.item s.vu.station = true) :
    Settled (disposeFault j asserted s) := by
  unfold Machine.disposeFault
  split
  · exact faultOwn_settled h j asserted hfit
  · rename_i ho
    have ha : s.su.attempt = none := by
      cases e : s.su.attempt <;> simp_all
    have hs : Settled s := by
      refine h.congr ?_ ?_ ?_ ?_ ?_ ?_ ?_ <;> simp [ha]
    split
    · exact hs
    · exact hs
    · split
      · rename_i he; exact hs.enterListening he.2
      · exact hs.takeExpiry
    · exact hs.faultOther ..
    · exact hs.faultOther ..

theorem selfFault_settled (h : Settled (s.setSu { s.su with attempt := none }))
    (hfit : ∀ a, s.su.attempt = some a → itemFits a.item s.vu.station = true) : Settled (selfFault s) := by
  unfold Machine.selfFault
  split
  · rename_i ha
    refine h.congr ?_ ?_ ?_ ?_ ?_ ?_ ?_ <;> simp [ha]
  · rename_i a ha
    exact (endAttempt_settled h a).incompleteAttempt (by simpa using hfit a ha) _

end
end Sys2Proof.Machine
end

