-- ==== Sys2Proof/Laws/Cells.lean ====
section
/-! SUPPORT. What each operation on the table does to one record and one chunk-known flag. -/

namespace Sys2Proof.Machine

variable {s t : State}

/-- Two states with equal records, cell by cell, have equal tables of records. -/
theorem cells_ext (h : ∀ c, cellAt s c = cellAt t c) : s.tu.cells = t.tu.cells := by
  apply Vector.ext
  intro i hi
  have e := h (BitVec.ofNat 7 i)
  have hm : i % 2 ^ 7 = i := Nat.mod_eq_of_lt (by omega)
  simp only [cellAt, BitVec.toNat_ofNat, hm] at e
  exact e

/-- `cellAt` looks at the table alone. -/
theorem cellAt_congr (h : t.tu.cells = s.tu.cells) (c : CellNo) : cellAt t c = cellAt s c := by
  simp [cellAt, h]

/-- A read after a write of a record: the record written in its own cell, every other cell as it was. -/
theorem cellAt_putCell (c d : CellNo) (r : Cell) (s : State) :
    cellAt (putCell c r s) d = if d = c then r else cellAt s d := by
  by_cases h : d = c
  · subst h; simp [cellAt, putCell]
  · have : ¬c.toNat = d.toNat := fun e => h (BitVec.eq_of_toNat_eq e.symm)
    simp [cellAt, putCell, h, Vector.getElem_set, this]

/-- The chunk of a cell, as a number (R1). -/
theorem chunkOf_toNat (c : CellNo) : (chunkOf c).toNat = c.toNat / 8 := by
  have := c.isLt
  simp [chunkOf, Nat.shiftRight_eq_div_pow]
  omega

/-- The records after a release (R16, R17). -/
theorem cellAt_freeCells (frees : CellNo → Bool) (s : State) (c : CellNo) :
    cellAt (freeCells frees s) c
      = if frees c then { cellAt s c with holder := none, version := (cellAt s c).version + 1 } else cellAt s c := by
  have hc : BitVec.ofNat 7 c.toNat = c := by simp
  simp only [cellAt, freeCells, State.setTu_tu, bank_getElem, freedRecord, hc, writeHolder]

theorem foldl_report_tu (l : List CellNo) (s : State) : (l.foldl (fun t c => report c t) s).tu = s.tu := by
  induction l generalizing s with
  | nil => rfl
  | cons c l ih => rw [List.foldl_cons, ih]; simp

/-- The records after a claim release (R17): the reports that follow it change no record. -/
theorem cellAt_releaseClaims (gone : Mask) (s : State) (c : CellNo) :
    cellAt (releaseClaims gone s) c
      = if releaseFrees gone s c then { cellAt s c with holder := none, version := (cellAt s c).version + 1 }
        else cellAt s c := by
  rw [← cellAt_freeCells]
  apply cellAt_congr
  simp only [releaseClaims]
  split
  · rw [foldl_report_tu]
  · rfl

/-- A cell held by a station of a set. -/
theorem heldBy_iff (gone : Mask) (r : Cell) : heldBy gone r = true ↔ ∃ h, r.holder = some h ∧ has gone h = true := by
  unfold heldBy
  split <;> simp_all

/-- A cell held by one station. -/
theorem heldBy_only (n : Station) (r : Cell) : heldBy (only n) r = true ↔ r.holder = some n := by
  rw [heldBy_iff]
  constructor
  · rintro ⟨h, h1, h2⟩
    rw [has_only] at h2
    rw [h1, beq_iff_eq.1 h2]
  · intro h
    exact ⟨n, h, by rw [has_only]; simp⟩

/-- A set that holds exactly one station's number. -/
theorem mask_ext {a b : Mask} (h : ∀ n, has a n = has b n) : a = b := by
  apply BitVec.eq_of_getLsbD_eq
  intro i hi
  have e := h (BitVec.ofNat 5 i)
  have hm : i % 2 ^ 5 = i := Nat.mod_eq_of_lt (by omega)
  simpa only [has, BitVec.toNat_ofNat, hm] using e

/-- A set without any station is empty. -/
theorem mask_eq_zero_iff (m : Mask) : m = 0 ↔ ∀ n, has m n = false :=
  ⟨fun h n => by simp [h, has], fun h => mask_ext fun n => by rw [h n]; simp [has]⟩

/-- A set within another. -/
theorem within_iff (a b : Mask) : within a b = true ↔ ∀ n, has a n = true → has b n = true := by
  simp only [within, beq_iff_eq, mask_eq_zero_iff, has_without]
  constructor <;> intro h n <;> have := h n <;> cases ha : has a n <;> cases hb : has b n <;> simp_all

/-- The records after a chunk replacement (R14): the eight images in the chunk's cells, every other record as it was. -/
theorem cellAt_replaceChunk (k : BitVec 4) (images : Vector Cell 8) (s : State) (c : CellNo) :
    cellAt (replaceChunk k images s) c
      = if c.toNat / 8 = k.toNat then images[c.toNat % 8]'(Nat.mod_lt _ (by decide)) else cellAt s c := by
  simp only [cellAt, replaceChunk, State.setTu_tu, bank_getElem]
  rfl

/-- The chunk-known flags after a chunk replacement (R8, R14). -/
theorem known_replaceChunk (k m : BitVec 4) (images : Vector Cell 8) (s : State) :
    (replaceChunk k images s).tu.known.getLsbD m.toNat = (decide (m = k) || s.tu.known.getLsbD m.toNat) := by
  have hm := m.isLt
  have hk := k.isLt
  have e : (m = k) ↔ m.toNat = k.toNat := ⟨fun h => by rw [h], BitVec.eq_of_toNat_eq⟩
  have h16 : decide (m.toNat < 16) = true := by simp; omega
  have h1 : (1#16).getLsbD (m.toNat - k.toNat) = decide (m.toNat - k.toNat = 0) := by simp
  simp only [replaceChunk, State.setTu_tu, BitVec.getLsbD_or, BitVec.getLsbD_shiftLeft, h16, h1, Bool.true_and, e]
  by_cases h : m.toNat = k.toNat
  · simp [h]
  · by_cases h2 : m.toNat < k.toNat
    · simp [h, h2]
    · have : ¬m.toNat - k.toNat = 0 := by omega
      simp [h, this]

/-- Every chunk known once one more is, exactly when every other chunk was (R15, R125). -/
theorem allKnown_iff (k : BitVec 4) (images : Vector Cell 8) (s : State) :
    (replaceChunk k images s).tu.known = BitVec.allOnes 16 ↔ ∀ m, m ≠ k → s.tu.known.getLsbD m.toNat = true := by
  have ones : ∀ i, i < 16 → (BitVec.allOnes 16).getLsbD i = true := by
    intro i hi
    rw [BitVec.getLsbD_allOnes]
    exact decide_eq_true hi
  constructor
  · intro h m hm
    have e := known_replaceChunk k m images s
    rw [h, ones _ m.isLt, decide_eq_false hm, Bool.false_or] at e
    exact e.symm
  · intro h
    apply BitVec.eq_of_getLsbD_eq
    intro i hi
    have e := known_replaceChunk k (BitVec.ofNat 4 i) images s
    have hm : i % 2 ^ 4 = i := Nat.mod_eq_of_lt (by omega)
    simp only [BitVec.toNat_ofNat, hm] at e
    rw [e, ones i hi]
    by_cases hk : BitVec.ofNat 4 i = k
    · rw [decide_eq_true hk, Bool.true_or]
    · have := h _ hk
      simp only [BitVec.toNat_ofNat, hm] at this
      rw [this, Bool.or_true]

end Sys2Proof.Machine
end

