-- ==== Sys2Proof/Laws/Coherent.lean ====
section
/-! SUPPORT. That each event of the line, the timers and the host port keeps the laws of one station. -/

namespace Sys2Proof.Machine

section
variable {s : State}

/-! ## Offers -/

/-- An item that SU has fits the station state (R79). -/
theorem itemsInOrder_fits {i : Item} (h : i ∈ itemsInOrder s) : itemFits i s.vu.station = true := by
  unfold itemsInOrder wokenItem headItem at h
  cases hs : s.vu.station <;> simp only [hs] at h ⊢
  case member =>
    (repeat' split at h) <;> simp_all [itemFits, inView]
    all_goals (rcases h with h | h | h | h | h | h <;> simp_all [itemFits, inView])
  case joining =>
    (repeat' split at h) <;> simp_all [itemFits, inView]
    all_goals (rcases h with h | h <;> simp_all [itemFits, inView])
  case listening =>
    split at h <;> simp_all [itemFits]
  all_goals simp at h

/-- What SU chooses to offer fits the station state and is no class-1 item while DEFERRED is set (R79, R80). -/
theorem chosenOffer_fits {i : Item} (h : chosenOffer s = some i) :
    itemFits i s.vu.station = true ∧ ¬(itemClassOne i = true ∧ s.lu.deferred = true) := by
  unfold chosenOffer at h
  split at h
  · simp at h
  · refine ⟨itemsInOrder_fits (List.mem_of_find?_eq_some h), ?_⟩
    have := List.find?_some h
    simp_all
    intro hc; simpa [hc] using this

/-- SU chooses from what the station state, the view, SU's and QU's parts and DEFERRED say. -/
theorem chosenOffer_pruneItems_fits {i : Item} (h : chosenOffer (pruneItems s) = some i) :
    itemFits i s.vu.station = true ∧ ¬(itemClassOne i = true ∧ s.lu.deferred = true) := by
  simpa using chosenOffer_fits h

@[simp] theorem refresh_attempt : (refresh s).su.attempt = s.su.attempt := by simp

theorem refresh_offer : (refresh s).su.offer = chosenOffer (pruneItems s) := rfl

theorem Coherent.line (h : Coherent s) : LineLaw s := h.2.2.2.2.2.2.1

/-- The hypotheses of `Coherent` that a change of SU's items alone cannot touch. -/
theorem coherent_refresh_of (h1 : s.vu.station = .halted → s.lu.driver = .released ∧ s.su.attempt = none)
    (h2 : held s = false) (h3 : StandingLaw s) (h4 : ProbeLaw s) (h5 : OwnNumberLaw s)
    (h6 : s.su.attempt.isSome = true ↔ s.lu.mode = .sending ∨ (s.lu.mode = .window ∧ ownWindow s.vu.judged = true))
    (h7 : ∀ a, s.su.attempt = some a → itemFits a.item s.vu.station = true)
    (h8 : ∀ j, s.vu.judged = some j → s.lu.mode = .window ∧ JudgedBy j s.vu.station) (h9 : LineLaw s)
    (h10 : DriverLaw s) :
    Coherent (refresh s) := by
  refine ⟨?_, ?_, ?_, ?_, ?_, ⟨?_, ?_, ?_, ?_⟩, ?_, ?_⟩
  · intro hh
    have hh : s.vu.station = .halted := by simpa using hh
    refine ⟨by simpa using (h1 hh).1, ?_, by simpa using (h1 hh).2⟩
    rw [refresh_offer]
    cases e : chosenOffer (pruneItems s) with
    | none => rfl
    | some i =>
      have := (chosenOffer_pruneItems_fits e).1
      rw [hh] at this
      revert this; cases i <;> simp [itemFits, inView]
  · intro hh; rw [held_congr (s := s) (by simp) (by simp), h2] at hh; simp at hh
  · unfold StandingLaw at *; simpa using h3
  · unfold ProbeLaw at *; simpa using h4
  · unfold OwnNumberLaw own at *; simpa using h5
  · simpa using h6
  · simpa using h7
  · intro i hi
    simpa using chosenOffer_pruneItems_fits hi
  · simpa using h8
  · unfold LineLaw at *; simpa using h9
  · unfold DriverLaw at *; simpa using h10

/-- A settled station with its offer worked out is coherent. -/
theorem Settled.coherent (h : Settled s) : Coherent (Machine.refresh s) := by
  obtain ⟨h1, h2, h3, h4, h5, h6, h7, h8, h9⟩ := h
  exact coherent_refresh_of (fun _ => ⟨h6, h8⟩) h1 h2 h3 h4 (by simp [h8, h7, h9]) (by simp [h8]) (by simp [h9]) h5
    (by simp [DriverLaw, h6, h8])

/-! ## What a coherent station is between frames -/

/-- Two states alike in what `Coherent` looks at are coherent alike. -/
theorem Coherent.congr {s t : State} (h : Coherent s) (hpw : t.power = s.power) (hr : t.rst = s.rst)
    (hv : t.vu = s.vu) (ht : t.tu = s.tu) (hl : t.lu = s.lu) (hsu : t.su = s.su) (hs : t.hp.straps = s.hp.straps) :
    Coherent t := by
  obtain ⟨h1, h2, h3, h4, h5, h6, h7, h8⟩ := h
  refine ⟨?_, ?_, ?_, ?_, ?_, ?_, ?_, ?_⟩
  · unfold SilenceLaw at *; rw [hv, hl, hsu]; exact h1
  · unfold HeldLaw at *; rw [held_congr hpw hr, hv, hl, hsu]; exact h2
  · unfold StandingLaw at *; rw [hv, ht]; exact h3
  · unfold ProbeLaw at *; rw [hv, hs]; exact h4
  · unfold OwnNumberLaw own at *; rw [hv, hs]; exact h5
  · unfold AttemptLaw at *; rw [hv, hl, hsu]; exact h6
  · unfold LineLaw at *; rw [hl]; exact h7
  · unfold DriverLaw at *; rw [hv, hl, hsu]; exact h8

/-- A coherent station whose frame in progress ends is settled once its attempt is taken away. -/
theorem Coherent.settled (h : Coherent s) (hf : held s = false) {t : State} (hpw : t.power = s.power)
    (hr : t.rst = s.rst) (hv : t.vu = { s.vu with judged := none }) (ht : t.tu = s.tu)
    (hs : t.hp.straps = s.hp.straps) (hl : LineLaw t) (hd : t.lu.driver = .released)
    (hm : t.lu.mode ≠ .sending ∧ t.lu.mode ≠ .window) :
    Settled (t.setSu { t.su with attempt := none }) := by
  obtain ⟨h1, h2, h3, h4, h5, h6, h7, h8⟩ := h
  refine ⟨?_, ?_, ?_, ?_, ?_, ?_, ?_, ?_, ?_⟩
  · simpa [held, hpw, hr] using hf
  · unfold StandingLaw at *; simpa [hv, ht] using h3
  · unfold ProbeLaw at *; simpa [hv, hs] using h4
  · unfold OwnNumberLaw own at *; simpa [hv, hs] using h5
  · unfold LineLaw at *; simpa using hl
  · simpa using hd
  · simpa using hm
  · rfl
  · simp [hv]

/-- LU once it has given a frame up keeps its laws. -/
theorem LineLaw.giveUp (h : LineLaw s) (hm : s.lu.mode ≠ .waitIdle) {t : State} {run : Nat}
    (ht : t.lu = giveUpLine run s.lu) (hr : run ≤ Config.stuckCount) : LineLaw t := by
  unfold LineLaw at *
  have : s.lu.stuck ≠ true := fun e => hm (h.2.2.2 e).1
  simp_all [Config.idleMin, Config.barrierIdle, Config.stuckCount]

/-- LU once a window has been closed keeps its laws. -/
theorem LineLaw.closeWindow (h : LineLaw s) (hm : s.lu.mode ≠ .waitIdle) : LineLaw (closeWindow s) := by
  unfold LineLaw at *
  have : s.lu.stuck ≠ true := fun e => hm (h.2.2.2 e).1
  simp_all [Config.idleMin, Config.barrierIdle, Config.stuckCount]

/-- In a window, an attempt is in progress exactly when the frame under judgement is this station's own. -/
theorem Coherent.window_attempt (h : Coherent s) (hm : s.lu.mode = .window) :
    s.su.attempt.isSome = ownWindow s.vu.judged := by
  have := h.2.2.2.2.2.1.1
  rw [hm] at this
  cases ho : ownWindow s.vu.judged <;> cases ha : s.su.attempt.isSome <;> simp_all

theorem Coherent.fits (h : Coherent s) : ∀ a, s.su.attempt = some a → itemFits a.item s.vu.station = true :=
  h.2.2.2.2.2.1.2.1

theorem Coherent.no_attempt (h : Coherent s) (hm : s.lu.mode ≠ .sending) (hw : s.lu.mode ≠ .window) :
    s.su.attempt = none := by
  have := h.2.2.2.2.2.1.1
  cases ha : s.su.attempt <;> simp_all

theorem Coherent.no_judged (h : Coherent s) (hw : s.lu.mode ≠ .window) : s.vu.judged = none := by
  have := h.2.2.2.2.2.1.2.2.2
  cases hj : s.vu.judged with
  | none => rfl
  | some j => exact absurd (this j hj).1 hw

/-- The end of a window keeps the laws (R71 to R77). -/
theorem Coherent.windowEnd (h : Coherent s) (hf : held s = false) (slots : Mask) : Coherent (windowEnd slots s) := by
  have hset (hm : s.lu.mode ≠ .waitIdle) :
      Settled ((closeWindow s).setSu { (closeWindow s).su with attempt := none }) :=
    h.settled hf (by simp) (by simp) rfl (by simp) (by simp) (h.line.closeWindow hm) (by simp) (by simp)
  have hclose (hm : s.lu.mode ≠ .waitIdle) (ha : s.su.attempt = none) : Settled (closeWindow s) := by
    refine (hset hm).congr ?_ ?_ ?_ ?_ ?_ ?_ ?_ <;> simp [ha]
  unfold Machine.windowEnd
  split
  · rename_i j hm hj
    have ho : s.su.attempt.isSome = j.own := by simpa [hj, ownWindow] using h.window_attempt hm
    rcases (h.2.2.2.2.2.1.2.2.2 j hj).2 with hst | ⟨hst, -, hown⟩
    · exact (disposeFrame_settled (hset (by simp [hm])) slots (by simpa using hst) (by simpa using ho)
        (by simpa using h.fits)).coherent
    · have ha : s.su.attempt = none := by simpa [hown] using ho
      simpa [disposeFrame, hst] using (hclose (by simp [hm]) ha).coherent
  · rename_i hm hj
    have ha : s.su.attempt = none := by
      have := h.window_attempt hm
      simpa [hj, ownWindow] using this
    exact (hclose (by simp [hm]) ha).coherent
  · rename_i hm
    exact (hclose (by simp [hm]) (h.no_attempt (by simp [hm]) (by simp [hm]))).coherent
  · exact h

/-- The end of a window of one kind keeps the laws. -/
theorem Coherent.windowEndOf (h : Coherent s) (hf : held s = false) (kind : Judged → Bool) (slots : Mask) :
    Coherent (windowEndOf kind slots s) := by
  unfold Machine.windowEndOf
  (repeat' split) <;> first | exact h.windowEnd hf slots | exact h

/-- A window fault in a window leaves a settled station with its offer worked out (R75, R76). -/
theorem Coherent.windowFault_settled (h : Coherent s) (hf : held s = false) (slot : Station) (inData : Bool)
    (hm : s.lu.mode = .window) : ∃ t, Settled t ∧ Machine.windowFault slot inData s = Machine.refresh t := by
  have hset : Settled ((((s.setVu { s.vu with judged := none }).setLu (giveUpLine 0 s.lu))).setSu
        { ((s.setVu { s.vu with judged := none }).setLu (giveUpLine 0 s.lu)).su with attempt := none }) :=
    h.settled hf (by simp) (by simp) rfl (by simp) (by simp) (h.line.giveUp (run := 0) (by simp [hm]) (by simp)
      (Nat.zero_le _)) (by simp) (by simp)
  have hw := h.window_attempt hm
  unfold Machine.windowFault
  rw [hm]
  cases hj : s.vu.judged with
  | some j =>
    refine ⟨_, disposeFault_settled hset (assertedBy j slot inData s) ?_ ?_, rfl⟩
    · simpa [hj, ownWindow] using hw
    · simpa using h.fits
  | none =>
    have ha : s.su.attempt = none := by simpa [hj, ownWindow] using hw
    refine ⟨_, hset.congr ?_ ?_ ?_ ?_ ?_ ?_ ?_, rfl⟩ <;> simp [ha, hj]

/-- A window fault keeps the laws (R75, R76). -/
theorem Coherent.windowFault (h : Coherent s) (hf : held s = false) (slot : Station) (inData : Bool) :
    Coherent (windowFault slot inData s) := by
  by_cases hm : s.lu.mode = .window
  · obtain ⟨t, ht, e⟩ := h.windowFault_settled hf slot inData hm
    rw [e]; exact ht.coherent
  · have hj := h.no_judged hm
    unfold Machine.windowFault
    split
    · exact absurd (by assumption) hm
    · exact absurd (by assumption) hm
    · rename_i ht
      have ha := h.no_attempt (by simp [ht]) hm
      refine (Settled.congr (h.settled hf (t := (s.setVu { s.vu with judged := none }).setLu (giveUpLine 0 s.lu)) (by simp)
        (by simp) rfl (by simp) (by simp) (h.line.giveUp (run := 0) (by simp [ht]) (by simp) (Nat.zero_le _)) (by simp) (by simp))
        ?_ ?_ ?_ ?_ ?_ ?_ ?_).coherent <;> simp [ha]
    · exact h

/-- A read-back fault while sending or in the window leaves a settled station with its offer worked out (R55, R57). -/
theorem Coherent.readBackFault_settled (h : Coherent s) (hf : held s = false) (slot : Station) (inData : Bool)
    (level : LineLevel) (hm : s.lu.mode = .sending ∨ s.lu.mode = .window) :
    ∃ t, Settled t ∧ Machine.readBackFault slot inData level s = Machine.refresh t := by
  unfold Machine.readBackFault
  rcases hm with hm | hm
  · have hj := h.no_judged (by simp [hm])
    rw [hm]
    refine ⟨_, selfFault_settled (h.settled hf (by simp) (by simp) ?_ (by simp) (by simp)
      (h.line.giveUp (run := runAfter level s.lu) (by simp [hm]) (by simp) (Nat.le_trans (runAfter_le _ _) h.line.2.1))
      (by simp) (by simp)) ?_, rfl⟩
    · simp [← hj]
    · simpa using h.fits
  · rw [hm]; exact h.windowFault_settled hf slot inData hm

/-- A read-back fault keeps the laws (R55, R57). -/
theorem Coherent.readBackFault (h : Coherent s) (hf : held s = false) (slot : Station) (inData : Bool) (level : LineLevel) :
    Coherent (readBackFault slot inData level s) := by
  by_cases hm : s.lu.mode = .sending ∨ s.lu.mode = .window
  · obtain ⟨t, ht, e⟩ := h.readBackFault_settled hf slot inData level hm
    rw [e]; exact ht.coherent
  · unfold Machine.readBackFault
    split <;> simp_all

/-- Losing an arbitration keeps the laws (R51). -/
theorem Coherent.loseArbitration (h : Coherent s) (hf : held s = false) : Coherent (loseArbitration s) := by
  unfold Machine.loseArbitration
  split
  · rename_i hm
    have hj := h.no_judged (by simp [hm])
    obtain ⟨h1, h2, h3, h4, h5, h6, h7, h8⟩ := h
    apply coherent_refresh_of
    · simp
    · simpa [held] using hf
    · unfold StandingLaw at *; simpa using h3
    · unfold ProbeLaw at *; simpa using h4
    · unfold OwnNumberLaw own at *; simpa using h5
    · simp
    · simp
    · simp [hj]
    · unfold LineLaw at *
      simp_all
    · simp [DriverLaw]
  all_goals exact h

/-- A frame of another station that LU gives up before its window keeps the laws (R54, R56). -/
theorem Coherent.giveUp (h : Coherent s) (hf : held s = false) (hm : s.lu.mode = .receiving ∨ s.lu.mode = .tracking)
    {l : Lu} (hmode : l.mode = .waitIdle) (hdrv : l.driver = .released) (hidle : l.idleCount = 0)
    (hrun : l.assertedCount ≤ Config.stuckCount) (hdef : l.deferred = s.lu.deferred) (hstk : l.stuck = s.lu.stuck) :
    Coherent (s.setLu l) := by
  have hm1 : s.lu.mode ≠ .sending ∧ s.lu.mode ≠ .window ∧ s.lu.mode ≠ .waitIdle := by rcases hm with e | e <;> simp [e]
  have hj := h.no_judged hm1.2.1
  have ha := h.no_attempt hm1.1 hm1.2.1
  have hl : LineLaw (s.setLu l) := by
    have hs : s.lu.stuck ≠ true := fun e => hm1.2.2 (h.line.2.2.2 e).1
    unfold LineLaw
    simp_all [Config.idleMin]
  obtain ⟨h1, h2, h3, h4, h5, h6, h7, h8⟩ := h
  refine ⟨?_, ?_, ?_, ?_, ?_, ⟨?_, ?_, ?_, ?_⟩, hl, ?_⟩
  · unfold SilenceLaw at *; simpa [ha, hdrv] using fun e => (h1 e).2.1
  · intro e; rw [held_congr (s := s) (by simp) (by simp), hf] at e; simp at e
  · unfold StandingLaw at *; simpa using h3
  · unfold ProbeLaw at *; simpa using h4
  · unfold OwnNumberLaw own at *; simpa using h5
  · simp [ha, hmode]
  · simp [ha]
  · simpa [hdef] using h6.2.2.1
  · simp [hj]
  · simp [DriverLaw, ha, hdrv]

/-- A lost frame keeps the laws (R54, R56). -/
theorem Coherent.frameLost (h : Coherent s) (hf : held s = false) (cause : LossCause) : Coherent (frameLost cause s) := by
  unfold Machine.frameLost
  split
  · rename_i hm
    exact h.giveUp hf (.inl hm) (by simp) (by simp) (by simp) (by simpa using lossRun_le cause) (by simp) (by simp)
  · rename_i hm
    exact h.giveUp hf (.inr hm) (by simp) (by simp) (by simp) (by simpa using lossRun_le cause) (by simp) (by simp)
  all_goals exact h

/-- Another content of LU that leaves the frame in progress as it was keeps the laws. -/
theorem Coherent.withLu (h : Coherent s) (hf : held s = false) {l : Lu}
    (hs : l.mode = .sending ↔ s.lu.mode = .sending) (hw : l.mode = .window ↔ s.lu.mode = .window)
    (hd : l.driver = s.lu.driver) (hdef : l.deferred = true → s.lu.deferred = true) (hl : LineLaw (s.setLu l)) :
    Coherent (s.setLu l) := by
  obtain ⟨h1, h2, h3, h4, h5, h6, h7, h8⟩ := h
  refine ⟨?_, ?_, ?_, ?_, ?_, ⟨?_, ?_, ?_, ?_⟩, hl, ?_⟩
  · unfold SilenceLaw at *; simpa [hd] using h1
  · intro e; rw [held_congr (s := s) (by simp) (by simp), hf] at e; simp at e
  · unfold StandingLaw at *; simpa using h3
  · unfold ProbeLaw at *; simpa using h4
  · unfold OwnNumberLaw own at *; simpa using h5
  · simpa [hs, hw] using h6.1
  · simpa using h6.2.1
  · intro i hi
    have := h6.2.2.1 i (by simpa using hi)
    refine ⟨by simpa using this.1, fun e => this.2 ⟨e.1, hdef (by simpa using e.2)⟩⟩
  · simpa [hw] using h6.2.2.2
  · unfold DriverLaw at *; simpa [hd] using h8

/-- Something of WU alone changed. -/
theorem Coherent.withWu (h : Coherent s) (x : Wu) : Coherent (s.setWu x) := by
  refine h.congr ?_ ?_ ?_ ?_ ?_ ?_ ?_ <;> simp

/-- The abandoned frame of a stuck line keeps the laws, and leaves no frame in progress (R58). -/
theorem Coherent.abandonFrame (h : Coherent s) (hf : held s = false) (slot : Station) (inData : Bool) :
    Coherent (abandonFrame slot inData s) ∧ (Machine.abandonFrame slot inData s).lu.mode ≠ .sending ∧
      (Machine.abandonFrame slot inData s).lu.mode ≠ .window := by
  unfold Machine.abandonFrame
  split
  case h_1 =>
    rename_i hm
    obtain ⟨t, ht, e⟩ := h.readBackFault_settled hf slot inData .asserted (by simp [hm])
    rw [e]; exact ⟨ht.coherent, ht.refresh.mode⟩
  case h_2 =>
    rename_i hm
    obtain ⟨t, ht, e⟩ := h.windowFault_settled hf slot inData hm
    rw [e]; exact ⟨ht.coherent, ht.refresh.mode⟩
  case h_3 | h_4 =>
    rename_i hm
    refine ⟨h.frameLost hf _, ?_⟩
    simp [Machine.frameLost, hm]
  all_goals (rename_i hm; exact ⟨h, by simp [hm]⟩)

/-- A line that sticks keeps the laws (R58). -/
theorem Coherent.lineSticks (h : Coherent s) (hf : held s = false) (slot : Station) (inData : Bool) :
    Coherent (lineSticks slot inData s) := by
  unfold Machine.lineSticks
  split
  · exact h
  · obtain ⟨h1, h2, h3⟩ := h.abandonFrame hf slot inData
    refine Coherent.withWu (s := (Machine.abandonFrame slot inData s).setLu _) (Coherent.withLu h1 ?_ ?_ ?_ ?_ ?_ ?_) _
    · simpa [held_congr (s := s)] using hf
    · simp [h2]
    · simp [h3]
    · have ha := h1.no_attempt h2 h3
      have hj := h1.no_judged h3
      have hd := h1.2.2.2.2.2.2.2
      unfold DriverLaw at hd
      cases hdr : (Machine.abandonFrame slot inData s).lu.driver <;> simp_all
    · simp
    · simp [LineLaw, Config.idleMin, Config.barrierIdle, Config.stuckCount]

/-- A stuck line's end keeps the laws (R58). -/
theorem Coherent.stuckEnds (h : Coherent s) (hf : held s = false) : Coherent (stuckEnds s) := by
  unfold Machine.stuckEnds
  split
  · rename_i hs
    have hl := h.line
    refine h.withLu hf (by simp) (by simp) rfl (by simp) ?_
    unfold LineLaw at *
    simp_all [Config.idleMin, Config.barrierIdle, Config.stuckCount]
  · exact h

/-- LU between frames with another idle count keeps the laws (R47). -/
theorem Coherent.idle (h : Coherent s) (hf : held s = false) (hb : betweenFrames s = true) {n : Nat}
    (hn : n ≤ Config.barrierIdle) {d : Bool} (hd : d = true → s.lu.deferred = true) :
    Coherent (s.setLu { idleReaches n s.lu with deferred := d }) := by
  have hl := h.line
  have hm : s.lu.mode ≠ .sending ∧ s.lu.mode ≠ .window ∧ s.lu.stuck = false := by
    unfold betweenFrames at hb
    refine ⟨?_, ?_, ?_⟩ <;> simp_all <;> (intro e; simp_all)
  refine h.withLu hf ?_ ?_ (by simp) (by simpa using hd) ?_
  · simp only [idleReaches_fields, hm.1, iff_false]; split <;> simp [hm.1]
  · simp only [idleReaches_fields, hm.2.1, iff_false]; split <;> simp [hm.2.1]
  · unfold LineLaw at *
    simp_all

/-- The line idle keeps the laws (R47). -/
theorem Coherent.lineIdle (h : Coherent s) (hf : held s = false) : Coherent (lineIdle s) := by
  unfold Machine.lineIdle
  split
  · rename_i hb
    exact h.idle hf hb.1 (n := Config.idleMin) (by decide) (fun e => e)
  · exact h

/-- Another station's start bit keeps the laws (R47, R48). -/
theorem Coherent.otherStarts (h : Coherent s) (hf : held s = false) : Coherent (otherStarts s) := by
  have hl := h.line
  unfold Machine.otherStarts
  split
  · rename_i hm
    refine h.withLu hf (by simp [hm]) (by simp [hm]) rfl (by simp) ?_
    unfold LineLaw at *
    simp_all [Config.idleMin, Config.barrierIdle]
  · rename_i hm
    split
    · exact h
    · refine h.withLu hf (by simp) (by simp) rfl (by simp) ?_
      unfold LineLaw at *
      simp_all [Config.idleMin, Config.barrierIdle]
  all_goals exact h

/-- The start of an own frame keeps the laws (R48, R81). -/
theorem Coherent.beginItem (h : Coherent s) (hf : held s = false) {i : Item} (ho : s.su.offer = some i)
    (hm : s.lu.mode = .resting) : Coherent (beginItem i s) := by
  have hl := h.line
  have hj := h.no_judged (by simp [hm])
  unfold Machine.beginItem
  split
  · exact h
  · obtain ⟨h1, h2, h3, h4, h5, h6, h7, h8⟩ := h
    refine ⟨?_, ?_, ?_, ?_, ?_, ⟨?_, ?_, ?_, ?_⟩, ?_, ?_⟩
    · unfold SilenceLaw at *
      intro e
      have := h1 (by simpa using e)
      simp [this] at ho
    · intro e; rw [held_congr (s := s) (by simp) (by simp), hf] at e; simp at e
    · unfold StandingLaw at *; simpa using h3
    · unfold ProbeLaw at *; simpa using h4
    · unfold OwnNumberLaw own at *; simpa using h5
    · simp
    · intro a ha
      have e : i = a.item := by
        have := congrArg Attempt.item (Option.some.inj (by simpa using ha))
        simpa using this
      simpa [← e] using (h6.2.2.1 i ho).1
    · simp
    · simp [hj]
    · unfold LineLaw at *
      simp_all [Config.idleMin, Config.barrierIdle]
    · simp [DriverLaw]

/-- LU beginning what is on offer keeps the laws (R48, R60). -/
theorem Coherent.startOffered (h : Coherent s) (hf : held s = false) : Coherent (startOffered s) := by
  unfold Machine.startOffered
  split
  · rename_i ho
    split
    · rename_i hc
      refine h.beginItem hf ho ?_
      have := hc.1
      unfold canBegin at this
      simp_all
    · exact h
  · exact h

/-- SU working out its items again keeps the laws (R81). -/
theorem Coherent.refresh (h : Coherent s) (hf : held s = false) : Coherent (refresh s) := by
  obtain ⟨h1, h2, h3, h4, h5, h6, h7, h8⟩ := h
  exact coherent_refresh_of (fun e => ⟨(h1 e).1, (h1 e).2.2⟩) hf h3 h4 h5 h6.1 h6.2.1 h6.2.2.2 h7 h8

/-- The clearing of DEFERRED keeps the laws (R59, R60). -/
theorem Coherent.deferredClear (h : Coherent s) (hf : held s = false) : Coherent (deferredClear s) := by
  unfold Machine.deferredClear
  split
  · rename_i hb
    have h1 := (h.idle hf hb (n := Config.barrierIdle) (d := false) (le_refl _) (by simp)).refresh (by simpa [held] using hf)
    dsimp only
    split
    · split
      · exact h1.startOffered (by simpa [held] using hf)
      · exact h1
    · exact h1
  · exact h

/-! ## The check part -/

/-- The count of asserted bit times set within its bound keeps the laws (R58). -/
theorem Coherent.setRun (h : Coherent s) (hf : held s = false) {n : Nat} (hn : n ≤ Config.stuckCount) :
    Coherent (s.setLu { s.lu with assertedCount := n }) :=
  h.withLu hf Iff.rfl Iff.rfl rfl id ⟨h.line.1, hn, h.line.2.2.1, h.line.2.2.2⟩

/-- A frame under judgement, its driver and LU's window keep the laws (R54, R63). -/
theorem Coherent.judge (h : Coherent s) (hf : held s = false) {j : Judged} {d : Driver} {r : BitVec 16} {run : Nat}
    (hrun : run ≤ Config.stuckCount) (hst : j.station = s.vu.station) (hown : j.own = s.su.attempt.isSome)
    (hd : d = if j.own then .ownFrame else if j.accept then .ownSlot else .released)
    (hh : s.vu.station = .halted → d = .released)
    (hm : s.lu.mode = .receiving ∨ s.lu.mode = .sending) :
    Coherent ((s.setVu { s.vu with judged := some j }).setLu (windowLine d r run s.lu)) := by
  have hl := h.line
  obtain ⟨h1, h2, h3, h4, h5, h6, h7, h8⟩ := h
  refine ⟨?_, ?_, ?_, ?_, ?_, ⟨?_, ?_, ?_, ?_⟩, ?_, ?_⟩
  · unfold SilenceLaw at *
    intro e
    simpa [hh (by simpa using e)] using (h1 (by simpa using e)).2
  · intro e; rw [held_congr (s := s) (by simp) (by simp), hf] at e; simp at e
  · unfold StandingLaw at *; simpa using h3
  · unfold ProbeLaw at *; simpa using h4
  · unfold OwnNumberLaw own at *; simpa using h5
  · simp [ownWindow, hown]
  · simpa using h6.2.1
  · simpa using h6.2.2.1
  · simp [JudgedBy, hst]
  · unfold LineLaw at *
    rcases hm with hm | hm <;> simp_all [Config.idleMin, Config.barrierIdle] <;> omega
  · simp only [DriverLaw, State.setLu_lu, windowLine_fields, State.setLu_su, State.setVu_su, State.setLu_vu,
      State.setVu_vu, ← hown, hd]
    cases ho : j.own <;> cases ha : j.accept <;> simp [ha, ho]

theorem accepts_halted (f : Frame) (intact : Bool) (h : s.vu.station = .halted) : accepts f intact s = false := by
  simp [accepts, h]

/-- What VU hears at the end of a check part keeps the laws (R67, R106). -/
theorem Coherent.hearFrame (h : Coherent s) (hf : held s = false) (f : Frame) : Coherent (hearFrame f s) := by
  have hfor : Coherent (s.setVu { s.vu with foreign := some f.orig }) := by
    obtain ⟨h1, h2, h3, h4, h5, h6, h7, h8⟩ := h
    exact ⟨h1, h2, h3, h4, h5, h6, h7, h8⟩
  unfold Machine.hearFrame
  split
  case h_1 | h_2 =>
    split
    · exact hfor.withWu _
    · exact h
  case h_3 =>
    rename_i hs
    split
    · exact h
    · obtain ⟨h1, h2, h3, h4, h5, h6, h7, h8⟩ := h
      refine ⟨h1, h2, h3, ?_, h5, h6, h7, h8⟩
      unfold ProbeLaw at *
      simp_all
  all_goals exact h

/-- The end of a check part keeps the laws (R54, R63). -/
theorem Coherent.frameCheck (h : Coherent s) (hf : held s = false) (bits : List Bool) : Coherent (frameCheck bits s) := by
  have key : s.lu.mode = .receiving ∨ s.lu.mode = .sending → Coherent (checkEnd bits s) := by
    intro hm
    unfold checkEnd
    split
    · rename_i hr
      have ha := h.no_attempt (by simp [hr]) (by simp [hr])
      unfold checkEndOther
      split
      · exact h.giveUp hf (.inl hr) (by simp) (by simp) (by simp) (by simpa using assertedRun_le bits) (by simp) (by simp)
      · rename_i f intact _
        dsimp only
        have hs1 : ∀ t, (t = if intact then Machine.hearFrame f s else s) → Coherent t ∧ t.vu.station = s.vu.station ∧
            t.su = s.su ∧ t.lu = s.lu ∧ held t = held s := by
          intro t ht
          subst ht
          split
          · exact ⟨h.hearFrame hf f, by simp, by simp, by simp, held_congr (by simp) (by simp)⟩
          · exact ⟨h, rfl, rfl, rfl, rfl⟩
        obtain ⟨hc, e1, e2, e3, e4⟩ := hs1 _ rfl
        generalize (if intact then Machine.hearFrame f s else s) = t at hc e1 e2 e3 e4 ⊢
        refine hc.judge (by rw [e4, hf]) (assertedRun_le bits) ?_ ?_ ?_ ?_ ?_
        · rw [e1]; rfl
        · rw [e2, ha]; rfl
        · simp [judgedOther]
        · intro e
          have e : s.vu.station = .halted := by rw [← e1]; exact e
          simp [judgedOther, accepts_halted _ _ e]
        · rw [e3, hr]; simp
    · rename_i a hsend ha
      unfold checkEndOwn
      refine h.judge hf (assertedRun_le _) rfl ?_ ?_ ?_ hm
      · simp [judgedOwn, ha]
      · simp [judgedOwn]
      · intro e
        have := (h.1 e).2.2
        simp [ha] at this
    · exact h
  unfold Machine.frameCheck
  split
  · rename_i hm; exact (key (.inl hm)).refresh (by rw [held_congr (s := s) (by simp) (by simp), hf])
  · rename_i hm; exact (key (.inr hm)).refresh (by rw [held_congr (s := s) (by simp) (by simp), hf])
  · exact h.setRun hf (assertedRun_le bits)
  all_goals exact h

/-! ## The timers -/

/-- The probe timer's expiry keeps the laws (R105). -/
theorem Coherent.probeExpires (h : Coherent s) (hf : held s = false) : Coherent (probeExpires s) := by
  unfold Machine.probeExpires
  split
  · rename_i hs
    refine Coherent.refresh (s := s.setVu _) ?_ (by simpa [held] using hf)
    obtain ⟨h1, h2, h3, h4, h5, h6, h7, h8⟩ := h
    refine ⟨h1, h2, h3, ?_, h5, h6, h7, h8⟩
    unfold ProbeLaw at *
    simp_all
  · exact h

/-- ADMIT_WAIT's expiry keeps the laws (R118). -/
theorem Coherent.admitExpires (h : Coherent s) (hf : held s = false) : Coherent (admitExpires s) := by
  unfold Machine.admitExpires
  split
  · rename_i hs
    have hat : s.su.attempt = none := by
      cases ha : s.su.attempt with
      | none => rfl
      | some a =>
        have := h.fits a ha
        rw [hs.1] at this
        revert this; cases a.item <;> simp [itemFits, inView]
    split
    · obtain ⟨h1, h2, h3, h4, h5, h6, h7, h8⟩ := h
      refine ⟨h1, h2, h3, ?_, h5, h6, h7, h8⟩
      unfold ProbeLaw at *
      simp_all
    · rename_i hw
      have hj : s.vu.judged = none := by
        cases e : s.vu.judged with
        | none => rfl
        | some j => exact absurd ⟨(h.2.2.2.2.2.1.2.2.2 j e).1, by simp [e]⟩ hw
      obtain ⟨h1, h2, h3, h4, h5, h6, h7, h8⟩ := h
      apply coherent_refresh_of
      · simp
      · simpa [held] using hf
      · unfold StandingLaw at *
        simp_all [inView]
      · unfold ProbeLaw at *; simp_all [Config.probeLimit]
      · unfold OwnNumberLaw own at *; simp_all
      · have := h6.1
        simp_all [ownWindow]
      · simp [hat]
      · simp
      · unfold LineLaw at *; simpa using h7
      · unfold DriverLaw at *; simp_all
  · exact h

/-- STALL_WAIT's expiry keeps the laws (R127). -/
theorem Coherent.stallExpires (h : Coherent s) (hf : held s = false) : Coherent (stallExpires s) := by
  unfold Machine.stallExpires
  split
  · rename_i hs
    refine Coherent.refresh (s := s.setVu _) ?_ (by simpa [held] using hf)
    obtain ⟨h1, h2, h3, h4, h5, h6, h7, h8⟩ := h
    refine ⟨h1, h2, h3, ?_, h5, h6, h7, h8⟩
    unfold ProbeLaw at *
    simp_all
  · exact h

/-! ## The host port -/

/-- A byte at REQUEST keeps the laws (R134, R135). -/
theorem Coherent.requestByte (h : Coherent s) (hf : held s = false) (b : Byte) : Coherent (requestByte b s) := by
  have h0 : Coherent (s.setQu { s.qu with entry := s.qu.entry ++ [b] }) := by
    refine h.congr ?_ ?_ ?_ ?_ ?_ ?_ ?_ <;> simp
  have h1 : Coherent (submit (entryOf (s.qu.entry ++ [b])) s) := by
    refine h.congr ?_ ?_ ?_ ?_ ?_ ?_ ?_ <;> simp
  unfold Machine.requestByte
  dsimp only
  split
  · exact h0
  · split
    · exact h1.refresh (by rw [held_congr (s := s) (by simp) (by simp), hf])
    · exact h1

/-- The read of the first byte of STATUS clears only what no law speaks of (R163). -/
theorem Coherent.readStatus (h : Coherent s) : Coherent (readStatus s) := by
  have h1 : Coherent (s.setVu { s.vu with foreign := none }) := h
  unfold Machine.readStatus
  dsimp only
  split
  · refine h1.congr ?_ ?_ ?_ ?_ ?_ ?_ ?_ <;> simp [clearSticky]
  · refine h.congr ?_ ?_ ?_ ?_ ?_ ?_ ?_ <;> simp

/-- The halt keeps the laws (R115). -/
theorem Coherent.haltStation (h : Coherent s) (hf : held s = false) : Coherent (haltStation s) := by
  have hl := h.line
  by_cases hs : s.vu.station = .halted
  · rw [haltStation_halted s hs]; exact h
  · have hln : LineLaw (Machine.haltStation s) := by
      unfold LineLaw at *
      unfold Machine.haltStation
      simp only [hs, if_false, enterHalted_frame, State.setLu_lu, State.setSu_lu, haltStanding_frame, leaveQueues_frame]
      unfold haltLine
      cases hm : s.lu.mode <;> cases hd : s.lu.driver <;>
        simp_all [Config.idleMin, Config.barrierIdle, Config.stuckCount]
    have hmode : (Machine.haltStation s).lu.mode ≠ .sending ∧ (Machine.haltStation s).lu.mode ≠ .window := by
      unfold Machine.haltStation
      simp only [hs, if_false, enterHalted_frame, State.setLu_lu]
      have hd := h.2.2.2.2.2.2.2
      unfold haltLine
      split <;> simp_all
    have hst := h.2.2.1
    unfold StandingLaw at hst
    have hset : Settled (Machine.haltStation s) := by
      cases hst' : s.vu.station
      case halted => exact absurd hst' hs
      all_goals
        refine Settled.outside ?_ ?_ ?_ ?_ ?_ ?_ ?_ ?_ ?_ ?_ hln ?_ hmode ?_
        all_goals
          unfold Machine.haltStation haltStanding
          simp_all [held_congr (s := s), Su.empty, Tu.powerOn]
        all_goals (cases hh : s.vu.standing <;> simp_all)
    have hoff : (Machine.haltStation s).su.offer = none := by
      unfold Machine.haltStation
      simp [hs, Su.empty]
    obtain ⟨h1, h2, h3, h4, h5, h6, h7, h8, h9⟩ := hset
    exact ⟨fun _ => ⟨h6, hoff, h8⟩, fun e => by simp [h1] at e, h2, h3, h4,
      ⟨by simp [h8, h7], by simp [h8], by simp [hoff], by simp [h9]⟩, h5, by simp [DriverLaw, h6, h8]⟩

/-- START keeps the laws (R103). -/
theorem Coherent.takeStart (h : Coherent s) (hf : held s = false) : Coherent (takeStart s) := by
  unfold Machine.takeStart
  split
  · rename_i hs
    have h1 : Coherent (Machine.refresh (beginListening s)) := by
      obtain ⟨h1, h2, h3, h4, h5, h6, h7, h8⟩ := h
      have ha := (h1 hs).2.2
      apply coherent_refresh_of
      · simp
      · rw [held_congr (s := s) (by simp) (by simp), hf]
      · unfold StandingLaw at *; simp_all [inView]
      · unfold ProbeLaw at *; simp_all [Config.probeLimit]
      · unfold OwnNumberLaw own at *; simp_all
      · have := h6.1
        have hd := h8.1
        have := (h1 hs).1
        simp_all [ownWindow]
      · simp [ha]
      · intro j hj
        have hj : s.vu.judged = some j := by simpa using hj
        have ho : j.own = false := by
          have hm := (h6.2.2.2 j hj).1
          have := h6.1
          cases e : j.own <;> simp_all [ownWindow]
        refine ⟨by simpa using (h6.2.2.2 j hj).1, .inr ⟨?_, by simp, ho⟩⟩
        rcases (h6.2.2.2 j hj).2 with e | e
        · rw [e, hs]
        · exact e.1
      · unfold LineLaw at *; simpa using h7
      · simp [DriverLaw, (h1 hs).1, ha]
    refine h1.congr ?_ ?_ ?_ ?_ ?_ ?_ ?_ <;> simp
  · refine h.congr ?_ ?_ ?_ ?_ ?_ ?_ ?_ <;> simp

/-- LEAVE keeps the laws (R111). -/
theorem Coherent.takeLeave (h : Coherent s) (hf : held s = false) : Coherent (takeLeave s) := by
  unfold Machine.takeLeave
  split
  · rename_i hs
    have h1 : Coherent (Machine.refresh (s.setVu { s.vu with leavePending := true })) := by
      refine Coherent.refresh (s := s.setVu _) ?_ (by simpa [held] using hf)
      obtain ⟨h1, h2, h3, h4, h5, h6, h7, h8⟩ := h
      refine ⟨h1, h2, h3, ?_, h5, h6, h7, h8⟩
      unfold ProbeLaw at *
      simp_all
    refine h1.congr ?_ ?_ ?_ ?_ ?_ ?_ ?_ <;> simp
  · refine h.congr ?_ ?_ ?_ ?_ ?_ ?_ ?_ <;> simp

/-- CANCEL keeps the laws (R141). -/
theorem Coherent.takeCancel (h : Coherent s) (hf : held s = false) (tag : Byte) : Coherent (takeCancel tag s) := by
  have h1 : Coherent (judgeCancel tag s).2 := by
    refine h.congr ?_ ?_ ?_ ?_ ?_ ?_ ?_ <;> simp
  have h2 := h1.refresh (by rw [held_congr (s := s) (by simp) (by simp), hf])
  unfold Machine.takeCancel
  dsimp only
  split
  · refine h2.congr ?_ ?_ ?_ ?_ ?_ ?_ ?_ <;> simp
  · refine h1.congr ?_ ?_ ?_ ?_ ?_ ?_ ?_ <;> simp

/-- A byte at CONTROL keeps the laws (R161, R165). -/
theorem Coherent.controlWrite (h : Coherent s) (hf : held s = false) (b : Byte) : Coherent (controlWrite b s) := by
  have hk : ∀ bs, Coherent (keepControlBytes bs s) := fun bs => by
    refine h.congr ?_ ?_ ?_ ?_ ?_ ?_ ?_ <;> simp
  have hkf : ∀ bs, held (keepControlBytes bs s) = false := fun bs => by
    rw [held_congr (s := s) (by simp) (by simp), hf]
  unfold Machine.controlWrite
  split
  · unfold controlFirst
    split
    · exact h.takeStart hf
    · split
      · unfold takeHalt
        refine (h.haltStation hf).congr ?_ ?_ ?_ ?_ ?_ ?_ ?_ <;> simp
      · split
        · exact h.takeLeave hf
        · split
          · exact hk _
          · refine h.congr ?_ ?_ ?_ ?_ ?_ ?_ ?_ <;> simp
  · split
    · exact (hk _).takeCancel (hkf _) b
    · unfold takeMask
      refine (hk []).congr ?_ ?_ ?_ ?_ ?_ ?_ ?_ <;> simp

/-- A byte at CONTROL leaves the part as it is held or not. -/
theorem controlWrite_held (b : Byte) : held (controlWrite b s) = held s := held_congr (by simp) (by simp)

/-- A command at CONTROL keeps the laws (R161, R165). -/
theorem Coherent.controlCommand (h : Coherent s) (hf : held s = false) (command : List Byte) :
    Coherent (controlCommand command s) := by
  unfold Machine.controlCommand
  exact (foldl_keeps (P := fun t : State => Coherent t ∧ held t = false)
    (fun t b ht => ⟨ht.1.controlWrite ht.2 b, by rw [controlWrite_held, ht.2]⟩) _ s ⟨h, hf⟩).1

/-! ## Resets -/

/-- A part at reset values with any standing that a reset leaves is coherent (R116, R168). -/
theorem coherent_of_reset {t : State} (hl : t.lu = .afterReset) (hs : t.su = .empty)
    (hv : t.vu = .afterReset t.vu.standing t.vu.retainedEpoch)
    (hst : (t.vu.standing = .none ∧ t.vu.retainedEpoch = 0 ∧ t.tu.cells = Tu.powerOn.cells) ∨ t.vu.standing = .retained)
    (hk : t.tu.known = 0) : Coherent t := by
  have e1 : t.vu.station = .halted := by rw [hv]; rfl
  have e2 : t.vu.view = .empty := by rw [hv]; rfl
  have e3 : t.vu.judged = none := by rw [hv]; rfl
  refine ⟨?_, ?_, ?_, ?_, ?_, ⟨?_, ?_, ?_, ?_⟩, ?_, ?_⟩
  · intro _; rw [hl, hs]; exact ⟨rfl, rfl, rfl⟩
  · intro _; exact ⟨e1, hl, hs⟩
  · unfold StandingLaw
    clear hv
    rcases hst with ⟨a, b, c⟩ | a <;> simp_all [inView]
  · unfold ProbeLaw
    rw [hv]
    simp [Vu.afterReset]
  · unfold OwnNumberLaw; simp [e1]
  · rw [hl, hs]; simp [Lu.afterReset, Su.empty]
  · rw [hs]; simp [Su.empty]
  · rw [hs]; simp [Su.empty]
  · simp [e3]
  · unfold LineLaw; rw [hl]; simp [Lu.afterReset, Config.idleMin]
  · unfold DriverLaw; rw [hl, hs]; simp [Lu.afterReset, Su.empty]

/-- The release of a reset keeps the laws where the part was held (R162, R167). -/
theorem Coherent.release (h : Coherent s) (hh : held s = true) {t : State} (hvu : t.vu = s.vu) (htu : t.tu = s.tu)
    (hsu : t.su = s.su) (hlu : t.lu = s.lu ∨ t.lu = .afterReset) : Coherent t := by
  obtain ⟨h1, h2, h3, h4, h5, h6, h7, h8⟩ := h
  obtain ⟨a, b, c⟩ := h2 hh
  have hlu' : t.lu = .afterReset := by rcases hlu with e | e <;> simp [e, b]
  have hl : t.lu = s.lu := by rw [hlu', b]
  refine ⟨?_, ?_, ?_, ?_, ?_, ?_, ?_, ?_⟩
  · unfold SilenceLaw at *; rw [hvu, hl, hsu]; exact h1
  · intro _; rw [hvu, hsu]; exact ⟨a, hlu', c⟩
  · unfold StandingLaw at *; rw [hvu, htu]; exact h3
  · obtain ⟨p1, p2, p3, p4, p5, p6, p7⟩ := h4
    have hd := (p1 (by simp [a])).2.2
    exact ⟨by rw [hvu]; exact p1, by rw [hvu]; exact p2, by rw [hvu]; exact p3, by rw [hvu]; exact p4,
      by rw [hvu]; exact p5, by rw [hvu]; exact p6, by rw [hvu, hd]; simp⟩
  · unfold OwnNumberLaw; rw [hvu]; simp [a]
  · unfold AttemptLaw at *; rw [hvu, hl, hsu]; exact h6
  · unfold LineLaw at *; rw [hl]; exact h7
  · unfold DriverLaw at *; rw [hvu, hl, hsu]; exact h8

end
end Sys2Proof.Machine
end

