-- ==== Sys2Proof/Laws/PerInstr.lean ====
section
/-! SUPPORT. Statements about every command as syntax, one lemma per constructor. -/

namespace Sys2Proof.Laws

/-- No word spells a command: the opcode table gives no row any bits. -/
def NoWordSpells.Statement (i : Instr) : Prop := ∀ nbits w, decodeTableWord nbits w ≠ some i

theorem NoWordSpells.powerOn : NoWordSpells.Statement .powerOn := by
  intro _ _ h; cases h

theorem NoWordSpells.powerOnHoldEnd (straps : Straps) : NoWordSpells.Statement (.powerOnHoldEnd straps) := by
  intro _ _ h; cases h

theorem NoWordSpells.rstAssert : NoWordSpells.Statement .rstAssert := by
  intro _ _ h; cases h

theorem NoWordSpells.rstRelease (straps : Straps) : NoWordSpells.Statement (.rstRelease straps) := by
  intro _ _ h; cases h

theorem NoWordSpells.requestWrite (data : Byte) : NoWordSpells.Statement (.requestWrite data) := by
  intro _ _ h; cases h

theorem NoWordSpells.requestRead : NoWordSpells.Statement .requestRead := by
  intro _ _ h; cases h

theorem NoWordSpells.completionRead : NoWordSpells.Statement .completionRead := by
  intro _ _ h; cases h

theorem NoWordSpells.sequenceRestart (port : RestartPort) (data : Byte) : NoWordSpells.Statement (.sequenceRestart port data) := by
  intro _ _ h; cases h

theorem NoWordSpells.cellIndexWrite (index : Byte) : NoWordSpells.Statement (.cellIndexWrite index) := by
  intro _ _ h; cases h

theorem NoWordSpells.cellRead : NoWordSpells.Statement .cellRead := by
  intro _ _ h; cases h

theorem NoWordSpells.arm (watch cell test : Byte) (operand : Half) (tag : Byte) : NoWordSpells.Statement (.arm watch cell test operand tag) := by
  intro _ _ h; cases h

theorem NoWordSpells.disarm (watch : Byte) : NoWordSpells.Statement (.disarm watch) := by
  intro _ _ h; cases h

theorem NoWordSpells.watchBadFirstByte (data : Byte) : NoWordSpells.Statement (.watchBadFirstByte data) := by
  intro _ _ h; cases h

theorem NoWordSpells.watchRead : NoWordSpells.Statement .watchRead := by
  intro _ _ h; cases h

theorem NoWordSpells.noticeRead : NoWordSpells.Statement .noticeRead := by
  intro _ _ h; cases h

theorem NoWordSpells.statusRead : NoWordSpells.Statement .statusRead := by
  intro _ _ h; cases h

theorem NoWordSpells.viewRead : NoWordSpells.Statement .viewRead := by
  intro _ _ h; cases h

theorem NoWordSpells.start : NoWordSpells.Statement .start := by
  intro _ _ h; cases h

theorem NoWordSpells.halt : NoWordSpells.Statement .halt := by
  intro _ _ h; cases h

theorem NoWordSpells.leaveCommand : NoWordSpells.Statement .leaveCommand := by
  intro _ _ h; cases h

theorem NoWordSpells.cancel (tag : Byte) : NoWordSpells.Statement (.cancel tag) := by
  intro _ _ h; cases h

theorem NoWordSpells.mask (enables : Byte) : NoWordSpells.Statement (.mask enables) := by
  intro _ _ h; cases h

theorem NoWordSpells.controlBadFirstByte (data : Byte) : NoWordSpells.Statement (.controlBadFirstByte data) := by
  intro _ _ h; cases h

theorem NoWordSpells.controlRead : NoWordSpells.Statement .controlRead := by
  intro _ _ h; cases h

theorem NoWordSpells.lineIdle : NoWordSpells.Statement .lineIdle := by
  intro _ _ h; cases h

theorem NoWordSpells.frameStart : NoWordSpells.Statement .frameStart := by
  intro _ _ h; cases h

theorem NoWordSpells.lostArbitration : NoWordSpells.Statement .lostArbitration := by
  intro _ _ h; cases h

theorem NoWordSpells.readBackFault (slot : Station) (inData : Bool) (level : LineLevel) :
    NoWordSpells.Statement (.readBackFault slot inData level) := by
  intro _ _ h; cases h

theorem NoWordSpells.frameCheckEnd (bits : List Bool) : NoWordSpells.Statement (.frameCheckEnd bits) := by
  intro _ _ h; cases h

theorem NoWordSpells.frameLost (cause : LossCause) : NoWordSpells.Statement (.frameLost cause) := by
  intro _ _ h; cases h

theorem NoWordSpells.windowFault (slot : Station) (inData : Bool) : NoWordSpells.Statement (.windowFault slot inData) := by
  intro _ _ h; cases h

theorem NoWordSpells.store (slots : Mask) : NoWordSpells.Statement (.store slots) := by
  intro _ _ h; cases h

theorem NoWordSpells.add (slots : Mask) : NoWordSpells.Statement (.add slots) := by
  intro _ _ h; cases h

theorem NoWordSpells.and (slots : Mask) : NoWordSpells.Statement (.and slots) := by
  intro _ _ h; cases h

theorem NoWordSpells.or (slots : Mask) : NoWordSpells.Statement (.or slots) := by
  intro _ _ h; cases h

theorem NoWordSpells.xor (slots : Mask) : NoWordSpells.Statement (.xor slots) := by
  intro _ _ h; cases h

theorem NoWordSpells.bitset (slots : Mask) : NoWordSpells.Statement (.bitset slots) := by
  intro _ _ h; cases h

theorem NoWordSpells.bitclr (slots : Mask) : NoWordSpells.Statement (.bitclr slots) := by
  intro _ _ h; cases h

theorem NoWordSpells.bitflip (slots : Mask) : NoWordSpells.Statement (.bitflip slots) := by
  intro _ _ h; cases h

theorem NoWordSpells.cas (slots : Mask) : NoWordSpells.Statement (.cas slots) := by
  intro _ _ h; cases h

theorem NoWordSpells.step (slots : Mask) : NoWordSpells.Statement (.step slots) := by
  intro _ _ h; cases h

theorem NoWordSpells.claim (slots : Mask) : NoWordSpells.Statement (.claim slots) := by
  intro _ _ h; cases h

theorem NoWordSpells.release (slots : Mask) : NoWordSpells.Statement (.release slots) := by
  intro _ _ h; cases h

theorem NoWordSpells.relstore (slots : Mask) : NoWordSpells.Statement (.relstore slots) := by
  intro _ _ h; cases h

theorem NoWordSpells.joinProbe (slots : Mask) : NoWordSpells.Statement (.joinProbe slots) := by
  intro _ _ h; cases h

theorem NoWordSpells.found (slots : Mask) : NoWordSpells.Statement (.found slots) := by
  intro _ _ h; cases h

theorem NoWordSpells.join (slots : Mask) : NoWordSpells.Statement (.join slots) := by
  intro _ _ h; cases h

theorem NoWordSpells.roster (slots : Mask) : NoWordSpells.Statement (.roster slots) := by
  intro _ _ h; cases h

theorem NoWordSpells.rosterAdmission (slots : Mask) : NoWordSpells.Statement (.rosterAdmission slots) := by
  intro _ _ h; cases h

theorem NoWordSpells.transfer (slots : Mask) : NoWordSpells.Statement (.transfer slots) := by
  intro _ _ h; cases h

theorem NoWordSpells.drop (slots : Mask) : NoWordSpells.Statement (.drop slots) := by
  intro _ _ h; cases h

theorem NoWordSpells.leave (slots : Mask) : NoWordSpells.Statement (.leave slots) := by
  intro _ _ h; cases h

theorem NoWordSpells.lineStuck (slot : Station) (inData : Bool) : NoWordSpells.Statement (.lineStuck slot inData) := by
  intro _ _ h; cases h

theorem NoWordSpells.lineStuckEnd : NoWordSpells.Statement .lineStuckEnd := by
  intro _ _ h; cases h

theorem NoWordSpells.deferredClear : NoWordSpells.Statement .deferredClear := by
  intro _ _ h; cases h

theorem NoWordSpells.probeWaitExpiry : NoWordSpells.Statement .probeWaitExpiry := by
  intro _ _ h; cases h

theorem NoWordSpells.admitWaitExpiry : NoWordSpells.Statement .admitWaitExpiry := by
  intro _ _ h; cases h

theorem NoWordSpells.stallWaitExpiry : NoWordSpells.Statement .stallWaitExpiry := by
  intro _ _ h; cases h

theorem NoWordSpells.incompleteWindowEnd (slots : Mask) : NoWordSpells.Statement (.incompleteWindowEnd slots) := by
  intro _ _ h; cases h

theorem NoWordSpells.anotherStationStartBit : NoWordSpells.Statement .anotherStationStartBit := by
  intro _ _ h; cases h

theorem NoWordSpells.powerLoss : NoWordSpells.Statement .powerLoss := by
  intro _ _ h; cases h

theorem NoWordSpells.partialSequenceWrite (port : PartialPort) (data : Byte) : NoWordSpells.Statement (.partialSequenceWrite port data) := by
  intro _ _ h; cases h

end Sys2Proof.Laws
end

