-- ==== Sys2Proof/Laws/Queues.lean ====
section
/-! SUPPORT. What QU's operations do to the law of the queues (R136): every operation on a request keeps it, one by one, up to
the ends of attempts and windows. -/

namespace Sys2Proof.Machine

variable {s t : State}

/-! ## The requests of a state -/

/-- The requests of the queue and the park list, in that order. -/
def requests (s : State) : List Request := s.qu.queue ++ s.qu.park

/-- The tags of the requests. -/
def tags (s : State) : List Byte := (requests s).map (·.tag)

/-- A request that `findRequest` finds is in QU and bears the tag. -/
theorem findRequest_mem {tag : Byte} {q : Request} (h : findRequest tag s = some q) : q ∈ requests s ∧ q.tag = tag :=
  ⟨List.mem_of_find?_eq_some h, by simpa using List.find?_some h⟩

/-- No request bears a tag that `findRequest` does not find. -/
theorem findRequest_none {tag : Byte} : findRequest tag s = none ↔ tag ∉ tags s := by
  unfold findRequest tags requests
  rw [List.find?_eq_none]
  simp only [List.mem_map, beq_iff_eq]
  exact ⟨fun h ⟨q, hq, e⟩ => h q hq e, fun h q hq e => h ⟨q, hq, e⟩⟩

/-- With distinct tags `findRequest` finds the one request of its tag. -/
theorem findRequest_of_mem {q : Request} (hn : (tags s).Nodup) (hq : q ∈ requests s) : findRequest q.tag s = some q := by
  unfold findRequest tags requests at *
  generalize s.qu.queue ++ s.qu.park = l at *
  induction l with
  | nil => simp at hq
  | cons a l ih =>
    simp only [List.map_cons, List.nodup_cons, List.mem_map] at hn
    rcases List.mem_cons.1 hq with rfl | hq
    · simp
    · have : a.tag ≠ q.tag := fun e => hn.1 ⟨q, hq, e.symm⟩
      rw [List.find?_cons_of_neg (by simpa using this)]
      exact ih hn.2 hq

/-- The length of a list without the one entry of a tag. -/
theorem length_filter_tag {l : List Request} {tag : Byte} (hn : (l.map (·.tag)).Nodup) (hm : tag ∈ l.map (·.tag)) :
    (l.filter fun q => q.tag != tag).length + 1 = l.length := by
  induction l with
  | nil => simp at hm
  | cons a l ih =>
    simp only [List.map_cons, List.nodup_cons] at hn
    by_cases ha : a.tag = tag
    · have : l.filter (fun q => q.tag != tag) = l := by
        rw [List.filter_eq_self]
        intro q hq
        have : q.tag ≠ tag := fun e => hn.1 (List.mem_map.2 ⟨q, hq, by rw [ha, e]⟩)
        simpa using this
      simp [ha, this]
    · have hm' : tag ∈ l.map (·.tag) := by
        rcases List.mem_cons.1 hm with e | e
        · exact absurd e.symm ha
        · exact e
      have := ih hn.2 hm'
      simp [ha]; omega

/-! ## The law, operation by operation -/

/-- The law looks at the three stores alone. -/
theorem RequestLaw.of (h : RequestLaw s) (hq : t.qu.queue = s.qu.queue) (hp : t.qu.park = s.qu.park)
    (hc : t.qu.completions = s.qu.completions) : RequestLaw t := by
  unfold RequestLaw admissionTotal at *
  rw [hq, hp, hc]; exact h

/-- Stores of the same lengths and tags keep the law. -/
theorem RequestLaw.ofTags (h : RequestLaw s) (hq : t.qu.queue.map (·.tag) = s.qu.queue.map (·.tag))
    (hp : t.qu.park.map (·.tag) = s.qu.park.map (·.tag)) (hc : t.qu.completions = s.qu.completions) : RequestLaw t := by
  have lq : t.qu.queue.length = s.qu.queue.length := by simpa using congrArg List.length hq
  have lp : t.qu.park.length = s.qu.park.length := by simpa using congrArg List.length hp
  unfold RequestLaw admissionTotal at *
  rw [lq, lp, hc, List.map_append, hq, hp, ← List.map_append]; exact h

/-- A retirement of a request that is in QU (R133). -/
theorem RequestLaw.retire (h : RequestLaw s) (c : Completion) (hm : c.tag ∈ tags s) : RequestLaw (retire c s) := by
  have hl := length_filter_tag h.2.2.2 hm
  obtain ⟨h1, h2, h3, h4⟩ := h
  unfold RequestLaw admissionTotal at *
  have e1 : (Machine.retire c s).qu.queue = s.qu.queue.filter fun q => q.tag != c.tag := rfl
  have e2 : (Machine.retire c s).qu.park = s.qu.park.filter fun q => q.tag != c.tag := rfl
  have e3 : (Machine.retire c s).qu.completions = s.qu.completions ++ [c] := rfl
  rw [e1, e2, e3]
  rw [List.filter_append, List.length_append, List.length_append] at hl
  refine ⟨le_trans (List.length_filter_le _ _) h1, le_trans (List.length_filter_le _ _) h2, ?_, ?_⟩
  · rw [List.length_append, List.length_singleton]; omega
  · rw [← List.filter_append]
    exact List.Nodup.sublist (List.filter_sublist.map _) h4

theorem RequestLaw.retireFound (h : RequestLaw s) {tag : Byte} {q : Request} (hf : findRequest tag s = some q)
    (c : Completion) (hc : c.tag = q.tag) : RequestLaw (Machine.retire c s) :=
  h.retire c (by rw [hc]; exact List.mem_map.2 ⟨q, (findRequest_mem hf).1, rfl⟩)

/-- A change of a request in its place that leaves its tag. -/
theorem RequestLaw.update (h : RequestLaw s) (tag : Byte) (f : Request → Request) (hf : ∀ q, (f q).tag = q.tag) :
    RequestLaw (updateRequest tag f s) := by
  refine h.ofTags ?_ ?_ rfl
  all_goals
    simp only [updateRequest, State.setQu_qu, List.map_map]
    refine List.map_congr_left fun q _ => ?_
    simp only [Function.comp_apply]
    split
    · exact hf q
    · rfl

/-- Every request retired at once (R146). -/
theorem RequestLaw.retireAll (h : RequestLaw s) : RequestLaw (retireAll s) := by
  obtain ⟨h1, h2, h3, h4⟩ := h
  unfold RequestLaw admissionTotal at *
  refine ⟨by simp [Machine.retireAll], by simp [Machine.retireAll], ?_, by simp [Machine.retireAll]⟩
  simp [Machine.retireAll]; omega

/-- Parking the head (R138). -/
theorem RequestLaw.parkHead (h : RequestLaw s) {tag : Byte} {q : Request} (hf : findRequest tag s = some q)
    (hr : s.qu.park.length < Config.parkCapacity) : RequestLaw (parkHead q s) := by
  have hm : q.tag ∈ tags s := List.mem_map.2 ⟨q, (findRequest_mem hf).1, rfl⟩
  have hl := length_filter_tag h.2.2.2 hm
  obtain ⟨h1, h2, h3, h4⟩ := h
  unfold RequestLaw admissionTotal at *
  have e1 : (Machine.parkHead q s).qu.queue = s.qu.queue.filter fun r => r.tag != q.tag := rfl
  have e2 : (Machine.parkHead q s).qu.park
    = (s.qu.park.filter fun r => r.tag != q.tag) ++ [{ q with state := .parked, attempts := .fresh }] := rfl
  have e3 : (Machine.parkHead q s).qu.completions = s.qu.completions := rfl
  have hle := List.length_filter_le (fun r : Request => r.tag != q.tag) s.qu.park
  rw [e1, e2, e3]
  rw [List.filter_append, List.length_append, List.length_append] at hl
  refine ⟨le_trans (List.length_filter_le _ _) h1, ?_, ?_, ?_⟩
  · rw [List.length_append, List.length_singleton]; omega
  · rw [List.length_append, List.length_singleton]; omega
  · rw [← List.append_assoc, ← List.filter_append, List.map_append]
    rw [List.nodup_append]
    refine ⟨List.Nodup.sublist (List.filter_sublist.map _) h4, by simp, ?_⟩
    intro a ha b hb e
    simp only [List.mem_map, List.mem_filter, bne_iff_ne, ne_eq] at ha
    obtain ⟨r, ⟨-, hr⟩, rfl⟩ := ha
    simp at hb
    exact hr (e.trans hb)

/-- A complete attempt of a request settled (R137, R138, R140). -/
theorem RequestLaw.settleApplied (h : RequestLaw s) {tag : Byte} {q : Request} (hf : findRequest tag s = some q)
    (fromPark : Bool) (x : Applied) (epoch : Byte) : RequestLaw (settleApplied fromPark q x epoch s) := by
  unfold Machine.settleApplied
  split
  · split
    · exact h.update _ _ fun _ => rfl
    · split
      · rename_i hr
        exact h.parkHead hf hr
      · exact h.retireFound hf _ rfl
  · exact h.retireFound hf _ rfl

theorem RequestLaw.settleOwn (h : RequestLaw s) (item : Option Item) (x : Applied) (epoch : Byte) :
    RequestLaw (settleOwn item x epoch s) := by
  unfold Machine.settleOwn
  split
  · split
    · rename_i hf; exact h.settleApplied hf _ _ _
    · exact h
  · split
    · rename_i hf; exact h.settleApplied hf _ _ _
    · exact h
  · exact h
  · exact h

/-- Waking keeps the law (R139). -/
theorem RequestLaw.wake (h : RequestLaw s) (c : CellNo) : RequestLaw (wake c s) := by
  refine h.ofTags rfl ?_ rfl
  simp only [Machine.wake, State.setQu_qu, List.map_map]
  refine List.map_congr_left fun q _ => ?_
  simp only [Function.comp_apply]
  split <;> rfl

theorem RequestLaw.report (h : RequestLaw s) (c : CellNo) : RequestLaw (report c s) := by
  have h1 : RequestLaw (reportToWatches c s) := h.of (by simp) (by simp) (by simp)
  unfold Machine.report
  dsimp only
  split
  · exact h1.wake c
  · exact h1

theorem RequestLaw.releaseClaims (h : RequestLaw s) (gone : Mask) : RequestLaw (releaseClaims gone s) := by
  have h1 : RequestLaw (freeCells (releaseFrees gone s) s) := h.of (by simp) (by simp) (by simp)
  unfold Machine.releaseClaims
  dsimp only
  split
  · exact foldl_keeps (fun t c ht => ht.report c) _ _ h1
  · exact h1

theorem RequestLaw.leaveQueues (h : RequestLaw s) : RequestLaw (leaveQueues s) := by
  unfold Machine.leaveQueues
  split
  · exact h.retireAll.of (by simp) (by simp) (by simp)
  · exact h.retireAll

theorem RequestLaw.withdraw (h : RequestLaw s) : RequestLaw (withdraw s) := by
  unfold Machine.withdraw
  split
  · exact h.leaveQueues.of (by simp) (by simp) (by simp)
  · exact h.leaveQueues.of (by simp) (by simp) (by simp)
  all_goals exact h

theorem RequestLaw.haltStation (h : RequestLaw s) : RequestLaw (haltStation s) := by
  unfold Machine.haltStation
  split
  · exact h
  · exact h.leaveQueues.of (by simp) (by simp) (by simp)

theorem RequestLaw.leaveOwn (h : RequestLaw s) : RequestLaw (leaveOwn s) := by
  unfold Machine.leaveOwn
  have h1 := (h.releaseClaims (only (own s))).leaveQueues
  exact h1.of (by simp) (by simp) (by simp)

/-! ## Attempts -/

theorem RequestLaw.returnItem (h : RequestLaw s) (i : Item) : RequestLaw (returnItem i s) := by
  unfold Machine.returnItem
  split
  · exact h.update _ _ fun _ => rfl
  · rename_i tag
    have h1 := h.update tag (fun q => { q with state := .eligible }) fun _ => rfl
    exact h1.of rfl rfl rfl
  all_goals exact h

theorem RequestLaw.setRecord (h : RequestLaw s) (i : Item) (r : AttemptRec) : RequestLaw (setRecord i r s) := by
  unfold Machine.setRecord
  split
  case h_8 | h_9 => exact h.update _ _ fun _ => rfl
  all_goals exact h.of rfl rfl rfl

theorem RequestLaw.markInAttempt (h : RequestLaw s) (i : Item) : RequestLaw (markInAttempt i s) := by
  unfold Machine.markInAttempt
  split
  · exact h.update _ _ fun _ => rfl
  · rename_i tag
    have h1 := h.update tag (fun q => { q with state := .inAttempt }) fun _ => rfl
    exact h1.of rfl rfl rfl
  all_goals exact h

theorem RequestLaw.beginItem (h : RequestLaw s) (i : Item) : RequestLaw (beginItem i s) := by
  unfold Machine.beginItem
  split
  · exact h
  · exact (h.markInAttempt i).of rfl rfl rfl

theorem RequestLaw.clearHistories (h : RequestLaw s) : RequestLaw (clearHistories s) := by
  refine h.ofTags ?_ ?_ rfl <;> simp [Machine.clearHistories]

/-- A request that an item names is in QU. -/
theorem requestOfItem_found {i : Item} {q : Request} (h : requestOfItem i s = some q) :
    ∃ tag, findRequest tag s = some q := by
  unfold requestOfItem at h
  split at h <;> first | exact ⟨_, h⟩ | simp at h

theorem RequestLaw.attemptLimit (h : RequestLaw s) (i : Item) : RequestLaw (attemptLimit i s) := by
  unfold Machine.attemptLimit
  split
  · exact h.returnItem i
  · split
    case h_1 | h_2 =>
      split
      · rename_i hf
        obtain ⟨_, hf⟩ := requestOfItem_found hf
        exact h.retireFound hf _ rfl
      · exact h
    · exact h.withdraw
    · exact h.haltStation
    · exact h.setRecord _ _
    · exact h.setRecord _ _
    · have h1 := h.setRecord .stallJoin .fresh
      exact h1.of (by simp) (by simp) (by simp)
    all_goals exact h

theorem RequestLaw.decideItem (h : RequestLaw s) (i : Item) : RequestLaw (decideItem i s) := by
  unfold Machine.decideItem
  split
  · exact h.withdraw
  · exact RequestLaw.attemptLimit (h.of (t := oweDrop i _ s) (by simp) (by simp) (by simp)) i
  · exact h.attemptLimit i

theorem RequestLaw.weighMiss (h : RequestLaw s) (i : Item) : RequestLaw (weighMiss i s) := by
  unfold Machine.weighMiss
  split
  · rename_i hf
    obtain ⟨_, hf⟩ := requestOfItem_found hf
    split
    · exact h.retireFound hf _ rfl
    · exact h.decideItem i
  · exact h.decideItem i

theorem RequestLaw.foundIncomplete (h : RequestLaw s) : RequestLaw (foundIncomplete s) := by
  unfold Machine.foundIncomplete
  dsimp only
  split
  · exact h.setRecord _ _
  · have h1 := h.setRecord .found .fresh
    exact h1.of (by simp) (by simp) (by simp)

theorem RequestLaw.incompleteAttempt (h : RequestLaw s) (i : Item) (m : Mask) : RequestLaw (incompleteAttempt i m s) := by
  unfold Machine.incompleteAttempt
  split
  · exact h.of (by simp) (by simp) (by simp)
  · exact h.foundIncomplete
  all_goals exact (h.setRecord _ _).weighMiss _

theorem RequestLaw.endAttempt (h : RequestLaw s) (a : Attempt) : RequestLaw (endAttempt a s) := h.of rfl rfl rfl

theorem RequestLaw.refresh (h : RequestLaw s) : RequestLaw (refresh s) := h.of (by simp) (by simp) (by simp)

theorem RequestLaw.selfFault (h : RequestLaw s) : RequestLaw (selfFault s) := by
  unfold Machine.selfFault
  split
  · exact h
  · exact (h.endAttempt _).incompleteAttempt _ _

theorem RequestLaw.lostArbitration (h : RequestLaw s) : RequestLaw (lostArbitration s) := by
  unfold Machine.lostArbitration
  split
  · exact h
  · have h1 : RequestLaw (s.setSu { s.su with attempt := none }) := h.of rfl rfl rfl
    dsimp only
    split
    · rename_i hf
      obtain ⟨_, hf⟩ := requestOfItem_found hf
      split
      · exact h1.retireFound hf _ rfl
      · exact h1.returnItem _
    · exact h1.returnItem _

theorem RequestLaw.completeItem (h : RequestLaw s) (i : Item) : RequestLaw (completeItem i s) := by
  unfold Machine.completeItem
  split
  · have h1 : RequestLaw (s.setSu { s.su with owedDrop := none }) := h.of rfl rfl rfl
    exact h1.setRecord _ _
  · have h1 : RequestLaw (s.setVu { s.vu with leavePending := false }) := h.of rfl rfl rfl
    exact h1.setRecord _ _
  · have h1 := h.setRecord .stallJoin .fresh
    exact h1.of (by simp) (by simp) (by simp)
  · exact h.setRecord _ _
  · exact h.setRecord _ _
  · exact h.setRecord _ _
  all_goals exact h

/-! ## Windows -/

theorem RequestLaw.applyCell (h : RequestLaw s) (op : CellOp) (c : CellNo) (a b : Half) (f : Frame) (item : Option Item) :
    RequestLaw (applyCell op c a b f item s) := by
  have h1 : RequestLaw (putCell c (applyOp op f.orig a b (cellAt s c)).record s) := h.of rfl rfl rfl
  unfold Machine.applyCell
  dsimp only
  split
  · split
    · exact (h1.settleOwn _ _ _).report c
    · exact h1.settleOwn _ _ _
  · split
    · exact h1
    · exact h
  all_goals exact h

theorem RequestLaw.moveRound (h : RequestLaw s) (k : BitVec 4) (images : Vector Cell 8) :
    RequestLaw (moveRound k images s) := by
  unfold Machine.moveRound
  split
  · dsimp only
    split
    · unfold promoteJoining
      split
      · exact h.of (by simp) (by simp) (by simp)
      · exact h.withdraw
    · exact h.of (by simp) (by simp) (by simp)
  · split <;> exact h.of rfl rfl rfl
  all_goals exact h

theorem RequestLaw.applyTransfer (h : RequestLaw s) (k : BitVec 4) (images : Vector Cell 8) :
    RequestLaw (applyTransfer k images s) :=
  RequestLaw.moveRound (s := Machine.setRecord .transfer .fresh s) (h.of rfl rfl rfl) k images

theorem RequestLaw.applyJoin (h : RequestLaw s) (n : Station) : RequestLaw (applyJoin n s) := by
  unfold Machine.applyJoin
  split
  · exact h.withdraw
  · have h1 : RequestLaw (setView (joinView n s.vu.view) s) := h.of rfl rfl rfl
    dsimp only
    split
    · exact h1.releaseClaims _
    all_goals exact h1

theorem RequestLaw.applyDrop (h : RequestLaw s) (m : Mask) : RequestLaw (applyDrop m s) := by
  unfold Machine.applyDrop
  split
  · exact h.withdraw
  · have h1 : RequestLaw (setView (removeFromView m s.vu.view) s) := h.of rfl rfl rfl
    have h2 := h1.releaseClaims (m &&& everyone s.vu.view)
    exact RequestLaw.clearHistories (h2.of (by simp) (by simp) (by simp))

theorem RequestLaw.applyLeaveOther (h : RequestLaw s) (n : Station) : RequestLaw (applyLeaveOther n s) := by
  unfold Machine.applyLeaveOther
  split
  · exact h.withdraw
  · have h1 : RequestLaw (setView (removeFromView (only n) s.vu.view) s) := h.of rfl rfl rfl
    exact h1.releaseClaims _

theorem RequestLaw.applyFrame (h : RequestLaw s) (f : Frame) (item : Option Item) : RequestLaw (applyFrame f item s) := by
  unfold Machine.applyFrame
  split
  · exact h.applyCell _ _ _ _ _ _
  · exact h.applyTransfer _ _
  · exact h.of (by simp) (by simp) (by simp)
  · exact h.applyJoin _
  · exact h.applyDrop _
  · split
    · exact h.leaveOwn
    · exact h.applyLeaveOther _
  · exact h

/-- What is done with the frame under judgement at the end of its window keeps the law. -/
theorem RequestLaw.disposeFrame (h : RequestLaw s) (j : Judged) (slots : Mask) : RequestLaw (disposeFrame j slots s) := by
  have other : RequestLaw (endOtherWindow j slots s) := by
    unfold endOtherWindow
    split
    · exact h.applyFrame _ _
    · split
      · exact h.withdraw
      · exact h
  have own : ∀ a, RequestLaw (endOwnWindow j a slots s) := by
    intro a
    unfold endOwnWindow
    dsimp only
    split
    · exact ((h.endAttempt a).completeItem _).applyFrame _ _
    · exact (h.endAttempt a).incompleteAttempt _ _
  unfold Machine.disposeFrame
  split
  · exact h
  · unfold endOwnListening
    dsimp only
    split
    · split
      · rename_i a _ _ _ _ _ _
        have h1 := (h.endAttempt a).completeItem .found
        exact h1.of (by simp) (by simp) (by simp)
      · rename_i a _ _ _ _ _ _
        have h1 := h.endAttempt a
        split <;> exact h1.of (by simp) (by simp) (by simp)
      all_goals exact h.endAttempt _
    · exact (h.endAttempt _).incompleteAttempt _ _
  · exact h
  · exact h.of (by simp) (by simp) (by simp)
  · exact own _
  · exact own _
  · exact other
  · exact other

theorem RequestLaw.windowEnd (h : RequestLaw s) (slots : Mask) : RequestLaw (windowEnd slots s) := by
  have h1 : RequestLaw (closeWindow s) := h.of rfl rfl rfl
  unfold Machine.windowEnd
  split
  · exact (h1.disposeFrame _ _).refresh
  · exact h1.refresh
  · exact h1.refresh
  · exact h

theorem RequestLaw.windowFault (h : RequestLaw s) (slot : Station) (inData : Bool) : RequestLaw (windowFault slot inData s) := by
  unfold Machine.windowFault
  dsimp only
  have h1 : RequestLaw ((s.setVu { s.vu with judged := none }).setLu (giveUpLine 0 s.lu)) := h.of rfl rfl rfl
  split
  · refine RequestLaw.refresh ?_
    unfold disposeFault
    split
    · unfold faultOwn
      split
      · exact h1
      · split
        · exact (h1.endAttempt _).withdraw
        · exact (h1.endAttempt _).incompleteAttempt _ _
    · split
      · exact h1
      · exact h1
      · split <;> exact h1.of (by simp) (by simp) (by simp)
      all_goals
        unfold faultOther
        split
        · exact h1.withdraw
        · exact h1
  · exact h1.refresh
  · exact h1.refresh
  · exact h

/-- An admission keeps the law: the one place where the total can rise (R135, R136). -/
theorem RequestLaw.submit (h : RequestLaw s) (e : Entry) : RequestLaw (submit e s) := by
  unfold Machine.submit
  dsimp only
  split
  · rename_i op hr ho
    have ha : findRequest e.tag s = none ∧ ¬(Config.queueCapacity ≤ s.qu.queue.length ∨ Config.budget ≤ admissionTotal s) := by
      unfold admissionResult at hr
      split at hr; · simp at hr
      split at hr; · simp at hr
      split at hr; · simp at hr
      rename_i hk
      split at hr; · simp at hr
      rename_i hq
      exact ⟨by simpa using hk, hq⟩
    have ht := findRequest_none.1 ha.1
    have hb := ha.2
    obtain ⟨h1, h2, h3, h4⟩ := h
    unfold RequestLaw admissionTotal at *
    simp only [State.setQu_qu]
    have hl : (s.qu.queue ++ [requestOf e op]).length = s.qu.queue.length + 1 := by simp
    refine ⟨by rw [hl]; omega, h2, by rw [hl]; omega, ?_⟩
    have hp : (s.qu.queue ++ [requestOf e op] ++ s.qu.park).Perm (requestOf e op :: (s.qu.queue ++ s.qu.park)) := by
      rw [List.append_assoc]; exact List.perm_middle
    rw [(hp.map _).nodup_iff, List.map_cons, List.nodup_cons]
    exact ⟨ht, h4⟩
  · exact h.of rfl rfl rfl

end Sys2Proof.Machine
end

