-- ==== Sys2Proof/Laws/Watches.lean ====
section
/-! SUPPORT. What the folds over the watch list do, watch by watch and notice by notice: the report of a changed cell, the entry
into MEMBER and the exit from it. -/

namespace Sys2Proof.Machine

theorem watchAt_set (s : State) (i k : Fin 16) (w : Watch) (x : Wu) (hx : x.watches = s.wu.watches.set i w) :
    watchAt (s.setWu x) k = if k = i then w else watchAt s k := by
  have hki : (i.val = k.val) = (k = i) := by rw [eq_iff_iff, Fin.ext_iff]; omega
  simp [watchAt, hx, Vector.getElem_set, hki]

/-- What one firing does to the watches. -/
theorem watchAt_fire (reason : Reason) (r : Cell) (i k : Fin 16) (s : State) :
    watchAt (fire reason r i s) k = if k = i then { watchAt s i with state := .fired } else watchAt s k :=
  watchAt_set _ _ _ _ _ rfl

/-- The notice that a firing of watch `i` from its own cell appends. -/
def firedNotice (reason : Reason) (s : State) (i : Fin 16) : Notice :=
  let r := cellAt s (watchAt s i).cell
  ⟨i, (watchAt s i).tag, reason, r.value, r.holder, r.version⟩

theorem fire_events (reason : Reason) (i : Fin 16) (s : State) :
    (fire reason (cellAt s (watchAt s i).cell) i s).wu.events = s.wu.events ++ [firedNotice reason s i] := rfl

/-- A fold that fires, in order, the watches that a test picks: the watches and the notices it leaves. The test of a watch looks
at that watch, the table and the straps alone. -/
theorem foldl_fires {reason : Reason} {fires : State → Fin 16 → Bool} {f : State → Fin 16 → State}
    (hf : ∀ t i, f t i = if fires t i then fire reason (cellAt t (watchAt t i).cell) i t else t)
    (hc : ∀ t u i, watchAt t i = watchAt u i → t.tu = u.tu → t.hp = u.hp → fires t i = fires u i) :
    ∀ (l : List (Fin 16)), l.Nodup → ∀ s : State,
      (∀ k, watchAt (l.foldl f s) k
        = if k ∈ l ∧ fires s k = true then { watchAt s k with state := .fired } else watchAt s k) ∧
      (l.foldl f s).wu.events = s.wu.events ++ (l.filter (fires s)).map (firedNotice reason s) := by
  intro l
  induction l with
  | nil => intro _ s; simp
  | cons i l ih =>
    intro hn s
    obtain ⟨hi, hn⟩ := List.nodup_cons.1 hn
    have key : ∀ k, k ≠ i → watchAt (f s i) k = watchAt s k ∧ fires (f s i) k = fires s k ∧
        firedNotice reason (f s i) k = firedNotice reason s k := by
      intro k hk
      have hw : watchAt (f s i) k = watchAt s k := by
        rw [hf]; split
        · rw [watchAt_fire, if_neg hk]
        · rfl
      have ht : (f s i).tu = s.tu := by rw [hf]; split <;> simp
      have hh : (f s i).hp = s.hp := by rw [hf]; split <;> simp
      exact ⟨hw, hc _ _ _ hw ht hh, by simp [firedNotice, hw, cellAt, ht]⟩
    obtain ⟨ih1, ih2⟩ := ih hn (f s i)
    constructor
    · intro k
      rw [List.foldl_cons, ih1 k]
      by_cases hk : k = i
      · subst hk
        simp only [hi, false_and, if_false, List.mem_cons, true_or, true_and]
        rw [hf]; split
        · rw [watchAt_fire, if_pos rfl]
        · rfl
      · simp only [key k hk, List.mem_cons, hk, false_or]
    · rw [List.foldl_cons, ih2]
      have h1 : l.filter (fires (f s i)) = l.filter (fires s) :=
        List.filter_congr fun k hk => (key k (fun e => hi (e ▸ hk))).2.1
      have h2 : (l.filter (fires s)).map (firedNotice reason (f s i)) = (l.filter (fires s)).map (firedNotice reason s) :=
        List.map_congr_left fun k hk => (key k (fun e => hi (e ▸ List.mem_of_mem_filter hk))).2.2
      rw [h1, h2]
      by_cases hp : fires s i = true
      · have he : (f s i).wu.events = s.wu.events ++ [firedNotice reason s i] := by
          rw [hf, if_pos hp, fire_events]
        simp [he, hp]
      · have he : (f s i).wu.events = s.wu.events := by rw [hf, if_neg hp]
        simp [he, hp]

/-- What the report of a changed cell does (R151): every ARMED watch on it whose test holds fires, in ascending number. -/
theorem reportToWatches_spec (c : CellNo) (s : State) :
    (∀ k, watchAt (reportToWatches c s) k
      = if firesOn c (cellAt s c) s k = true then { watchAt s k with state := .fired } else watchAt s k) ∧
    (reportToWatches c s).wu.events
      = s.wu.events ++ ((List.finRange 16).filter (firesOn c (cellAt s c) s)).map (noticeOf (cellAt s c) s) := by
  have h := foldl_fires (reason := .met) (fires := fun t i => firesOn c (cellAt t c) t i)
    (f := fun t i => if (watchAt t i).cell = c then evaluate i t else t)
    (by
      intro t i
      by_cases hw : (watchAt t i).cell = c
      · subst hw; simp [evaluate, firesOn]
      · simp [hw, firesOn])
    (by intro t u i hw ht hh; simp [firesOn, hw, cellAt, ht, own, hh])
    (List.finRange 16) (List.nodup_finRange 16) s
  unfold reportToWatches
  refine ⟨fun k => by rw [h.1 k]; simp only [List.mem_finRange, true_and], ?_⟩
  rw [h.2]
  congr 1
  refine List.map_congr_left fun k hk => ?_
  have : (watchAt s k).cell = c := by have := (List.mem_filter.1 hk).2; simp [firesOn] at this; exact this.1.2
  simp [firedNotice, noticeOf, this]

/-- Whether an ARMED watch's test holds on its own cell (R151). -/
def holdsNow (s : State) (i : Fin 16) : Bool :=
  let w := watchAt s i
  w.state == .armed && testHolds (own s) w.test w.operand w.reference (cellAt s w.cell)

/-- The reference versions taken at an entry into MEMBER (R151). -/
def referencesTaken (s : State) : State :=
  s.setWu { s.wu with watches := bank 16 fun i => takeReference s s.wu.watches[i] }

theorem watchAt_referencesTaken (s : State) (k : Fin 16) : watchAt (referencesTaken s) k = takeReference s (watchAt s k) := by
  simp [watchAt, referencesTaken, bank]

/-- What an entry into MEMBER does (R151): the reference versions first, then every ARMED watch whose test holds fires MET. -/
theorem watchesOnEntry_spec (s : State) :
    (∀ k, watchAt (watchesOnEntry s) k
      = if holdsNow (referencesTaken s) k = true then { takeReference s (watchAt s k) with state := .fired }
        else takeReference s (watchAt s k)) ∧
    (watchesOnEntry s).wu.events = s.wu.events
      ++ ((List.finRange 16).filter (holdsNow (referencesTaken s))).map (firedNotice .met (referencesTaken s)) := by
  have h := foldl_fires (reason := .met) (fires := holdsNow) (f := fun t i => evaluate i t)
    (by intro t i; simp [evaluate, holdsNow])
    (by intro t u i hw ht hh; simp [holdsNow, hw, cellAt, ht, own, hh])
    (List.finRange 16) (List.nodup_finRange 16) (referencesTaken s)
  have he : watchesOnEntry s = (List.finRange 16).foldl (fun t i => evaluate i t) (referencesTaken s) := by
    unfold watchesOnEntry referencesTaken; rfl
  rw [he]
  exact ⟨fun k => by rw [h.1 k]; simp only [List.mem_finRange, true_and, watchAt_referencesTaken], h.2⟩

/-- What an exit from MEMBER does (R153): every ARMED watch fires LOST, in ascending number. -/
theorem watchesOnExit_spec (s : State) :
    (∀ k, watchAt (watchesOnExit s) k
      = if (watchAt s k).state = .armed then { watchAt s k with state := .fired } else watchAt s k) ∧
    (watchesOnExit s).wu.events = s.wu.events
      ++ ((List.finRange 16).filter (fun i => (watchAt s i).state == .armed)).map (firedNotice .lost s) := by
  have h := foldl_fires (reason := .lost) (fires := fun t i => (watchAt t i).state == .armed)
    (f := fun t i => if (watchAt t i).state = .armed then fire .lost (cellAt t (watchAt t i).cell) i t else t)
    (by intro t i; simp)
    (by intro t u i hw ht hh; simp [hw])
    (List.finRange 16) (List.nodup_finRange 16) s
  unfold watchesOnExit
  exact ⟨fun k => by rw [h.1 k]; simp only [List.mem_finRange, true_and, beq_iff_eq], h.2⟩

/-! ## The law of the event queue -/

variable {s t : State}

/-- The law looks at the watches and the event queue alone. -/
theorem NoticeLaw.of (h : NoticeLaw s) (hw : t.wu.watches = s.wu.watches) (he : t.wu.events = s.wu.events) : NoticeLaw t := by
  intro i
  have : watchAt t i = watchAt s i := by simp only [watchAt, hw]
  rw [he, this]; exact h i

/-- An ARMED watch that fires, with its notice appended in the same act (R152, R153). -/
theorem NoticeLaw.fire (h : NoticeLaw s) (reason : Reason) (r : Cell) (i : Fin 16) (ha : (watchAt s i).state = .armed) :
    NoticeLaw (fire reason r i s) := by
  intro k
  have hk := h k
  rw [watchAt_fire]
  have he : (Machine.fire reason r i s).wu.events
    = s.wu.events ++ [⟨i, (watchAt s i).tag, reason, r.value, r.holder, r.version⟩] := rfl
  rw [he, List.countP_append, hk]
  by_cases e : k = i
  · subst e; simp [ha]
  · have : i ≠ k := fun x => e x.symm
    simp [e, this]

theorem NoticeLaw.evaluate (h : NoticeLaw s) (i : Fin 16) : NoticeLaw (evaluate i s) := by
  unfold Machine.evaluate
  dsimp only
  split
  · rename_i hc; exact h.fire _ _ _ hc.1
  · exact h

theorem NoticeLaw.reportToWatches (h : NoticeLaw s) (c : CellNo) : NoticeLaw (reportToWatches c s) := by
  unfold Machine.reportToWatches
  refine foldl_keeps (P := NoticeLaw) (fun t i ht => ?_) _ _ h
  split
  · exact ht.evaluate i
  · exact ht

theorem NoticeLaw.report (h : NoticeLaw s) (c : CellNo) : NoticeLaw (report c s) := by
  unfold Machine.report
  dsimp only
  split
  · exact (h.reportToWatches c).of (by simp) (by simp)
  · exact h.reportToWatches c

theorem NoticeLaw.watchesOnEntry (h : NoticeLaw s) : NoticeLaw (watchesOnEntry s) := by
  have h1 : NoticeLaw (referencesTaken s) := by
    intro i
    rw [watchAt_referencesTaken]
    have : (takeReference s (watchAt s i)).state = (watchAt s i).state := by unfold takeReference; split <;> rfl
    rw [this]; exact h i
  have he : Machine.watchesOnEntry s = (List.finRange 16).foldl (fun t i => Machine.evaluate i t) (referencesTaken s) := by
    unfold Machine.watchesOnEntry referencesTaken; rfl
  rw [he]
  exact foldl_keeps (P := NoticeLaw) (fun t i ht => ht.evaluate i) _ _ h1

theorem NoticeLaw.watchesOnExit (h : NoticeLaw s) : NoticeLaw (watchesOnExit s) := by
  unfold Machine.watchesOnExit
  refine foldl_keeps (P := NoticeLaw) (fun t i ht => ?_) _ _ h
  split
  · rename_i ha; exact ht.fire _ _ _ ha
  · exact ht

/-- A watch replaced by one of a state that is FIRED in neither (R149, R155). -/
theorem NoticeLaw.putWatch (h : NoticeLaw s) (i : Fin 16) (w : Watch) (hs : (watchAt s i).state ≠ .fired)
    (hw : w.state ≠ .fired) : NoticeLaw (putWatch i w s) := by
  intro k
  have hk := h k
  have he : watchAt (Machine.putWatch i w s) k = if k = i then w else watchAt s k := watchAt_set _ _ _ _ _ rfl
  have hv : (Machine.putWatch i w s).wu.events = s.wu.events := rfl
  rw [he, hv, hk]
  by_cases e : k = i
  · subst e; simp [hs, hw]
  · simp [e]

/-- ARM keeps the law (R149). -/
theorem NoticeLaw.judgeArm (h : NoticeLaw s) (watch cell test : Byte) (operand : Half) (tag : Byte) :
    NoticeLaw (judgeArm watch cell test operand tag s) := by
  unfold Machine.judgeArm
  split
  · exact h.of rfl rfl
  · rename_i i t _
    split
    · rename_i hf
      have h0 : NoticeLaw (watchResult .taken s) := h.of rfl rfl
      have h1 : NoticeLaw (Machine.putWatch i (armedWatch s cell t operand tag) (watchResult .taken s)) := by
        refine h0.putWatch i _ ?_ (by simp [armedWatch])
        have : watchAt (watchResult .taken s) i = watchAt s i := rfl
        rw [this, hf]; simp
      dsimp only
      split
      · exact h1.evaluate i
      · exact h1
    · exact h.of rfl rfl

/-- A watch made FREE and its notices removed together (R154, R155). -/
theorem NoticeLaw.freeRemoved (h : NoticeLaw s) (i : Fin 16) :
    NoticeLaw (freeWatch i (removeNotice i s)) := by
  intro k
  have hk := h k
  have he : watchAt (freeWatch i (removeNotice i s)) k = if k = i then { watchAt s i with state := .free } else watchAt s k :=
    watchAt_set _ _ _ _ _ rfl
  have hv : (freeWatch i (removeNotice i s)).wu.events = s.wu.events.filter fun n => n.watch ≠ i := rfl
  rw [he, hv, List.countP_filter]
  by_cases e : k = i
  · subst e
    rw [if_pos rfl, List.countP_eq_zero.2]
    · simp
    · intro n _; simp
  · rw [if_neg e, ← hk]
    refine List.countP_congr fun n _ => ?_
    simp only [ne_eq, decide_not, Bool.and_eq_true, beq_iff_eq, Bool.not_eq_true', decide_eq_false_iff_not]
    exact ⟨fun x => x.1, fun x => ⟨x, fun y => e (x.symm.trans y)⟩⟩

/-- DISARM keeps the law (R155). -/
theorem NoticeLaw.judgeDisarm (h : NoticeLaw s) (watch : Byte) : NoticeLaw (judgeDisarm watch s) := by
  unfold Machine.judgeDisarm
  split
  · dsimp only
    split
    · exact h.of rfl rfl
    · rename_i hw _ ha
      have h1 := h.putWatch ⟨watch.toNat, hw⟩ { watchAt s ⟨watch.toNat, hw⟩ with state := .free } (by rw [ha]; simp)
        (by simp)
      exact h1.of rfl rfl
    · exact (h.freeRemoved _).of rfl rfl
  · exact h.of rfl rfl

/-- The head notice taken, and its watch made FREE, in one act (R154). -/
theorem NoticeLaw.takeNotice (h : NoticeLaw s) {n : Notice} {rest : List Notice} (he : s.wu.events = n :: rest) :
    NoticeLaw (takeNotice n rest s) := by
  intro k
  have hk := h k
  have hn := h n.watch
  rw [he] at hk hn
  have e1 : watchAt (Machine.takeNotice n rest s) k
    = if k = n.watch then { watchAt s n.watch with state := .free } else watchAt s k := watchAt_set _ _ _ _ _ rfl
  have e2 : (Machine.takeNotice n rest s).wu.events = rest := rfl
  rw [e1, e2]
  by_cases e : k = n.watch
  · subst e
    rw [List.countP_cons] at hn
    simp only [beq_self_eq_true, if_true] at hn ⊢
    split at hn
    · simpa using hn
    · simp at hn
  · have : n.watch ≠ k := fun x => e x.symm
    rw [List.countP_cons] at hk
    simpa [e, this] using hk

end Sys2Proof.Machine
end

