-- ==== Sys2Proof/Laws/Release.lean ====
section
/-! SUPPORT. What a claim release does to the watches and the parked claims, what SU offers, what its refresh leaves in SU, what a
withdrawal leaves of a station, and what an entry into MEMBER reports. -/

namespace Sys2Proof.Machine

/-! ## One report -/

/-- What the report of a changed cell does to WU and QU (R12, R139, R151). -/
theorem report_spec (c : CellNo) (s : State) :
    (∀ k, watchAt (report c s) k
      = if firesOn c (cellAt s c) s k = true then { watchAt s k with state := .fired } else watchAt s k) ∧
    (report c s).wu = { s.wu with
      watches := (report c s).wu.watches
      events := s.wu.events ++ ((List.finRange 16).filter (firesOn c (cellAt s c) s)).map (noticeOf (cellAt s c) s) } ∧
    (report c s).qu = { s.qu with
      park := s.qu.park.map fun q => if wakesOn c (cellAt s c) q then { q with state := .eligible, attempts := .fresh } else q
      woken := s.qu.woken ++ (s.qu.park.filter (wakesOn c (cellAt s c))).map (·.tag) } := by
  have h := reportToWatches_spec c s
  have hw : ∀ x : State, x.wu = (reportToWatches c s).wu → x.wu = { s.wu with
      watches := x.wu.watches
      events := s.wu.events ++ ((List.finRange 16).filter (firesOn c (cellAt s c) s)).map (noticeOf (cellAt s c) s) } := by
    intro x hx
    rw [hx]
    cases hu : (reportToWatches c s).wu
    have := reportToWatches_frame c s
    simp_all
  have ht : cellAt (reportToWatches c s) c = cellAt s c := by simp [cellAt]
  have hq : (reportToWatches c s).qu = s.qu := by simp
  unfold report
  dsimp only
  rw [ht]
  by_cases hn : (cellAt s c).holder = none
  · rw [if_pos hn]
    refine ⟨fun k => ?_, hw _ (by simp), ?_⟩
    · rw [← h.1 k]; simp [watchAt]
    · have e : wakesOn c (cellAt s c) = fun q => q.state == .parked && q.cell == c := by
        funext q; simp [wakesOn, hn]
      simp [wake, e]
  · rw [if_neg hn]
    refine ⟨h.1, hw _ rfl, ?_⟩
    have e : wakesOn c (cellAt s c) = fun _ => false := by
      funext q; simp [wakesOn, hn]
    rw [hq, e]; simp

/-! ## A list of reports -/

/-- A parked request after the report of cell `c`, which a change has left as `r` (R95, R139). -/
def wokenOn (c : CellNo) (r : Cell) (q : Request) : Request :=
  if wakesOn c r q then { q with state := .eligible, attempts := .fresh } else q

theorem wokenOn_cell (c : CellNo) (r : Cell) (q : Request) : (wokenOn c r q).cell = q.cell := by
  unfold wokenOn; split <;> rfl

theorem wokenOn_tag (c : CellNo) (r : Cell) (q : Request) : (wokenOn c r q).tag = q.tag := by
  unfold wokenOn; split <;> rfl

theorem wokenOn_other {c : CellNo} {r : Cell} {q : Request} (h : q.cell ≠ c) : wokenOn c r q = q := by
  have : wakesOn c r q = false := by simp [wakesOn, h]
  simp [wokenOn, this]

/-- A report of one cell does not decide which requests that of another wakes. -/
theorem wakesOn_wokenOn {c d : CellNo} (hd : d ≠ c) (r r' : Cell) (q : Request) :
    wakesOn d r' (wokenOn c r q) = wakesOn d r' q := by
  by_cases h : q.cell = c
  · have h1 : (q.cell == d) = false := by rw [h]; simpa using fun e => hd e.symm
    simp [wakesOn, wokenOn_cell, h1]
  · rw [wokenOn_other h]

/-- The watch of a number after a report of one cell, where it names another. -/
theorem report_watchAt {c : CellNo} {s : State} {k : Fin 16} (h : (watchAt s k).cell ≠ c) :
    watchAt (report c s) k = watchAt s k := by
  rw [(report_spec c s).1 k, if_neg]
  intro hf
  simp only [firesOn, Bool.and_eq_true, beq_iff_eq] at hf
  exact h hf.1.2

theorem report_watch_cell (c : CellNo) (s : State) (k : Fin 16) :
    (watchAt (report c s) k).cell = (watchAt s k).cell ∧ (watchAt (report c s) k).tag = (watchAt s k).tag := by
  rw [(report_spec c s).1 k]; split <;> exact ⟨rfl, rfl⟩

/-- A report of one cell does not decide which watches that of another fires. -/
theorem firesOn_report {c d : CellNo} (hd : d ≠ c) (r : Cell) (s : State) (k : Fin 16) :
    firesOn d r (report c s) k = firesOn d r s k := by
  by_cases h : (watchAt s k).cell = c
  · have h1 : (c == d) = false := by simpa using fun e => hd e.symm
    simp [firesOn, (report_watch_cell c s k).1, h, h1]
  · have ho : own (report c s) = own s := by simp [own]
    simp only [firesOn, report_watchAt h, ho]

theorem noticeOf_report (c : CellNo) (r : Cell) (s : State) (k : Fin 16) : noticeOf r (report c s) k = noticeOf r s k := by
  simp only [noticeOf, (report_watch_cell c s k).2]

theorem filter_wokenOn {c d : CellNo} (hd : d ≠ c) (r r' : Cell) (l : List Request) :
    ((l.map (wokenOn c r)).filter (wakesOn d r')).map (·.tag) = (l.filter (wakesOn d r')).map (·.tag) := by
  induction l with
  | nil => rfl
  | cons q l ih =>
    rw [List.map_cons, List.filter_cons, List.filter_cons, wakesOn_wokenOn hd]
    split
    · rw [List.map_cons, List.map_cons, ih, wokenOn_tag]
    · exact ih

/-- The watches after the reports of a list of changed cells (R151). -/
theorem foldl_report_watches (l : List CellNo) : l.Nodup → ∀ (s : State) (k : Fin 16),
    watchAt (l.foldl (fun t c => report c t) s) k
      = if (watchAt s k).cell ∈ l ∧ firesOn (watchAt s k).cell (cellAt s (watchAt s k).cell) s k = true
        then { watchAt s k with state := .fired } else watchAt s k := by
  induction l with
  | nil => intro _ s k; simp
  | cons c l ih =>
    intro hn s k
    obtain ⟨hc, hn⟩ := List.nodup_cons.1 hn
    have ht : cellAt (report c s) (watchAt s k).cell = cellAt s (watchAt s k).cell := by simp [cellAt]
    rw [List.foldl_cons, ih hn (report c s) k, (report_watch_cell c s k).1, ht]
    by_cases hk : (watchAt s k).cell = c
    · rw [if_neg (fun h => hc (hk ▸ h.1)), (report_spec c s).1 k, hk]
      simp only [List.mem_cons, true_or, true_and]
    · rw [firesOn_report hk, report_watchAt hk]
      simp only [List.mem_cons, hk, false_or]

/-- The notices that the reports of a list of changed cells append (R151, R152). -/
theorem foldl_report_wu (l : List CellNo) : l.Nodup → ∀ s : State,
    (l.foldl (fun t c => report c t) s).wu = { s.wu with
      watches := (l.foldl (fun t c => report c t) s).wu.watches
      events := s.wu.events ++ l.flatMap fun c =>
        ((List.finRange 16).filter (firesOn c (cellAt s c) s)).map (noticeOf (cellAt s c) s) } := by
  induction l with
  | nil => intro _ s; simp
  | cons c l ih =>
    intro hn s
    obtain ⟨hc, hn⟩ := List.nodup_cons.1 hn
    have e : l.flatMap (fun d => ((List.finRange 16).filter (firesOn d (cellAt (report c s) d) (report c s))).map
          (noticeOf (cellAt (report c s) d) (report c s)))
        = l.flatMap (fun d => ((List.finRange 16).filter (firesOn d (cellAt s d) s)).map (noticeOf (cellAt s d) s)) := by
      refine List.flatMap_congr fun d hd => ?_
      have ht : cellAt (report c s) d = cellAt s d := by simp [cellAt]
      have hdc : d ≠ c := fun e => hc (e ▸ hd)
      rw [ht]
      have hf : firesOn d (cellAt s d) (report c s) = firesOn d (cellAt s d) s := funext fun k => firesOn_report hdc _ _ k
      have hnn : noticeOf (cellAt s d) (report c s) = noticeOf (cellAt s d) s := funext fun k => noticeOf_report _ _ _ k
      rw [hf, hnn]
    rw [List.foldl_cons, ih hn (report c s), e, (report_spec c s).2.1, List.flatMap_cons]
    simp only [List.append_assoc]

/-- The parked claims and the woken order after the reports of a list of changed cells (R139). -/
theorem foldl_report_qu (l : List CellNo) : l.Nodup → ∀ s : State,
    (l.foldl (fun t c => report c t) s).qu = { s.qu with
      park := s.qu.park.map fun q => if q.cell ∈ l then wokenOn q.cell (cellAt s q.cell) q else q
      woken := s.qu.woken ++ l.flatMap fun c => (s.qu.park.filter (wakesOn c (cellAt s c))).map (·.tag) } := by
  induction l with
  | nil => intro _ s; simp
  | cons c l ih =>
    intro hn s
    obtain ⟨hc, hn⟩ := List.nodup_cons.1 hn
    have hq : (report c s).qu = { s.qu with
        park := s.qu.park.map (wokenOn c (cellAt s c))
        woken := s.qu.woken ++ (s.qu.park.filter (wakesOn c (cellAt s c))).map (·.tag) } := (report_spec c s).2.2
    have ht : ∀ d, cellAt (report c s) d = cellAt s d := fun d => by simp [cellAt]
    have hp : (s.qu.park.map (wokenOn c (cellAt s c))).map
          (fun q => if q.cell ∈ l then wokenOn q.cell (cellAt s q.cell) q else q)
        = s.qu.park.map fun q => if q.cell ∈ c :: l then wokenOn q.cell (cellAt s q.cell) q else q := by
      rw [List.map_map]
      refine List.map_congr_left fun q _ => ?_
      simp only [Function.comp, wokenOn_cell, List.mem_cons]
      by_cases hk : q.cell = c
      · simp only [hk, hc, if_false, true_or, if_true]
      · simp only [wokenOn_other hk, hk, false_or]
    have hw : l.flatMap (fun d => ((s.qu.park.map (wokenOn c (cellAt s c))).filter (wakesOn d (cellAt s d))).map (·.tag))
        = l.flatMap (fun d => (s.qu.park.filter (wakesOn d (cellAt s d))).map (·.tag)) :=
      List.flatMap_congr fun d hd => filter_wokenOn (d := d) (c := c) (fun e : d = c => hc (e ▸ hd)) _ _ _
    rw [List.foldl_cons, ih hn (report c s), hq]
    simp only [ht, hp, hw, List.flatMap_cons, List.append_assoc]

/-! ## The claim release -/

theorem allCells_nodup : allCells.Nodup := by
  unfold allCells
  rw [List.nodup_map_iff_inj_on (List.nodup_range)]
  intro a ha b hb e
  have := congrArg BitVec.toNat e
  simp only [List.mem_range, BitVec.toNat_ofNat] at ha hb this
  omega

theorem mem_allCells (c : CellNo) : c ∈ allCells := by
  unfold allCells
  rw [List.mem_map]
  exact ⟨c.toNat, List.mem_range.2 c.isLt, by simp⟩

/-- What a claim release does to WU and QU at a LIVE station (R17); at any other it does nothing to them. -/
theorem releaseClaims_reported (gone : Mask) (s : State) :
    (s.vu.standing = .live → ReleaseReported (releaseFrees gone s) s (releaseClaims gone s)) ∧
    (s.vu.standing ≠ .live → (releaseClaims gone s).wu = s.wu ∧ (releaseClaims gone s).qu = s.qu) := by
  constructor
  · intro hl
    have hcell : ∀ c, releaseFrees gone s c = true → cellAt (freeCells (releaseFrees gone s) s) c = releasedRecord s c := by
      intro c hc; rw [cellAt_freeCells, if_pos hc]; rfl
    have hx : releaseClaims gone s
        = (allCells.filter (releaseFrees gone s)).foldl (fun t c => report c t) (freeCells (releaseFrees gone s) s) := by
      simp [releaseClaims, hl]
    have hnd : (allCells.filter (releaseFrees gone s)).Nodup := allCells_nodup.filter _
    have hf : ∀ c r k, firesOn c r (freeCells (releaseFrees gone s) s) k = firesOn c r s k := fun _ _ _ => rfl
    have hwt : ∀ k, watchAt (freeCells (releaseFrees gone s) s) k = watchAt s k := fun _ => rfl
    have hmem : ∀ c, c ∈ allCells.filter (releaseFrees gone s) ↔ releaseFrees gone s c = true := by
      intro c; rw [List.mem_filter]; exact ⟨fun h => h.2, fun h => ⟨mem_allCells c, h⟩⟩
    refine ⟨fun k => ?_, ?_, ?_⟩
    · rw [hx, foldl_report_watches _ hnd, hwt]
      simp only [firesOnRelease, hmem, hf, Bool.and_eq_true]
      by_cases hr : releaseFrees gone s (watchAt s k).cell = true
      · simp only [hcell _ hr]
      · simp only [hr, false_and, if_false, Bool.false_eq_true]
    · rw [hx, foldl_report_wu _ hnd]
      dsimp only
      have : (allCells.filter (releaseFrees gone s)).flatMap (fun c => List.map
          (noticeOf (cellAt (freeCells (releaseFrees gone s) s) c) (freeCells (releaseFrees gone s) s))
          (List.filter (firesOn c (cellAt (freeCells (releaseFrees gone s) s) c) (freeCells (releaseFrees gone s) s))
            (List.finRange 16))) = releaseNotices (releaseFrees gone s) s := by
        unfold releaseNotices
        refine List.flatMap_congr fun c hc => ?_
        rw [hcell c ((hmem c).1 hc)]
        rfl
      rw [this]
      rfl
    · rw [hx, foldl_report_qu _ hnd]
      dsimp only
      have hpark : (freeCells (releaseFrees gone s) s).qu = s.qu := rfl
      rw [hpark]
      have hn : ∀ c q, releaseFrees gone s c = true →
          wakesOn c (cellAt (freeCells (releaseFrees gone s) s) c) q = (q.state == .parked && q.cell == c) := by
        intro c q hc; rw [hcell c hc]; simp [wakesOn, releasedRecord]
      congr 1
      · refine List.map_congr_left fun q _ => ?_
        simp only [hmem, wokenBy, wokenOn]
        by_cases hr : releaseFrees gone s q.cell = true
        · simp [hr, hn _ q hr]
        · simp [hr]
      · congr 1
        unfold releaseWakes
        refine List.flatMap_congr fun c hc => ?_
        congr 1
        exact List.filter_congr fun q _ => hn c q ((hmem c).1 hc)
  · intro hl
    unfold releaseClaims
    dsimp only
    rw [if_neg hl]
    exact ⟨rfl, rfl⟩

/-! ## The records of requests no frame of which was applied -/

/-- The record that such a retirement posts, field by field (R142, R144). -/
theorem recordUnapplied_eq (e : Ending) (q : Request) (s : State) : recordUnapplied e q s = unappliedRecord e q s := by
  unfold recordUnapplied unappliedRecord liveRecord
  split <;> cases e <;> simp_all [Cell.powerOn, Flags.clear]

/-- Every request retired is what the statements call so (R146). -/
theorem retireAll_qu (s : State) : (retireAll s).qu = allWithdrawn s := by
  simp only [retireAll, allWithdrawn, ← recordUnapplied_eq]
  rfl

/-! ## SU's offer -/

/-- The station that `lowest` finds is in the set, and none below it is. -/
theorem lowest_eq_some {m : Mask} {n : Station} :
    lowest m = some n ↔ has m n = true ∧ ∀ k, has m k = true → n.toNat ≤ k.toNat := by
  have hlt : ∀ k : Station, k.toNat < 32 := fun k => k.isLt
  unfold lowest has
  rw [Option.map_eq_some_iff]
  simp only [List.find?_range_eq_some, List.mem_range]
  constructor
  · rintro ⟨i, ⟨hi, hl, hj⟩, rfl⟩
    have e : (BitVec.ofNat 5 i).toNat = i := by simp; omega
    rw [e]
    refine ⟨hi, fun k hk => ?_⟩
    by_contra hc
    have := hj k.toNat (by omega)
    simp [hk] at this
  · rintro ⟨h1, h2⟩
    refine ⟨n.toNat, ⟨h1, hlt n, fun j hj => ?_⟩, by simp⟩
    by_contra hc
    have hj32 : j < 32 := by have := hlt n; omega
    have e : (BitVec.ofNat 5 j).toNat = j := by simp; omega
    have := h2 (BitVec.ofNat 5 j) (by rw [e]; simpa using hc)
    rw [e] at this
    omega

/-- The supplier, as the manual names it (R79). -/
theorem supplying_iff (s : State) : isSupplier s = true ↔ Supplying s := by
  unfold isSupplier supplier Supplying
  rw [beq_iff_eq, lowest_eq_some]

/-- A ROSTER is owed (R79). -/
theorem rosterOwed_iff (s : State) : rosterDue s = true ↔ RosterOwed s := by
  simp [rosterDue, RosterOwed, supplying_iff, and_assoc]

/-- A TRANSFER is owed (R79). -/
theorem transferOwed_iff (s : State) : transferDue s = true ↔ TransferOwed s := by
  simp [transferDue, TransferOwed, supplying_iff, and_assoc]

/-- A set is that of one station when it holds that station and no other. -/
theorem eq_only_iff (m : Mask) (n : Station) : m = only n ↔ ∀ k, has m k = true ↔ k = n := by
  have hon : ∀ k : Station, has (only n) k = true ↔ k = n := by
    intro k
    have hk : k.toNat < 32 := k.isLt
    have hn : n.toNat < 32 := n.isLt
    simp only [has, only, BitVec.getLsbD_shiftLeft, BitVec.getLsbD_one]
    simp only [Bool.and_eq_true, decide_eq_true_eq, Bool.not_eq_true', decide_eq_false_iff_not]
    rw [← BitVec.toNat_inj]
    omega
  constructor
  · rintro rfl; exact hon
  · intro h
    apply BitVec.eq_of_getLsbD_eq
    intro i hi
    have e : (BitVec.ofNat 5 i).toNat = i := by simp; omega
    have := (h (BitVec.ofNat 5 i)).trans (hon (BitVec.ofNat 5 i)).symm
    unfold has at this
    rw [e] at this
    exact Bool.eq_iff_iff.mpr this

/-- A LEAVE that SU may offer (R80, R131). -/
theorem leaveReady_iff (s : State) : (s.vu.leavePending && !leaveHeldBack s) = true ↔ LeaveReady s := by
  unfold LeaveReady leaveHeldBack
  rw [← eq_only_iff]
  simp only [Bool.and_eq_true, Bool.not_eq_true', Bool.and_eq_false_iff, beq_eq_false_iff_ne, bne_eq_false_iff_eq]
  tauto

/-- What SU has chosen is what the manual has it offer, where no attempt is in progress (R79, R80). -/
theorem offered_iff {s : State} (ha : s.su.attempt = none) : Offered s ↔ s.su.offer = chosenOffer s := by
  have hr := rosterOwed_iff s
  have ht := transferOwed_iff s
  have hl := leaveReady_iff s
  unfold Offered chosenOffer itemsInOrder
  rw [← hr, ← ht, ← hl]
  cases hs : s.vu.station
  case halted | admitting => simp [ha]
  case listening => cases hp : s.vu.probeDue <;> simp [ha, itemClassOne]
  case joining => cases hd : s.su.owedDrop <;> cases ho : s.vu.stallOwed <;> simp [ha, itemClassOne]
  case member =>
    generalize (s.vu.leavePending && !leaveHeldBack s) = l
    generalize rosterDue s = r
    generalize transferDue s = x
    simp only [headItem, wokenItem]
    rcases hd : s.su.owedDrop with _ | m
    · cases r
      · cases l
        · cases hdef : s.lu.deferred
          · cases x
            · rcases hw : s.qu.woken with _ | ⟨tag, rest⟩
              · rcases hq : s.qu.queue with _ | ⟨q, more⟩
                · simp [ha, hdef]
                · by_cases hs : q.state = .queued <;> simp [ha, hdef, itemClassOne, hs]
              · simp [ha, hdef, itemClassOne]
            · simp [ha, hdef, itemClassOne]
          · have none' : ∀ i : List Item, (∀ j ∈ i, itemClassOne j = true) →
                i.find? (fun j => !(itemClassOne j && true)) = none := by
              intro i hi
              rw [List.find?_eq_none]
              intro j hj
              simp [hi j hj]
            rw [none']
            · simp [ha]
            · intro j hj
              simp only [List.mem_append] at hj
              rcases hj with ((((hj | hj) | hj) | hj) | hj) | hj
              · simp at hj
              · simp at hj
              · simp at hj
              · cases x <;> simp_all [itemClassOne]
              · cases hw : s.qu.woken <;> simp_all [itemClassOne]
              · rcases hq : s.qu.queue with _ | ⟨q, more⟩ <;> simp_all [itemClassOne]
        · simp [ha, itemClassOne]
      · simp [ha, itemClassOne]
    · simp [ha, itemClassOne]

/-! ## SU's refresh -/

/-- What SU's refresh leaves, where no attempt is in progress (R79, R81, R87). -/
theorem SendingSettled.refresh {s : State} (h : s.su.attempt = none) : SendingSettled s (refresh s) := by
  have ha : ∀ i, attempting i s = false := fun i => by simp [attempting, h]
  have hr : rosterDue (Machine.refresh s) = rosterDue s := rfl
  have ht : transferDue (Machine.refresh s) = transferDue s := rfl
  have hv : (Machine.refresh s).vu = s.vu := rfl
  have ho : Offered (Machine.refresh s) := (offered_iff (by simp [h])).mpr rfl
  unfold SendingSettled
  rw [← rosterOwed_iff, ← transferOwed_iff, hr, ht, hv]
  refine ⟨by simp [h], ho, rfl, ?_⟩
  simp +contextual [Machine.refresh, setOffer, pruneItems, keptRecord, ha]

/-- The law of SU's refresh looks at SU before it alone. -/
theorem SendingSettled.of {s u t : State} (h : SendingSettled u t) (hs : u.su.owedDrop = s.su.owedDrop)
    (hd : u.su.dropRec = s.su.dropRec) (hr : u.su.rosterRec = s.su.rosterRec) (ht : u.su.transferRec = s.su.transferRec)
    (hl : u.su.leaveRec = s.su.leaveRec) (hf : u.su.foundRec = s.su.foundRec) (hj : u.su.stallRec = s.su.stallRec) :
    SendingSettled s t := by
  unfold SendingSettled at *
  rw [hs, hd, hr, ht, hl, hf, hj] at h
  exact h

/-! ## The withdrawal -/

/-- What a withdrawal leaves in SU, brought into line (R78, R105). -/
theorem withdraw_settled (s : State) (h : inView s.vu.station = true) :
   SendingSettled (s.setSu .empty) (refresh (withdraw s)) ∧ chosenOffer (refresh (withdraw s)) = some .probe := by
  have hsu : (withdraw s).su = .empty := by
    cases hs : s.vu.station <;> simp_all [inView, withdraw_member, withdraw_joining]
  have hst : (withdraw s).vu.station = .listening ∧ (withdraw s).vu.probeDue = .join := by
    cases hs : s.vu.station <;> simp_all [inView, withdraw_member, withdraw_joining]
  have ha : (withdraw s).su.attempt = none := by rw [hsu]; rfl
  refine ⟨(SendingSettled.refresh ha).of ?_ ?_ ?_ ?_ ?_ ?_ ?_, ?_⟩ <;> try (rw [hsu]; rfl)
  simp [chosenOffer, ha, itemsInOrder, hst, itemClassOne]

/-- What leaves the queues at an exit from MEMBER reports it, once STATE is pending (R104, R153). -/
theorem ExitReported.of_leaveQueues {s t : State} (hw : t.wu = { (leaveQueues s).wu with statePending := true }) :
    ExitReported s t := by
  unfold ExitReported
  split
  · rename_i hs
    have hq : (leaveQueues s) = watchesOnExit (retireAll s) := by simp [leaveQueues, hs]
    have hwt : ∀ i, watchAt t i = watchAt (watchesOnExit (retireAll s)) i := by
      intro i; rw [hq] at hw; simp only [watchAt, hw]
    have h := watchesOnExit_spec (retireAll s)
    have h1 : ∀ i, watchAt (retireAll s) i = watchAt s i := fun i => by simp [watchAt]
    have h2 : ∀ c, cellAt (retireAll s) c = cellAt s c := fun c => by simp [cellAt]
    have hl : ((List.finRange 16).filter (fun i => (watchAt (retireAll s) i).state == .armed)).map
        (firedNotice .lost (retireAll s)) = lostNotices s := by
      simp only [lostNotices, h1]
      exact List.map_congr_left fun i _ => by simp only [firedNotice, h1, h2]
    refine ⟨fun i => by rw [hwt, h.1 i]; simp only [h1], ?_⟩
    have he := h.2
    rw [hl] at he
    rw [hw, hq]
    simp [he]
  · rename_i hs
    rw [hw]; simp [leaveQueues, hs]

/-- A withdrawal from MEMBER or JOINING, with SU brought into line, is what the statements call one (R114). -/
theorem Withdrawn.of_withdraw (s : State) (h : inView s.vu.station = true) :
    Withdrawn s (refresh (withdraw s)) := by
  have hk := withdraw_settled s h
  have hv : (refresh (withdraw s)).vu = (withdraw s).vu := by simp
  have hsu : (refresh (withdraw s)).su = { Su.empty with offer := some .probe } := by
    obtain ⟨⟨h1, h2, h3, h4, h5, h6, h7, h8, h9⟩, h10⟩ := hk
    rw [offered_iff h1, h10] at h2
    have hl : (refresh (withdraw s)).vu.station = .listening := by
      cases hs : s.vu.station <;> simp_all [inView, withdraw_member, withdraw_joining]
    have hr := h6 (fun h => by have := h.1; rw [hl] at this; cases this)
    have ht := h8 (fun h => by have := h.1; rw [hl] at this; cases this)
    generalize (refresh (withdraw s)).su = x at *
    cases x
    simp_all [Su.empty]
  have hp : (refresh (withdraw s)).tu = (withdraw s).tu ∧ (refresh (withdraw s)).lu = (withdraw s).lu ∧
      (refresh (withdraw s)).qu = (withdraw s).qu ∧ (refresh (withdraw s)).wu = (withdraw s).wu := by simp
  suffices hw : (withdraw s).wu = { (leaveQueues s).wu with statePending := true } ∧ (withdraw s).vu = { State.reset.vu with
        station := .listening
        probeDue := .join
        foreign := s.vu.foreign
        standing := if s.vu.station = .member then .retained else .none
        retainedEpoch := if s.vu.station = .member then s.vu.view.epoch else 0 } ∧
      (withdraw s).tu = (if s.vu.station = .member then s.tu else State.reset.tu) ∧ (withdraw s).lu.deferred = false ∧
      (withdraw s).qu = (retireAll s).qu by
    refine ⟨hv.trans hw.2.1, hp.1.trans hw.2.2.1, hsu, by rw [hp.2.1, hw.2.2.2.1], hp.2.2.1.trans (hw.2.2.2.2.trans (retireAll_qu s)), ?_⟩
    exact .of_leaveQueues (hp.2.2.2.trans hw.1)
  rcases (by simpa [inView] using h : s.vu.station = .member ∨ s.vu.station = .joining) with hs | hs
  · rw [withdraw_member _ hs,
      enterListening_eq (s := emptyView (retain (emptySending (leaveQueues s)))) (by simp [hs])]
    simp [hs, leaveQueues, retain, quiet, emptyView]
    exact ⟨rfl, rfl, rfl, rfl, rfl, rfl, rfl, rfl, rfl⟩
  · rw [withdraw_joining _ hs,
      enterListening_eq (s := emptyView (discard (emptySending (leaveQueues s)))) (by simp [hs])]
    simp [hs, leaveQueues, discard, quiet, emptyView]
    exact ⟨⟨rfl, rfl, rfl, rfl, rfl, rfl, rfl, rfl, rfl⟩, rfl⟩

/-- The statements' withdrawal looks at the station before it only by these. -/
theorem Withdrawn.congr {u s t : State} (h : Withdrawn u t) (hst : u.vu.station = s.vu.station)
   (hv : u.vu.view = s.vu.view) (hsd : u.vu.standing = s.vu.standing) (hf : u.vu.foreign = s.vu.foreign) (htu : u.tu = s.tu)
   (hq : u.qu = s.qu) (hw : u.wu = s.wu) : Withdrawn s t := by
  unfold Withdrawn ExitReported lostNotices at *
  have h1 : allWithdrawn u = allWithdrawn s := by
    simp only [allWithdrawn, unappliedRecord, cellAt, hv, hsd, htu, hq]
  have h2 : ∀ i, watchAt u i = watchAt s i := fun i => by simp [watchAt, hw]
  have h3 : ∀ c, cellAt u c = cellAt s c := fun c => by simp [cellAt, htu]
  simp only [hst, hv, hf, htu, hq, hw, h1, h2, h3] at h
  exact h

/-! ## The entry into MEMBER -/

/-- What an entry into MEMBER does to WU, at a state `u` on the way from `s` to `t` that has all but WU as they then stand
(R104, R151). -/
theorem EntryReported.of_enterMember {u s t : State} (hu : u.vu.station ≠ .member) (hw : u.wu = s.wu) (hs : u.hp = s.hp)
    (hc : t.tu = u.tu) (ht : t.wu = (enterMember u).wu) : EntryReported s t := by
  have h := watchesOnEntry_spec (enter .member u)
  have e1 : (enter .member u).wu = { u.wu with statePending := true } := by simp [enter, hu, raiseState]
  have e2 : (enter .member u).tu = u.tu := by simp
  have e3 : own (enter .member u) = own s := by simp [own, hs]
  have hwt : ∀ i, watchAt (enter .member u) i = watchAt s i := by intro i; simp [watchAt, e1, hw]
  have hct : ∀ c, cellAt (enter .member u) c = cellAt t c := by intro c; simp [cellAt, e2, hc]
  have hfire : ∀ i, holdsNow (referencesTaken (enter .member u)) i = firesOnEntry s t i := by
    intro i
    unfold holdsNow firesOnEntry
    rw [watchAt_referencesTaken, hwt]
    have : own (referencesTaken (enter .member u)) = own s := e3
    have h4 : ∀ c, cellAt (referencesTaken (enter .member u)) c = cellAt t c := hct
    simp only [this, h4, takeReference, hct]
    by_cases ha : (watchAt s i).state = .armed
    · simp [ha]
    · have hb : ((watchAt s i).state == .armed) = false := by simpa using ha
      simp only [hb, Bool.false_and, ha, if_false]
  have hev : ∀ i, watchAt t i = watchAt (watchesOnEntry (enter .member u)) i := by intro i; simp only [watchAt, ht, enterMember]
  refine ⟨fun i => ?_, ?_⟩
  · dsimp only
    rw [hev, h.1 i, hfire, hwt]
    simp only [takeReference, hct]
    have : firesOnEntry s t i = true → (watchAt s i).state = .armed := by
      intro hx; simp only [firesOnEntry, Bool.and_eq_true, beq_iff_eq] at hx; exact hx.1
    by_cases ha : (watchAt s i).state = .armed
    · by_cases hx : firesOnEntry s t i = true <;> simp [ha, hx]
    · have : firesOnEntry s t i = false := by cases hx : firesOnEntry s t i <;> simp_all
      simp [ha, this]
  · have he := h.2
    have hl : ((List.finRange 16).filter (holdsNow (referencesTaken (enter .member u)))).map
          (firedNotice .met (referencesTaken (enter .member u)))
        = ((List.finRange 16).filter (firesOnEntry s t)).map fun i => noticeOf (cellAt t (watchAt s i).cell) s i := by
      rw [show holdsNow (referencesTaken (enter .member u)) = firesOnEntry s t from funext hfire]
      refine List.map_congr_left fun i _ => ?_
      have h5 : (watchAt (referencesTaken (enter .member u)) i).cell = (watchAt s i).cell ∧
          (watchAt (referencesTaken (enter .member u)) i).tag = (watchAt s i).tag := by
        rw [watchAt_referencesTaken, hwt]; unfold takeReference; split <;> simp
      have h4 : ∀ c, cellAt (referencesTaken (enter .member u)) c = cellAt t c := hct
      simp [firedNotice, noticeOf, h5, h4]
    rw [hl] at he
    rw [ht]
    unfold enterMember
    have h6 : (watchesOnEntry (enter .member u)).wu = { (enter .member u).wu with
        watches := (watchesOnEntry (enter .member u)).wu.watches
        events := (watchesOnEntry (enter .member u)).wu.events } := by
      have := watchesOnEntry_frame (enter .member u)
      generalize (watchesOnEntry (enter .member u)).wu = x at *
      cases x; simp_all
    rw [h6, he, e1, hw]

end Sys2Proof.Machine
end

