-- ==== Sys2Proof/Laws/Tick.lean ====
section
/-! SUPPORT. A bit time of the part's own clock keeps the laws of one station: the line's part and the timers' part. -/

namespace Sys2Proof.Machine

variable {s : State}

/-- One bit time of a resting line keeps the laws (R47, R48, R59, R60). -/
theorem Coherent.restTick (h : Coherent s) (hf : held s = false) (hb : betweenFrames s = true) : Coherent (restTick s) := by
  unfold Machine.restTick
  have hn : min Config.barrierIdle (s.lu.idleCount + 1) ≤ Config.barrierIdle := Nat.min_le_left _ _
  dsimp only
  split
  · refine Coherent.startOffered (Coherent.refresh (h.idle hf hb hn (d := false) (by simp)) ?_) ?_ <;> simpa [held] using hf
  · refine Coherent.startOffered (h.idle hf hb hn (d := s.lu.deferred) id) ?_
    simpa [held] using hf

/-- A bit time in which the line is asserted returns the idle count to 0, and keeps the laws (R47). -/
theorem Coherent.counted (h : Coherent s) (hf : held s = false) {n : Nat} (hn : n ≤ Config.stuckCount) :
    Coherent (s.setLu { s.lu with idleCount := 0, assertedCount := n }) := by
  refine h.withLu hf Iff.rfl Iff.rfl rfl id ?_
  exact ⟨Nat.zero_le _, hn, fun e => absurd e (by simp [Config.idleMin]), h.line.2.2.2⟩

/-- One bit time of a line asserted throughout keeps the laws (R58). -/
theorem Coherent.assertedTick (h : Coherent s) (hf : held s = false) (slot : Station) (inData : Bool) :
    Coherent (assertedTick slot inData s) := by
  unfold Machine.assertedTick
  split
  · rename_i hc
    exact h.counted hf (Nat.le_of_lt hc)
  · exact h.lineSticks hf slot inData

/-- One bit time of rest on a line last met asserted keeps the laws (R47, R56). -/
theorem Coherent.gapTick (h : Coherent s) (hf : held s = false) (hb : betweenFrames s = true) : Coherent (gapTick s) := by
  unfold Machine.gapTick
  split
  · rename_i hn
    refine h.withLu hf Iff.rfl Iff.rfl rfl id ?_
    have hi : Config.idleMin ≤ Config.barrierIdle := by decide
    exact ⟨Nat.le_trans (Nat.le_of_lt hn) hi, Nat.zero_le _, fun e => absurd e (Nat.not_le_of_lt hn), h.line.2.2.2⟩
  · exact h.restTick hf hb

/-- The count of free values is in no law. -/
theorem Coherent.setFreeCount (h : Coherent s) (n : Nat) : Coherent (s.setFreeCount n) := h

/-- One bit time of a line last met asserted keeps the laws, whatever it carries (R47, R56, R58). -/
theorem Coherent.busyTick (h : Coherent s) (hf : held s = false) (hb : betweenFrames s = true) : Coherent (busyTick s) := by
  have h1 : Coherent (s.setFreeCount (s.freeCount + 1)) := h
  have f1 : held (s.setFreeCount (s.freeCount + 1)) = false := hf
  unfold Machine.busyTick
  dsimp only
  split
  · exact h1.gapTick f1 hb
  · exact h1.counted f1 (Nat.zero_le _)
  · exact h1.assertedTick f1 0 false

/-- An own frame's bit reached is the bit that this station transmits (R44, R48). -/
theorem drivenBit_sending {a : Attempt} (hm : s.lu.mode = .sending) (ha : s.su.attempt = some a) :
    drivenBit s = (sentBits a.frame)[s.lu.bitPos]? := by
  unfold drivenBit
  rw [hm, ha]

/-- Where no own frame is being sent, this station transmits in its own slot alone (R43, R54). -/
theorem drivenBit_other (h : s.lu.mode ≠ .sending ∨ s.su.attempt = none) :
    drivenBit s = if drivesSlot s then some false else none := by
  unfold drivenBit
  split
  · simp_all
  · rfl

/-- A bit that this station transmits shows an asserted bit time for 0 and both levels for 1 (R44). -/
theorem frameLevel_driven {b : Bool} (h : drivenBit s = some b) :
    frameLevel s = if b then .mixed else .asserted := by
  simp [frameLevel, h]

/-- Any other bit of a frame shows a free value. -/
theorem frameLevel_free (h : drivenBit s = none) : frameLevel s = Config.lineBit s.freeCount := by
  simp [frameLevel, h]

/-- Over the bits that the check covers, the register comes bit by bit to hold what it holds at the end of the check part: with
the first `n` of them fed, the bit time of the next feeds that one (R169). -/
theorem checkFed_covered {a : Attempt} {n : Nat} (hm : s.lu.mode = .sending) (ha : s.su.attempt = some a)
    (hp : s.lu.bitPos = n + 1) (hr : s.lu.checkReg = checkOf ((coveredBits a.frame).take n)) :
    checkFed s = checkOf ((coveredBits a.frame).take (n + 1)) := by
  unfold checkFed
  rw [hm, ha, hp]
  dsimp only
  rw [hr, List.take_add_one]
  cases (coveredBits a.frame)[n]? <;> simp [checkOf, List.foldl_append]

/-- The start bit is not fed, nor any bit where no own frame is being sent (R169). -/
theorem checkFed_other (h : s.lu.mode ≠ .sending ∨ s.su.attempt = none ∨ s.lu.bitPos = 0) : checkFed s = s.lu.checkReg := by
  unfold checkFed
  split
  · simp_all
  · rfl

/-- The place in a frame and the check register are in no law. -/
theorem Coherent.passBit (h : Coherent s) (hf : held s = false) : Coherent (passBit s) :=
  (h.setFreeCount _).withLu hf Iff.rfl Iff.rfl rfl id h.line

/-- One bit time inside a frame keeps the laws, whatever it carries (R47, R58). -/
theorem Coherent.frameTick (h : Coherent s) (hf : held s = false) : Coherent (frameTick s) := by
  have h1 : Coherent (Machine.passBit s) := h.passBit hf
  have f1 : held (Machine.passBit s) = false := hf
  unfold Machine.frameTick
  split
  · exact h1.counted f1 (Nat.zero_le _)
  · exact h1.counted f1 (Nat.zero_le _)
  · exact h1.assertedTick f1 _ _

/-- The line's part of a bit time keeps the laws. -/
theorem Coherent.lineTick (h : Coherent s) (hf : held s = false) : Coherent (lineTick s) := by
  unfold Machine.lineTick
  split
  case h_1 | h_2 =>
    rename_i hm
    split
    · exact h
    · rename_i hs
      have hb : betweenFrames s = true := by simp [betweenFrames, hm, hs]
      split
      · exact h.busyTick hf hb
      · exact h.restTick hf hb
  all_goals exact h.frameTick hf

/-- What a bit time of a resting line leaves as it was: all but LU, SU and the states of the requests (R47, R59). -/
theorem restTick_keeps (s : State) (hm : s.lu.mode ≠ .window) :
    (restTick s).vu = s.vu ∧ (restTick s).tu = s.tu ∧ (restTick s).lu.mode ≠ .window ∧
      (restTick s).wu = s.wu := by
  have begins : ∀ w : State, w.lu.mode ≠ .window → (startOffered w).lu.mode ≠ .window := by
    intro w hw
    unfold startOffered
    split
    · split
      · unfold beginItem
        split
        · exact hw
        · simp
      · exact hw
    · exact hw
  unfold restTick
  dsimp only
  split <;> refine ⟨by simp, by simp, begins _ ?_, by simp⟩ <;> simp [idleReaches] <;> split <;> simp [hm]

/-- What the line's part of a bit time leaves as it was, where the line does not stick inside a frame (R47, R58). -/
theorem lineTick_keeps (s : State) (h : s.lu.mode = .waitIdle ∨ s.lu.mode = .resting ∨ s.lu.assertedCount < 255) :
    (lineTick s).vu = s.vu ∧ (lineTick s).tu = s.tu ∧ ((lineTick s).lu.mode = .window ↔ s.lu.mode = .window) ∧
      (lineTick s).wu.statePending = s.wu.statePending := by
  unfold lineTick
  split
  case h_1 | h_2 =>
    rename_i hm
    split
    · simp [hm]
    · rename_i hs
      split
      · unfold busyTick
        dsimp only
        split
        · unfold gapTick
          split
          · simp [hm]
          · have := restTick_keeps (s.setFreeCount (s.freeCount + 1)) (by simp [hm])
            simp_all
        · simp [hm]
        · unfold assertedTick
          split
          · simp [hm]
          · simp [lineSticks, hs, abandonFrame, hm, raiseLine]
      · have := restTick_keeps s (by simp [hm])
        simp_all
  all_goals
    rename_i hm
    have hc : s.lu.assertedCount < 255 := by simpa [hm] using h
    unfold frameTick
    split
    · simp [hm]
    · simp [hm]
    · unfold assertedTick
      rw [if_pos (show (passBit s).lu.assertedCount + 1 < Config.stuckCount by simp [Config.stuckCount]; omega)]
      simp [hm]

/-- A timer that is stopped does not count. -/
@[simp] theorem countDown_stopped (before : Option Nat) (write : Option Nat → State → State) (expire : State → State) (s : State) :
    countDown before none write expire s = s := by
  unfold countDown
  split <;> rfl

/-- A timer that was stopped when the bit time began does not count in it, though it may have been started since. -/
@[simp] theorem countDown_started (timer : Option Nat) (write : Option Nat → State → State) (expire : State → State) (s : State) :
    countDown none timer write expire s = s := by
  cases timer <;> rfl

/-- The timers' part of a bit time does nothing where no timer runs. -/
theorem timerTick_stopped (before : Vu) (s : State) (h1 : s.vu.probeTimer = none) (h2 : s.vu.admitTimer = none)
    (h3 : s.vu.stallTimer = none) : timerTick before s = s := by
  simp [timerTick, h1, h2, h3]

/-- The timers' part of a bit time does nothing where no timer ran when the bit time began: one that the bit time has started
runs its whole length from there (R105, R127). -/
theorem timerTick_started (before : Vu) (s : State) (h1 : before.probeTimer = none) (h2 : before.admitTimer = none)
    (h3 : before.stallTimer = none) : timerTick before s = s := by
  simp [timerTick, h1, h2, h3]

/-- A timer's part of a bit time keeps the laws when its writing and its expiry do. -/
theorem Coherent.countDown {before timer : Option Nat} {write : Option Nat → State → State} {expire : State → State} (h : Coherent s)
    (hw : ∀ n, timer.isSome = true → Coherent (write (some n) s)) (he : Coherent (expire s)) :
    Coherent (countDown before timer write expire s) := by
  unfold Machine.countDown
  split
  · split
    · exact h
    · split
      · exact he
      · exact hw _ rfl
  · exact h

/-- A bit time leaves the supply and the RST pin. -/
theorem held_timer {t : State} (ht : t.power = s.power ∧ t.rst = s.rst) (hf : held s = false) : held t = false := by
  rw [held_congr ht.1 ht.2, hf]

/-- The timers' part of a bit time keeps the laws (R105, R118, R127). -/
theorem Coherent.timerTick (h : Coherent s) (hf : held s = false) (before : Vu) : Coherent (timerTick before s) := by
  have probe : ∀ {u : State}, Coherent u → ∀ n, u.vu.probeTimer.isSome = true →
      Coherent (u.setVu { u.vu with probeTimer := some n }) := by
    intro u ⟨h1, h2, h3, h4, h5, h6, h7, h8⟩ n hn
    refine ⟨h1, h2, h3, ?_, h5, h6, h7, h8⟩
    unfold ProbeLaw at *
    simp only [State.setVu_vu, State.setVu_hp] at *
    refine ⟨fun e => ?_, h4.2.1, h4.2.2.1, h4.2.2.2.1, h4.2.2.2.2.1, fun e => ?_, h4.2.2.2.2.2.2⟩
    · have := (h4.1 e).2.1; rw [this] at hn; simp at hn
    · have := h4.2.2.2.2.2.1 e; rw [this] at hn; simp at hn
  have wait : ∀ {u : State}, Coherent u → ∀ n, u.vu.admitTimer.isSome = true →
      Coherent (u.setVu { u.vu with admitTimer := some n }) := by
    intro u ⟨h1, h2, h3, h4, h5, h6, h7, h8⟩ n hn
    refine ⟨h1, h2, h3, ?_, h5, h6, h7, h8⟩
    unfold ProbeLaw at *
    simp only [State.setVu_vu, State.setVu_hp] at *
    refine ⟨h4.1, fun e => ?_, h4.2.2.1, h4.2.2.2.1, h4.2.2.2.2.1, h4.2.2.2.2.2.1, h4.2.2.2.2.2.2⟩
    have := (h4.2.1 e).1; rw [this] at hn; simp at hn
  have stall : ∀ {u : State}, Coherent u → ∀ n, u.vu.stallTimer.isSome = true →
      Coherent (u.setVu { u.vu with stallTimer := some n }) := by
    intro u ⟨h1, h2, h3, h4, h5, h6, h7, h8⟩ n hn
    refine ⟨h1, h2, h3, ?_, h5, h6, h7, h8⟩
    unfold ProbeLaw at *
    simp only [State.setVu_vu, State.setVu_hp] at *
    refine ⟨h4.1, h4.2.1, fun e => ?_, h4.2.2.2.1, h4.2.2.2.2.1, h4.2.2.2.2.2.1, h4.2.2.2.2.2.2⟩
    have := (h4.2.2.1 e).1; rw [this] at hn; simp at hn
  unfold Machine.timerTick
  dsimp only
  have c1 := Coherent.countDown (before := before.probeTimer) (write := fun t u => u.setVu { u.vu with probeTimer := t }) h (probe h) (h.probeExpires hf)
  generalize hs1 : Machine.countDown before.probeTimer s.vu.probeTimer (fun t u => u.setVu { u.vu with probeTimer := t }) Machine.probeExpires s = s1 at *
  have f1 : held s1 = false := held_timer (by subst hs1; unfold Machine.countDown; (repeat' split) <;> simp) hf
  have c2 := Coherent.countDown (before := before.admitTimer) (write := fun t u => u.setVu { u.vu with admitTimer := t }) c1 (wait c1) (c1.admitExpires f1)
  generalize hs2 : Machine.countDown before.admitTimer s1.vu.admitTimer (fun t u => u.setVu { u.vu with admitTimer := t }) Machine.admitExpires s1 = s2 at *
  have f2 : held s2 = false := held_timer (by subst hs2; unfold Machine.countDown; (repeat' split) <;> simp) f1
  exact Coherent.countDown (write := fun t u => u.setVu { u.vu with stallTimer := t }) c2 (stall c2) (c2.stallExpires f2)

/-- One bit time keeps the laws. -/
theorem Coherent.tick (h : Coherent s) : Coherent (tick s) := by
  unfold Machine.tick
  split
  · exact h
  · rename_i hf
    have hf : held s = false := by simpa using hf
    refine Coherent.timerTick (h.lineTick hf) ?_ s.vu
    exact held_timer (by simp) hf

end Sys2Proof.Machine
end

