-- ==== Sys2Proof/WellFormed.lean ====
section
/-! DEFINITION. Which terms of `Instr` are commands of the table: what the operands of a row must be for the row's event to be
the one its rule names. -/

namespace Sys2Proof

/-- The lengths that a frame's bits from position 1 to its last check bit can have, one for each body length of R49. -/
def frameLengths : List Nat :=
  [0, 1, 32, 39, 73, 324].map fun body => Machine.headLength + body + 16

/-- The length check: the bits of FRAME_CHECK_END are those of a frame of an assigned kind (R49, R53). -/
def frameLengthOk (bits : List Bool) : Bool := frameLengths.contains bits.length

/-- The lost-frame check: the bits that come with an unassigned kind code are those of the arbitration and kind parts, and
the code is assigned in neither class (R49, R54). -/
def lossOk : LossCause → Bool
  | .codingFault => true
  | .unassignedKind bits =>
    bits.length == 10 && (Machine.bodyLength (Machine.field bits 1 1 == 1) (Machine.field bits 7 4).toNat).isNone

/-- The first-byte check of WATCH_BAD_FIRST_BYTE: neither ARM nor DISARM (R161, R170). -/
def badWatchByte (b : Byte) : Bool := b != 0x01 && b != 0x02

/-- The first-byte check of CONTROL_BAD_FIRST_BYTE: none of the five commands (R161, R170). -/
def badControlByte (b : Byte) : Bool := decide (b.toNat = 0 ∨ 5 < b.toNat)

/-- Whether a term is a command of the table. Every other operand is taken at every value its type admits; a value out of a
rule's range is answered as the rule says. -/
def wellFormed : Instr → Bool
  | .frameCheckEnd bits => frameLengthOk bits
  | .watchBadFirstByte data => badWatchByte data
  | .controlBadFirstByte data => badControlByte data
  | .powerOn => true
  | .powerOnHoldEnd _ => true
  | .rstAssert => true
  | .rstRelease _ => true
  | .requestWrite _ => true
  | .requestRead => true
  | .completionRead => true
  | .sequenceRestart _ _ => true
  | .cellIndexWrite _ => true
  | .cellRead => true
  | .arm _ _ _ _ _ => true
  | .disarm _ => true
  | .watchRead => true
  | .noticeRead => true
  | .statusRead => true
  | .viewRead => true
  | .start => true
  | .halt => true
  | .leaveCommand => true
  | .cancel _ => true
  | .mask _ => true
  | .controlRead => true
  | .lineIdle => true
  | .frameStart => true
  | .lostArbitration => true
  | .readBackFault _ _ _ => true
  | .frameLost cause => lossOk cause
  | .windowFault _ _ => true
  | .store _ => true
  | .add _ => true
  | .and _ => true
  | .or _ => true
  | .xor _ => true
  | .bitset _ => true
  | .bitclr _ => true
  | .bitflip _ => true
  | .cas _ => true
  | .step _ => true
  | .claim _ => true
  | .release _ => true
  | .relstore _ => true
  | .joinProbe _ => true
  | .found _ => true
  | .join _ => true
  | .roster _ => true
  | .rosterAdmission _ => true
  | .transfer _ => true
  | .drop _ => true
  | .leave _ => true
  | .lineStuck _ _ => true
  | .lineStuckEnd => true
  | .deferredClear => true
  | .probeWaitExpiry => true
  | .admitWaitExpiry => true
  | .stallWaitExpiry => true
  | .incompleteWindowEnd _ => true
  | .anotherStationStartBit => true
  | .powerLoss => true
  | .partialSequenceWrite _ _ => true

end Sys2Proof
end

