-- ==== Sys2Proof/Tests/Slice0.lean ====
section
/-! SUPPORT. Tests: the well-formedness smoke, the manual's worked examples (sections 2.9, 11.4 and chapter 12) and check values
worked out by hand from R169, and, for each obligation, states and operands that meet its hypotheses clause by clause. -/

namespace Sys2Proof.Machine

/-! ## Small states -/

/-- The state after a command, or the state itself where it does not complete. -/
def after (c : Instr) (s : State) : State :=
  match exec c s with
  | .next t => t
  | .fault _ => s
  | .refused _ => s

/-- A mask from a list of station numbers. -/
def stations (l : List Station) : Mask := l.foldl (fun m n => m ||| only n) 0

/-- The packaging line's stations (section 0.2). -/
def packaging : Mask := stations [3, 7, 12, 20]

/-- A station strapped to a number, founding permitted, in HALTED after reset. -/
def haltedAs (n : Station) : State := State.reset.setHp (.empty ⟨n, 0, true⟩)

/-- A LISTENING station with a JOIN due, the line idle. -/
def listeningAs (n : Station) : State :=
  let s := haltedAs n
  (s.setVu { s.vu with station := .listening, probeDue := .join }).setLu { s.lu with mode := .resting, idleCount := 12 }

/-- An ADMITTING station. -/
def admittingAs (n : Station) : State :=
  let s := haltedAs n
  (s.setVu { s.vu with station := .admitting, admitTimer := some 100 }).setLu { s.lu with mode := .resting, idleCount := 12 }

/-- A MEMBER station of a view, its table at power-on values, the line idle. -/
def memberOf (v : View) (n : Station) : State :=
  let s := haltedAs n
  (s.setVu { s.vu with station := .member, standing := .live, view := v }).setLu
    { s.lu with mode := .resting, idleCount := 12 }

/-- A JOINING station of a view. -/
def joiningOf (v : View) (known : BitVec 16) (n : Station) : State :=
  let s := haltedAs n
  ((s.setVu { s.vu with station := .joining, standing := .pending, view := v, stallTimer := some 100 }).setLu
    { s.lu with mode := .resting, idleCount := 12 }).setTu { s.tu with known := known }

/-- A view of the packaging line with nobody joining. -/
def quietView (epoch : Byte) : View := ⟨packaging, 0, epoch, false, 4, 0⟩

/-- A view of stations 3, 7 and 12 with station 20 joining. -/
def joinerView (epoch : Byte) (remaining : Nat) : View := ⟨stations [3, 7, 12], stations [20], epoch, false, 4, remaining⟩

/-- A state in the window of another station's frame. -/
def windowOf (f : Frame) (s : State) : State :=
  let j := judgedOther f true s
  (s.setVu { s.vu with judged := some j }).setLu
    { s.lu with mode := .window, driver := if j.accept then .ownSlot else .released, idleCount := 0 }

/-- A state in the window of its own frame, an attempt at an item. -/
def ownWindowOf (i : Item) (f : Frame) (s : State) : State :=
  ((s.setVu { s.vu with judged := some (judgedOwn f s) }).setSu { s.su with attempt := some ⟨i, f⟩ }).setLu
    { s.lu with mode := .window, driver := .ownFrame, idleCount := 0 }

/-- A request that waits in the queue. -/
def waiting (tag : Byte) (op : CellOp) (wait : Bool) (c : CellNo) (a : Half) : Request :=
  ⟨tag, op, wait, c, a, 0, .queued, .fresh, false⟩

/-- A state with a request queue and a park list. -/
def withRequests (queue park : List Request) (s : State) : State := s.setQu { s.qu with queue := queue, park := park }

/-- A completion record to read. -/
def record (tag : Byte) : Completion :=
  ⟨tag, .add, false, 9, .done, 2033, none, 63, ⟨false, false, false, false⟩, 1, 72, false⟩

theorem judgingOther_of (f : Frame) (slots : Mask) (s : State) (h : held s = false) (ha : s.su.attempt = none)
    (hc : isComplete (judgedOther f true s) slots (windowOf f s) = true) :
    JudgingOther (judgedOther f true s) slots (windowOf f s) :=
  ⟨⟨h, rfl, rfl, rfl⟩, rfl, ha, hc⟩

theorem judgingOwn_of (i : Item) (f : Frame) (s : State) (h : held s = false) :
    JudgingOwn (judgedOwn f s) ⟨i, f⟩ (ownWindowOf i f s) :=
  ⟨⟨h, rfl, rfl, rfl⟩, rfl, rfl, rfl⟩

/-! ## Well-formedness -/

theorem test_wellFormed_refuses_empty_frame : wellFormed (.frameCheckEnd []) = false := by decide

theorem test_wellFormed_refuses_frame_one_bit_short :
    wellFormed (.frameCheckEnd (List.replicate 33 false)) = false ∧
      wellFormed (.frameCheckEnd (List.replicate 34 false)) = true := by decide

/-- A JOIN's kind code is assigned, and nine bits end before the last kind bit. -/
theorem test_wellFormed_refuses_known_kind_lost :
    let join := [false, true, false, true, false, false, false, false, true, false]
    wellFormed (.frameLost (.unassignedKind join)) = false ∧
      wellFormed (.frameLost (.unassignedKind (List.replicate 9 false))) = false ∧
      wellFormed (.frameLost (.unassignedKind (List.replicate 10 false))) = true := by decide

theorem test_wellFormed_refuses_arm_as_bad_byte :
    wellFormed (.watchBadFirstByte 1) = false ∧ wellFormed (.watchBadFirstByte 3) = true := by decide

theorem test_wellFormed_refuses_leave_as_bad_byte :
    wellFormed (.controlBadFirstByte 3) = false ∧ wellFormed (.controlBadFirstByte 6) = true := by decide

/-! ## Section 2.9: the cell operations -/

/-- Cell 9 as the first example of section 2.9 begins. -/
def cell9 : Cell := ⟨1201, none, 89, Flags.clear, some 3⟩

/-- Steps 1 and 2 of the parts-made counter. -/
theorem test_add_counts_and_takes_back :
    (applyOp .add 12 1 0 cell9).record = ⟨1202, none, 90, ⟨false, false, false, false⟩, some 12⟩ ∧
      (applyOp .add 7 65535 0 ⟨1202, none, 90, Flags.clear, some 12⟩).record
        = ⟨1201, none, 91, ⟨true, false, false, false⟩, some 7⟩ := by decide

/-- Step 3: STORE 0 keeps the carry. -/
theorem test_store_keeps_carry :
    (applyOp .store 3 0 0 ⟨1201, none, 91, ⟨true, false, false, false⟩, some 7⟩).record
      = ⟨0, none, 92, ⟨true, true, false, false⟩, some 3⟩ := by decide

/-- Steps 4 and 5: borrow and carry. -/
theorem test_add_borrows_and_wraps :
    (applyOp .add 20 65535 0 ⟨0, none, 92, ⟨true, true, false, false⟩, some 3⟩).record
        = ⟨65535, none, 93, ⟨false, false, true, false⟩, some 20⟩ ∧
      (applyOp .add 3 1 0 ⟨65535, none, 93, ⟨false, false, true, false⟩, some 20⟩).record
        = ⟨0, none, 94, ⟨true, true, false, false⟩, some 3⟩ := by decide

/-- Steps 1 and 4 of the ticket example: a taken ticket, and a guess too high. -/
theorem test_step_compares :
    applyOp .step 7 40 0 ⟨40, none, 200, Flags.clear, some 12⟩
        = ⟨.done, ⟨41, none, 201, Flags.clear, some 7⟩, true, ⟨false, true, false, false⟩⟩ ∧
      applyOp .step 20 39 0 ⟨38, none, 17, Flags.clear, some 3⟩
        = ⟨.unequal, ⟨38, none, 17, Flags.clear, some 3⟩, false, ⟨true, false, true, false⟩⟩ := by decide

/-- Steps 1 to 4 of the zone B interlock. -/
theorem test_claim_and_held :
    (applyOp .claim 7 0 0 ⟨2, none, 42, Flags.clear, some 7⟩).record = ⟨2, some 7, 43, Flags.clear, some 7⟩ ∧
      applyOp .claim 12 0 0 ⟨2, some 7, 43, Flags.clear, some 7⟩
        = ⟨.held, ⟨2, some 7, 43, Flags.clear, some 7⟩, false, Flags.clear⟩ ∧
      applyOp .claim 7 0 0 ⟨2, some 7, 43, Flags.clear, some 7⟩
        = ⟨.done, ⟨2, some 7, 43, Flags.clear, some 7⟩, false, Flags.clear⟩ ∧
      (applyOp .store 12 9 0 ⟨2, some 7, 43, Flags.clear, some 7⟩).outcome = .held := by decide

/-- Steps 5 to 9 of the zone B interlock. -/
theorem test_release_and_relstore :
    (applyOp .relstore 7 3 0 ⟨2, some 7, 43, Flags.clear, some 7⟩).record = ⟨3, none, 44, Flags.clear, some 7⟩ ∧
      (applyOp .release 20 0 0 ⟨3, some 12, 45, Flags.clear, some 7⟩).outcome = .held ∧
      (applyOp .release 12 0 0 ⟨3, some 12, 45, Flags.clear, some 7⟩).record = ⟨3, none, 46, Flags.clear, some 7⟩ ∧
      (applyOp .release 20 0 0 ⟨3, none, 46, Flags.clear, some 7⟩).outcome = .notHeld := by decide

/-! ## Frames and their check, worked out by hand from section 11.1 and R169 -/

/-- Bits written as 0 and 1. -/
def bitsOf (l : List Nat) : List Bool := l.map (· == 1)

/-- A JOIN of station 20: class 0, 10100, kind 2, epoch 0, check 0C29h. -/
def joinBits : List Bool := bitsOf [0, 1,0,1,0,0, 0,0,1,0, 0,0,0,0,0,0,0,0, 0,0,0,0,1,1,0,0,0,0,1,0,1,0,0,1]

/-- An ADD 1 of station 12 on cell 9, epoch 70, check 4C9Eh. -/
def addBits : List Bool := bitsOf [1, 0,1,1,0,0, 0,0,1,0, 0,1,0,0,0,1,1,0, 0,0,0,1,0,0,1,
  0,0,0,0,0,0,0,0,0,0,0,0,0,0,0,1, 0,0,0,0,0,0,0,0,0,0,0,0,0,0,0,0, 0,1,0,0,1,1,0,0,1,0,0,1,1,1,1,0]

/-- A DROP of station 20 by station 7, epoch 90, check F8E1h; its last mask bit, for station 0, as given. -/
def dropBits (last : Nat) : List Bool := bitsOf ([0, 0,0,1,1,1, 0,1,0,0, 0,1,0,1,1,0,1,0,
  0,0,0,0,0,0,0,0,0,0,0,1,0,0,0,0,0,0,0,0,0,0,0,0,0,0,0,0,0,0,0] ++ [last] ++ [1,1,1,1,1,0,0,0,1,1,1,0,0,0,0,1])

/-- The three frames are read as they were written out, and with one mask bit read wrong the check is not correct. -/
theorem test_decode_frames :
    decodeFrame joinBits = some (⟨20, 0, .join⟩, true) ∧
      decodeFrame addBits = some (⟨12, 70, .cell .add 9 1 0⟩, true) ∧
      decodeFrame (dropBits 0) = some (⟨7, 90, .drop (stations [20])⟩, true) ∧
      decodeFrame (dropBits 1) = some (⟨7, 90, .drop (stations [0, 20])⟩, false) := by decide +kernel

/-- Code 14 of class 1 is unassigned, and a frame one bit short is none. -/
theorem test_decode_refuses :
    decodeFrame (bitsOf ([1, 0,1,1,0,0, 1,1,1,0] ++ List.replicate 63 0)) = none ∧
      decodeFrame (bitsOf ([0, 1,0,1,0,0, 0,0,1,0] ++ List.replicate 23 0)) = none := by decide

/-- Section 11.1: the last window bit of each kind is one less than its total length (R49). -/
theorem test_total_lengths :
    [1, 0, 73, 32, 39, 324].map totalLength = [68, 67, 140, 99, 106, 391] := by decide

/-- Section 3.13: of three stations that begin together the lowest field wins. -/
theorem test_arbitration : arbitrate [arbitrationField true 12, arbitrationField true 7, arbitrationField false 20]
    = [arbitrationField false 20] := by decide

/-! ## Witnesses: commands, resets and the host port -/

theorem test_witness_StepRunsFrontCommand : State.reset.pending = [] := rfl

theorem test_witness_EveryCommandCompletes :
    resetCommand .start = false ∧ Instr.start ∉ hostReads ∧ Instr.statusRead ∈ hostReads := by decide

/-- A part in the power-on hold, under RST or not, and parts under RST with and without supply. -/
theorem test_witness_PowerAndRst :
    (State.reset.setPower .hold).power = .hold ∧ held (State.reset.setPower .hold) = true ∧
      (State.reset.setRst true).rst = true ∧ (State.reset.setRst true).power = .on ∧
      ((State.reset.setPower .off).setRst true).power ≠ .on ∧ State.reset.rst = false ∧ State.reset.power ≠ .hold ∧
      held (memberOf (quietView 50) 12) = false ∧ (memberOf (quietView 50) 12).vu.station = .member ∧
      held (haltedAs 12) = false ∧ (haltedAs 12).vu.standing = .none := by decide

/-- Straps are sampled at the release (R162). -/
theorem test_straps_sampled :
    (after (.powerOnHoldEnd ⟨12, 3, true⟩) (State.reset.setPower .hold)).hp.straps = ⟨12, 3, true⟩ ∧
      (after (.rstRelease ⟨7, 3, true⟩) ((haltedAs 12).setRst true)).hp.straps = ⟨7, 3, true⟩ := by decide

/-- A LISTENING station with a RETAINED table. -/
def retainedAs (n : Station) : State :=
  (listeningAs n).setVu { (listeningAs n).vu with standing := .retained, retainedEpoch := 9 }

theorem standing_member : StandingLaw (memberOf (quietView 50) 12) := by unfold StandingLaw; decide

theorem standing_retained : StandingLaw (retainedAs 12) := by unfold StandingLaw; decide

theorem standing_joining : StandingLaw (joiningOf (joinerView 71 16) 2 20) := by unfold StandingLaw; decide

theorem standing_admitting : StandingLaw (admittingAs 12) :=
  ⟨by decide, by decide, by decide, by decide, fun _ => rfl, by decide⟩

theorem standing_halted : StandingLaw (haltedAs 12) :=
  ⟨by decide, by decide, by decide, by decide, fun _ => rfl, by decide⟩

/-- A station for each row of R10: MEMBER, RETAINED in LISTENING, JOINING, ADMITTING and HALTED. -/
theorem test_witness_ResetsAndTheTable :
    (StandingLaw (memberOf (quietView 50) 12) ∧ held (memberOf (quietView 50) 12) = false ∧
      (memberOf (quietView 50) 12).hp.controlBytes = [] ∧ (memberOf (quietView 50) 12).vu.station = .member) ∧
    (StandingLaw (retainedAs 12) ∧ held (retainedAs 12) = false ∧ (retainedAs 12).vu.station ≠ .member ∧
      (retainedAs 12).vu.standing = .retained) ∧
    (StandingLaw (joiningOf (joinerView 71 16) 2 20) ∧ (joiningOf (joinerView 71 16) 2 20).vu.standing ≠ .retained ∧
      (joiningOf (joinerView 71 16) 2 20).vu.station = .joining) ∧
    (StandingLaw (admittingAs 12) ∧ (admittingAs 12).vu.station = .admitting) ∧
    (StandingLaw (haltedAs 12) ∧ (haltedAs 12).vu.station = .halted) :=
  ⟨⟨standing_member, by decide⟩, ⟨standing_retained, by decide⟩, ⟨standing_joining, by decide⟩,
    ⟨standing_admitting, by decide⟩, ⟨standing_halted, by decide⟩⟩

/-- Section 6.6: HALT at an ADMITTING station gives up a RETAINED table, RST keeps it (R7). -/
theorem test_halt_and_rst_in_admitting :
    let s := (admittingAs 12).setVu { (admittingAs 12).vu with standing := .retained, retainedEpoch := 9 }
    (after .halt s).vu.standing = .none ∧ (after .rstAssert s).vu.standing = .retained ∧
      (after .rstAssert s).vu.retainedEpoch = 9 := by decide

theorem test_witness_HeldPartIsSilent :
    held (State.reset.setPower .hold) = true ∧ (State.reset.setPower .hold).power ≠ .off ∧
      resetCommand .statusRead = false ∧ Instr.statusRead ∈ hostReads ∧ resetCommand (.mask 15) = false ∧
      Instr.mask 15 ∉ hostReads := by decide

/-- Five bytes held, so that the sixth is stored. -/
theorem test_witness_RequestPort :
    let s := (haltedAs 12).setQu { (haltedAs 12).qu with entry := [2, 5, 9, 0, 1] }
    held s = false ∧ s.qu.entry.length < 6 := by decide

/-- An entry of six bytes at station states and queues that reach each result of R135. -/
def entering (bytes : List Byte) (s : State) : State := s.setQu { s.qu with entry := bytes }

theorem test_witness_SubmissionJudged :
    held (entering [2, 5, 9, 0, 1, 0] (listeningAs 12)) = false ∧
      (after (.requestWrite 0) (entering [2, 5, 9, 0, 1, 0] (haltedAs 12))).qu.result = .halted ∧
      (after (.requestWrite 0) (entering [0x80, 5, 9, 0, 1, 0] (listeningAs 12))).qu.result = .badOperand ∧
      (after (.requestWrite 0) (entering [14, 5, 9, 0, 1, 0] (listeningAs 12))).qu.result = .badOperand ∧
      (after (.requestWrite 0) (entering [2, 5, 128, 0, 1, 0] (listeningAs 12))).qu.result = .badOperand ∧
      (after (.requestWrite 0) (entering [8, 5, 9, 0, 16, 0] (listeningAs 12))).qu.result = .badOperand ∧
      (after (.requestWrite 0) (entering [8, 5, 127, 0, 15, 0] (listeningAs 12))).qu.result = .accepted ∧
      (after (.requestWrite 0) (entering [0x8B, 5, 9, 0, 1, 0]
        (withRequests [] [waiting 5 .claim true 9 0] (memberOf (quietView 50) 12)))).qu.result = .duplicateTag := by
  decide

/-- FULL at 8 queued and at a budget of 16, ACCEPTED one below each (R135, R136). -/
theorem test_submission_full :
    let queued (n : Nat) : State :=
      withRequests ((List.range n).map fun i => waiting (BitVec.ofNat 8 i) .add false 9 1) [] (listeningAs 12)
    let posted (n : Nat) : State := (listeningAs 12).setQu { (listeningAs 12).qu with
      completions := (List.range n).map fun i => record (BitVec.ofNat 8 i) }
    (after (.requestWrite 0) (entering [2, 99, 9, 0, 1, 0] (queued 8))).qu.result = .full ∧
      (after (.requestWrite 0) (entering [2, 99, 9, 0, 1, 0] (queued 7))).qu.result = .accepted ∧
      (after (.requestWrite 0) (entering [2, 99, 9, 0, 1, 0] (posted 16))).qu.result = .full ∧
      (after (.requestWrite 0) (entering [2, 99, 9, 0, 1, 0] (posted 15))).qu.result = .accepted := by decide

theorem test_witness_CompletionRead :
    let s (pos : Fin 11) : State := (haltedAs 12).setQu { (haltedAs 12).qu with completions := [record 5], pos := pos }
    held (s 9) = false ∧ (haltedAs 12).qu.completions = [] ∧ (s 9).qu.completions = record 5 :: [] ∧ (s 9).qu.pos.val < 10 ∧
      (s 10).qu.pos.val = 10 := by decide

/-- Section 12.2: the record of tag 5, byte by byte, as R171 lays it out. -/
theorem test_completion_bytes :
    (completionBytes (record 5)).map (·.value) = [1, 5, 2, 9, 0x07, 0xF1, 63, 63, 0, 1, 72] := by decide

theorem test_witness_CancelJudged :
    let q := waiting 45 .step false 10 61
    let s := withRequests [q, waiting 46 .add false 9 1] [] (memberOf (quietView 22) 12)
    let t := withRequests [{ q with state := .inAttempt }, waiting 46 .add false 9 1] [] (memberOf (quietView 22) 12)
    held s = false ∧ s.hp.controlBytes = [] ∧ (∀ r ∈ s.qu.queue ++ s.qu.park, r.tag ≠ 44) ∧
      ((s.qu.queue ++ s.qu.park).map (·.tag)).Nodup ∧ q ∈ s.qu.queue ++ s.qu.park ∧ q.state ≠ .inAttempt ∧
      ((t.qu.queue ++ t.qu.park).map (·.tag)).Nodup ∧ { q with state := .inAttempt } ∈ t.qu.queue ++ t.qu.park := by
  decide

/-- Section 12.5: CANCEL 45 during the attempt, and before it. -/
theorem test_cancel_pending_and_now :
    let q := waiting 45 .step false 10 61
    let s := withRequests [q, waiting 46 .add false 9 1] [] (memberOf (quietView 22) 12)
    let t := withRequests [{ q with state := .inAttempt }, waiting 46 .add false 9 1] [] (memberOf (quietView 22) 12)
    (after (.cancel 45) t).hp.controlResult = .cancelPending ∧ (after (.cancel 45) t).qu.completions = [] ∧
      (after (.cancel 45) s).hp.controlResult = .cancelledNow ∧
      (after (.cancel 45) s).qu.completions.map (fun c => (c.tag, c.ending)) = [(45, .cancelled)] := by decide

/-- A copy of each standing, an unknown and a known chunk, and a CELL port with and without a snapshot. -/
theorem test_witness_CellSnapshot :
    held (haltedAs 12) = false ∧ (haltedAs 12).vu.standing = .none ∧ (haltedAs 12).hp.cellLatch = none ∧
      (memberOf (quietView 50) 12).vu.standing = .live ∧
      (joiningOf (joinerView 71 16) 2 20).vu.standing = .pending ∧
      (joiningOf (joinerView 71 16) 2 20).tu.known.getLsbD ((9 : CellNo).toNat / 8) = true ∧
      (joiningOf (joinerView 71 16) 2 20).tu.known.getLsbD ((127 : CellNo).toNat / 8) = false ∧
      (after (.cellIndexWrite 255) (haltedAs 12)).hp.cellLatch = some ⟨.none, false, Cell.powerOn⟩ := by decide

/-- Index 137 names cell 9 (R19). -/
theorem test_cell_index_wraps :
    ((after (.cellIndexWrite 137) (putCell 9 cell9 (memberOf (quietView 50) 12))).hp.cellLatch.map (·.record))
      = some cell9 := by decide

theorem test_witness_StatusRead :
    let s := after .statusRead (memberOf (quietView 50) 12)
    held (memberOf (quietView 50) 12) = false ∧ (memberOf (quietView 50) 12).hp.statusPos = 0 ∧ s.hp.statusPos ≠ 0 ∧
      s.hp.statusLatch = some (statusOf (memberOf (quietView 50) 12)) := by decide

/-- Section 11.4: the first STATUS byte of station 12 in MEMBER reads 04h and the fifth 0Ch. -/
theorem test_status_bytes :
    (after .statusRead (memberOf (quietView 50) 12)).hostData = 0x04 ∧
      (byteAt (statusBytes (statusOf (memberOf (quietView 50) 12))) 4).value = 0x0C := by decide

theorem test_witness_ReadLayouts :
    ({ record 5 with attempts := 8 } : Completion).attempts ≤ 8 ∧ (statusOf (haltedAs 12)).unanswered ≤ 3 ∧
      (statusOf (haltedAs 12)).queued ≤ 8 ∧ (statusOf (haltedAs 12)).parked ≤ 4 ∧
      (statusOf (haltedAs 12)).completions ≤ 16 ∧ (statusOf (haltedAs 12)).notices ≤ 16 := by decide

/-- The first and the last byte of VIEW. -/
theorem test_witness_ViewRead :
    let s := (memberOf (quietView 50) 12).setHp { (memberOf (quietView 50) 12).hp with viewPos := 7, viewLatch := some (packaging, 0) }
    held s = false ∧ (memberOf (quietView 50) 12).hp.viewPos = 0 ∧ s.hp.viewPos ≠ 0 ∧ s.hp.viewLatch = some (packaging, 0) := by
  decide

/-- The mask of stations 3, 7, 12 and 20 is 00101088h, high byte first. -/
theorem test_view_bytes : (viewBytes (packaging, 0)).map (·.value) = [0x00, 0x10, 0x10, 0x88, 0, 0, 0, 0] := by decide

theorem test_witness_SequenceRestart : held (haltedAs 12) = false := by decide

/-- First bytes at the bounds of the codes of R170. -/
theorem test_witness_PartialSequences :
    held (haltedAs 12) = false ∧ (haltedAs 12).hp.watchBytes = [] ∧ (haltedAs 12).hp.controlBytes = [] ∧
      (0 : Byte).toNat ≠ 1 ∧ (3 : Byte).toNat ≠ 2 ∧ 5 < (6 : Byte).toNat ∧ (0 : Byte).toNat = 0 ∧ (2 : Byte).toNat = 2 ∧
      (4 : Byte).toNat = 4 ∧ (5 : Byte).toNat = 5 := by decide

/-- Sequences at WATCH and CONTROL with one byte kept, and with all but the last. -/
theorem test_witness_PartialSequences_kept :
    let s (watch control : List Byte) : State := (haltedAs 12).setHp
      { (haltedAs 12).hp with watchBytes := watch, controlBytes := control }
    held (s [1, 4, 9, 8, 7] [5]) = false ∧ (s [1] [4]).hp.watchBytes = 1 :: [] ∧ (s [1] [4]).hp.controlBytes = [4] ∧
      (s [1, 4, 9, 8, 7] [5]).hp.watchBytes = 1 :: [4, 9, 8, 7] ∧ [4, 9, 8, 7].length < 5 ∧
      (s [1, 4, 9, 8, 7, 6] [5]).hp.watchBytes = [1, 4, 9, 8, 7, 6] ∧ (s [2] [5]).hp.watchBytes = [2] ∧
      ([] : List Byte) <+: [1, 4, 9, 8, 7, 6] ∧ [(1 : Byte), 4, 9, 8, 7, 6] <+: [1, 4, 9, 8, 7, 6] := by decide

/-- R159, R161: the bytes of an ARM written one by one at port 3 arm the watch. -/
theorem test_arm_byte_by_byte :
    let write (s : State) (b : Byte) : State := after (accessOf 3 (some b) s) s
    let s := [1, 4, 5, 13, 0, 7, 60].foldl write (haltedAs 12)
    s.hp.watchBytes = [] ∧ s.wu.result = .taken ∧ watchAt s 4 = ⟨.armed, 5, .free, 7, 60, 0⟩ := by decide

/-- A read of CONTROL discards the first byte of a half-written CANCEL (R161, R166). -/
theorem test_control_read_discards :
    let s := after (.partialSequenceWrite .control 4) (haltedAs 12)
    s.hp.controlBytes = [4] ∧ (after .controlRead s).hp.controlBytes = [] := by decide

/-- Section 11.4: STATE pending and enabled, the last result TAKEN: CONTROL reads 21h, and ATN is asserted. -/
theorem test_witness_ControlRead :
    let s := (memberOf (quietView 50) 12).setWu
      { (memberOf (quietView 50) 12).wu with statePending := true, enables := ⟨true, false, false, false⟩ }
    let t := s.setHp { s.hp with controlResult := .taken }
    held t = false ∧ (after .controlRead t).hostData = 0x21 ∧ atn t = true := by decide

/-! ## Witnesses: watches and control commands -/

/-- Operands at the bounds of R149, a FREE and an ARMED watch 15, and a test that holds at once in MEMBER. -/
theorem test_witness_ArmJudged :
    let s := memberOf (quietView 50) 12
    let armed := putWatch 15 ⟨.armed, 9, .eq, 0, 60, 0⟩ s
    held s = false ∧ s.hp.watchBytes = [] ∧ 15 < (16 : Byte).toNat ∧ 127 < (128 : Byte).toNat ∧ (0 : Byte).toNat = 0 ∧
      18 < (19 : Byte).toNat ∧ ((11 : Byte).toNat = 11 ∧ 15 < (16 : Half).toNat) ∧ (15 : Fin 16).val = (15 : Byte).toNat ∧
      (watchAt s 15).state = .free ∧ (watchAt armed 15).state ≠ .free ∧
      testHolds (own s) .free 0 0 (cellAt s 127) = true ∧ testHolds (own s) .held 0 0 (cellAt s 127) = false := by
  decide

/-- Section 12.1, step 5: watch 4 armed again on cell 5 with test FREE waits with reference version 112. -/
theorem test_arm_waits :
    let s := after (.arm 4 5 13 0 61) (putCell 5 ⟨7, some 7, 112, Flags.clear, some 3⟩ (memberOf (quietView 50) 12))
    s.wu.result = .taken ∧ watchAt s 4 = ⟨.armed, 5, .free, 0, 61, 112⟩ ∧ s.wu.events = [] := by decide

theorem test_witness_DisarmJudged :
    let s := memberOf (quietView 50) 12
    let armed := putWatch 15 ⟨.armed, 9, .eq, 0, 60, 0⟩ s
    let fired := after (.arm 15 5 13 0 61) s
    held s = false ∧ s.hp.watchBytes = [] ∧ 15 < (16 : Byte).toNat ∧ (15 : Fin 16).val = (15 : Byte).toNat ∧
      (watchAt s 15).state = .free ∧ (watchAt armed 15).state = .armed ∧ (watchAt fired 15).state = .fired ∧
      held fired = false ∧ fired.hp.watchBytes = [] := by decide

/-- A DISARM of a FIRED watch removes its notice (R155). -/
theorem test_disarm_fired :
    let t := after (.disarm 15) (after (.arm 15 5 13 0 61) (memberOf (quietView 50) 12))
    t.wu.result = .noticeRemoved ∧ t.wu.events = [] ∧ (watchAt t 15).state = .free := by decide

/-- R150: an LT watch with operand 65535 holds for values that read as -2 or less. -/
theorem test_witness_WatchTests :
    (15 : Half).toNat ≤ 15 ∧ testHolds 12 .lt 65535 0 { cell9 with value := 65534 } = true ∧
      testHolds 12 .lt 65535 0 { cell9 with value := 65535 } = false ∧
      testHolds 12 .bitOne 15 0 { cell9 with value := 32768 } = true := by decide

theorem test_witness_NoticeRead :
    let s := after (.arm 4 5 13 0 60) (memberOf (quietView 50) 12)
    held s = false ∧ (haltedAs 12).wu.events = [] ∧ s.wu.events = [⟨4, 60, .met, 0, none, 0⟩] := by decide

/-- The seventh read of a notice frees its watch (R154). -/
theorem test_notice_last_byte :
    let s := after (.arm 4 5 13 0 60) (memberOf (quietView 50) 12)
    let t := after .noticeRead (s.setWu { s.wu with pos := 6 })
    t.wu.events = [] ∧ (watchAt t 4).state = .free ∧ t.wu.pos = 0 := by decide

theorem test_witness_HaltCommand :
    let s := putWatch 2 ⟨.armed, 5, .held, 0, 90, 0⟩ (memberOf (quietView 50) 12)
    held s = false ∧ s.hp.controlBytes = [] ∧ s.vu.station = .member ∧ (watchAt s 2).state = .armed ∧
      (haltedAs 12).vu.station = .halted ∧ (admittingAs 12).vu.station ≠ .member ∧ held (admittingAs 12) = false := by
  decide

/-- Section 12.5, case E, at a JOINING station: HALT while a marked request and another wait (R115, R146). -/
theorem test_halt_retires :
    let q : Request := { waiting 45 .step false 10 61 with cancelMark := true }
    let s := withRequests [q, waiting 46 .add false 9 1] [] (joiningOf (joinerView 22 16) 2 20)
    (after .halt s).qu.completions.map (fun c => (c.tag, c.ending, c.attempts, c.late))
      = [(45, .withdrawn, 0, true), (46, .withdrawn, 0, false)] := by decide

theorem test_witness_ControlCommands :
    held (haltedAs 12) = false ∧ (haltedAs 12).hp.controlBytes = [] ∧ (haltedAs 12).vu.station = .halted ∧
      (haltedAs 12).su.attempt = none ∧ (listeningAs 12).vu.station ≠ .halted ∧
      (memberOf (quietView 50) 12).vu.station = .member ∧ (listeningAs 12).vu.station ≠ .member := by decide

/-- A pending LEAVE of the only full member is held back while there are joiners (R131). -/
theorem test_leave_held_back :
    let s := after .leaveCommand (memberOf ⟨stations [12], stations [20], 9, false, 0, 16⟩ 12)
    s.vu.leavePending = true ∧ leaveHeldBack s = true ∧ s.su.offer = some .transfer := by decide

/-- A pending LEAVE behind an owed DROP and an owed ROSTER, before a TRANSFER, and offered while DEFERRED is set (R80). -/
theorem test_leave_in_order :
    let m := memberOf ⟨stations [3, 12], stations [20], 9, false, 0, 16⟩ 3
    let roster := m.setVu { m.vu with view := { m.vu.view with rosterOwed := true } }
    let drop := roster.setSu { roster.su with owedDrop := some (stations [20]) }
    (after .leaveCommand m).su.offer = some .leave ∧ (after .leaveCommand roster).su.offer = some .roster ∧
      (after .leaveCommand drop).su.offer = some .drop ∧
      (after .leaveCommand (m.setLu { m.lu with deferred := true })).su.offer = some .leave := by decide

/-- No attempt in progress where a command, a request or an expiry makes SU work out its offer (R81). -/
theorem test_witness_offers :
    let expiring (s : State) : Prop := held s = false ∧ s.su.attempt = none ∧ s.vu.admitTimer.isSome = true
    (memberOf (quietView 50) 12).su.attempt = none ∧ (entering [8, 5, 127, 0, 15, 0] (listeningAs 12)).su.attempt = none ∧
      (withRequests [waiting 45 .step false 10 61] [] (memberOf (quietView 22) 12)).su.attempt = none ∧
      expiring (admittingAs 12) ∧ (joiningOf (joinerView 71 16) 2 20).su.attempt = none ∧
      (listeningAs 7).su.attempt = none := by decide

/-! ## Witnesses: the line and the timers -/

/-- An idle-waiting station and a resting one, at the bounds of the idle count. -/
theorem test_witness_IdleCounting :
    let waits := (haltedAs 12).setLu { (haltedAs 12).lu with idleCount := 11 }
    let rests := (listeningAs 12).setLu { (listeningAs 12).lu with idleCount := 22 }
    let busy (n : Nat) := (listeningAs 12).setLu { (haltedAs 12).lu with asserted := true, assertedCount := n }
    (busy 254).lu.asserted = true ∧ (busy 254).lu.mode = .waitIdle ∧ (busy 254).lu.assertedCount < 255 ∧
      ¬(busy 255).lu.assertedCount < 255 ∧ (busy 254).vu.probeTimer = none ∧ (busy 254).su.offer = none ∧
      held waits = false ∧ waits.lu.stuck = false ∧ waits.lu.mode = .waitIdle ∧ waits.lu.idleCount < 12 ∧
      held rests = false ∧ rests.lu.stuck = false ∧ rests.lu.mode = .resting ∧ rests.pending = [] ∧
      rests.lu.asserted = false ∧ rests.su.offer = none ∧ rests.vu.probeTimer = none ∧ rests.vu.admitTimer = none ∧
      rests.vu.stallTimer = none ∧ rests.lu.idleCount < 23 ∧
      (haltedAs 12).lu.mode = .waitIdle ∧ (listeningAs 12).lu.mode = .resting ∧
      (after (.lineStuck 0 false) (haltedAs 12)).lu.stuck = true := by decide

/-- An item on offer at a line about to be idle, and one held back at the 23rd and the 24th idle bit time. -/
theorem test_witness_IdleCounting_starts :
    let s (n : Nat) := (listeningAs 12).setSu { (listeningAs 12).su with offer := some .probe }
      |>.setLu { (listeningAs 12).lu with idleCount := n, deferred := true }
    held (s 11) = false ∧ (s 11).pending = [] ∧ (s 11).lu.stuck = false ∧ (s 11).lu.mode = .resting ∧
      (s 11).lu.asserted = false ∧ (s 11).su.offer ≠ none ∧ (s 11).lu.idleCount < 23 ∧ 23 ≤ (s 23).lu.idleCount ∧
      23 ≤ (s 24).lu.idleCount ∧ (s 23).su.attempt = none ∧ (joiningOf (joinerView 71 16) 2 20).vu.stallTimer ≠ none := by
  decide

/-- The bit time that brings the idle count to 24 clears DEFERRED and begins the request that waited (R59, R60). -/
theorem test_clock_clears_deferred :
    let m := withRequests [waiting 45 .add false 9 1] [] (memberOf (quietView 50) 12)
    let t (n : Nat) := tick (m.setLu { m.lu with idleCount := n, deferred := true })
    (t 23).lu.deferred = false ∧ (t 23).lu.mode = .sending ∧ (t 22).lu.deferred = true ∧ (t 22).lu.mode = .resting := by
  decide

/-- A station that sends a LEAVE and has reached bit `n` of it. -/
def sendingOwn (n : Nat) : State :=
  let s := memberOf (quietView 50) 12
  (s.setSu { s.su with attempt := some ⟨.leave, ⟨12, 50, .leave⟩⟩ }).setLu
    { s.lu with mode := .sending, driver := .ownFrame, bitPos := n }

/-- Bits of 0 and of 1 of an own frame and its own slot, and each of them where the line is found stuck. -/
theorem test_witness_IdleCounting_own :
    let s (n : Nat) := (sendingOwn n).setLu { (sendingOwn n).lu with assertedCount := 255 }
    held (s 0) = false ∧ (s 0).pending = [] ∧ (s 0).lu.mode = .sending ∧
      (false :: encodeFrame ⟨12, 50, .leave⟩)[1]? = some false ∧ (false :: encodeFrame ⟨12, 50, .leave⟩)[3]? = some true ∧
      (s 1).lu.assertedCount = 255 ∧ (s 12).lu.driver ≠ .released ∧ (s 12).lu.bitPos = (s 12).hp.straps.sn.toNat := by
  decide

/-- A frame received, tracked, sent and in its window at a LISTENING station none of whose timers runs. -/
theorem test_witness_IdleCounting_frame :
    let s (m : LineMode) := (listeningAs 12).setLu { (listeningAs 12).lu with mode := m }
    (∀ m, held (s m) = false) ∧ (∀ m, (s m).pending = []) ∧ (∀ m, (s m).lu.mode = m) ∧ (∀ m, (s m).lu.assertedCount = 0) ∧
      ∀ m, (s m).vu.probeTimer = none ∧ (s m).vu.admitTimer = none ∧ (s m).vu.stallTimer = none := by
  refine ⟨?_, ?_, ?_, ?_, ?_⟩ <;> intro m <;> cases m <;> decide

/-- The bit times of an own frame show its bits: the start bit, a class bit of 0, and the station bits 0 and 1 of station 12, and
in the window its own slot (R44, R49, R54). -/
theorem test_own_bits_on_the_line :
    let s (n : Nat) := (sendingOwn n).setLu { (sendingOwn n).lu with assertedCount := 5 }
    let w (n : Nat) := (s n).setLu { (s n).lu with mode := .window }
    (tick (s 0)).lu.assertedCount = 6 ∧ (tick (s 0)).lu.bitPos = 1 ∧ (tick (s 1)).lu.assertedCount = 6 ∧
      (tick (s 2)).lu.assertedCount = 6 ∧ (tick (s 3)).lu.assertedCount = 0 ∧ (tick (w 12)).lu.assertedCount = 6 ∧
      slotReached (w 40) = 31 := by decide

/-- A class bit of 0 fed into a register of all ones, the start bit before it not fed, and the last body bit of a LEAVE the last
to be fed (R49, R169). -/
theorem test_own_bits_feed_the_check :
    let s (n : Nat) := (sendingOwn n).setLu { (sendingOwn n).lu with checkReg := 0xFFFF }
    (tick (s 0)).lu.checkReg = 0xFFFF ∧ (tick (s 1)).lu.checkReg = 0x7FFB ∧ checkFed (s 18) ≠ 0xFFFF ∧
      checkFed (s 19) = 0xFFFF := by decide

/-- The twelfth released bit time makes the line idle (R47). -/
theorem test_idle_at_twelve :
    (tick ((haltedAs 12).setLu { (haltedAs 12).lu with idleCount := 11 })).lu.mode = .resting ∧
      (tick ((haltedAs 12).setLu { (haltedAs 12).lu with idleCount := 10 })).lu.mode = .waitIdle := by decide

/-- A station that offers an item. -/
def offering (i : Item) (s : State) : State := s.setSu { s.su with offer := some i }

/-- A line idle at the bound, with each kind of item on offer, and the three bars to a start. -/
theorem test_witness_FrameStart :
    let m := withRequests [waiting 45 .add false 9 1] [] (memberOf (quietView 50) 12)
    let d := (offering .drop m).setSu { (offering .drop m).su with owedDrop := some (stations [20]) }
    let busy := (offering .leave m).setLu { m.lu with idleCount := 11 }
    let deferred := (offering (.request 45) m).setLu { m.lu with deferred := true }
    held m = false ∧ (offering .roster m).su.offer = some .roster ∧ m.lu.mode = .resting ∧ 12 ≤ m.lu.idleCount ∧
      d.su.offer = some .drop ∧ d.su.owedDrop = some (stations [20]) ∧
      (offering (.request 45) m).su.offer = some (.request 45) ∧ findRequest 45 m = some (waiting 45 .add false 9 1) ∧
      ¬(itemClassOne (.request 45) = true ∧ m.lu.deferred = true) ∧
      busy.lu.idleCount < 12 ∧ (itemClassOne (.request 45) = true ∧ deferred.lu.deferred = true) ∧
      (haltedAs 12).lu.mode ≠ .resting := by decide

/-- Section 12.4: the FOUND after a RETAINED table of epoch 120 carries epoch 121 and retained flag 1. -/
theorem test_found_frame :
    let s := offering .found ((listeningAs 7).setVu { (listeningAs 7).vu with standing := .retained, retainedEpoch := 120 })
    (after .frameStart s).su.attempt = some ⟨.found, ⟨7, 121, .found true⟩⟩ := by decide

theorem test_witness_DeferredClears :
    let q := waiting 45 .add false 9 1
    let m := withRequests [q] [] (memberOf (quietView 50) 12)
    let s := m.setLu { m.lu with deferred := true }
    held s = false ∧ s.lu.stuck = false ∧ s.lu.mode = .resting ∧ s.su.attempt = none ∧ (haltedAs 12).vu.station = .halted ∧
      (haltedAs 12).lu.mode = .waitIdle ∧ s.vu.station = .member ∧ s.su.owedDrop = none ∧ s.vu.leavePending = false ∧
      s.vu.view.remaining = 0 ∧ s.vu.view.rosterOwed = false ∧ s.qu.woken = [] ∧ s.qu.queue = [q] ∧ q.state = .queued := by
  decide

/-- The supplier with a round to send, and another MEMBER with a woken claim. -/
theorem test_witness_DeferredClears_others :
    let q : Request := { waiting 30 .claim true 5 0 with state := .eligible }
    let supplier := memberOf (joinerView 71 16) 3
    let woken := (withRequests [] [q] (memberOf (joinerView 71 16) 12)).setQu
      { (withRequests [] [q] (memberOf (joinerView 71 16) 12)).qu with woken := [30] }
    (held supplier = false ∧ supplier.lu.stuck = false ∧ supplier.lu.mode = .resting ∧ supplier.su.attempt = none ∧
      supplier.vu.station = .member ∧ supplier.su.owedDrop = none ∧ supplier.vu.leavePending = false ∧
      isSupplier supplier = true ∧ supplier.vu.view.rosterOwed = false ∧ 0 < supplier.vu.view.remaining) ∧
    held woken = false ∧ woken.lu.mode = .resting ∧ woken.vu.station = .member ∧ woken.su.owedDrop = none ∧
      isSupplier woken = false ∧ woken.qu.woken = [30] ∧ findRequest 30 woken = some q := by decide

/-- A member that sends the frame of request 45, at a given attempt record. -/
def sending45 (attempts : AttemptRec) : State :=
  let s := withRequests [{ waiting 45 .add false 9 1 with state := .inAttempt, attempts := attempts }] []
    (memberOf (quietView 50) 12)
  (s.setSu { s.su with attempt := some ⟨.request 45, ⟨12, 50, .cell .add 9 1 0⟩⟩ }).setLu
    { s.lu with mode := .sending, driver := .ownFrame, idleCount := 0 }

theorem test_witness_ArbitrationLost :
    held (sending45 .fresh) = false ∧ (sending45 .fresh).lu.mode = .sending ∧
      (sending45 .fresh).su.attempt = some ⟨.request 45, ⟨12, 50, .cell .add 9 1 0⟩⟩ ∧
      findRequest 45 (sending45 .fresh) = some { waiting 45 .add false 9 1 with state := .inAttempt } := by decide

/-- A woken claim, a request with a cancel mark, and a JOIN, each in arbitration. -/
theorem test_witness_ArbitrationLost_others :
    let q : Request := { waiting 30 .claim true 5 0 with state := .inAttempt, attempts := ⟨2, [1, 1]⟩ }
    let claim (mark : Bool) : State := (withRequests [] [{ q with cancelMark := mark }] (memberOf (quietView 50) 12)).setSu
      { State.reset.su with attempt := some ⟨.claim 30, ⟨12, 50, .cell .claim 5 0 0⟩⟩ }
    let sends (s : State) : State := s.setLu { s.lu with mode := .sending, driver := .ownFrame }
    let probe := sends ((listeningAs 7).setSu { State.reset.su with attempt := some ⟨.probe, ⟨7, 0, .join⟩⟩ })
    held (sends (claim true)) = false ∧ (sends (claim true)).lu.mode = .sending ∧
      findRequest 30 (sends (claim false)) = some q ∧ q.cancelMark = false ∧
      findRequest 30 (sends (claim true)) = some { q with cancelMark := true } ∧
      probe.su.attempt = some ⟨.probe, ⟨7, 0, .join⟩⟩ ∧ probe.lu.mode = .sending ∧ held probe = false ∧
      Item.probe ∈ [Item.drop, .roster, .leave, .probe, .found, .stallJoin, .transfer] := by decide

/-- R140: a woken claim that loses arbitration is first in woken order again. -/
theorem test_lost_claim_is_first :
    let s := withRequests [] [{ waiting 30 .claim true 5 0 with state := .inAttempt }] (memberOf (quietView 50) 12)
    let t := after .lostArbitration (((s.setQu { s.qu with woken := [9] }).setSu
      { s.su with attempt := some ⟨.claim 30, ⟨12, 50, .cell .claim 5 0 0⟩⟩ }).setLu { s.lu with mode := .sending })
    t.qu.woken = [30, 9] ∧ t.qu.park.map (·.state) = [.eligible] ∧ t.lu.mode = .receiving := by decide

/-- A seventh attempt of a request and an eighth. -/
theorem test_witness_SelfFault :
    (sending45 ⟨6, [0, 0]⟩).lu.mode = .sending ∧
      (sending45 ⟨6, [0, 0]⟩).su.attempt = some ⟨.request 45, ⟨12, 50, .cell .add 9 1 0⟩⟩ ∧ held (sending45 ⟨6, [0, 0]⟩) = false ∧
      (((sending45 ⟨6, [0, 0]⟩).qu.queue ++ (sending45 ⟨6, [0, 0]⟩).qu.park).map (·.tag)).Nodup ∧
      (sending45 ⟨6, [0, 0]⟩).qu.queue = [{ waiting 45 .add false 9 1 with state := .inAttempt, attempts := ⟨6, [0, 0]⟩ }] ∧
      (sending45 ⟨7, [0, 0, 0]⟩).qu.queue
        = [{ waiting 45 .add false 9 1 with state := .inAttempt, attempts := ⟨7, [0, 0, 0]⟩ }] := by decide

/-- A station that sends a frame for an item, with one attempt record for every system item. -/
def sendingOf (i : Item) (f : Frame) (r : AttemptRec) (s : State) : State :=
  (s.setSu { s.su with
    attempt := some ⟨i, f⟩
    dropRec := r, rosterRec := r, transferRec := r, leaveRec := r, foundRec := r, stallRec := r }).setLu
    { s.lu with mode := .sending, driver := .ownFrame, idleCount := 0 }

/-- The system items of a view, each sent in a station state that has it, at the seventh attempt and at the eighth. -/
theorem test_witness_SelfFault_items :
    let v : View := ⟨stations [3, 7, 12], stations [20], 71, true, 4, 16⟩
    let drop := fun n => sendingOf .drop ⟨3, 71, .drop (stations [12])⟩ ⟨n, []⟩ (memberOf v 3)
    let stall := sendingOf .stallJoin ⟨20, 0, .join⟩ ⟨7, []⟩ (joiningOf v 0 20)
    held (drop 6) = false ∧ (drop 6).lu.mode = .sending ∧ inView (drop 6).vu.station = true ∧
      (recordOf .drop (drop 6)).count = 6 ∧ (recordOf .drop (drop 7)).count = 7 ∧ (drop 7).vu.station = .member ∧
      (recordOf .leave (drop 7)).count = 7 ∧ (recordOf .roster (drop 7)).count = 7 ∧
      (recordOf .transfer (drop 7)).count = 7 ∧
      held stall = false ∧ stall.vu.station = .joining ∧ (recordOf .stallJoin stall).count = 7 := by
  and_intros <;> decide

/-- A FOUND at its seventh attempt and its eighth, which also shows a JOIN's count, and a woken claim. -/
theorem test_witness_SelfFault_others :
    let l := (listeningAs 7).setVu { (listeningAs 7).vu with unanswered := 3, probeDue := .found }
    let found := fun n => sendingOf .found ⟨7, 1, .found false⟩ ⟨n, []⟩ l
    let q : Request := { waiting 30 .claim true 5 0 with state := .inAttempt, attempts := ⟨2, [1, 1]⟩ }
    let claim := sendingOf (.claim 30) ⟨12, 50, .cell .claim 5 0 0⟩ .fresh (withRequests [] [q] (memberOf (quietView 50) 12))
    held (found 7) = false ∧ (found 7).vu.station = .listening ∧ (found 7).vu.probeDue = .found ∧
      (recordOf .found (found 6)).count = 6 ∧ (recordOf .found (found 7)).count = 7 ∧ (found 7).vu.unanswered ≤ 3 ∧
      held claim = false ∧ claim.qu.park = [q] ∧ ((claim.qu.queue ++ claim.qu.park).map (·.tag)).Nodup ∧
      q.cancelMark = false := by decide

/-- The eighth self fault of a stall JOIN starts STALL_WAIT afresh (R92). -/
theorem test_eighth_self_fault :
    let s := sendingOf .stallJoin ⟨20, 0, .join⟩ ⟨7, [0, 0, 0]⟩ (joiningOf (joinerView 71 16) 0 20)
    (after (.readBackFault 0 false .released) s).vu.stallTimer = some 8192 := by decide

/-- A bit time that finds the line stuck in the eighth attempt of a stall JOIN starts STALL_WAIT afresh, and the timer counts
from the next bit time on (R58, R62, R92, R127). -/
theorem test_stuck_stall_join_restarts :
    let s := sendingOf .stallJoin ⟨20, 0, .join⟩ ⟨7, [0, 0, 0]⟩ (joiningOf (joinerView 71 16) 0 20)
    let s0 := s.setVu { s.vu with stallTimer := none, stallOwed := true }
    let t := assertedTick 0 false (s0.setLu { s0.lu with assertedCount := 255 })
    t.lu.stuck = true ∧ (timerTick s0.vu t).vu.stallTimer = some 8192 ∧
      (timerTick t.vu t).vu.stallTimer = some 8191 := by decide

/-- The eighth self fault retires the request FAILED with attempts 8 (R90). -/
theorem test_eighth_attempt_fails :
    (after (.readBackFault 0 false .released) (sending45 ⟨7, [0, 0, 0]⟩)).qu.completions.map (fun c => (c.tag, c.ending, c.attempts))
      = [(45, .failed, 8)] := by decide

/-- A station that receives a frame. -/
def receiving (s : State) : State := s.setLu { s.lu with mode := .receiving, idleCount := 0, asserted := true }

/-- The frames written out above, at stations that accept one, find one foreign, and are shown out of step by one. -/
theorem test_witness_Acceptance :
    let s := receiving (memberOf (quietView 70) 7)
    let foreign := receiving (memberOf ⟨stations [3, 7], 0, 70, false, 4, 0⟩ 7)
    let other := receiving (memberOf (quietView 50) 3)
    (held s = false ∧ s.lu.mode = .receiving ∧ s.vu.station = .member ∧ has s.vu.view.full 12 = true ∧
      has foreign.vu.view.full 12 = false ∧ held foreign = false ∧ other.vu.view.epoch ≠ 90 ∧
      (receiving (joiningOf (joinerView 71 16) 2 20)).vu.station = .joining) ∧
    decodeFrame joinBits = some (⟨20, 0, .join⟩, true) ∧ decodeFrame addBits = some (⟨12, 70, .cell .add 9 1 0⟩, true) ∧
      decodeFrame (dropBits 0) = some (⟨7, 90, .drop (stations [20])⟩, true) :=
  ⟨by decide, test_decode_frames.1, test_decode_frames.2.1, test_decode_frames.2.2.1⟩

/-- The ADD of station 12 accepted, foreign, and showing its receiver out of step (R65, R67, R68). -/
theorem test_acceptance :
    let t (v : View) : State := after (.frameCheckEnd addBits) (receiving (memberOf v 7))
    (t (quietView 70)).lu.driver = .ownSlot ∧ (t ⟨stations [3, 7], 0, 70, false, 4, 0⟩).vu.foreign = some 12 ∧
      (t ⟨stations [3, 7], 0, 70, false, 4, 0⟩).lu.driver = .released ∧
      (t (quietView 71)).vu.judged.map (·.outOfStep) = some true := by decide +kernel

theorem test_witness_AcceptanceElsewhere :
    let s := receiving (listeningAs 12)
    let own := ownWindowOf .probe ⟨12, 0, .join⟩ (listeningAs 12)
    let sends := own.setLu { own.lu with mode := .sending }
    (held s = false ∧ s.lu.mode = .receiving ∧ s.vu.station = .listening ∧ s.su.attempt = none ∧
      (receiving (admittingAs 12)).vu.station = .admitting ∧ (receiving (haltedAs 12)).vu.station = .halted ∧
      sends.lu.mode = .sending ∧ sends.su.attempt = some ⟨.probe, ⟨12, 0, .join⟩⟩ ∧ held sends = false) ∧
    decodeFrame joinBits = some (⟨20, 0, .join⟩, true) ∧
      decodeFrame (dropBits 0) = some (⟨7, 90, .drop (stations [20])⟩, true) ∧
      decodeFrame (dropBits 1) = some (⟨7, 90, .drop (stations [0, 20])⟩, false) :=
  ⟨by decide, test_decode_frames.1, test_decode_frames.2.2⟩

/-- Bits of an unassigned kind code, and bits that are not as many as a JOIN has, at a station that receives. -/
theorem test_witness_AcceptanceElsewhere_lost :
    held (receiving (listeningAs 12)) = false ∧ (receiving (listeningAs 12)).lu.mode = .receiving ∧
      ¬(1 ≤ (field (List.replicate 34 false) 7 4).toNat) ∧ field (List.replicate 34 false) 1 1 ≠ 1 ∧
      decodeFrame (joinBits.take 33) = none := by decide

/-- The four rows of R75 at station 12, with the fault before, in and after its slot. -/
theorem test_witness_WindowFaultTable :
    let f : Frame := ⟨7, 50, .cell .add 9 1 0⟩
    let s := windowOf f (memberOf (quietView 50) 12)
    let d := windowOf ⟨7, 50, .drop (stations [12])⟩ (memberOf (quietView 50) 12)
    (held s = false ∧ s.lu.mode = .window ∧ s.vu.judged = some (judgedOther f true (memberOf (quietView 50) 12)) ∧
      (judgedOther f true (memberOf (quietView 50) 12)).station = s.vu.station) ∧
      s.su.attempt = none ∧ (judgedOther f true (memberOf (quietView 50) 12)).outOfStep = false ∧
      own s < 13 ∧ ¬own s < 12 ∧ (requiredSet f s.vu.view).getLsbD 12 = true ∧
      (requiredSet ⟨7, 50, .drop (stations [12])⟩ d.vu.view).getLsbD 12 = false ∧
      (d.vu.judged.map (·.accept)) = some true := by decide

/-- A frame of another epoch, which shows its receiver out of step before the fault. -/
theorem test_witness_WindowFaultTable_outOfStep :
    let f : Frame := ⟨7, 49, .leave⟩
    let s := windowOf f (memberOf (quietView 50) 12)
    Judging (judgedOther f true (memberOf (quietView 50) 12)) s ∧ s.su.attempt = none ∧ s.vu.station = .member ∧
      (judgedOther f true (memberOf (quietView 50) 12)).outOfStep = true ∧
      (judgedOther f true (memberOf (quietView 50) 12)).own = false :=
  ⟨⟨by decide, rfl, rfl, rfl⟩, by decide⟩

/-- The same at ADMITTING, LISTENING and HALTED stations. -/
theorem test_witness_WindowFaultTable_outside :
    let f : Frame := ⟨7, 50, .cell .add 9 1 0⟩
    Judging (judgedOther f true (admittingAs 12)) (windowOf f (admittingAs 12)) ∧
      (judgedOther f true (admittingAs 12)).accept = true ∧ (windowOf f (admittingAs 12)).vu.admitExpired = false ∧
      own (windowOf f (admittingAs 12)) < 13 ∧ (windowOf f (admittingAs 12)).su.attempt = none ∧
      Judging (judgedOther f true (listeningAs 12)) (windowOf f (listeningAs 12)) ∧
      Judging (judgedOther f true (haltedAs 12)) (windowOf f (haltedAs 12)) :=
  ⟨⟨by decide, rfl, rfl, rfl⟩, by decide, by decide, by decide, rfl, ⟨by decide, rfl, rfl, rfl⟩, ⟨by decide, rfl, rfl, rfl⟩⟩

/-- Section 4.9: a fault after the slot was asserted withdraws the station, one before it does not. -/
theorem test_fault_after_acceptance :
    let s := windowOf ⟨7, 71, .cell .add 9 1 0⟩ (joiningOf (joinerView 71 16) 2 20)
    (after (.windowFault 21 false) s).vu.station = .listening ∧ (after (.windowFault 20 false) s).vu.station = .joining ∧
      (after (.windowFault 20 true) s).vu.station = .listening := by decide

theorem test_witness_LineTrouble :
    let stuck := after (.lineStuck 0 false) (haltedAs 12)
    held (receiving (listeningAs 12)) = false ∧ (receiving (listeningAs 12)).lu.mode = .receiving ∧
      (haltedAs 12).lu.stuck = false ∧ (haltedAs 12).lu.mode = .waitIdle ∧ held stuck = false ∧ stuck.lu.stuck = true ∧
      (after .halt (receiving (listeningAs 12))).lu.mode = .tracking ∧ held (after .halt (receiving (listeningAs 12))) = false ∧
      (sending45 .fresh).lu.mode = .sending ∧ (sending45 .fresh).lu.stuck = false ∧ held (sending45 .fresh) = false ∧
      (windowOf ⟨7, 50, .leave⟩ (memberOf (quietView 50) 12)).lu.mode = .window ∧
      (windowOf ⟨7, 50, .leave⟩ (memberOf (quietView 50) 12)).lu.stuck = false ∧ (255 : Nat) < 256 := by
  decide

/-- Ten bits of no assigned kind, of 0 throughout and with a 1 before the last two. -/
theorem test_witness_LineTrouble_lost :
    (List.replicate 10 false).length = 10 ∧
      [true, false, true, false, false, false, true, true, false, false].length = 10 ∧
      [true, false, true, false, false, false, true, true, false, false]
        = [true, false, true, false, false, false, true] ++ [true] ++ List.replicate 2 false := by decide

/-- Bits that end in 255 asserted bit times, one short of a stuck line (R58). -/
theorem test_check_end_counts_255 : assertedRun ([] ++ [true] ++ List.replicate 255 false) = 255 := by decide +kernel

/-- The bits of 0 that a check part ends in stand in the count of asserted bit times (R44, R58). -/
theorem test_check_end_counts :
    assertedRun [true, false, true, false, false] = 2 ∧ assertedRun [false, true] = 0 ∧
      (after (.frameCheckEnd [true, false, false, false]) (after .halt (receiving (listeningAs 12)))).lu.assertedCount = 3 := by
  decide

/-- The 256th asserted bit time sets LINE-STUCK and makes LINE pending (R58). -/
theorem test_stuck_at_256 :
    let s := (haltedAs 12).setLu { (haltedAs 12).lu with asserted := true, assertedCount := 255 }
    (assertedTick 0 false s).lu.stuck = true ∧ (assertedTick 0 false s).wu.linePending = true ∧
      (assertedTick 0 false (s.setLu { s.lu with assertedCount := 254 })).lu.stuck = false := by decide

/-- A bit time of rest on a line last met asserted: the line is known to rest at the twelfth in turn alone (R47, R56). -/
theorem test_gap_is_no_rest :
    let s (n : Nat) := (haltedAs 12).setLu { (haltedAs 12).lu with asserted := true, idleCount := n }
    (gapTick (s 10)).lu.asserted = true ∧ (gapTick (s 10)).lu.mode = .waitIdle ∧ (gapTick (s 11)).lu.asserted = false ∧
      (gapTick (s 11)).lu.mode = .resting ∧ (mixedTick (s 10)).lu.idleCount = 0 := by decide

/-- A frame received whose last three bit times were asserted. -/
def losing : State := (receiving (listeningAs 12)).setLu { (receiving (listeningAs 12)).lu with assertedCount := 3 }

/-- A start bit heard while LU waits for idle, and a frame lost, leave the line met asserted and the idle count 0, so that no item
begins inside the rest of the frame (R47, R56). A HALT leaves the count of asserted bit times, a coding fault ends it, and a kind code
of 0 after arbitration bits of 0 leaves 11, the start bit's among them (R45, R49, R58). -/
theorem test_lost_frame_keeps_the_line_busy :
    (after (.frameLost .codingFault) losing).lu.asserted = true ∧ (after (.frameLost .codingFault) losing).lu.idleCount = 0 ∧
      (after (.frameLost .codingFault) losing).lu.assertedCount = 0 ∧
      (after (.frameLost (.unassignedKind (List.replicate 10 false))) losing).lu.assertedCount = 11 ∧
      (after .anotherStationStartBit (haltedAs 12)).lu.asserted = true ∧ (after .halt losing).lu.assertedCount = 3 ∧
      (after .halt losing).lu.mode = .tracking := by decide

theorem test_witness_TimerExpiries :
    let l := (listeningAs 7).setVu { (listeningAs 7).vu with probeTimer := some 1, unanswered := 3, probeDue := .nothing }
    let a := windowOf ⟨3, 50, .leave⟩ (admittingAs 12)
    held l = false ∧ l.vu.station = .listening ∧ l.vu.probeTimer.isSome = true ∧ l.vu.unanswered = 3 ∧ l.hp.straps.fp = true ∧
      (admittingAs 12).vu.admitTimer.isSome = true ∧ (admittingAs 12).lu.mode ≠ .window ∧
      a.lu.mode = .window ∧ a.vu.judged ≠ none ∧ a.vu.admitTimer.isSome = true ∧
      (joiningOf (joinerView 71 16) 2 20).vu.station = .joining ∧
      (joiningOf (joinerView 71 16) 2 20).vu.stallTimer.isSome = true := by decide

/-- Each timer alone, with many bit times left and with one, on a resting line and in a window. -/
theorem test_witness_TimerExpiries_clock :
    let l (n : Nat) := (listeningAs 7).setVu { (listeningAs 7).vu with probeTimer := some n, probeDue := .nothing }
    let a (n : Nat) := (admittingAs 12).setVu { (admittingAs 12).vu with admitTimer := some n }
    let w := windowOf ⟨3, 50, .leave⟩ (a 1)
    let j (n : Nat) := (joiningOf (joinerView 71 16) 2 20).setVu
      { (joiningOf (joinerView 71 16) 2 20).vu with stallTimer := some n }
    held (l 1) = false ∧ (l 1).pending = [] ∧ (l 1).lu.mode = .resting ∧ (l 2).vu.probeTimer = some 2 ∧
      (l 1).vu.admitTimer = none ∧ (l 1).vu.stallTimer = none ∧ (l 1).vu.station = .listening ∧
      (a 1).vu.station = .admitting ∧ (a 1).vu.probeTimer = none ∧ (a 1).vu.stallTimer = none ∧
      (a 1).lu.mode ≠ .window ∧ w.lu.mode = .window ∧ w.vu.judged ≠ none ∧ w.lu.assertedCount < 255 ∧
      w.vu.admitTimer = some 1 ∧ (j 1).vu.station = .joining ∧ (j 1).vu.probeTimer = none ∧ (j 1).vu.admitTimer = none := by
  decide

/-- STALL_WAIT runs over the bit times of a resting line (R127). -/
theorem test_stall_runs :
    let j (n : Nat) := (joiningOf (joinerView 71 16) 2 20).setVu
      { (joiningOf (joinerView 71 16) 2 20).vu with stallTimer := some n }
    (tick (j 100)).vu.stallTimer = some 99 ∧ (tick (j 1)).vu.stallTimer = none ∧ (tick (j 1)).vu.stallOwed = true := by
  decide

/-- A timer of one bit time expires at the next one: a FOUND is due after the third unanswered JOIN (R105). -/
theorem test_probe_expiry :
    let l := (listeningAs 7).setVu { (listeningAs 7).vu with probeTimer := some 1, unanswered := 3, probeDue := .nothing }
    (tick l).vu.probeDue = .found ∧ (tick (l.setVu { l.vu with unanswered := 2 })).vu.probeDue = .join := by decide

/-! ## Witnesses: the cell operations and cell frames -/

/-- A free cell, one of the originator's, and one of another station. -/
theorem test_witness_ValueOperations :
    cell9.holder = none ∧ ({ cell9 with holder := some 7 } : Cell).holder = some 7 ∧ (7 : Station) ≠ 12 ∧
      CellOp.bitflip ∈ [CellOp.store, .add, .and, .or, .xor, .bitset, .bitclr, .bitflip] := by decide

theorem test_witness_CompareOperations :
    cell9.holder = none ∧ cell9.value = 1201 ∧ cell9.value ≠ 1202 ∧
      ¬(({ cell9 with holder := some 7 } : Cell).holder = none ∨ ({ cell9 with holder := some 7 } : Cell).holder = some 12) := by
  decide

theorem test_witness_HolderOperations :
    cell9.holder = none ∧ ({ cell9 with holder := some 7 } : Cell).holder = some 7 ∧ (7 : Station) ≠ 12 := by decide

/-- A refusal, a change, and a DONE without one. -/
theorem test_witness_ApplicationLaws :
    (applyOp .release 12 0 0 cell9).outcome ≠ .done ∧ (applyOp .add 12 0 0 cell9).changed = true ∧
      (applyOp .claim 7 0 0 { cell9 with holder := some 7 }).changed = false ∧
      (applyOp .store 12 0 0 cell9).record.value ≠ cell9.value ∧
      (applyOp .claim 12 0 0 cell9).record.holder ≠ cell9.holder := by decide

/-- Station 12 in section 12.1: tag 30 and watch 4 on cell 5. -/
def interlocked : State :=
  putWatch 4 ⟨.armed, 5, .free, 0, 60, 110⟩ (withRequests [] [{ waiting 30 .claim true 5 0 with state := .parked }]
    (putCell 5 ⟨6, some 3, 110, Flags.clear, some 3⟩ (memberOf (quietView 50) 12)))

theorem test_witness_CellFrameApplied :
    JudgingOther (judgedOther ⟨3, 50, .cell .relstore 5 7 0⟩ true interlocked) packaging
        (windowOf ⟨3, 50, .cell .relstore 5 7 0⟩ interlocked) ∧
      (windowOf ⟨3, 50, .cell .relstore 5 7 0⟩ interlocked).vu.station = .member ∧
      (windowOf ⟨3, 50, .cell .relstore 5 7 0⟩ interlocked).vu.standing = .live :=
  ⟨judgingOther_of _ _ _ (by decide) rfl (by decide), by decide, by decide⟩

/-- Section 12.1, step 2: the RELSTORE wakes tag 30 and fires watch 4. -/
theorem test_relstore_wakes_and_fires :
    let t := after (.relstore packaging) (windowOf ⟨3, 50, .cell .relstore 5 7 0⟩ interlocked)
    cellAt t 5 = ⟨7, none, 111, Flags.clear, some 3⟩ ∧ t.qu.woken = [30] ∧
      t.wu.events = [⟨4, 60, .met, 7, none, 111⟩] := by decide

/-- An own STEP of request 45 at its first attempt (section 12.5), marked for cancel or not. -/
def stepping (mark : Bool) : State :=
  ownWindowOf (.request 45) ⟨12, 22, .cell .step 10 61 0⟩
    (withRequests [{ waiting 45 .step false 10 61 with state := .inAttempt, cancelMark := mark }, waiting 46 .add false 9 1] []
      (putCell 10 ⟨61, none, 12, Flags.clear, some 7⟩ (memberOf (quietView 22) 12)))

theorem test_witness_OwnCellFrame :
    (stepping true).vu.judged.map (fun j => (j.own, isComplete j packaging (stepping true))) = some (true, true) ∧
      (stepping true).vu.station = .member ∧ (stepping true).vu.standing = .live ∧
      findRequest 45 (stepping true)
        = some { waiting 45 .step false 10 61 with state := .inAttempt, cancelMark := true } := by decide

/-- Section 12.5, cases A and B: complete and incomplete under a mark. -/
theorem test_own_step_under_mark :
    ((after (.step packaging) (stepping true)).qu.completions.map fun c => (c.ending, c.value, c.version, c.attempts, c.late))
        = [(.done, 62, 13, 1, true)] ∧
      ((after (.incompleteWindowEnd (stations [3, 12, 20])) (stepping true)).qu.completions.map
        fun c => (c.ending, c.value, c.version, c.attempts, c.late)) = [(.cancelled, 61, 12, 1, false)] := by decide

/-- Station 12's own CLAIM of tag 30, from the queue or woken from the park list, on a cell that station 3 holds. -/
def claiming (i : Item) (queue park : List Request) : State :=
  ownWindowOf i ⟨12, 50, .cell .claim 5 0 0⟩
    (withRequests queue park (putCell 5 ⟨6, some 3, 110, Flags.clear, some 3⟩ (memberOf (quietView 50) 12)))

/-- The claim of tag 30 in its attempt. -/
def claim30 : Request := { waiting 30 .claim true 5 0 with state := .inAttempt, attempts := ⟨2, [1, 1]⟩ }

/-- Parked claims of four other tags. -/
def fourParked : List Request := (List.range 4).map fun i => { waiting (BitVec.ofNat 8 i) .claim true 5 0 with state := .parked }

theorem test_witness_ClaimParks :
    JudgingOwn (judgedOwn ⟨12, 50, .cell .claim 5 0 0⟩ (memberOf (quietView 50) 12))
        ⟨.request 30, ⟨12, 50, .cell .claim 5 0 0⟩⟩ (claiming (.request 30) [claim30] (fourParked.take 3)) ∧
      ((claiming (.request 30) [claim30] fourParked).vu.judged.map
        fun j => isComplete j packaging (claiming (.request 30) [claim30] fourParked)) = some true ∧
      (applyOp .claim 12 0 0 (cellAt (claiming (.request 30) [claim30] fourParked) 5)).outcome = .held ∧
      (([claim30] ++ fourParked).map (·.tag)).Nodup ∧ (fourParked.take 3).length < 4 ∧ fourParked.length ≥ 4 ∧
      claim30 ∈ [claim30] ∧ claim30.op = .claim ∧ claim30.wait = true ∧ claim30.cancelMark = false :=
  ⟨⟨⟨by decide, rfl, rfl, rfl⟩, rfl, rfl, rfl⟩, by decide⟩

/-- Section 12.1, steps 1 and 4: parked from the queue, parked again at its place, and HELD on a full list (R138). -/
theorem test_claim_parks :
    (after (.claim packaging) (claiming (.request 30) [claim30] [])).qu.park.map (fun q => (q.tag, q.state, q.attempts.count))
        = [(30, .parked, 0)] ∧
      (after (.claim packaging) (claiming (.claim 30) [] [claim30])).qu.park.map (fun q => (q.tag, q.state)) = [(30, .parked)] ∧
      (after (.claim packaging) (claiming (.request 30) [claim30] fourParked)).qu.completions.map (fun c => (c.tag, c.ending))
        = [(30, .held)] := by decide

theorem test_witness_CellFramePending :
    JudgingOther (judgedOther ⟨7, 71, .cell .add 9 1 0⟩ true (joiningOf (joinerView 71 16) 2 20)) packaging
        (windowOf ⟨7, 71, .cell .add 9 1 0⟩ (joiningOf (joinerView 71 16) 2 20)) ∧
      (joiningOf (joinerView 71 16) 2 20).vu.standing = .pending :=
  ⟨judgingOther_of _ _ _ (by decide) rfl (by decide), by decide⟩

/-- Section 12.2: an ADD reaches a known chunk and not an unknown one. -/
theorem test_pending_copy :
    let f : Frame := ⟨7, 71, .cell .add 9 1 0⟩
    (cellAt (after (.add packaging) (windowOf f (joiningOf (joinerView 71 16) 2 20))) 9).version = 1 ∧
      (cellAt (after (.add packaging) (windowOf f (joiningOf (joinerView 71 16) 0 20))) 9).version = 0 := by decide

/-! ## Witnesses: the view -/

/-- A complete JOIN from outside, from a joiner, from a full member, and from the one full member at a joiner. -/
theorem test_witness_JoinApplied :
    let m := memberOf ⟨stations [3, 7, 12], stations [20], 50, false, 4, 16⟩ 12
    let j := joiningOf ⟨stations [3], stations [20], 71, false, 4, 16⟩ 0 20
    JudgingOther (judgedOther ⟨5, 0, .join⟩ true m) packaging (windowOf ⟨5, 0, .join⟩ m) ∧
      JudgingOther (judgedOther ⟨20, 0, .join⟩ true m) packaging (windowOf ⟨20, 0, .join⟩ m) ∧
      JudgingOther (judgedOther ⟨7, 0, .join⟩ true m) packaging (windowOf ⟨7, 0, .join⟩ m) ∧
      JudgingOther (judgedOther ⟨12, 0, .join⟩ true m) packaging (windowOf ⟨12, 0, .join⟩ m) ∧
      JudgingOther (judgedOther ⟨3, 0, .join⟩ true j) packaging (windowOf ⟨3, 0, .join⟩ j) ∧
      StandingLaw (windowOf ⟨7, 0, .join⟩ m) ∧ has m.vu.view.full 5 = false ∧ has m.vu.view.joiners 20 = true ∧
      has m.vu.view.full 7 = true ∧ j.vu.view.full = only 3 :=
  ⟨judgingOther_of _ _ _ (by decide) rfl (by decide), judgingOther_of _ _ _ (by decide) rfl (by decide),
    judgingOther_of _ _ _ (by decide) rfl (by decide), judgingOther_of _ _ _ (by decide) rfl (by decide),
    judgingOther_of _ _ _ (by decide) rfl (by decide), by unfold StandingLaw; decide, by decide⟩

/-- The stall JOIN of station 20, a joiner. -/
theorem test_witness_JoinApplied_own :
    let s := ownWindowOf .stallJoin ⟨20, 0, .join⟩ (joiningOf (joinerView 71 4) 2 20)
    JudgingOwn (judgedOwn ⟨20, 0, .join⟩ (joiningOf (joinerView 71 4) 2 20)) ⟨.stallJoin, ⟨20, 0, .join⟩⟩ s ∧
      isComplete (judgedOwn ⟨20, 0, .join⟩ (joiningOf (joinerView 71 4) 2 20)) packaging s = true ∧
      s.vu.station = .joining ∧ own s = 20 ∧ has s.vu.view.full 20 = false ∧ has s.vu.view.joiners 20 = true :=
  ⟨judgingOwn_of _ _ _ (by decide), by decide⟩

/-- Section 12.2, step 1: the JOIN of station 20 opens a round. -/
theorem test_join_outside :
    (after (.join packaging) (windowOf ⟨20, 0, .join⟩ (memberOf ⟨stations [3, 7, 12], 0, 70, false, 4, 0⟩ 7))).vu.view
      = ⟨stations [3, 7, 12], stations [20], 71, true, 4, 16⟩ := by decide

/-- A joiner and the supplier at the ROSTER of their view. -/
theorem test_witness_RosterApplied :
    let v : View := ⟨stations [3, 7, 12], stations [20], 71, true, 4, 16⟩
    let f : Frame := ⟨3, 71, .roster v.full v.joiners 4 16⟩
    JudgingOther (judgedOther f true (joiningOf v 0 20)) packaging (windowOf f (joiningOf v 0 20)) ∧
      JudgingOther (judgedOther f true (memberOf v 7)) packaging (windowOf f (memberOf v 7)) ∧
      JudgingOwn (judgedOwn f (memberOf v 3)) ⟨.roster, f⟩ (ownWindowOf .roster f (memberOf v 3)) ∧
      isComplete (judgedOwn f (memberOf v 3)) packaging (ownWindowOf .roster f (memberOf v 3)) = true :=
  ⟨judgingOther_of _ _ _ (by decide) rfl (by decide), judgingOther_of _ _ _ (by decide) rfl (by decide),
    judgingOwn_of _ _ _ (by decide), by decide⟩

/-- A station admitted, one not named, and one whose ADMIT_WAIT expired in the window. -/
theorem test_witness_RosterAdmits :
    let f : Frame := ⟨3, 71, .roster (stations [3, 7, 12]) (stations [20]) 4 16⟩
    let late := (admittingAs 20).setVu { (admittingAs 20).vu with admitTimer := none, admitExpired := true }
    Judging (judgedOther f true (admittingAs 20)) (windowOf f (admittingAs 20)) ∧
      Judging (judgedOther f true (admittingAs 12)) (windowOf f (admittingAs 12)) ∧
      Judging (judgedOther f true late) (windowOf f late) ∧
      (windowOf f (admittingAs 20)).vu.station = .admitting ∧ has (stations [20]) 20 = true ∧ has (stations [20]) 12 = false ∧
      within (stations [3, 7, 12] ||| stations [20]) packaging = true ∧ (windowOf f late).vu.admitExpired = true :=
  ⟨⟨by decide, rfl, rfl, rfl⟩, ⟨by decide, rfl, rfl, rfl⟩, ⟨by decide, rfl, rfl, rfl⟩, by decide⟩

/-- Section 12.2, step 2: station 20 enters JOINING with no chunk known. -/
theorem test_roster_admits :
    let f : Frame := ⟨3, 71, .roster (stations [3, 7, 12]) (stations [20]) 4 16⟩
    let t := after (.rosterAdmission packaging) (windowOf f (admittingAs 20))
    t.vu.station = .joining ∧ t.vu.standing = .pending ∧ t.vu.view = joinerView 71 16 ∧ t.tu.known = 0 ∧
      (after (.rosterAdmission (stations [3, 7, 12])) (windowOf f (admittingAs 20))).vu.station = .admitting := by decide

/-- A TRANSFER of chunk 4 with images of one record. -/
def transferOf (epoch : Byte) (r : Cell) : Frame := ⟨3, epoch, .transfer 4 (Vector.replicate 8 r)⟩

theorem test_witness_TransferApplied :
    JudgingOther (judgedOther (transferOf 71 cell9) true (joiningOf (joinerView 71 2) 0 20)) packaging
        (windowOf (transferOf 71 cell9) (joiningOf (joinerView 71 2) 0 20)) ∧
      JudgingOther (judgedOther (transferOf 71 cell9) true (memberOf (joinerView 71 2) 7)) packaging
        (windowOf (transferOf 71 cell9) (memberOf (joinerView 71 2) 7)) ∧
      1 < (windowOf (transferOf 71 cell9) (memberOf (joinerView 71 2) 7)).vu.view.remaining :=
  ⟨judgingOther_of _ _ _ (by decide) rfl (by decide), judgingOther_of _ _ _ (by decide) rfl (by decide), by decide⟩

/-- The supplier's own TRANSFER, in the round and at its end. -/
theorem test_witness_TransferApplied_own :
    JudgingOwn (judgedOwn (transferOf 71 cell9) (memberOf (joinerView 71 2) 3)) ⟨.transfer, transferOf 71 cell9⟩
        (ownWindowOf .transfer (transferOf 71 cell9) (memberOf (joinerView 71 2) 3)) ∧
      isComplete (judgedOwn (transferOf 71 cell9) (memberOf (joinerView 71 2) 3)) packaging
        (ownWindowOf .transfer (transferOf 71 cell9) (memberOf (joinerView 71 2) 3)) = true ∧
      isComplete (judgedOwn (transferOf 71 cell9) (memberOf (joinerView 71 1) 3)) packaging
        (ownWindowOf .transfer (transferOf 71 cell9) (memberOf (joinerView 71 1) 3)) = true :=
  ⟨judgingOwn_of _ _ _ (by decide), by decide, by decide⟩

/-- A TRANSFER of another full member clears the supplier's attempt record too: it belonged to the old cursor (R94, R124). -/
theorem test_transfer_clears_record :
    let s := memberOf (joinerView 71 9) 3
    let f : Frame := ⟨7, 71, .transfer 4 (Vector.replicate 8 cell9)⟩
    (after (.transfer packaging) (windowOf f (s.setSu { s.su with transferRec := ⟨3, [stations [20]]⟩ }))).su.transferRec
      = .fresh := by decide

/-- Section 12.2, step 3: chunk 4 becomes known at station 20, its records the images. -/
theorem test_transfer :
    let t := after (.transfer packaging) (windowOf (transferOf 71 cell9) (joiningOf (joinerView 71 16) 0 20))
    t.tu.known = 0x0010 ∧ cellAt t 32 = cell9 ∧ cellAt t 39 = cell9 ∧ cellAt t 40 = Cell.powerOn ∧
      t.vu.view = ⟨stations [3, 7, 12], stations [20], 71, false, 5, 15⟩ := by decide

/-- A joiner with every other chunk known, one without, and a full member, at the last TRANSFER of the round. -/
theorem test_witness_PromotionApplied :
    JudgingOther (judgedOther (transferOf 71 cell9) true (joiningOf (joinerView 71 1) 0xFFEF 20)) packaging
        (windowOf (transferOf 71 cell9) (joiningOf (joinerView 71 1) 0xFFEF 20)) ∧
      JudgingOther (judgedOther (transferOf 71 cell9) true (joiningOf (joinerView 71 1) 0xFFEE 20)) packaging
        (windowOf (transferOf 71 cell9) (joiningOf (joinerView 71 1) 0xFFEE 20)) ∧
      JudgingOther (judgedOther (transferOf 71 cell9) true (memberOf (joinerView 71 1) 7)) packaging
        (windowOf (transferOf 71 cell9) (memberOf (joinerView 71 1) 7)) ∧
      (windowOf (transferOf 71 cell9) (memberOf (joinerView 71 1) 7)).vu.view.remaining = 1 :=
  ⟨judgingOther_of _ _ _ (by decide) rfl (by decide), judgingOther_of _ _ _ (by decide) rfl (by decide),
    judgingOther_of _ _ _ (by decide) rfl (by decide), by decide⟩

/-- Station 3 in section 12.3, and station 20 itself, at the DROP of station 20. -/
theorem test_witness_DropApplied :
    let f : Frame := ⟨7, 90, .drop (stations [20])⟩
    JudgingOther (judgedOther f true (memberOf (quietView 90) 3)) (stations [3, 7, 12]) (windowOf f (memberOf (quietView 90) 3)) ∧
      JudgingOther (judgedOther f true (memberOf (quietView 90) 20)) (stations [3, 7, 12])
        (windowOf f (memberOf (quietView 90) 20)) ∧
      StandingLaw (windowOf f (memberOf (quietView 90) 3)) ∧ has (stations [20]) 20 = true ∧ has (stations [20]) 3 = false :=
  ⟨judgingOther_of _ _ _ (by decide) rfl (by decide), judgingOther_of _ _ _ (by decide) rfl (by decide),
    by unfold StandingLaw; decide, by decide, by decide⟩

/-- Section 12.3: the DROP frees cell 5 and wakes tag 2 at station 3. -/
theorem test_drop_releases :
    let s := withRequests [] [{ waiting 2 .claim true 5 0 with state := .parked }]
      (putCell 5 ⟨1, some 20, 200, Flags.clear, some 20⟩ (memberOf (quietView 90) 3))
    let t := after (.drop (stations [3, 7, 12])) (windowOf ⟨7, 90, .drop (stations [20])⟩ s)
    cellAt t 5 = ⟨1, none, 201, Flags.clear, some 20⟩ ∧ t.qu.woken = [2] ∧
      t.vu.view = ⟨stations [3, 7, 12], 0, 91, false, 4, 0⟩ := by decide

/-- The same DROP at its sender, station 7. -/
theorem test_witness_DropApplied_own :
    let f : Frame := ⟨7, 90, .drop (stations [20])⟩
    let s := ownWindowOf .drop f (memberOf (quietView 90) 7)
    JudgingOwn (judgedOwn f (memberOf (quietView 90) 7)) ⟨.drop, f⟩ s ∧
      isComplete (judgedOwn f (memberOf (quietView 90) 7)) (stations [3, 7, 12]) s = true ∧ StandingLaw s :=
  ⟨judgingOwn_of _ _ _ (by decide), by decide, by unfold StandingLaw; decide⟩

/-- A LEAVE heard, one of the station's own number, and the leaver's. -/
theorem test_witness_LeaveApplied :
    let m := memberOf (quietView 50) 12
    JudgingOther (judgedOther ⟨7, 50, .leave⟩ true m) packaging (windowOf ⟨7, 50, .leave⟩ m) ∧
      JudgingOther (judgedOther ⟨12, 50, .leave⟩ true m) packaging (windowOf ⟨12, 50, .leave⟩ m) ∧
      JudgingOwn (judgedOwn ⟨12, 50, .leave⟩ m) ⟨.leave, ⟨12, 50, .leave⟩⟩ (ownWindowOf .leave ⟨12, 50, .leave⟩ m) ∧
      isComplete (judgedOwn ⟨12, 50, .leave⟩ m) packaging (ownWindowOf .leave ⟨12, 50, .leave⟩ m) = true ∧
      StandingLaw (ownWindowOf .leave ⟨12, 50, .leave⟩ m) :=
  ⟨judgingOther_of _ _ _ (by decide) rfl (by decide), judgingOther_of _ _ _ (by decide) rfl (by decide),
    judgingOwn_of _ _ _ (by decide), by decide, by unfold StandingLaw; decide⟩

/-- An own JOIN and an own FOUND, with the third unanswered JOIN and the eighth incomplete FOUND. -/
theorem test_witness_ProbesEnd :
    let l := (listeningAs 7).setVu { (listeningAs 7).vu with unanswered := 3, probeDue := .found }
    JudgingOwn (judgedOwn ⟨7, 0, .join⟩ (listeningAs 7)) ⟨.probe, ⟨7, 0, .join⟩⟩
        (ownWindowOf .probe ⟨7, 0, .join⟩ (listeningAs 7)) ∧
      JudgingOwn (judgedOwn ⟨7, 121, .found true⟩ l) ⟨.found, ⟨7, 121, .found true⟩⟩
        (ownWindowOf .found ⟨7, 121, .found true⟩ l) ∧
      (ownWindowOf .probe ⟨7, 0, .join⟩ (listeningAs 7)).vu.station = .listening ∧ l.vu.probeDue = .found ∧
      l.vu.unanswered ≤ 3 ∧ l.su.foundRec.count < 7 :=
  ⟨judgingOwn_of _ _ _ (by decide), judgingOwn_of _ _ _ (by decide), by decide⟩

/-- Section 12.4: an unanswered JOIN of station 7 brings the count to 1, its timer to 368. -/
theorem test_unanswered_join :
    let j := after (.joinProbe (stations [7])) (ownWindowOf .probe ⟨7, 0, .join⟩ (listeningAs 7))
    j.vu.unanswered = 1 ∧ j.vu.probeTimer = some 368 := by decide

/-- The entries into MEMBER and the exit by LEAVE: the promotion of section 12.2, step 9, with the watch that waited for it; the
FOUND of section 12.4, which frees cell 5; and a LEAVE, which keeps the table under the epoch from before it (R9, R112). -/
theorem test_entries_and_leave :
    let s := putWatch 6 ⟨.armed, 33, .uge, 1000, 80, 0⟩ (joiningOf (joinerView 71 1) 0xFFEF 20)
    let p := after (.transfer packaging) (windowOf (transferOf 71 cell9) s)
    let l := putCell 5 ⟨4, some 12, 30, Flags.clear, some 12⟩
      ((listeningAs 7).setVu { (listeningAs 7).vu with standing := .retained, retainedEpoch := 120, probeDue := .found })
    let f := after (.found (stations [7])) (ownWindowOf .found ⟨7, 121, .found true⟩ l)
    let t := after (.leave packaging) (ownWindowOf .leave ⟨12, 50, .leave⟩ (memberOf (quietView 50) 12))
    (p.vu.station = .member ∧ p.vu.standing = .live ∧ p.vu.view = ⟨packaging, 0, 72, false, 5, 0⟩ ∧
      p.wu.events = [⟨6, 80, .met, 1201, none, 89⟩] ∧ (watchAt p 6).reference = 89) ∧
    (f.vu.station = .member ∧ f.vu.view = ⟨stations [7], 0, 121, false, 0, 0⟩ ∧
      cellAt f 5 = ⟨4, none, 31, Flags.clear, some 12⟩) ∧
    t.vu.station = .halted ∧ t.vu.standing = .retained ∧ t.vu.retainedEpoch = 50 := by decide +kernel

/-! ## Witnesses: incomplete frames and the laws -/

/-- A frame that a missing slot leaves incomplete, in step and out of step. -/
theorem test_witness_IncompleteElsewhere :
    let m := memberOf (quietView 50) 12
    Judging (judgedOther ⟨7, 50, .leave⟩ true m) (windowOf ⟨7, 50, .leave⟩ m) ∧
      Judging (judgedOther ⟨7, 49, .leave⟩ true m) (windowOf ⟨7, 49, .leave⟩ m) ∧
      isComplete (judgedOther ⟨7, 50, .leave⟩ true m) (stations [3, 7, 12]) (windowOf ⟨7, 50, .leave⟩ m) = false ∧
      isComplete (judgedOther ⟨7, 49, .leave⟩ true m) packaging (windowOf ⟨7, 49, .leave⟩ m) = false ∧
      (judgedOther ⟨7, 50, .leave⟩ true m).outOfStep = false ∧ (judgedOther ⟨7, 49, .leave⟩ true m).outOfStep = true ∧
      StandingLaw (windowOf ⟨7, 49, .leave⟩ m) :=
  ⟨⟨by decide, rfl, rfl, rfl⟩, ⟨by decide, rfl, rfl, rfl⟩, by decide, by decide, by decide, by decide,
    by unfold StandingLaw; decide⟩

/-- Another station's frame at stations outside a view, in the window of one, and a frame that is only tracked. -/
theorem test_witness_IncompleteElsewhere_outside :
    let f : Frame := ⟨7, 50, .leave⟩
    let tracked := after .halt (receiving (listeningAs 12))
    let due (s : State) : State := s.setVu { s.vu with admitTimer := none, admitExpired := true }
    Judging (judgedOther f true (haltedAs 12)) (windowOf f (haltedAs 12)) ∧
      (haltedAs 12).hp.controlBytes = [] ∧
      Judging (judgedOther f true (listeningAs 12)) (windowOf f (listeningAs 12)) ∧
      Judging (judgedOther f true (admittingAs 12)) (windowOf f (admittingAs 12)) ∧
      Judging (judgedOther f true (admittingAs 12)) (due (windowOf f (admittingAs 12))) ∧
      (windowOf f (admittingAs 12)).su.attempt = none ∧ isRoster f.body = false ∧
      (windowOf f (admittingAs 12)).vu.admitExpired = false ∧
      held tracked = false ∧ tracked.lu.mode = .tracking ∧ tracked.vu.judged = none ∧ tracked.su.attempt = none ∧
      Instr.leave packaging ∈ windowEnds packaging :=
  ⟨⟨by decide, rfl, rfl, rfl⟩, rfl, ⟨by decide, rfl, rfl, rfl⟩, ⟨by decide, rfl, rfl, rfl⟩, ⟨by decide, rfl, rfl, rfl⟩,
    by decide⟩

/-- R63: a START inside a window keeps the frame that was disregarded in HALTED, and the window's end applies nothing of it. -/
theorem test_start_in_a_window :
    let f : Frame := ⟨7, 50, .leave⟩
    let u := after .start (windowOf f (haltedAs 12))
    u.vu.station = .listening ∧ u.vu.judged.map (·.station) = some .halted ∧
      (after (.leave packaging) u).vu.judged = none ∧ (after (.leave packaging) u).vu.station = .listening := by decide

/-- A request at its third attempt in a view, its frame missing what its history misses. -/
def missing (v : View) (history : List Mask) (n : Station) : State :=
  ownWindowOf (.request 45) ⟨n, v.epoch, .cell .add 9 1 0⟩
    (withRequests [{ waiting 45 .add false 9 1 with state := .inAttempt, attempts := ⟨2, history⟩ }] [] (memberOf v n))

/-- Three entries that share station 20, and the pair of section 12.4. -/
theorem test_witness_IncompleteOwnRequest :
    let m := missing (quietView 90) [stations [20], stations [20]] 7
    JudgingOwn (judgedOwn ⟨7, 90, .cell .add 9 1 0⟩ (memberOf (quietView 90) 7)) ⟨.request 45, ⟨7, 90, .cell .add 9 1 0⟩⟩ m ∧
      isComplete (judgedOwn ⟨7, 90, .cell .add 9 1 0⟩ (memberOf (quietView 90) 7)) (stations [3, 7, 12]) m = false ∧
      ((m.qu.queue ++ m.qu.park).map (·.tag)).Nodup ∧ m.su.owedDrop = none ∧ m.vu.station = .member ∧
      2 * size (stations [20] &&& packaging) < size packaging ∧
      size (stations [7, 12]) ≤ 2 * size (stations [12] &&& stations [7, 12]) ∧
      (([] : List Mask) ++ [stations [20]]).length < 3 :=
  ⟨⟨⟨by decide, rfl, rfl, rfl⟩, rfl, rfl, rfl⟩, by decide⟩

/-- A woken claim at its eighth attempt. -/
theorem test_witness_IncompleteOwnRequest_woken :
    let q : Request := { claim30 with attempts := ⟨7, [0, 0, 0]⟩ }
    let j := judgedOwn ⟨12, 50, .cell .claim 5 0 0⟩ (memberOf (quietView 50) 12)
    let s := claiming (.claim 30) [] [q]
    JudgingOwn j ⟨.claim q.tag, ⟨12, 50, .cell .claim 5 0 0⟩⟩ s ∧ q ∈ s.qu.park ∧ isComplete j 0 s = false ∧
      ((s.qu.queue ++ s.qu.park).map (·.tag)).Nodup ∧ q.cancelMark = false ∧ q.attempts.count = 7 ∧ s.su.owedDrop = none :=
  ⟨⟨⟨by decide, rfl, rfl, rfl⟩, rfl, rfl, rfl⟩, by decide⟩

/-- The same claim with a cancel mark. -/
theorem test_witness_IncompleteOwnRequest_marked :
    let q : Request := { claim30 with attempts := ⟨7, [0, 0, 0]⟩, cancelMark := true }
    let j := judgedOwn ⟨12, 50, .cell .claim 5 0 0⟩ (memberOf (quietView 50) 12)
    let s := claiming (.claim 30) [] [q]
    JudgingOwn j ⟨.claim q.tag, ⟨12, 50, .cell .claim 5 0 0⟩⟩ s ∧ q ∈ s.qu.park ∧ isComplete j 0 s = false ∧
      ((s.qu.queue ++ s.qu.park).map (·.tag)).Nodup ∧ q.cancelMark = true ∧ q.attempts.count ≤ 7 ∧ s.su.owedDrop = none :=
  ⟨⟨⟨by decide, rfl, rfl, rfl⟩, rfl, rfl, rfl⟩, by decide⟩

/-- The system items, each in a station state that sends it, the third entry of the history still to come. -/
theorem test_witness_IncompleteOwnRequest_items :
    let v : View := ⟨stations [3, 7, 12], stations [20], 71, true, 4, 16⟩
    let drop : Frame := ⟨3, 71, .drop (stations [12])⟩
    let r : AttemptRec := ⟨7, [stations [20], stations [20]]⟩
    let owing := (memberOf v 3).setSu { (memberOf v 3).su with owedDrop := some (stations [12]), dropRec := r }
    (∀ i ∈ [Item.drop, .roster, .leave, .transfer], itemFits i (memberOf v 3).vu.station = true) ∧
      itemFits .stallJoin (joiningOf v 0 20).vu.station = true ∧
      JudgingOwn (judgedOwn drop owing) ⟨.drop, drop⟩ (ownWindowOf .drop drop owing) ∧
      isComplete (judgedOwn drop owing) (stations [3, 7]) (ownWindowOf .drop drop owing) = false ∧
      recordOf .drop (ownWindowOf .drop drop owing) = r ∧
      JudgingOwn (judgedOwn ⟨3, 71, .leave⟩ (memberOf v 3)) ⟨.leave, ⟨3, 71, .leave⟩⟩
        (ownWindowOf .leave ⟨3, 71, .leave⟩ (memberOf v 3)) ∧
      JudgingOwn (judgedOwn ⟨20, 0, .join⟩ (joiningOf v 0 20)) ⟨.stallJoin, ⟨20, 0, .join⟩⟩
        (ownWindowOf .stallJoin ⟨20, 0, .join⟩ (joiningOf v 0 20)) :=
  ⟨by decide, by decide, judgingOwn_of _ _ _ (by decide), by decide, rfl, judgingOwn_of _ _ _ (by decide),
    judgingOwn_of _ _ _ (by decide)⟩

/-- An own window that its own fault ends, at a MEMBER before and after its slot, and at a LISTENING station; the windows of
the system items are those of `test_witness_IncompleteOwnRequest_items`. -/
theorem test_witness_WindowFaultTable_own :
    let l := (listeningAs 7).setVu { (listeningAs 7).vu with unanswered := 3, probeDue := .found }
    let m := missing (quietView 90) [stations [20], stations [20]] 7
    JudgingOwn (judgedOwn ⟨7, 90, .cell .add 9 1 0⟩ (memberOf (quietView 90) 7)) ⟨.request 45, ⟨7, 90, .cell .add 9 1 0⟩⟩ m ∧
      (judgedOwn ⟨7, 90, .cell .add 9 1 0⟩ (memberOf (quietView 90) 7)).accept = true ∧ own m < 8 ∧ ¬own m < 7 ∧
      m.vu.station = .member ∧ m.qu.queue.map (·.cancelMark) = [false] ∧
      JudgingOwn (judgedOwn ⟨7, 0, .join⟩ (listeningAs 7)) ⟨.probe, ⟨7, 0, .join⟩⟩
        (ownWindowOf .probe ⟨7, 0, .join⟩ (listeningAs 7)) ∧
      JudgingOwn (judgedOwn ⟨7, 121, .found true⟩ l) ⟨.found, ⟨7, 121, .found true⟩⟩
        (ownWindowOf .found ⟨7, 121, .found true⟩ l) ∧ l.vu.probeDue = .found :=
  ⟨⟨⟨by decide, rfl, rfl, rfl⟩, rfl, rfl, rfl⟩, by decide, by decide, by decide, by decide, by decide,
    judgingOwn_of _ _ _ (by decide), judgingOwn_of _ _ _ (by decide), by decide⟩

/-- Section 12.3: the third miss owes the DROP of station 20; section 12.4: at a pair it withdraws. -/
theorem test_third_miss :
    let t := after (.incompleteWindowEnd (stations [3, 7, 12])) (missing (quietView 90) [stations [20], stations [20]] 7)
    t.su.owedDrop = some (stations [20]) ∧ t.su.offer = some .drop ∧ t.vu.station = .member ∧
      dropDecision (.request 45) ⟨3, [stations [12], stations [12], stations [12]]⟩
        (memberOf ⟨stations [7, 12], 0, 120, false, 0, 0⟩ 7) = .withdraw := by decide

theorem test_witness_StepKeepsRequestLaw :
    RequestLaw (missing (quietView 90) [] 7) ∧ step (memberOf (quietView 50) 12) = .next (tick (memberOf (quietView 50) 12)) :=
  ⟨by unfold RequestLaw; decide, rfl⟩

/-- A FIRED watch with its notice. -/
theorem test_witness_StepKeepsNoticeLaw :
    NoticeLaw (after (.arm 4 5 13 0 60) (memberOf (quietView 50) 12)) := by unfold NoticeLaw; decide

theorem test_witness_StepKeepsCoherence : Coherent (memberOf (quietView 50) 12) := by
  refine ⟨?_, ?_, standing_member, ?_, ?_, ⟨?_, ?_, ?_, ?_⟩, ?_, ⟨?_, ?_⟩⟩
  · unfold SilenceLaw; decide
  · unfold HeldLaw; decide
  · unfold ProbeLaw; decide
  · unfold OwnNumberLaw; decide
  · decide
  · intro a h; exact absurd (show (none : Option Attempt) = some a from h) (by simp)
  · intro i h; exact absurd (show (none : Option Item) = some i from h) (by simp)
  · intro j h; exact absurd (show (none : Option Judged) = some j from h) (by simp)
  · unfold LineLaw; decide
  · decide
  · intro h; exact absurd h (by decide)

/-- A view in the middle of a round. -/
theorem test_witness_StepKeepsViewShape :
    ViewShape (joinerView 71 16) ∧ LawfulRoster (windowOf (transferOf 71 cell9) (memberOf (joinerView 71 16) 7)) := by
  refine ⟨by unfold ViewShape; decide, ?_⟩
  intro j full joiners cursor remaining h hb
  have e : judgedOther (transferOf 71 cell9) true (memberOf (joinerView 71 16) 7) = j := Option.some.inj h
  subst e
  cases hb

/-- Two stations of one view in the window of a third's frame. -/
theorem test_witness_CopiesStayEqual :
    let f : Frame := ⟨3, 50, .cell .add 9 1 0⟩
    let a := memberOf (quietView 50) 7
    let b := memberOf (quietView 50) 12
    JudgingOther (judgedOther f true a) packaging (windowOf f a) ∧ JudgingOther (judgedOther f true b) packaging (windowOf f b) ∧
      (judgedOther f true a).frame = (judgedOther f true b).frame ∧ (windowOf f a).vu.view = (windowOf f b).vu.view ∧
      (windowOf f a).vu.standing = .live ∧ (windowOf f a).tu.cells = (windowOf f b).tu.cells ∧
      (after (.add packaging) (windowOf f a)).vu.station = .member ∧
      (after (.add packaging) (windowOf f b)).vu.station = .member :=
  ⟨judgingOther_of _ _ _ (by decide) rfl (by decide), judgingOther_of _ _ _ (by decide) rfl (by decide), rfl, rfl, by decide,
    rfl, by decide, by decide⟩

theorem test_witness_CheckFindsOneBit : 17 < (coveredBits ⟨20, 0, .join⟩).length := by decide

end Sys2Proof.Machine
end

section
/-! SUPPORT. The laws of one station over every step: each command's meaning is one operation that `Coherent` already has a lemma
for, put behind the test whether the part is held. -/

namespace Sys2Proof.Machine

variable {s : State}

/-! ## Commands behind the held test -/

/-- An event of the line or of a timer keeps the laws when its operation does. -/
theorem Coherent.onLine (h : Coherent s) {f : State → State} (hf : held s = false → Coherent (f s)) :
    Coherent (onLine f s) := by
  unfold Machine.onLine
  split
  · exact h
  · rename_i hh; exact hf (by simpa using hh)

/-- A host write keeps the laws when its operation does. -/
theorem Coherent.hostWrite (h : Coherent s) {f : State → State} (hf : held s = false → Coherent (f s)) :
    Coherent (hostWrite f s) := by
  unfold Machine.hostWrite
  split
  · exact h
  · rename_i hh; exact hf (by simpa using hh)

/-! ## Operations of the host port -/

/-- Two states alike in all that the laws of one station look at. -/
def SameStation (s t : State) : Prop :=
  t.power = s.power ∧ t.rst = s.rst ∧ t.vu = s.vu ∧ t.tu = s.tu ∧ t.lu = s.lu ∧ t.su = s.su ∧ t.hp.straps = s.hp.straps

/-- An operation that touches only QU, WU, HP's latches and the data pins keeps the laws. -/
theorem Coherent.of_same {t : State} (h : Coherent s) (ht : SameStation s t) : Coherent t := by
  obtain ⟨hpower, hrst, hvu, htu, hlu, hsu, hstraps⟩ := ht
  exact h.congr hpower hrst hvu htu hlu hsu hstraps

/-- A host read keeps the laws when its operation does. -/
theorem Coherent.hostRead (h : Coherent s) {f : State → State} (hf : Coherent (f s)) : Coherent (hostRead f s) := by
  have hanswer (x : PortByte) : Coherent (answer x s) := h.of_same (by simp [SameStation])
  unfold Machine.hostRead
  split
  · exact hanswer _
  · split
    · exact hanswer _
    · exact hf

/-- A byte of a command sequence written by itself (R161). -/
theorem Coherent.partialByte (h : Coherent s) (hf : held s = false) (port : PartialPort) (b : Byte) :
    Coherent (partialByte port b s) := by
  cases port with
  | watch => exact h.of_same (by simp [SameStation, Machine.partialByte])
  | control => exact h.controlWrite hf b

/-! ## Resets -/

/-- Every block at its power-on values, whatever the supply is set to (R116, R168). -/
theorem coherent_powerOnValues (p : Power) : Coherent ((powerOnValues s).setPower p) :=
  coherent_of_reset rfl rfl rfl (.inl ⟨rfl, rfl, rfl⟩) rfl

/-- RST keeps the standing RETAINED, or leaves NONE with no retained epoch and the table cleared (R7, R9, R10). -/
theorem standingAtRst_cases (s : State) :
    (standingAtRst s = (.none, 0) ∧ tableAtRst s = .powerOn) ∨
      ((standingAtRst s).1 = .retained ∧ tableAtRst s = { s.tu with known := 0 }) := by
  by_cases hr : (standingAtRst s).1 = .retained
  · exact .inr ⟨hr, by simp [tableAtRst, hr]⟩
  · refine .inl ⟨?_, by simp [tableAtRst, hr]⟩
    unfold standingAtRst at hr ⊢
    split_ifs at hr ⊢ <;> simp_all

/-- An RST leaves a coherent station; one asserted while the part is held changes the pin alone (R116, R167). -/
theorem Coherent.assertRst (h : Coherent s) : Coherent (assertRst s) := by
  unfold Machine.assertRst
  split
  · rename_i hh; exact h.release hh rfl rfl rfl (.inl rfl)
  · refine coherent_of_reset rfl rfl rfl ?_ ?_
    · rcases standingAtRst_cases s with ⟨hst, htu⟩ | ⟨hst, -⟩
      · exact .inl (by simp [rstValues, hst, htu, Vu.afterReset])
      · exact .inr hst
    · rcases standingAtRst_cases s with ⟨-, htu⟩ | ⟨-, htu⟩ <;> simp [rstValues, htu, Tu.powerOn]

/-- The end of the power-on hold, at which the part was held (R168). -/
theorem Coherent.endHold (h : Coherent s) (straps : Straps) : Coherent (endHold straps s) := by
  unfold Machine.endHold
  split
  · rename_i hp
    have hh : held s = true := by simp [held, hp]
    split
    · exact h.release hh rfl rfl rfl (.inl rfl)
    · exact h.release hh rfl rfl rfl (.inr rfl)
  · exact h

/-- The release of RST, under which the part was held (R167). -/
theorem Coherent.releaseRst (h : Coherent s) (straps : Straps) : Coherent (releaseRst straps s) := by
  unfold Machine.releaseRst
  split
  · rename_i hr
    have hh : held s = true := by simp [held, hr]
    split
    · exact h.release hh rfl rfl rfl (.inr rfl)
    · exact h.release hh rfl rfl rfl (.inl rfl)
  · exact h

/-! ## Every command -/

/-- Every command completes and keeps the laws. -/
theorem Coherent.exec (h : Coherent s) (c : Instr) : ∃ t, exec c s = .next t ∧ Coherent t := by
  cases c
  case powerOn | powerLoss => exact ⟨_, rfl, coherent_powerOnValues _⟩
  case powerOnHoldEnd straps => exact ⟨_, rfl, h.endHold straps⟩
  case rstAssert => exact ⟨_, rfl, h.assertRst⟩
  case rstRelease straps => exact ⟨_, rfl, h.releaseRst straps⟩
  case requestWrite data => exact ⟨_, rfl, h.hostWrite fun hf => h.requestByte hf data⟩
  case sequenceRestart | cellIndexWrite | arm | disarm | watchBadFirstByte =>
    exact ⟨_, rfl, h.hostWrite fun _ => h.of_same (by simp [SameStation])⟩
  case requestRead | completionRead | cellRead | watchRead | noticeRead | viewRead | controlRead =>
    exact ⟨_, rfl, h.hostRead (h.of_same (by simp [SameStation]))⟩
  case statusRead => exact ⟨_, rfl, h.hostRead h.readStatus⟩
  case start | halt | leaveCommand | cancel | mask => exact ⟨_, rfl, h.hostWrite fun hf => h.controlCommand hf _⟩
  case controlBadFirstByte data => exact ⟨_, rfl, h.hostWrite fun hf => h.controlWrite hf data⟩
  case partialSequenceWrite port data => exact ⟨_, rfl, h.hostWrite fun hf => h.partialByte hf port data⟩
  case lineIdle => exact ⟨_, rfl, h.onLine h.lineIdle⟩
  case frameStart => exact ⟨_, rfl, h.onLine h.startOffered⟩
  case lostArbitration => exact ⟨_, rfl, h.onLine h.loseArbitration⟩
  case readBackFault slot inData level => exact ⟨_, rfl, h.onLine fun hf => h.readBackFault hf slot inData level⟩
  case frameCheckEnd bits => exact ⟨_, rfl, h.onLine fun hf => h.frameCheck hf bits⟩
  case frameLost cause => exact ⟨_, rfl, h.onLine fun hf => h.frameLost hf cause⟩
  case windowFault slot inData => exact ⟨_, rfl, h.onLine fun hf => h.windowFault hf slot inData⟩
  case lineStuck slot inData => exact ⟨_, rfl, h.onLine fun hf => h.lineSticks hf slot inData⟩
  case lineStuckEnd => exact ⟨_, rfl, h.onLine h.stuckEnds⟩
  case deferredClear => exact ⟨_, rfl, h.onLine h.deferredClear⟩
  case probeWaitExpiry => exact ⟨_, rfl, h.onLine h.probeExpires⟩
  case admitWaitExpiry => exact ⟨_, rfl, h.onLine h.admitExpires⟩
  case stallWaitExpiry => exact ⟨_, rfl, h.onLine h.stallExpires⟩
  case anotherStationStartBit => exact ⟨_, rfl, h.onLine h.otherStarts⟩
  all_goals exact ⟨_, rfl, h.onLine fun hf => h.windowEndOf hf _ _⟩

/-- Settles O54: a step is a bit time or a command, and each of them keeps the laws. -/
theorem stepKeepsCoherence : Obligations.StepKeepsCoherence := by
  unfold Obligations.StepKeepsCoherence
  intro s t h hstep
  unfold step at hstep
  split at hstep
  · cases hstep; exact h.tick
  · rename_i c rest _
    have hrest : Coherent (s.setPending rest) := h
    obtain ⟨u, hexec, hu⟩ := hrest.exec c
    rw [hexec] at hstep
    cases hstep; exact hu

end Sys2Proof.Machine
end

section
/-! SUPPORT. The codes and bytes of the host port, bit by bit and number by number (R170, R171), and the layouts of the three
records that are read at it. -/

namespace Sys2Proof.Machine

/-! ## Codes and bits -/

theorem endingCode_toNat (e : Ending) : (endingCode e).toNat = match e with
    | .done => 1 | .unequal => 2 | .held => 3 | .notHeld => 4 | .cancelled => 5 | .failed => 6 | .withdrawn => 7 := by
  cases e <;> rfl

theorem standingCode_toNat (x : Standing) : (standingCode x).toNat = match x with
    | .none => 1 | .retained => 2 | .pending => 3 | .live => 4 := by
  cases x <;> rfl

theorem stationCode_toNat (x : StationState) : (stationCode x).toNat = match x with
    | .halted => 0 | .listening => 1 | .admitting => 2 | .joining => 3 | .member => 4 := by
  cases x <;> rfl

/-- A station number, or 63 for none (R170). -/
theorem holderByte_toNat (x : Option Station) : (holderByte x).toNat = match x with | some n => n.toNat | none => 63 := by
  cases x with
  | none => rfl
  | some n => have := n.isLt; simp [holderByte]; omega

/-- The operation code, with WAIT in bit 7. -/
theorem operationByte_toNat (op : CellOp) (wait : Bool) :
    (operationByte op wait).toNat = opCode op + if wait then 128 else 0 := by
  cases op <;> cases wait <;> rfl

/-- A half split into its bytes is those bytes together, high byte first. -/
theorem highByte_append_lowByte (x : Half) : highByte x ++ lowByte x = x := by
  apply BitVec.eq_of_getLsbD_eq
  intro i hi
  simp only [highByte, lowByte, BitVec.getLsbD_append, BitVec.getLsbD_extractLsb']
  by_cases h : i < 8
  · simp [h]
  · have e : 8 + (i - 8) = i := by omega
    have h8 : i - 8 < 8 := by omega
    simp [h, e, h8]

/-- The one bit that `bitByte` sets. -/
theorem getElem_bitByte (b : Bool) {i k : Nat} (hi : i < 8) (hk : k < 8) : (bitByte b i)[k] = (b && decide (k = i)) := by
  cases b
  · simp [bitByte]
  · rcases Nat.lt_trichotomy k i with h | rfl | h
    · have : k ≠ i := by omega
      simp [bitByte, h, this]
    · simp [bitByte]
    · have : ¬k < i ∧ k ≠ i ∧ k - i ≠ 0 := by omega
      simp [bitByte, this]

/-- C, Z, S and V in bits 3 to 0. -/
theorem flagsByte_bits (f : Flags) :
    (flagsByte f).getLsbD 3 = f.c ∧ (flagsByte f).getLsbD 2 = f.z ∧ (flagsByte f).getLsbD 1 = f.s ∧
      (flagsByte f).getLsbD 0 = f.v := by
  obtain ⟨c, z, s, v⟩ := f
  revert c z s v; decide

/-- A number that a byte holds is read back from it. -/
theorem byteOf_toNat {n : Nat} (h : n < 256) : (BitVec.ofNat 8 n).toNat = n := by
  simpa using Nat.mod_eq_of_lt h

/-- The low `k` bits of a byte, as a number. -/
theorem toNat_mod_of_low_bits {k : Nat} {x : Byte} {y : BitVec k} (h : ∀ i, i < k → x.getLsbD i = y.getLsbD i) :
    x.toNat % 2 ^ k = y.toNat := by
  have e : x.setWidth k = y := by
    apply BitVec.eq_of_getLsbD_eq
    intro i hi
    rw [BitVec.getLsbD_setWidth, h i hi]
    simp [hi]
  rw [← e, BitVec.toNat_setWidth]

/-! ## The bytes that carry several fields -/

/-- The flags byte of a completion record: the flags in bits 3 to 0 and the late-cancel mark in bit 7. -/
theorem lateFlags_bits (f : Flags) (late : Bool) :
    let x := flagsByte f ||| bitByte late 7
    x.getLsbD 3 = f.c ∧ x.getLsbD 2 = f.z ∧ x.getLsbD 1 = f.s ∧ x.getLsbD 0 = f.v ∧ x.getLsbD 7 = late := by
  obtain ⟨c, z, s, v⟩ := f
  revert c z s v late; decide

/-- The first byte of a snapshot: the standing's code in bits 2 to 0 and the known mark in bit 7. -/
theorem standingKnown_bits (x : Standing) (known : Bool) :
    (standingCode x ||| bitByte known 7).toNat % 8 = (standingCode x).toNat ∧
      (standingCode x ||| bitByte known 7).getLsbD 7 = known := by
  cases x <;> cases known <;> decide

/-- The straps byte: the bit rate in bits 1 and 0 and FP in bit 7. -/
theorem strapsByte_bits (br : BitVec 2) (fp : Bool) :
    (br.zeroExtend 8 ||| bitByte fp 7).toNat % 4 = br.toNat ∧ (br.zeroExtend 8 ||| bitByte fp 7).getLsbD 7 = fp := by
  revert br fp; decide

/-- The FOREIGN byte: the flag in bit 7 and the station number in bits 4 to 0. -/
theorem foreignByte_bits (x : Option Station) :
    (foreignByte x).getLsbD 7 = x.isSome ∧ (foreignByte x).toNat % 32 = (x.map (·.toNat)).getD 0 := by
  cases x with
  | none => decide
  | some n => revert n; decide

/-- The seventh byte of STATUS: the unanswered count in bits 1 and 0 and six indications above it. -/
theorem statusBits_bits (x : Status) :
    (x.unanswered ≤ 3 → (statusBits x).toNat % 4 = x.unanswered) ∧ (statusBits x).getLsbD 2 = x.leavePending ∧
      (statusBits x).getLsbD 3 = x.leaveHeld ∧ (statusBits x).getLsbD 4 = x.deferred ∧
      (statusBits x).getLsbD 5 = x.stuck ∧ (statusBits x).getLsbD 6 = x.statePending ∧
      (statusBits x).getLsbD 7 = x.linePending := by
  refine ⟨fun hu => ?_, ?_⟩
  · have low : (statusBits x).toNat % 2 ^ 2 = (BitVec.ofNat 2 x.unanswered).toNat := by
      refine toNat_mod_of_low_bits fun i hi => ?_
      have : i = 0 ∨ i = 1 := by omega
      rcases this with rfl | rfl <;> simp [statusBits, getElem_bitByte]
    rwa [BitVec.toNat_ofNat, Nat.mod_eq_of_lt (a := x.unanswered) (by omega)] at low
  · simp [statusBits, getElem_bitByte]

/-! ## The layouts -/

/-- Which bits of the bytes of a completion record are given (R171). -/
theorem completionBytes_given (c : Completion) (i : Nat) (h : i < 11) :
    (byteAt (completionBytes c) i).given = if i = 8 then 0x8F else 0xFF := by
  interval_cases i <;> rfl

/-- Which bits of the bytes of STATUS are given (R171). -/
theorem statusBytes_given (x : Status) (i : Nat) (h : i < 12) :
    (byteAt (statusBytes x) i).given = if i = 5 then 0x83 else if i = 7 then 0x9F else 0xFF := by
  interval_cases i <;> rfl

/-- Which bits of the bytes of a cell snapshot are given (R171). -/
theorem snapshotBytes_given (x : Snapshot) (i : Nat) (h : i < 7) :
    (byteAt (snapshotBytes x) i).given = if i = 0 then 0x87 else if i = 5 then 0x0F else 0xFF := by
  interval_cases i <;> rfl

/-- Settles O13, byte by byte from the codes and the bits above. -/
theorem readLayouts : Obligations.ReadLayouts := by
  unfold Obligations.ReadLayouts
  refine ⟨fun c => ?_, fun x => ?_, fun x => ?_⟩
  · obtain ⟨hc, hz, hs, hv, hlate⟩ := lateFlags_bits c.flags c.late
    have hcell : (c.cell.zeroExtend 8).toNat = c.cell.toNat := by
      have := c.cell.isLt; simp; omega
    exact ⟨rfl, endingCode_toNat _, rfl, operationByte_toNat _ _, hcell, highByte_append_lowByte _, holderByte_toNat _, rfl,
      hc, hz, hs, hv, hlate, fun h => byteOf_toNat (by omega), rfl, completionBytes_given c⟩
  · obtain ⟨hun, hpending, hheld, hdef, hstuck, hstate, hline⟩ := statusBits_bits x
    obtain ⟨hbr, hfp⟩ := strapsByte_bits x.straps.br x.straps.fp
    obtain ⟨hflag, hforeign⟩ := foreignByte_bits x.foreign
    have hsn : (x.straps.sn.zeroExtend 8).toNat = x.straps.sn.toNat := by
      have := x.straps.sn.isLt; simp; omega
    exact ⟨rfl, stationCode_toNat _, standingCode_toNat _, rfl, rfl, hsn, hbr, hfp, hun, hpending, hheld, hdef, hstuck, hstate,
      hline, hflag, hforeign, fun h => byteOf_toNat (by omega), fun h => byteOf_toNat (by omega),
      fun h => byteOf_toNat (by omega), fun h => byteOf_toNat (by omega), statusBytes_given x⟩
  · obtain ⟨hstanding, hknown⟩ := standingKnown_bits x.standing x.known
    obtain ⟨hc, hz, hs, hv⟩ := flagsByte_bits x.record.flags
    have given := snapshotBytes_given x
    refine ⟨rfl, hstanding.trans (standingCode_toNat _), hknown, highByte_append_lowByte _, holderByte_toNat _, rfl, hc, hz, hs,
      hv, holderByte_toNat _, rfl, rfl, fun i h0 h5 hi => ?_⟩
    rw [given i hi, if_neg h0, if_neg h5]

end Sys2Proof.Machine
end

section
/-! SUPPORT. The frame codec (R14, R49, R50, section 11.1): a field is read back where it was sent, and so are a cell image, a body
and a whole frame. -/

namespace Sys2Proof.Machine

/-! ## One field -/

@[simp] theorem fieldBits_length {n : Nat} (x : BitVec n) : (fieldBits x).length = n := by simp [fieldBits]

/-- The low `m` bits of a field, sent most significant first, shift what was read before them by `m` places. -/
theorem foldl_low_bits {n : Nat} (x : BitVec n) (m acc : Nat) :
    ((List.range m).reverse.map x.getLsbD).foldl (fun acc b => 2 * acc + b.toNat) acc
      = acc * 2 ^ m + x.toNat % 2 ^ m := by
  induction m generalizing acc with
  | zero => simp [Nat.mod_one]
  | succ m ih =>
    rw [List.range_succ, List.reverse_append, List.reverse_singleton, List.singleton_append, List.map_cons, List.foldl_cons,
      ih, Nat.mod_pow_succ, BitVec.getLsbD, Nat.toNat_testBit, Nat.pow_succ]
    ring

/-- The bits of a field spell its number. -/
theorem bitsToNat_fieldBits {n : Nat} (x : BitVec n) : bitsToNat (fieldBits x) = x.toNat := by
  unfold bitsToNat fieldBits
  rw [foldl_low_bits, Nat.zero_mul, Nat.zero_add, Nat.mod_eq_of_lt x.isLt]

/-- A field is read where its bits begin. -/
theorem field_of_drop {n : Nat} {x : BitVec n} {bits rest : List Bool} {pos : Nat}
    (h : bits.drop (pos - 1) = fieldBits x ++ rest) : field bits pos n = x := by
  unfold field
  rw [h, List.take_left' (fieldBits_length x), bitsToNat_fieldBits, BitVec.ofNat_toNat, BitVec.setWidth_eq]

theorem field_here {n : Nat} (x : BitVec n) (rest : List Bool) : field (fieldBits x ++ rest) 1 n = x :=
  field_of_drop rfl

/-- A field that lies past another is read from what follows that one. -/
theorem field_skip {m : Nat} (y : BitVec m) (rest : List Bool) {pos : Nat} (n : Nat) (h : m < pos) :
    field (fieldBits y ++ rest) pos n = field rest (pos - m) n := by
  unfold field
  have e : pos - 1 = m + (pos - m - 1) := by omega
  rw [e, List.drop_append, fieldBits_length, List.drop_eq_nil_of_le (by simp), Nat.add_sub_cancel_left, List.nil_append]

theorem field_skip_bit (b : Bool) (rest : List Bool) {pos : Nat} (n : Nat) (h : 1 < pos) :
    field (b :: rest) pos n = field rest (pos - 1) n := by
  unfold field
  have e : pos - 1 = (pos - 1 - 1) + 1 := by omega
  rw [e, List.drop_succ_cons, ← e]

/-- One bit, read as a flag. -/
theorem field_bit (b : Bool) (rest : List Bool) : (field (b :: rest) 1 1 == 1) = b := by
  cases b <;> rfl

/-- A field at a distance from a place is read from what begins there. -/
theorem field_drop (bits : List Bool) (pos k n : Nat) (h : 0 < pos) :
    field bits (pos + k) n = field (bits.drop (pos - 1)) (k + 1) n := by
  unfold field
  rw [List.drop_drop]
  congr 4
  omega

/-! ## A cell image -/

/-- The code of a holder or writer is read back (R14). -/
theorem holderOfCode_holderCode (x : Option Station) : holderOfCode (holderCode x) = x := by
  cases x with
  | none => rfl
  | some n => revert n; decide

@[simp] theorem imageBits_length (r : Cell) : (imageBits r).length = 40 := by simp [imageBits]

/-- A record is read back where its image begins (R14). -/
theorem imageAt_of_drop {bits rest : List Bool} {pos : Nat} {r : Cell} (hpos : 0 < pos)
    (h : bits.drop (pos - 1) = imageBits r ++ rest) : imageAt bits pos = r := by
  have part : ∀ k n, field bits (pos + k) n = field (imageBits r ++ rest) (k + 1) n := fun k n => by
    rw [field_drop bits pos k n hpos, h]
  have value : field bits pos 16 = field (imageBits r ++ rest) 1 16 := part 0 16
  obtain ⟨v, holder, version, flags, writer⟩ := r
  unfold imageAt
  simp only [value, part, imageBits, List.append_assoc, List.cons_append, List.nil_append]
  simp (disch := omega) only [field_here, field_skip, field_skip_bit, field_bit, holderOfCode_holderCode, Nat.reduceAdd,
    Nat.reduceSub]

/-- Image `j` of a sequence of images begins 40 bits after the one before it. -/
theorem drop_images (l : List Cell) (rest : List Bool) (j : Nat) (hj : j < l.length) :
    ∃ more, ((l.map imageBits).flatten ++ rest).drop (40 * j) = imageBits l[j] ++ more := by
  induction l generalizing j with
  | nil => simp at hj
  | cons r l ih =>
    cases j with
    | zero => exact ⟨(l.map imageBits).flatten ++ rest, by simp⟩
    | succ j =>
      obtain ⟨more, h⟩ := ih j (by simpa using hj)
      refine ⟨more, ?_⟩
      have e : 40 * (j + 1) = (imageBits r).length + 40 * j := by simp; omega
      rw [List.map_cons, List.flatten_cons, List.append_assoc, e, List.drop_length_add_append, h]
      rfl

/-! ## A body -/

theorem opOfCode_opCode (op : CellOp) : opOfCode (opCode op) = some op := by cases op <;> rfl

theorem opCode_range (op : CellOp) : 1 ≤ opCode op ∧ opCode op ≤ 13 := by cases op <;> decide

theorem kindCode_lt (b : Body) : kindCode b < 16 := by
  cases b with
  | cell op => have := (opCode_range op).2; simp only [kindCode]; omega
  | _ => simp [kindCode]

/-- The kind of a body has the length of its bits (R49). -/
theorem bodyLength_kindCode (b : Body) : bodyLength (classOne b) (kindCode b) = some (bodyBits b).length := by
  cases b with
  | cell op => simp [bodyLength, classOne, kindCode, bodyBits, opCode_range op]
  | transfer k images => simp [bodyLength, classOne, kindCode, bodyBits, List.length_flatten, Function.comp_def]
  | _ => simp [bodyLength, classOne, kindCode, bodyBits]

/-- The body is read back from the bits that follow a frame's head (section 11.1). -/
theorem bodyAt_of_drop {bits rest : List Bool} (b : Body) (h : bits.drop 18 = bodyBits b ++ rest) :
    bodyAt bits (classOne b) (kindCode b) = some b := by
  have part : ∀ k n, field bits (19 + k) n = field (bodyBits b ++ rest) (k + 1) n := fun k n => by
    rw [field_drop bits 19 k n (by decide), h]
  cases b with
  | found r =>
    have flag : (field bits 19 1 == 1) = r := (congrArg (· == 1) (part 0 1)).trans (field_bit r rest)
    exact congrArg (fun x => some (Body.found x)) flag
  | join | leave => rfl
  | drop m => simp [bodyAt, classOne, kindCode, part 0, bodyBits, field_here]
  | roster full joiners cursor remaining =>
    simp only [bodyAt, classOne, kindCode, part 0, part 32, part 64, part 68, bodyBits, List.append_assoc]
    simp (disch := omega) [field_here, field_skip]
  | cell op c a b =>
    simp only [bodyAt, classOne, kindCode, opOfCode_opCode, part 0, part 7, part 23, bodyBits, List.append_assoc]
    simp (disch := omega) [field_here, field_skip]
  | transfer k images =>
    have image : ∀ j : Fin 8, imageAt bits (23 + 40 * j.val) = images[j] := fun j => by
      obtain ⟨more, hm⟩ := drop_images images.toList rest j.val (by simp)
      refine imageAt_of_drop (rest := more) (by omega) ?_
      have e : 23 + 40 * j.val - 1 = 18 + ((fieldBits k).length + 40 * j.val) := by simp; omega
      rw [e, ← List.drop_drop, h, bodyBits, List.append_assoc, List.drop_length_add_append, hm]
      simp
    have chunk : field bits 19 4 = k := by
      rw [show (19 : Nat) = 19 + 0 from rfl, part 0, bodyBits, List.append_assoc, field_here]
    have bankEq : (bank 8 fun j => imageAt bits (23 + 40 * j.val)) = images := by
      apply Vector.ext
      intro i hi
      rw [bank_getElem, image]
      rfl
    simp [bodyAt, classOne, kindCode, opOfCode, chunk, bankEq]

/-! ## A frame -/

/-- What a frame's head is read as: its class, originator, kind and epoch (R49). -/
theorem head_fields (f : Frame) (rest : List Bool) :
    (field (coveredBits f ++ rest) 1 1 == 1) = classOne f.body ∧ field (coveredBits f ++ rest) 2 5 = f.orig ∧
      (field (coveredBits f ++ rest) 7 4).toNat = kindCode f.body ∧ field (coveredBits f ++ rest) 11 8 = f.epoch := by
  have hk := kindCode_lt f.body
  simp only [coveredBits, List.append_assoc, List.cons_append, List.nil_append]
  simp (disch := omega) only [field_here, field_skip, field_skip_bit, field_bit, Nat.reduceSub]
  simpa using hk

/-- Where a frame's head ends (R49). -/
theorem coveredBits_drop (f : Frame) (rest : List Bool) : (coveredBits f ++ rest).drop 18 = bodyBits f.body ++ rest := by
  have e : coveredBits f ++ rest = ([classOne f.body] ++ fieldBits f.orig ++ fieldBits (BitVec.ofNat 4 (kindCode f.body))
      ++ fieldBits f.epoch) ++ (bodyBits f.body ++ rest) := by simp [coveredBits]
  rw [e, List.drop_left' (by simp)]

theorem coveredBits_length (f : Frame) : (coveredBits f).length = headLength + (bodyBits f.body).length := by
  simp [coveredBits, headLength]; omega

/-- Settles O58: head, body and check are each read back from their places in the frame's bits. -/
theorem frameRoundTrip : Obligations.FrameRoundTrip := by
  unfold Obligations.FrameRoundTrip
  intro f
  have hlen := coveredBits_length f
  obtain ⟨hclass, horig, hkind, hepoch⟩ := head_fields f (fieldBits (checkOf (coveredBits f)))
  have hbody := bodyAt_of_drop f.body (coveredBits_drop f (fieldBits (checkOf (coveredBits f))))
  have htake : (encodeFrame f).take (headLength + (bodyBits f.body).length) = coveredBits f := by
    rw [encodeFrame, List.take_left' hlen]
  have hcheck : field (encodeFrame f) (headLength + (bodyBits f.body).length + 1) 16 = checkOf (coveredBits f) := by
    refine field_of_drop (rest := []) ?_
    rw [encodeFrame, Nat.add_sub_cancel, List.drop_left' hlen, List.append_nil]
  have htotal : (encodeFrame f).length = headLength + (bodyBits f.body).length + 16 := by
    simp [encodeFrame, hlen]
  rw [← encodeFrame] at hclass horig hkind hepoch hbody
  simp only [decodeFrame, hclass, hkind, horig, hepoch, hbody, bodyLength_kindCode, htotal, htake, hcheck, if_true,
    beq_self_eq_true]

end Sys2Proof.Machine
end

section
/-! SUPPORT. The reset values and the table over the resets (R1, R10), the CELL port (R19) and the laws of one application (R21 to
R23). -/

namespace Sys2Proof.Machine

variable {s : State}

/-! ## Reset values -/

/-- A table of records at power-on values shows one in every cell. -/
theorem cellAt_of_powerOn (h : s.tu.cells = Tu.powerOn.cells) (c : CellNo) : cellAt s c = Cell.powerOn := by
  simp [cellAt, h, Tu.powerOn]

/-- Settles O3: the values are those of the definition of the state after reset. -/
theorem resetStateValues : Obligations.ResetStateValues := by
  have hcells : ∀ c, cellAt State.reset c = ⟨0, none, 0, ⟨false, false, false, false⟩, none⟩ := cellAt_of_powerOn rfl
  have hwatches : ∀ i, (watchAt State.reset i).state = .free := by decide
  exact ⟨rfl, rfl, rfl, rfl, rfl, rfl, rfl, rfl, rfl, rfl, rfl, rfl, rfl, rfl, rfl, rfl, hcells, rfl, rfl, rfl, rfl, rfl, rfl, rfl,
    rfl, rfl, rfl, rfl, rfl, rfl, rfl, rfl, rfl, rfl, rfl, rfl, rfl, rfl, rfl, rfl, hwatches, rfl, rfl, rfl, rfl, rfl, rfl, rfl,
    rfl, rfl, rfl, rfl, rfl, rfl, rfl, rfl⟩

/-! ## The table over a reset -/

/-- A HALT with no byte of CONTROL kept is the halt of the station, answered TAKEN (R115, R165). -/
theorem exec_halt (hf : held s = false) (hk : s.hp.controlBytes = []) :
    exec .halt s = .next (controlResult .taken (haltStation s)) := by
  have hcommand : controlCommand [0x02] s = controlResult .taken (haltStation s) := by
    simp [controlCommand, bytesToWrite, hk, controlWrite, controlFirst, takeHalt]
  simp only [exec, execHalt, hostWrite, hf, hcommand, Bool.false_eq_true, if_false]

/-- What a halt leaves of VU and TU is what the standing at a HALT says, with the station HALTED and no frame under judgement
(R7, R115). -/
theorem haltStation_standing (hs : s.vu.station ≠ .halted) :
    (haltStation s).vu.station = .halted ∧ (haltStation s).vu.judged = none ∧
      (haltStation s).tu = (haltStanding (leaveQueues s)).tu ∧
      (haltStation s).vu.standing = (haltStanding (leaveQueues s)).vu.standing ∧
      (haltStation s).vu.retainedEpoch = (haltStanding (leaveQueues s)).vu.retainedEpoch := by
  simp [haltStation, hs]

/-- Settles O5: power-on clears, RST goes by `standingAtRst_cases`, and HALT by the standing of each station state. -/
theorem resetsAndTheTable : Obligations.ResetsAndTheTable := by
  unfold Obligations.ResetsAndTheTable
  refine ⟨fun s => ?_, fun s hf => ?_, fun s hf hl hk => ?_⟩
  · exact ⟨_, rfl, cellAt_of_powerOn rfl, rfl, rfl, rfl, rfl⟩
  · have he : assertRst s = (rstValues s).setRst true := by simp [assertRst, hf]
    refine ⟨_, congrArg Host.Outcome.next he, rfl, ?_, rfl, rfl, rfl, fun hm => ?_, fun hm hr => ?_, fun hm hr => ?_⟩
    · rcases standingAtRst_cases s with ⟨-, htu⟩ | ⟨-, htu⟩ <;> simp [rstValues, htu, Tu.powerOn]
    · simp [rstValues, tableAtRst, standingAtRst, hm, Vu.afterReset]
    · simp [rstValues, tableAtRst, standingAtRst, hm, hr, Vu.afterReset]
    · have hst : standingAtRst s = (.none, 0) := by simp [standingAtRst, hm, hr]
      exact ⟨cellAt_of_powerOn (by simp [rstValues, tableAtRst, hst]), by simp [rstValues, hst, Vu.afterReset]⟩
  · obtain ⟨hlive, hpending, hknown, -, -, -⟩ := hl
    refine ⟨_, exec_halt hf hk, ?_⟩
    simp only [controlResult_frame, cellAt]
    cases hs : s.vu.station
    case halted =>
      have : s.vu.standing ≠ .pending := fun e => by simp [hpending.2 e] at hs
      simp [haltStation_halted s hs, hs, hknown this]
    case listening =>
      have : s.vu.standing ≠ .pending := fun e => by simp [hpending.2 e] at hs
      obtain ⟨h1, h2, h3, h4, h5⟩ := haltStation_standing (s := s) (by simp [hs])
      simp [h1, h2, h3, h4, h5, haltStanding, hs, hknown this]
    case member =>
      have : s.vu.standing ≠ .pending := by simp [hlive.1 hs]
      obtain ⟨h1, h2, h3, h4, h5⟩ := haltStation_standing (s := s) (by simp [hs])
      simp [h1, h2, h3, h4, h5, haltStanding, hs, hknown this]
    all_goals
      obtain ⟨h1, h2, h3, h4, h5⟩ := haltStation_standing (s := s) (by simp [hs])
      simp [h1, h2, h3, h4, h5, haltStanding, hs, Tu.powerOn]

/-! ## The CELL port -/

/-- While the part is not held, a read is its operation. -/
theorem hostRead_free (hf : held s = false) (f : State → State) : hostRead f s = f s := by
  have hp : s.power ≠ .off := fun e => by simp [held, e] at hf
  simp [hostRead, hp, hf]

/-- The bits that the layout gives are driven as it gives them (R170, R171). -/
theorem answer_given (x : PortByte) (s : State) : (answer x s).hostData &&& x.given = x.value &&& x.given := by
  unfold answer
  split
  · rfl
  · apply BitVec.eq_of_getLsbD_eq
    intro i _
    simp only [State.setFreeCount_hostData, State.setHostData_hostData, BitVec.getLsbD_and, BitVec.getLsbD_or,
      BitVec.getLsbD_not]
    cases x.given.getLsbD i <;> simp

/-- Settles O11: the latch by the standing that stands, and the reads from the latch. -/
theorem cellSnapshot : Obligations.CellSnapshot := by
  unfold Obligations.CellSnapshot
  intro s hf
  refine ⟨fun index => ?_, fun hn => ?_, fun x hx => ?_⟩
  · have hw : hostWrite (latchCell index) s = latchCell index s := by simp [hostWrite, hf]
    refine ⟨snapshotOf s (index.truncate 7), congrArg Host.Outcome.next hw, rfl, ?_⟩
    simp only [snapshotOf, chunkKnown, chunkOf_toNat]
    cases s.vu.standing <;> simp
  · have hr : hostRead readCell s = { s with hostData := 0 } := by
      rw [hostRead_free hf]
      simp [readCell, hn, answer, emptyByte, whole, State.setHostData]
    exact congrArg Host.Outcome.next hr
  · have hr : hostRead readCell s
        = answer (byteAt (snapshotBytes x) s.hp.cellPos.val) (s.setHp { s.hp with cellPos := s.hp.cellPos + 1 }) := by
      rw [hostRead_free hf]
      simp [readCell, hx]
    exact ⟨_, congrArg Host.Outcome.next hr, answer_given _ _, by simp⟩

/-! ## The laws of an application -/

/-- What the held check answers: HELD for another holder, NOT-HELD on a free cell where one is needed, and otherwise nothing,
where the cell is free or the originator's own (R22). -/
theorem heldCheck_cases (op : CellOp) (orig : Station) (holder : Option Station) :
    ((∃ h, holder = some h ∧ h ≠ orig) ∧ heldCheck op orig holder = some .held) ∨
      (holder = none ∧ heldCheck op orig holder = some .notHeld) ∨
      ((holder = none ∨ holder = some orig) ∧ heldCheck op orig holder = none) := by
  cases holder with
  | none => cases op <;> simp [heldCheck, needsHolder]
  | some h => by_cases e : h = orig <;> simp [heldCheck, e]

/-- An application that the held check ends leaves the record (R21, R22). -/
theorem applyOp_refused {op : CellOp} {orig : Station} {r : Cell} {o : CellOutcome}
    (h : heldCheck op orig r.holder = some o) (a b : Half) :
    (applyOp op orig a b r).outcome = o ∧ (applyOp op orig a b r).record = r ∧ (applyOp op orig a b r).changed = false := by
  unfold applyOp
  rw [h]
  dsimp only
  split <;> exact ⟨rfl, rfl, rfl⟩

/-- What an operation past the held check does: a refusal UNEQUAL, the holder's own CLAIM, a change of the holder alone by CLAIM or
RELEASE, or a write by the originator, which takes the holder away in RELSTORE alone (R21, R23, R34, R36, R37). -/
theorem opPassed_cases (op : CellOp) (orig : Station) (a b : Half) (r : Cell) :
    let x := opPassed op orig a b r
    (x.outcome = .unequal ∧ x.record = r ∧ x.changed = false) ∨
      (x.outcome = .done ∧ x.record = r ∧ x.changed = false ∧ op = .claim ∧ r.holder ≠ none) ∨
      (x.outcome = .done ∧ x.changed = true ∧ (op = .claim ∨ op = .release) ∧ ∃ h, x.record = writeHolder r h) ∨
      (x.outcome = .done ∧ x.changed = true ∧ op ≠ .claim ∧ op ≠ .release ∧ x.record.writer = some orig ∧
        x.record.version = r.version + 1 ∧ (x.record.holder ≠ r.holder → op = .relstore)) := by
  cases op
  case cas | step => by_cases e : r.value = a <;> simp [opPassed, opCas, opStep, e, withCompare, refuse, doneWith, writeValue]
  case claim => cases h : r.holder <;> simp [opPassed, opClaim, h, doneWith]
  all_goals
    simp [opPassed, opStore, opAdd, opAnd, opOr, opXor, opBitset, opBitclr, opBitflip, opRelease, opRelstore, doneWith,
      writeValue]

/-- One version step (R4). -/
theorem version_succ (v : Byte) : (v + 1).toNat = (v.toNat + 1) % 256 := by
  simp [BitVec.toNat_add]

/-- Settles O37, by what the held check and the operation past it can do. -/
theorem applicationLaws : Obligations.ApplicationLaws := by
  unfold Obligations.ApplicationLaws
  intro op orig a b r
  rcases heldCheck_cases op orig r.holder with ⟨hother, hc⟩ | ⟨hfree, hc⟩ | ⟨hfree, hc⟩
  · obtain ⟨ho, hr, hch⟩ := applyOp_refused hc a b
    simp [ho, hr, hch, hother]
  · obtain ⟨ho, hr, hch⟩ := applyOp_refused hc a b
    simp [ho, hr, hch, hfree]
  · have hx : applyOp op orig a b r = opPassed op orig a b r := by unfold applyOp; rw [hc]
    have hown : ¬∃ h, r.holder = some h ∧ h ≠ orig := by
      rintro ⟨h, he, hne⟩
      rcases hfree with e | e <;> simp_all
    have hp := opPassed_cases op orig a b r
    simp only [hx, hown]
    generalize opPassed op orig a b r = x at hp ⊢
    rcases hp with ⟨ho, hr, hch⟩ | ⟨ho, hr, hch, hop, hheld⟩ | ⟨ho, hch, hop, h, hr⟩ | ⟨ho, hch, hnc, hnr, hw, hv, hrel⟩
    · simp [ho, hr, hch]
    · simp [ho, hr, hch, hop, hfree.resolve_left hheld]
    · have hops : op = .claim ∨ op = .release ∨ op = .relstore := hop.imp_right .inl
      simp only [ho, hr, hch, hops, writeHolder, version_succ]
      simp
    · have hops (h : x.record.holder ≠ r.holder) : op = .claim ∨ op = .release ∨ op = .relstore := .inr (.inr (hrel h))
      simp only [ho, hch, hw, hv, version_succ]
      simpa [hnc, hnr] using hops

end Sys2Proof.Machine
end

section
/-! SUPPORT. The end of a window at a station that judges: which operation a complete frame is, what a cell frame leaves, and what a
TRANSFER leaves (R11, R12, R14, R74, R124, R125). -/

namespace Sys2Proof.Machine

variable {s : State} {j : Judged} {slots : Mask}

/-! ## The window's end of a frame under judgement -/

/-- The end of a window whose kind fits the frame under judgement (R54, R71). -/
theorem windowEndOf_judging {kind : Judged → Bool} (h : Judging j s) (hk : kind j = true) (slots : Mask) :
    onLine (windowEndOf kind slots) s = refresh (disposeFrame j slots (closeWindow s)) := by
  obtain ⟨hf, hm, hj, -⟩ := h
  simp [onLine, hf, windowEndOf, hj, hk, windowEnd, hm]

/-- The command of a cell frame's window ends a window of its operation. -/
theorem exec_cellCommand (op : CellOp) (slots : Mask) (s : State) :
    exec (cellCommand op slots) s = .next (onLine (windowEndOf (cellWindow op) slots) s) := by
  cases op <;> rfl

/-- The end of the window of a cell frame under judgement (R74). -/
theorem exec_cellCommand_judging {op : CellOp} {c : CellNo} {a b : Half} (h : Judging j s)
    (hb : j.frame.body = .cell op c a b) (slots : Mask) :
    exec (cellCommand op slots) s = .next (refresh (disposeFrame j slots (closeWindow s))) := by
  rw [exec_cellCommand, windowEndOf_judging h (by simp [cellWindow, hb])]

/-- The end of the window of a TRANSFER under judgement (R124). -/
theorem exec_transfer_judging {k : BitVec 4} {images : Vector Cell 8} (h : Judging j s)
    (hb : j.frame.body = .transfer k images) (slots : Mask) :
    exec (.transfer slots) s = .next (refresh (disposeFrame j slots (closeWindow s))) :=
  congrArg Host.Outcome.next (windowEndOf_judging h (by simp [transferWindow, hb]) slots)

/-- A complete frame of another station is applied by its kind (R74). -/
theorem disposeFrame_other (h : JudgingOther j slots s) (hv : inView s.vu.station = true) :
    disposeFrame j slots (closeWindow s) = applyFrame j.frame none (closeWindow s) := by
  obtain ⟨⟨-, -, -, hst⟩, hown, ha, hc⟩ := h
  have hc : isComplete j slots (closeWindow s) = true := hc
  have ha : (closeWindow s).su.attempt = none := ha
  simp only [disposeFrame, hst, hown, ha]
  cases hs : s.vu.station <;> simp_all [inView, endOtherWindow]

/-- A complete own frame is applied by its kind, its item completed and its attempt ended (R74, R84). -/
theorem disposeFrame_own {a : Attempt} (h : JudgingOwn j a s) (hc : isComplete j slots s = true)
    (hv : inView s.vu.station = true) : disposeFrame j slots (closeWindow s)
      = applyFrame a.frame (some a.item) (completeItem a.item (endAttempt a (closeWindow s))) := by
  obtain ⟨⟨-, -, -, hst⟩, hown, ha, hframe⟩ := h
  have hc : isComplete j slots (closeWindow s) = true := hc
  have ha : (closeWindow s).su.attempt = some a := ha
  simp only [disposeFrame, hst, hown, ha]
  cases hs : s.vu.station <;> simp_all [inView, endOwnWindow]

/-- SU's refresh is in no record of the table. -/
@[simp] theorem cellAt_refresh (u : State) (d : CellNo) : cellAt (refresh u) d = cellAt u d := rfl

/-! ## A cell operation applied at a LIVE station -/

/-- The table, and the reports of the change, after an application whose record `x.record` has been put in cell `c` on the way from
`s` to `u`: the watches and notices, the parked claims and the woken order, and nothing else (R12, R139, R151). -/
theorem report_changed (c : CellNo) (x : Applied) {u : State} (hwu : u.wu = s.wu) (hhp : u.hp = s.hp)
    (hcell : cellAt u c = x.record) :
    let fires (i : Fin 16) : Bool := x.changed && firesOn c x.record s i
    let wakes (q : Request) : Bool := x.changed && wakesOn c x.record q
    let t := if x.changed then report c u else u
    (∀ i, watchAt t i = if fires i then { watchAt s i with state := .fired } else watchAt s i) ∧
    t.wu = { s.wu with
      watches := t.wu.watches
      events := s.wu.events ++ ((List.finRange 16).filter fires).map (noticeOf x.record s) } ∧
    t.qu = { u.qu with
      park := u.qu.park.map (fun q => if wakes q then { q with state := .eligible, attempts := ⟨0, []⟩ } else q)
      woken := u.qu.woken ++ (u.qu.park.filter wakes).map (·.tag) } ∧
    t.vu = u.vu ∧ t.tu = u.tu ∧ t.lu = u.lu ∧ t.su = u.su ∧ t.hp = u.hp := by
  have hwatch : ∀ i, watchAt u i = watchAt s i := fun i => by simp only [watchAt, hwu]
  have hfires : firesOn c x.record u = firesOn c x.record s := by
    funext i; simp only [firesOn, hwatch, own, hhp]
  have hnotice : noticeOf x.record u = noticeOf x.record s := by
    funext i; simp only [noticeOf, hwatch]
  cases x.changed with
  | false => simp [hwatch, hwu]
  | true =>
    obtain ⟨h1, h2, h3⟩ := report_spec c u
    rw [hcell, hfires] at h1 h2
    rw [hcell] at h3
    simp only [hwatch] at h1
    rw [hnotice, hwu] at h2
    simp only [Bool.true_and, if_true]
    refine ⟨h1, h2, h3, ?_⟩
    simp only [report_frame, and_self]

/-- A cell operation of another station's frame, applied at a LIVE station (R11, R12). -/
theorem applyCell_live (op : CellOp) (c : CellNo) (a b : Half) (f : Frame) (hl : s.vu.standing = .live) :
    let x := applyOp op f.orig a b (cellAt s c)
    applyCell op c a b f none s = if x.changed then report c (putCell c x.record s) else putCell c x.record s := by
  simp [applyCell, hl, settleOwn]

/-- What a complete cell frame leaves, from the state `u` that has the record `x.record` put in cell `c` and the attempt at an end:
the one cell, the reports of its change, SU in line, and the rest as `u` has it (R11, R12, R74, R81). -/
theorem cellFrame_outcome (c : CellNo) (x : Applied) {u : State} (hwu : u.wu = s.wu) (hhp : u.hp = s.hp)
    (hsu : u.su = { s.su with attempt := none })
    (htable : ∀ d, cellAt u d = if d = c then x.record else cellAt s d) :
    let fires (i : Fin 16) : Bool := x.changed && firesOn c x.record s i
    let wakes (q : Request) : Bool := x.changed && wakesOn c x.record q
    let t := refresh (if x.changed then report c u else u)
    cellAt t c = x.record ∧ (∀ d, d ≠ c → cellAt t d = cellAt s d) ∧ t.tu.known = u.tu.known ∧
    (∀ i, watchAt t i = if fires i then { watchAt s i with state := .fired } else watchAt s i) ∧
    t.wu = { s.wu with
      watches := t.wu.watches
      events := s.wu.events ++ ((List.finRange 16).filter fires).map (noticeOf x.record s) } ∧
    t.qu = { u.qu with
      park := u.qu.park.map (fun q => if wakes q then { q with state := .eligible, attempts := ⟨0, []⟩ } else q)
      woken := u.qu.woken ++ (u.qu.park.filter wakes).map (·.tag) } ∧
    SendingSettled s t ∧ t.vu = u.vu ∧ t.lu = u.lu ∧ t.hp = s.hp := by
  have hreport := report_changed (s := s) c x hwu hhp (by simp [htable])
  intro fires wakes
  generalize (if x.changed then report c u else u) = r at hreport ⊢
  obtain ⟨hwatch, hwu', hqu, hvu, htu, hlu, hsu', hhp'⟩ := hreport
  have hcell : ∀ d, cellAt (refresh r) d = if d = c then x.record else cellAt s d := fun d => by
    rw [cellAt_refresh, cellAt_congr (s := u) (by rw [htu]), htable]
  have hsend : SendingSettled s (refresh r) :=
    (SendingSettled.refresh (by rw [hsu', hsu])).of (by rw [hsu', hsu]) (by rw [hsu', hsu]) (by rw [hsu', hsu])
      (by rw [hsu', hsu]) (by rw [hsu', hsu]) (by rw [hsu', hsu]) (by rw [hsu', hsu])
  exact ⟨by simp [hcell], fun d hd => by simp [hcell, hd], by simp [htu], hwatch, hwu', hqu, hsend, hvu, hlu,
    hhp'.trans hhp⟩

/-- Settles O38: `putCell` writes the one record, and `cellFrame_outcome` says what follows. -/
theorem cellFrameApplied : Obligations.CellFrameApplied := by
  unfold Obligations.CellFrameApplied
  intro op c a b slots s j h hst hl hb
  have happ : disposeFrame j slots (closeWindow s) = applyCell op c a b j.frame none (closeWindow s) := by
    rw [disposeFrame_other h (by simp [inView, hst]), applyFrame, hb]
  have ⟨hjudging, _, hat, _⟩ := h
  have hrun := exec_cellCommand_judging hjudging hb slots
  rw [happ, applyCell_live op c a b j.frame (by simpa using hl), show cellAt (closeWindow s) c = cellAt s c from rfl] at hrun
  have hsu : s.su = { s.su with attempt := none } := by rw [← hat]
  have hout := cellFrame_outcome (s := s) c (applyOp op j.frame.orig a b (cellAt s c))
    (u := putCell c (applyOp op j.frame.orig a b (cellAt s c)).record (closeWindow s)) (by simp) (by simp) (by simpa using hsu)
    (fun d => cellAt_putCell c d _ (closeWindow s))
  obtain ⟨hc, hd, hknown, hwatch, hwu, hqu, hsend, hvu, hlu, hhp⟩ := hout
  exact ⟨_, hrun, hc, hd, hknown, hwatch, hwu, hqu, hvu, hlu, hsend, hhp⟩

/-! ## An own cell frame -/

/-- QU once a request is retired: out of the queue, the park list and the woken order, its record posted (R133, R143). -/
theorem retire_qu (r : Completion) (s : State) : (retire r s).qu = { s.qu with
    queue := s.qu.queue.filter (fun q => q.tag ≠ r.tag)
    park := s.qu.park.filter (fun q => q.tag ≠ r.tag)
    woken := s.qu.woken.filter (fun w => w ≠ r.tag)
    completions := s.qu.completions ++ [r] } := by
  have hne (x y : Byte) : (x != y) = decide (x ≠ y) := by by_cases h : x = y <;> simp [h]
  simp only [← hne]
  rfl

/-- The result of an own cell frame retires its request, unless it is a CLAIM with WAIT that met HELD and is not marked for cancel
(R38, R138, R142). -/
theorem settleOwn_retires {i : Item} {tag : Byte} {q : Request} {x : Applied} (hi : i = .request tag ∨ i = .claim tag)
    (hq : findRequest tag s = some q)
    (hn : ¬(q.op = .claim ∧ q.wait = true ∧ x.outcome = .held ∧ q.cancelMark = false)) (epoch : Byte) :
    settleOwn (some i) x epoch s = retire (recordApplied x epoch q) s := by
  have hsettle (fromPark : Bool) : settleApplied fromPark q x epoch s = retire (recordApplied x epoch q) s := by
    unfold settleApplied
    exact if_neg (by simpa using hn)
  rcases hi with rfl | rfl <;> simp [settleOwn, hq, hsettle]

/-- A cell operation of an own frame at a LIVE station whose request is retired with its outcome (R11, R12, R38). -/
theorem applyCell_retires {op : CellOp} {c : CellNo} {a b : Half} {f : Frame} {i : Item} {tag : Byte} {q : Request}
    (hl : s.vu.standing = .live) (hi : i = .request tag ∨ i = .claim tag) (hq : findRequest tag s = some q)
    (hn : ¬(q.op = .claim ∧ q.wait = true ∧ (applyOp op f.orig a b (cellAt s c)).outcome = .held ∧ q.cancelMark = false)) :
    let x := applyOp op f.orig a b (cellAt s c)
    let u := retire (recordApplied x f.epoch q) (putCell c x.record s)
    applyCell op c a b f (some i) s = if x.changed then report c u else u := by
  have hput : findRequest tag (putCell c (applyOp op f.orig a b (cellAt s c)).record s) = some q := hq
  simp only [applyCell, hl, settleOwn_retires hi hput hn]

/-- Settles O39: the request is retired between the write of the record and the report of its change. -/
theorem ownCellFrame : Obligations.OwnCellFrame := by
  unfold Obligations.OwnCellFrame
  intro op c a b slots s j i f tag q h hc hst hl hb hi hq x fires wakes others hn
  have htag : q.tag = tag := (findRequest_mem hq).2
  have hitem : completeItem i (endAttempt ⟨i, f⟩ (closeWindow s)) = endAttempt ⟨i, f⟩ (closeWindow s) := by
    rcases hi with rfl | rfl <;> rfl
  have happ : disposeFrame j slots (closeWindow s) = applyCell op c a b f (some i) (endAttempt ⟨i, f⟩ (closeWindow s)) := by
    rw [disposeFrame_own h hc (by simp [inView, hst]), hitem]
    simp only [applyFrame, hb]
  have ⟨hjudging, _, _, hsent⟩ := h
  have hframe : j.frame.body = .cell op c a b := by rw [hsent]; exact hb
  have hrun := exec_cellCommand_judging hjudging hframe slots
  rw [happ, applyCell_retires (s := endAttempt ⟨i, f⟩ (closeWindow s)) (tag := tag) (q := q) (by simpa using hl) hi hq hn,
    show cellAt (endAttempt ⟨i, f⟩ (closeWindow s)) c = cellAt s c from rfl] at hrun
  have hout := cellFrame_outcome (s := s) c x (u := retire (recordApplied x f.epoch q)
      (putCell c x.record (endAttempt ⟨i, f⟩ (closeWindow s)))) (by simp) (by simp) (by simp; rfl)
    (fun d => cellAt_putCell c d _ (endAttempt ⟨i, f⟩ (closeWindow s)))
  obtain ⟨hcell, hd, hknown, hwatch, hwu, hqu, hsend, hvu, hlu, hhp⟩ := hout
  have hlu' : (endAttempt ⟨i, f⟩ (closeWindow s)).lu = { s.lu with
      mode := .resting, driver := .released, asserted := false, idleCount := 0, assertedCount := 0, deferred := true } := by
    simp [endAttempt, closeWindow, classOne, hb]
  rw [retire_qu, show (recordApplied x f.epoch q).tag = tag from htag] at hqu
  refine ⟨_, hrun, hcell, hd, hknown, hwatch, hwu, hqu.trans ?_, hsend, hlu.trans (by simp [hlu']), hvu.trans (by simp; rfl), hhp⟩
  simp only [recordApplied, htag, putCell_frame, endAttempt_frame, closeWindow_frame]
  cases x.outcome <;> rfl

/-! ## A cell frame at a JOINING station -/

/-- Settles O41: a PENDING copy is reached in its known chunks alone, and nothing is reported. -/
theorem cellFramePending : Obligations.CellFramePending := by
  unfold Obligations.CellFramePending
  intro op c a b slots s j h hst hl hb
  have happ : disposeFrame j slots (closeWindow s) = if chunkKnown s (chunkOf c)
      then putCell c (applyOp op j.frame.orig a b (cellAt s c)).record (closeWindow s) else closeWindow s := by
    rw [disposeFrame_other h (by simp [inView, hst]), applyFrame, hb]
    simp only [applyCell, copyReaches, closeWindow_frame, hl]
    rfl
  have hrun := exec_cellCommand_judging h.1 hb slots
  rw [happ] at hrun
  have hchunk : chunkKnown s (chunkOf c) = s.tu.known.getLsbD (c.toNat / 8) := by rw [chunkKnown, chunkOf_toNat]
  rw [← hchunk]
  refine ⟨_, hrun, fun d => ?_, ?_⟩
  · rw [cellAt_refresh]
    cases chunkKnown s (chunkOf c)
    · simp only [Bool.false_eq_true, and_false, if_false]; rfl
    · simp only [if_true, cellAt_putCell, and_true]; rfl
  · split <;> simp <;> rfl

end Sys2Proof.Machine
end

section
/-! SUPPORT. A complete TRANSFER: the round moved on, and the promotion that ends it (R14, R15, R94, R124, R125). -/

namespace Sys2Proof.Machine

variable {s u w : State} {j : Judged} {slots : Mask} {k : BitVec 4} {images : Vector Cell 8}

/-! ## The state from which a round moves on -/

/-- The station `u` that a judging station `s` is once the window of a complete TRANSFER is closed, an own attempt ended and the
TRANSFER's record cleared (R54, R59, R84, R94). -/
structure RoundReady (j : Judged) (s u : State) : Prop where
  vu : u.vu = { s.vu with judged := none }
  tu : u.tu = s.tu
  qu : u.qu = s.qu
  wu : u.wu = s.wu
  hp : u.hp = s.hp
  su : u.su = { s.su with attempt := none, transferRec := ⟨0, []⟩ }
  deferred : u.lu.deferred = (s.lu.deferred || j.own)
  line : u.lu.mode = .resting ∧ u.lu.driver = .released

/-- A complete TRANSFER, heard or own, moves the round on from such a state (R74, R84, R94). -/
theorem transfer_moves_round
    (h : JudgingOther j slots s ∨ ∃ f, JudgingOwn j ⟨.transfer, f⟩ s ∧ isComplete j slots s = true)
    (hv : inView s.vu.station = true) (hb : j.frame.body = .transfer k images) :
    ∃ u, RoundReady j s u ∧ exec (.transfer slots) s = .next (refresh (moveRound k images u)) := by
  rcases h with h | ⟨f, h, hc⟩
  · have ⟨hjudging, hown, hat, _⟩ := h
    have happ : disposeFrame j slots (closeWindow s)
        = moveRound k images (setRecord .transfer .fresh (closeWindow s)) := by
      rw [disposeFrame_other h hv]
      simp only [applyFrame, hb, applyTransfer]
    have hrun := exec_transfer_judging hjudging hb slots
    rw [happ] at hrun
    refine ⟨setRecord .transfer .fresh (closeWindow s), ⟨rfl, rfl, rfl, rfl, rfl, ?_, ?_, rfl, rfl⟩, hrun⟩
    · rw [← hat]; rfl
    · simp [hown]
  · have ⟨hjudging, hown, _, hsent⟩ := h
    have hbody : f.body = .transfer k images := by rw [← hb, hsent]
    have happ : disposeFrame j slots (closeWindow s) = moveRound k images
        (setRecord .transfer .fresh (completeItem .transfer (endAttempt ⟨.transfer, f⟩ (closeWindow s)))) := by
      rw [disposeFrame_own h hc hv]
      simp only [applyFrame, hbody, applyTransfer]
    have hrun := exec_transfer_judging hjudging hb slots
    rw [happ] at hrun
    refine ⟨setRecord .transfer .fresh (completeItem .transfer (endAttempt ⟨.transfer, f⟩ (closeWindow s))),
      ⟨rfl, rfl, rfl, rfl, rfl, rfl, ?_, rfl, rfl⟩, hrun⟩
    simp [hown, hbody, classOne]

/-- SU and LU after a round's move that touches neither (R59, R81, R94). -/
theorem RoundReady.sending (h : RoundReady j s u) (hsu : w.su = u.su) (hlu : w.lu = u.lu) :
    SendingSettled (s.setSu { s.su with transferRec := ⟨0, []⟩ }) (refresh w) ∧ (refresh w).su.transferRec = ⟨0, []⟩ ∧
      (refresh w).lu.deferred = (s.lu.deferred || j.own) ∧ (refresh w).lu.mode = .resting ∧
      (refresh w).lu.driver = .released := by
  have hw : w.su = { s.su with attempt := none, transferRec := ⟨0, []⟩ } := hsu.trans h.su
  have hl : (refresh w).lu = u.lu := hlu
  have hset := SendingSettled.refresh (s := w) (by rw [hw])
  have hrec : (refresh w).su.transferRec = ⟨0, []⟩ := by
    obtain ⟨-, -, -, -, -, -, hkept, hcleared, -⟩ := hset
    by_cases ho : TransferOwed (refresh w)
    · rw [hkept ho, hw]
    · rw [hcleared ho]; rfl
  exact ⟨hset.of (by rw [hw]; rfl) (by rw [hw]; rfl) (by rw [hw]; rfl) (by rw [hw]; rfl) (by rw [hw]; rfl) (by rw [hw]; rfl)
    (by rw [hw]; rfl), hrec, by rw [hl, h.deferred], hl ▸ h.line⟩

/-! ## The table after a chunk is taken -/

/-- The records once the images of chunk `k` are taken: its eight cells, and every other as it was (R1, R14). -/
theorem chunk_taken {t : State} (ht : t.tu.cells = (replaceChunk k images u).tu.cells) (hu : u.tu = s.tu) :
    (∀ c : CellNo, c.toNat / 8 ≠ k.toNat → cellAt t c = cellAt s c) ∧
      (∀ (c : CellNo) (i : Fin 8), c.toNat = 8 * k.toNat + i.val → cellAt t c = images[i]) := by
  refine ⟨fun c hc => ?_, fun c i hc => ?_⟩
  · rw [cellAt_congr ht, cellAt_replaceChunk, if_neg hc, cellAt_congr (s := s) (by rw [hu])]
  · have hi := i.isLt
    have hdiv : c.toNat / 8 = k.toNat := by omega
    have hmod : c.toNat % 8 = i.val := by omega
    rw [cellAt_congr ht, cellAt_replaceChunk, if_pos hdiv]
    simp only [hmod]
    rfl

/-! ## The round moved on -/

/-- Settles O45: `transfer_moves_round` reaches the state in which the view, and at JOINING the chunk and STALL_WAIT, move on. -/
theorem transferApplied : Obligations.TransferApplied := by
  unfold Obligations.TransferApplied
  intro slots s j k images h hb hr v next sending
  have hle : ¬s.vu.view.remaining ≤ 1 := by omega
  refine ⟨fun hst => ?_, fun hst => ?_⟩
  · obtain ⟨u, hu, hrun⟩ := transfer_moves_round h (by simp [inView, hst]) hb
    have hmove : moveRound k images u = setView (advanceRound s.vu.view) u := by
      simp [moveRound, hu.vu, hst, hle]
    rw [hmove] at hrun
    refine ⟨_, hrun, ?_, hu.tu, hu.wu, hu.qu, hu.hp, hu.sending (w := setView _ u) rfl rfl⟩
    simp only [refresh_frame, setView, State.setVu_vu, hu.vu, advanceRound]
    rfl
  · obtain ⟨u, hu, hrun⟩ := transfer_moves_round h (by simp [inView, hst]) hb
    have hmove : moveRound k images u = (setView (advanceRound s.vu.view) (replaceChunk k images u)).setVu
        { (setView (advanceRound s.vu.view) (replaceChunk k images u)).vu with
          stallTimer := some Config.stallWait, stallOwed := false } := by
      simp [moveRound, hu.vu, hst, hle, restartStall]
    rw [hmove] at hrun
    obtain ⟨hother, himages⟩ := chunk_taken (t := refresh (moveRound k images u)) (k := k) (images := images)
      (by rw [hmove]; rfl) hu.tu
    rw [hmove] at hother himages
    have hknown (m : BitVec 4) := known_replaceChunk k m images u
    rw [hu.tu] at hknown
    refine ⟨_, hrun, ?_, fun m hm => ?_, ?_, hother, himages, hu.wu, hu.qu, hu.hp, hu.sending (u := u) rfl rfl⟩
    · simp only [refresh_frame, setView, State.setVu_vu, replaceChunk_frame, hu.vu, advanceRound]
      rfl
    · simpa [hm] using hknown m
    · simpa using hknown k

/-! ## The promotion -/

/-- Settles O46: the view changes at a MEMBER; a JOINING station is promoted by `promoteStation` or withdraws from the state before
the chunk. -/
theorem promotionApplied : Obligations.PromotionApplied := by
  unfold Obligations.PromotionApplied
  intro slots s j k images h hb hr v next known sending
  have hle : s.vu.view.remaining ≤ 1 := by omega
  refine ⟨fun hst => ?_, fun hst hknown => ?_, fun hst hknown => ?_⟩
  · obtain ⟨u, hu, hrun⟩ := transfer_moves_round h (by simp [inView, hst]) hb
    have hmove : moveRound k images u = setView (promoteView s.vu.view) u := by
      simp [moveRound, hu.vu, hst, hle]
    rw [hmove] at hrun
    obtain ⟨hset, -, hdef, hline⟩ := hu.sending (w := setView (promoteView s.vu.view) u) rfl rfl
    refine ⟨_, hrun, ?_, hu.tu, hu.wu, hu.qu, hu.hp, hset, hdef, hline⟩
    simp only [refresh_frame, setView, State.setVu_vu, hu.vu]
    rfl
  · obtain ⟨u, hu, hrun⟩ := transfer_moves_round h (by simp [inView, hst]) hb
    have hall : (replaceChunk k images u).tu.known = BitVec.allOnes 16 :=
      (allKnown_iff k images u).2 (by rw [hu.tu]; exact hknown)
    have hmove : moveRound k images u = promoteStation (setView (promoteView s.vu.view) (replaceChunk k images u)) := by
      simp [moveRound, hu.vu, hst, hle, promoteJoining, hall]
    rw [hmove] at hrun
    generalize hw : setView (promoteView s.vu.view) (replaceChunk k images u) = w at hrun
    have hwvu : w.vu = { s.vu with judged := none, view := next } := by rw [← hw]; simp [setView, hu.vu]; rfl
    obtain ⟨hset, -, hdef, hline⟩ := hu.sending (w := promoteStation w) (by simp [← hw]) (by simp [← hw])
    obtain ⟨hother, himages⟩ := chunk_taken (t := refresh (promoteStation w)) (k := k) (images := images) (u := u)
      (by simp [← hw]) hu.tu
    have hentry : EntryReported s (refresh (promoteStation w)) := by
      refine EntryReported.of_enterMember (u := (w.setTu { w.tu with known := 0 }).setVu { w.vu with
        standing := .live, retainedEpoch := 0, stallTimer := none, stallOwed := false }) ?_ ?_ ?_ ?_ ?_
      · simp [hwvu, hst]
      · simp [← hw, hu.wu]
      · simp [← hw, hu.hp]
      · simp [promoteStation]
      · simp [promoteStation]
    refine ⟨_, hrun, ?_, ?_, ?_, ?_, ?_, ?_, ?_, ?_, ?_, ⟨hset, hdef, hline⟩, hother, himages, hentry⟩
    all_goals simp [hwvu]
    · simp [← hw, hu.qu]
    · simp [← hw, hu.hp]
  · obtain ⟨u, hu, hrun⟩ := transfer_moves_round h (by simp [inView, hst]) hb
    have hall : (replaceChunk k images u).tu.known ≠ BitVec.allOnes 16 := by
      rw [ne_eq, allKnown_iff, hu.tu]; exact hknown
    have hmove : moveRound k images u = withdraw u := by
      simp only [moveRound, hu.vu, hst, hle, if_true, promoteJoining, if_neg hall]
    rw [hmove] at hrun
    have hwithdrawn := (Withdrawn.of_withdraw u (by simp [hu.vu, hst, inView])).congr (s := s) (by rw [hu.vu]) (by rw [hu.vu])
      (by rw [hu.vu]) (by rw [hu.vu]) hu.tu hu.qu hu.wu
    exact ⟨_, hrun, by simp [hu.line.1], by simp [hu.line.2], by simp [hu.hp], hwithdrawn⟩

end Sys2Proof.Machine
end

section
/-! SUPPORT. What a command does to the copy of a MEMBER that judges another station's frame (R11, R13, R74): a window's end makes of
the table and the view what the frame, the view and the records say, and any other command that leaves it MEMBER keeps them. -/

namespace Sys2Proof.Machine

variable {s t u : State} {j : Judged} {slots : Mask}

/-! ## Commands that keep the copy -/

/-- A station that is MEMBER after an operation was MEMBER before it, with the same records and the same view. -/
def CopyKept (s t : State) : Prop :=
  t.vu.station = .member → s.vu.station = .member ∧ t.tu.cells = s.tu.cells ∧ t.vu.view = s.vu.view

theorem CopyKept.refl (s : State) : CopyKept s s := fun h => ⟨h, rfl, rfl⟩

theorem CopyKept.trans (h : CopyKept s t) (h' : CopyKept t u) : CopyKept s u := fun hu => by
  obtain ⟨ht, hc, hv⟩ := h' hu
  obtain ⟨hs, hc', hv'⟩ := h ht
  exact ⟨hs, hc.trans hc', hv.trans hv'⟩

theorem CopyKept.of_frame (hst : t.vu.station = s.vu.station) (htu : t.tu = s.tu) (hv : t.vu.view = s.vu.view) : CopyKept s t :=
  fun h => ⟨hst ▸ h, by rw [htu], hv⟩

theorem CopyKept.of_not_member (h : t.vu.station ≠ .member) : CopyKept s t := fun hm => absurd hm h

theorem CopyKept.refresh (h : CopyKept s t) : CopyKept s (refresh t) :=
  h.trans (.of_frame (by simp) (by simp) (by simp))

theorem CopyKept.onLine {f : State → State} (h : CopyKept s (f s)) : CopyKept s (onLine f s) := by
  unfold Machine.onLine
  split
  · exact .refl s
  · exact h

theorem CopyKept.hostWrite {f : State → State} (h : CopyKept s (f s)) : CopyKept s (hostWrite f s) := by
  unfold Machine.hostWrite
  split
  · exact .refl s
  · exact h

theorem CopyKept.hostRead {f : State → State} (h : CopyKept s (f s)) : CopyKept s (hostRead f s) := by
  have hanswer (x : PortByte) : CopyKept s (answer x s) := .of_frame (by simp) (by simp) (by simp)
  unfold Machine.hostRead
  split
  · exact hanswer _
  · split
    · exact hanswer _
    · exact h

/-- A withdrawal leaves MEMBER (R114). -/
theorem copyKept_withdraw (s : State) : CopyKept s (withdraw s) := by
  cases hs : s.vu.station
  case member => exact .of_not_member (by simp [withdraw_member s hs])
  case joining => exact .of_not_member (by simp [withdraw_joining s hs])
  all_goals rw [withdraw_outside s (by simp [hs, inView])]; exact .refl s

/-- A halt leaves MEMBER (R115). -/
theorem copyKept_haltStation (s : State) : CopyKept s (haltStation s) := by
  by_cases hs : s.vu.station = .halted
  · rw [haltStation_halted s hs]; exact .refl s
  · exact .of_not_member (by rw [(haltStation_standing hs).1]; simp)

theorem copyKept_takeExpiry (s : State) : CopyKept s (takeExpiry s) := by
  unfold takeExpiry
  split
  · exact .of_not_member (by simp)
  · exact .refl s

/-- A byte at CONTROL keeps the copy or leaves MEMBER (R165). -/
theorem copyKept_controlWrite (b : Byte) (s : State) : CopyKept s (controlWrite b s) := by
  have hstart : CopyKept s (takeStart s) := by
    unfold takeStart
    split
    · exact .of_not_member (by simp)
    · exact .of_frame (by simp) (by simp) (by simp)
  have hhalt : CopyKept s (takeHalt s) :=
    (copyKept_haltStation s).trans (.of_frame (by simp [takeHalt]) (by simp [takeHalt]) (by simp [takeHalt]))
  unfold controlWrite
  split
  · unfold controlFirst
    split_ifs
    · exact hstart
    · exact hhalt
    all_goals exact .of_frame (by simp) (by simp) (by simp)
  · split_ifs <;> exact .of_frame (by simp) (by simp) (by simp)

theorem copyKept_controlCommand (command : List Byte) (s : State) : CopyKept s (controlCommand command s) :=
  foldl_keeps (P := CopyKept s) (fun t b ht => ht.trans (copyKept_controlWrite b t)) _ s (.refl s)

/-- A window fault in another station's frame keeps the copy or withdraws the station (R75, R76). -/
theorem copyKept_windowFault (hm : s.lu.mode = .window) (hj : s.vu.judged = some j) (hown : j.own = false) (slot : Station)
    (inData : Bool) : CopyKept s (windowFault slot inData s) := by
  have hdispose (asserted : Bool) (v : State) : CopyKept v (disposeFault j asserted v) := by
    unfold disposeFault
    rw [if_neg (by simp [hown])]
    split
    · exact .refl v
    · exact .refl v
    · split
      · exact .of_not_member (by simp)
      · exact copyKept_takeExpiry v
    all_goals
      unfold faultOther
      split
      · exact copyKept_withdraw v
      · exact .refl v
  have hgive : CopyKept s ((s.setVu { s.vu with judged := none }).setLu (giveUpLine 0 s.lu)) := .of_frame rfl rfl rfl
  simp only [windowFault, hm, hj]
  exact (hgive.trans (hdispose _ _)).refresh

/-- A line that sticks in a window is a window fault there (R58). -/
theorem copyKept_lineSticks (hm : s.lu.mode = .window) (hj : s.vu.judged = some j) (hown : j.own = false) (slot : Station)
    (inData : Bool) : CopyKept s (lineSticks slot inData s) := by
  unfold lineSticks
  split
  · exact .refl s
  · have habandon : abandonFrame slot inData s = windowFault slot inData s := by simp [abandonFrame, hm]
    dsimp only
    rw [habandon]
    exact (copyKept_windowFault hm hj hown slot inData).trans (.of_frame (by simp) (by simp) (by simp))

/-- ADMIT_WAIT's expiry is at ADMITTING alone (R118). -/
theorem copyKept_admitExpires (s : State) : CopyKept s (admitExpires s) := by
  unfold admitExpires
  split
  · rename_i h
    split
    · exact .of_frame rfl rfl rfl
    · exact .of_not_member (by simp)
  · exact .refl s

/-- Every block at power-on values is HALTED (R116). -/
theorem copyKept_powerOnValues (p : Power) (s : State) : CopyKept s ((powerOnValues s).setPower p) :=
  .of_not_member (by simp [powerOnValues, Vu.afterReset])

/-- An RST halts, or finds the part held already (R116, R167). -/
theorem copyKept_assertRst (s : State) : CopyKept s (assertRst s) := by
  unfold assertRst
  split
  · exact .of_frame rfl rfl rfl
  · exact .of_not_member (by simp [rstValues, Vu.afterReset])

/-! ## Which commands end a window -/

/-- A kind of window that looks at the frame, at whether it is this station's own and at the governing station state alone. -/
def FrameKind (kind : Judged → Bool) : Prop :=
  ∀ j j' : Judged, j.frame = j'.frame → j.own = j'.own → j.station = j'.station → kind j = kind j'

theorem frameKind_cellWindow (op : CellOp) : FrameKind (cellWindow op) := fun j j' hf _ _ => by simp only [cellWindow, hf]

theorem frameKind_probeWindow : FrameKind probeWindow := fun j j' hf ho hs => by simp only [probeWindow, hf, ho, hs]

theorem frameKind_foundWindow : FrameKind foundWindow := fun j j' hf _ _ => by simp only [foundWindow, hf]

theorem frameKind_joinWindow : FrameKind joinWindow := fun j j' hf ho hs => by
  simp only [joinWindow, hf, frameKind_probeWindow j j' hf ho hs]

theorem frameKind_rosterWindow : FrameKind rosterWindow := fun j j' hf _ hs => by simp only [rosterWindow, hf, hs]

theorem frameKind_admissionWindow : FrameKind admissionWindow := fun j j' hf _ hs => by simp only [admissionWindow, hf, hs]

theorem frameKind_transferWindow : FrameKind transferWindow := fun j j' hf _ _ => by simp only [transferWindow, hf]

theorem frameKind_dropWindow : FrameKind dropWindow := fun j j' hf _ _ => by simp only [dropWindow, hf]

theorem frameKind_leaveWindow : FrameKind leaveWindow := fun j j' hf _ _ => by simp only [leaveWindow, hf]

theorem frameKind_anyWindow : FrameKind anyWindow := fun _ _ _ _ _ => rfl

/-- Every command either ends a window of some kind or keeps the copy of a station that judges another station's frame. -/
theorem exec_endsWindow_or_keepsCopy (c : Instr) :
    (∃ kind ends, FrameKind kind ∧ ∀ s, exec c s = .next (onLine (windowEndOf kind ends) s)) ∨
      (∀ (j : Judged) (s : State), Judging j s → j.own = false → ∃ t, exec c s = .next t ∧ CopyKept s t) := by
  cases c
  case store | add | and | or | xor | bitset | bitclr | bitflip | cas | step | claim | release | relstore =>
    exact .inl ⟨_, _, frameKind_cellWindow _, fun _ => rfl⟩
  case joinProbe => exact .inl ⟨_, _, frameKind_probeWindow, fun _ => rfl⟩
  case found => exact .inl ⟨_, _, frameKind_foundWindow, fun _ => rfl⟩
  case join => exact .inl ⟨_, _, frameKind_joinWindow, fun _ => rfl⟩
  case roster => exact .inl ⟨_, _, frameKind_rosterWindow, fun _ => rfl⟩
  case rosterAdmission => exact .inl ⟨_, _, frameKind_admissionWindow, fun _ => rfl⟩
  case transfer => exact .inl ⟨_, _, frameKind_transferWindow, fun _ => rfl⟩
  case drop => exact .inl ⟨_, _, frameKind_dropWindow, fun _ => rfl⟩
  case leave => exact .inl ⟨_, _, frameKind_leaveWindow, fun _ => rfl⟩
  case incompleteWindowEnd => exact .inl ⟨_, _, frameKind_anyWindow, fun _ => rfl⟩
  all_goals refine .inr fun j s h hown => ⟨_, rfl, ?_⟩; obtain ⟨hf, hm, hj, -⟩ := h
  case powerOn | powerLoss => exact copyKept_powerOnValues _ s
  case rstAssert => exact copyKept_assertRst s
  case powerOnHoldEnd | rstRelease =>
    exact .of_frame (by simp) (by simp) (by simp)
  case start | halt | leaveCommand | cancel | mask => exact (copyKept_controlCommand _ s).hostWrite
  case controlBadFirstByte data => exact (copyKept_controlWrite data s).hostWrite
  case partialSequenceWrite port data =>
    cases port with
    | watch => exact (CopyKept.of_frame (by simp [partialByte]) (by simp [partialByte]) (by simp [partialByte])).hostWrite
    | control => exact (copyKept_controlWrite data s).hostWrite
  case requestWrite | sequenceRestart | cellIndexWrite | arm | disarm | watchBadFirstByte =>
    exact (CopyKept.of_frame (by simp) (by simp) (by simp)).hostWrite
  case requestRead | completionRead | cellRead | watchRead | noticeRead | statusRead | viewRead | controlRead =>
    exact (CopyKept.of_frame (by simp) (by simp) (by simp)).hostRead
  case windowFault slot inData => exact (copyKept_windowFault hm hj hown slot inData).onLine
  case readBackFault slot inData level =>
    have he : readBackFault slot inData level s = windowFault slot inData s := by simp [readBackFault, hm]
    exact CopyKept.onLine (he ▸ copyKept_windowFault hm hj hown slot inData)
  case lineStuck slot inData => exact (copyKept_lineSticks hm hj hown slot inData).onLine
  case admitWaitExpiry => exact (copyKept_admitExpires s).onLine
  all_goals exact (CopyKept.of_frame (by simp) (by simp) (by simp)).onLine

/-! ## What a complete frame makes of the copy -/

/-- A record after the claims of a set of stations are released (R17). -/
def releasedFrom (gone : Mask) (r : Cell) : Cell := if heldBy gone r then writeHolder r none else r

/-- The record of cell `c` after a complete frame that leaves a MEMBER a MEMBER, from the frame, the view and the record (R11,
R17). -/
def nextRecord (f : Frame) (v : View) (c : CellNo) (r : Cell) : Cell :=
  match f.body with
  | .cell op d a b => if c = d then (applyOp op f.orig a b r).record else r
  | .join => if joinRow f.orig v = .fullMember then releasedFrom (only f.orig) r else r
  | .drop m => releasedFrom (m &&& everyone v) r
  | .leave => releasedFrom (only f.orig) r
  | .found _ | .roster .. | .transfer .. => r

/-- The view after a complete frame that leaves a MEMBER a MEMBER, from the frame and the view (R108, R110, R112, R121, R124,
R125). -/
def nextView (f : Frame) (v : View) : View :=
  match f.body with
  | .transfer .. => if v.remaining ≤ 1 then promoteView v else advanceRound v
  | .roster .. => { v with rosterOwed := false }
  | .join => joinView f.orig v
  | .drop m => removeFromView m v
  | .leave => removeFromView (only f.orig) v
  | .found _ | .cell .. => v

/-- A claim release reaches every record of a LIVE table (R17). -/
theorem cellAt_releaseClaims_live (hl : s.vu.standing = .live) (gone : Mask) (c : CellNo) :
    cellAt (releaseClaims gone s) c = releasedFrom gone (cellAt s c) := by
  rw [cellAt_releaseClaims]
  simp only [releaseFrees, copyReaches, hl, Bool.and_true, releasedFrom, writeHolder]

/-- A complete frame of another station that leaves a MEMBER a MEMBER makes the next records and the next view (R13, R74). -/
theorem applyFrame_copy (hst : s.vu.station = .member) (hl : s.vu.standing = .live) (f : Frame)
    (ht : (applyFrame f none s).vu.station = .member) :
    (∀ c, cellAt (applyFrame f none s) c = nextRecord f s.vu.view c (cellAt s c)) ∧
      (applyFrame f none s).vu.view = nextView f s.vu.view := by
  have hwithdraw : (withdraw s).vu.station ≠ .member := by simp [withdraw_member s hst]
  have hrelease (gone : Mask) (v : View) (c : CellNo) :
      cellAt (releaseClaims gone (setView v s)) c = releasedFrom gone (cellAt s c) :=
    cellAt_releaseClaims_live (s := setView v s) (by simpa using hl) gone c
  unfold applyFrame nextRecord nextView at *
  cases hb : f.body with
  | found r => exact ⟨fun _ => rfl, rfl⟩
  | cell op d a b =>
    simp only [applyCell_live op d a b f hl]
    have hput (c : CellNo) := cellAt_putCell d c (applyOp op f.orig a b (cellAt s d)).record s
    have hrecord (c : CellNo) : (if c = d then (applyOp op f.orig a b (cellAt s d)).record else cellAt s c)
        = if c = d then (applyOp op f.orig a b (cellAt s c)).record else cellAt s c := by
      split
      · rename_i hcd; rw [hcd]
      · rfl
    split
    · refine ⟨fun c => ?_, by simp⟩
      rw [cellAt_congr (s := putCell d (applyOp op f.orig a b (cellAt s d)).record s) (by simp), hput, hrecord]
    · exact ⟨fun c => (hput c).trans (hrecord c), by simp⟩
  | transfer k images =>
    simp only [applyTransfer, moveRound, setRecord_frame, hst]
    split <;> exact ⟨fun _ => rfl, rfl⟩
  | roster full joiners cursor remaining =>
    exact ⟨fun c => cellAt_congr (by simp [applyRoster]) c, by simp [applyRoster]⟩
  | join =>
    simp only [hb, applyJoin] at ht ⊢
    split at ht
    · exact absurd ht hwithdraw
    · rename_i hw
      simp only [if_neg hw]
      cases joinRow f.orig s.vu.view with
      | fullMember => exact ⟨fun c => by simpa using hrelease _ _ c, by simp⟩
      | outside | joiner => exact ⟨fun _ => rfl, rfl⟩
  | drop m =>
    simp only [hb, applyDrop] at ht ⊢
    split at ht
    · exact absurd ht hwithdraw
    · rename_i hw
      simp only [if_neg hw]
      refine ⟨fun c => ?_, by simp⟩
      rw [← hrelease (m &&& everyone s.vu.view) (removeFromView m s.vu.view)]
      exact cellAt_congr (by simp) c
  | leave =>
    simp only [hb, reduceCtorEq, if_false, applyLeaveOther] at ht ⊢
    split at ht
    · exact absurd ht hwithdraw
    · rename_i hw
      simp only [if_neg hw]
      exact ⟨fun c => hrelease _ _ c, by simp⟩

/-- Whether the end of a window of a kind applies the frame under judgement: the kind fits, and the slots hold the required set
(R70, R71). -/
def endApplies (kind : Judged → Bool) (ends : Mask) (j : Judged) (v : View) : Bool :=
  kind j && within (requiredSet j.frame v) ends

/-- The end of a window that leaves a judging MEMBER a MEMBER: the copy is what the frame makes of it, or as it was (R13, R71,
R74). -/
theorem windowEndOf_copy (h : JudgingOther j slots s) (hst : s.vu.station = .member) (hl : s.vu.standing = .live)
    {kind : Judged → Bool} {ends : Mask} (ht : (onLine (windowEndOf kind ends) s).vu.station = .member) :
    (∀ c, cellAt (onLine (windowEndOf kind ends) s) c = if endApplies kind ends j s.vu.view
        then nextRecord j.frame s.vu.view c (cellAt s c) else cellAt s c) ∧
      (onLine (windowEndOf kind ends) s).vu.view
        = if endApplies kind ends j s.vu.view then nextView j.frame s.vu.view else s.vu.view := by
  obtain ⟨⟨hf, hm, hj, hgov⟩, hown, hat, hcomplete⟩ := h
  obtain ⟨haccept, -⟩ : (j.intact = true ∧ j.accept = true) ∧ within (requiredSet j.frame s.vu.view) slots = true := by
    simpa [isComplete, hown] using hcomplete
  have hends : isComplete j ends (closeWindow s) = within (requiredSet j.frame s.vu.view) ends := by
    simp [isComplete, hown, haccept]
  by_cases hk : kind j = true
  · have hend : onLine (windowEndOf kind ends) s = refresh (endOtherWindow j ends (closeWindow s)) := by
      rw [windowEndOf_judging ⟨hf, hm, hj, hgov⟩ hk]
      simp [disposeFrame, hgov, hst, hown]
    rw [hend] at ht ⊢
    simp only [refresh_frame, cellAt_refresh, endApplies, hk, Bool.true_and, endOtherWindow, hends] at ht ⊢
    cases hw : within (requiredSet j.frame s.vu.view) ends with
    | true =>
      rw [hw] at ht
      exact applyFrame_copy (s := closeWindow s) hst hl j.frame ht
    | false =>
      rw [hw] at ht
      simp only [Bool.false_eq_true, if_false] at ht ⊢
      split at ht
      · exact absurd ht (by rw [withdraw_member (closeWindow s) hst]; simp)
      · rename_i ho
        simp only [ho, Bool.false_eq_true, if_false]
        exact ⟨fun _ => rfl, rfl⟩
  · have hend : onLine (windowEndOf kind ends) s = s := by simp [onLine, hf, windowEndOf, hj, hk]
    rw [hend]
    simp [endApplies, hk]

/-- Settles O57: the end of a window makes the same of equal copies, and any other command keeps both. -/
theorem copiesStayEqual : Obligations.CopiesStayEqual := by
  unfold Obligations.CopiesStayEqual
  intro c slots s1 s2 t1 t2 j1 j2 h1 h2 hframe hst1 hst2 hl1 hl2 hview hcells he1 he2 ht1 ht2
  have ⟨hjudging1, hown1, _, _⟩ := h1
  have ⟨hjudging2, hown2, _, _⟩ := h2
  have ⟨_, _, _, hgov1⟩ := hjudging1
  have ⟨_, _, _, hgov2⟩ := hjudging2
  rcases exec_endsWindow_or_keepsCopy c with ⟨kind, ends, hkind, hrun⟩ | hkeeps
  · have hk : kind j1 = kind j2 := hkind j1 j2 hframe (by rw [hown1, hown2]) (by rw [hgov1, hgov2, hst1, hst2])
    have happlies : endApplies kind ends j1 s1.vu.view = endApplies kind ends j2 s2.vu.view := by
      simp only [endApplies, hk, hframe, hview]
    rw [hrun] at he1 he2
    cases he1
    cases he2
    obtain ⟨hc1, hv1⟩ := windowEndOf_copy h1 hst1 hl1 ht1
    obtain ⟨hc2, hv2⟩ := windowEndOf_copy h2 hst2 hl2 ht2
    refine ⟨cells_ext fun d => ?_, by rw [hv1, hv2, happlies, hframe, hview]⟩
    rw [hc1, hc2, happlies, hframe, hview, cellAt_congr hcells]
  · obtain ⟨u1, hu1, hk1⟩ := hkeeps j1 s1 hjudging1 hown1
    obtain ⟨u2, hu2, hk2⟩ := hkeeps j2 s2 hjudging2 hown2
    cases he1.symm.trans hu1
    cases he2.symm.trans hu2
    obtain ⟨-, hc1, hv1⟩ := hk1 ht1
    obtain ⟨-, hc2, hv2⟩ := hk2 ht2
    exact ⟨by rw [hc1, hc2, hcells], by rw [hv1, hv2, hview]⟩

end Sys2Proof.Machine
end

section
/-! SUPPORT. The cell operations on one record in plain numbers: what the held check ends, the flags as numbers and bits, and the
written record of each operation (R22, R24 to R26, R33). -/

namespace Sys2Proof.Machine

variable {op : CellOp} {orig : Station} {a b : Half} {r : Cell}

/-! ## The held check -/

/-- A cell that is free or the originator's own passes the held check of every operation that needs no holder (R22). -/
theorem heldCheck_eq_none (hr : r.holder = none ∨ r.holder = some orig) (hop : needsHolder op = false) :
    heldCheck op orig r.holder = none := by
  rcases hr with hr | hr <;> simp [heldCheck, hr, hop]

/-- A cell that another station holds is answered HELD (R22). -/
theorem heldCheck_eq_held {h : Station} (hr : r.holder = some h) (hne : h ≠ orig) :
    heldCheck op orig r.holder = some .held := by
  simp [heldCheck, hr, hne]

/-- An application past the held check is the operation (R21). -/
theorem applyOp_eq_opPassed (hc : heldCheck op orig r.holder = none) : applyOp op orig a b r = opPassed op orig a b r := by
  simp only [applyOp, hc]

/-- An application that the held check ends is a refusal, with compare flags at CAS and STEP alone (R21, R33). -/
theorem applyOp_eq_refuse {o : CellOutcome} (hc : heldCheck op orig r.holder = some o) :
    applyOp op orig a b r = if comparing op then withCompare r a (refuse o r) else refuse o r := by
  simp only [applyOp, hc]

/-! ## Flags in numbers -/

/-- The signed value of a 16-bit number, as R25 and R33 read it. -/
def signedNat (x : Nat) : Int := if 32768 ≤ x then (x : Int) - 65536 else x

theorem toInt_eq_signedNat (x : Half) : x.toInt = signedNat x.toNat := by
  have := x.isLt
  simp only [BitVec.toInt, signedNat]
  split <;> split <;> omega

theorem zeroFlag_eq_decide (x : Half) : zeroFlag x = decide (x.toNat = 0) := by
  simp [zeroFlag, Bool.beq_eq_decide_eq, ← BitVec.toNat_inj]

/-- Z of the difference is the comparison for equality (R33). -/
theorem beq_eq_decide_sub (x y : Half) : (x == y) = decide ((x - y).toNat = 0) := by
  simp only [Bool.beq_eq_decide_eq, decide_eq_decide]
  bv_omega

theorem flagsOfWrite_eq (old : Flags) (x : Half) :
    flagsOfWrite old x = ⟨old.c, decide (x.toNat = 0), decide (32768 ≤ x.toNat), false⟩ := by
  rw [flagsOfWrite, zeroFlag_eq_decide, signFlag]

theorem flagsOfBit_eq (old : Flags) (x : Half) :
    flagsOfBit old x = ⟨old.c, decide (x.toNat = 0), decide (32768 ≤ x.toNat), old.v⟩ := by
  rw [flagsOfBit, zeroFlag_eq_decide, signFlag]

theorem flagsOfSum_eq (value addend : Half) :
    flagsOfSum value addend = ⟨decide (65536 ≤ value.toNat + addend.toNat), decide ((value + addend).toNat = 0),
      decide (32768 ≤ (value + addend).toNat),
      decide (signedNat value.toNat + signedNat addend.toNat < -32768 ∨
        32767 < signedNat value.toNat + signedNat addend.toNat)⟩ := by
  rw [flagsOfSum, zeroFlag_eq_decide, signFlag, outsideSigned, toInt_eq_signedNat, toInt_eq_signedNat]

/-- STEP's flags: a carry at 65535 alone, and an overflow at 32767 alone (R25, R32). -/
theorem flagsOfSum_one (value : Half) :
    flagsOfSum value 1 = ⟨decide (value.toNat = 65535), decide ((value + 1).toNat = 0), decide (32768 ≤ (value + 1).toNat),
      decide (value.toNat = 32767)⟩ := by
  have hlt := value.isLt
  have hone : (1 : Half).toNat = 1 := rfl
  simp only [flagsOfSum_eq, hone, signedNat, Flags.mk.injEq, decide_eq_decide, true_and]
  constructor
  · omega
  · split <;> omega

theorem compareFlags_eq (value y : Half) :
    compareFlags value y = ⟨decide (value.toNat < y.toNat), decide ((value - y).toNat = 0),
      decide (32768 ≤ (value - y).toNat),
      decide (signedNat value.toNat - signedNat y.toNat < -32768 ∨ 32767 < signedNat value.toNat - signedNat y.toNat)⟩ := by
  rw [compareFlags, beq_eq_decide_sub, signFlag, outsideSigned, toInt_eq_signedNat, toInt_eq_signedNat]

/-- Equal values compare as neither below nor overflowing, with Z alone set (R33). -/
theorem compareFlags_self (value : Half) : compareFlags value value = ⟨false, true, false, false⟩ := by
  simp [compareFlags, signFlag, outsideSigned]

/-! ## The bit that a bit operation acts on (R30) -/

theorem getLsbD_bitOf (x : Half) (i : Nat) : (bitOf x).getLsbD i = decide (i = x.toNat % 16) := by
  have hlt : x.toNat % 16 < 16 := Nat.mod_lt _ (by decide)
  simp only [bitOf, BitVec.getLsbD_shiftLeft, BitVec.getLsbD_one]
  grind

theorem getLsbD_bitset (x y : Half) (i : Nat) :
    (x ||| bitOf y).getLsbD i = if i = y.toNat % 16 then true else x.getLsbD i := by
  rw [BitVec.getLsbD_or, getLsbD_bitOf]
  split <;> simp [*]

theorem getLsbD_bitclr (x y : Half) (i : Nat) :
    (x &&& ~~~bitOf y).getLsbD i = if i = y.toNat % 16 then false else x.getLsbD i := by
  rw [BitVec.getLsbD_and, BitVec.getLsbD_not, getLsbD_bitOf]
  by_cases hi : i < 16
  · split <;> simp [*]
  · simp [hi, BitVec.getLsbD_of_ge x i (by omega)]

theorem getLsbD_bitflip (x y : Half) (i : Nat) :
    (x ^^^ bitOf y).getLsbD i = if i = y.toNat % 16 then !x.getLsbD i else x.getLsbD i := by
  rw [BitVec.getLsbD_xor, getLsbD_bitOf]
  split <;> simp [*]

/-! ## The written record -/

/-- An operation that passes and writes the value: the version one higher, the writer the originator, the holder as it was, the
flags the cell's new ones (R4, R5, R23, R38). -/
theorem applyOp_eq_write {x : Half} {f g : Flags} (hr : r.holder = none ∨ r.holder = some orig) (hop : needsHolder op = false)
    (hp : opPassed op orig a b r = doneWith (writeValue r orig x f)) (hf : f = g) :
    applyOp op orig a b r = ⟨.done, ⟨x, r.holder, r.version + 1, g, some orig⟩, true, g⟩ := by
  rw [applyOp_eq_opPassed (heldCheck_eq_none hr hop), hp, hf]
  rfl

/-- Settles O34: past the held check each operation writes its value with flags in numbers, and another holder ends it. -/
theorem valueOperations : Obligations.ValueOperations := by
  unfold Obligations.ValueOperations
  intro orig a b r n signed sum writes
  refine ⟨fun hr => ⟨?store, ?add, ?and, ?or, ?xor, ?bitset, ?bitclr, ?bitflip⟩, fun h op hh hne hop => ?held⟩
  case store => exact applyOp_eq_write hr rfl rfl (flagsOfWrite_eq _ _)
  case add => exact ⟨_, BitVec.toNat_add r.value a, applyOp_eq_write hr rfl rfl (flagsOfSum_eq _ _)⟩
  case and => exact ⟨_, fun _ => BitVec.getLsbD_and, applyOp_eq_write hr rfl rfl (flagsOfWrite_eq _ _)⟩
  case or => exact ⟨_, fun _ => BitVec.getLsbD_or, applyOp_eq_write hr rfl rfl (flagsOfWrite_eq _ _)⟩
  case xor => exact ⟨_, fun _ => BitVec.getLsbD_xor, applyOp_eq_write hr rfl rfl (flagsOfWrite_eq _ _)⟩
  case bitset => exact ⟨_, getLsbD_bitset r.value a, applyOp_eq_write hr rfl rfl (flagsOfBit_eq _ _)⟩
  case bitclr => exact ⟨_, getLsbD_bitclr r.value a, applyOp_eq_write hr rfl rfl (flagsOfBit_eq _ _)⟩
  case bitflip => exact ⟨_, getLsbD_bitflip r.value a, applyOp_eq_write hr rfl rfl (flagsOfBit_eq _ _)⟩
  case held =>
    have hcomparing : comparing op = false := by fin_cases hop <;> rfl
    simp [applyOp_eq_refuse (heldCheck_eq_held hh hne), hcomparing, refuse]

/-- Settles O35: the compare flags are those of `compareFlags_eq` in every case, the record goes by the comparison with A. -/
theorem compareOperations : Obligations.CompareOperations := by
  unfold Obligations.CompareOperations
  intro orig a b r d signed difference compare passes
  have hcompare : compare = compareFlags r.value a := (compareFlags_eq r.value a).symm
  rw [hcompare]
  have hcas (hr : passes) : applyOp .cas orig a b r = opCas orig a b r := applyOp_eq_opPassed (heldCheck_eq_none hr rfl)
  have hstep (hr : passes) : applyOp .step orig a b r = opStep orig a r := applyOp_eq_opPassed (heldCheck_eq_none hr rfl)
  refine ⟨fun hr he => ⟨?flags, ?cas, r.value + 1, ?value, ?step⟩, fun hr hne => ?unequal, fun hr => ?held⟩
  case flags => rw [he, compareFlags_self]
  case cas => rw [hcas hr, opCas, if_pos he, flagsOfWrite_eq]; rfl
  case value => rw [he, BitVec.toNat_add]; rfl
  case step => rw [hstep hr, opStep, if_pos he, flagsOfSum_one, ← he]; rfl
  case unequal =>
    simp only [hcas hr, hstep hr, opCas, opStep, if_neg hne]
    exact ⟨rfl, rfl⟩
  case held =>
    obtain ⟨h, hh, hother⟩ : ∃ h, r.holder = some h ∧ h ≠ orig := by
      cases hh : r.holder with
      | none => exact absurd (.inl hh) hr
      | some h => exact ⟨h, rfl, fun e => hr (.inr (by rw [hh, e]))⟩
    constructor <;> exact applyOp_eq_refuse (heldCheck_eq_held hh hother)

/-- Settles O36, holder by holder. -/
theorem holderOperations : Obligations.HolderOperations := by
  unfold Obligations.HolderOperations
  intro orig a b r
  refine ⟨fun hr => ?free, fun hr => ?own, fun h hr hne op hop => ?other⟩
  case free =>
    have hclaim : opClaim orig r = doneWith (writeHolder r (some orig)) := by simp only [opClaim, hr]
    have hneeds {op : CellOp} (hop : needsHolder op = true) : heldCheck op orig r.holder = some .notHeld := by
      simp [heldCheck, hr, hop]
    exact ⟨(applyOp_eq_opPassed (heldCheck_eq_none (.inl hr) rfl)).trans hclaim, applyOp_eq_refuse (hneeds rfl),
      applyOp_eq_refuse (hneeds rfl)⟩
  case own =>
    have hpass (op : CellOp) : applyOp op orig a b r = opPassed op orig a b r :=
      applyOp_eq_opPassed (by simp [heldCheck, hr])
    refine ⟨?_, hpass .release, ?_⟩
    · rw [hpass]; simp only [opPassed, opClaim, hr]
    · rw [hpass, ← flagsOfWrite_eq]; rfl
  case other =>
    have hcomparing : comparing op = false := by rcases hop with rfl | rfl | rfl <;> rfl
    simp [applyOp_eq_refuse (heldCheck_eq_held hr hne), hcomparing, refuse]

end Sys2Proof.Machine
end

section
/-! SUPPORT. Power and the RST input (R10, R116, R167, R168): what an RST leaves of the standing and the table, and the five events. -/

namespace Sys2Proof.Machine

/-- The standing and the retained epoch that an RST leaves, told apart (R7, R9, R116). -/
theorem standingAtRst_eq (s : State) : standingAtRst s =
    (if s.vu.station = .member ∨ s.vu.standing = .retained then .retained else .none,
      if s.vu.station = .member then s.vu.view.epoch
        else if s.vu.standing = .retained then s.vu.retainedEpoch else 0) := by
  unfold standingAtRst
  split_ifs <;> simp_all

/-- An RST keeps the table where the station is MEMBER or its copy RETAINED (R8, R10). -/
theorem tableAtRst_eq (s : State) : tableAtRst s =
    if s.vu.station = .member ∨ s.vu.standing = .retained then { s.tu with known := 0 } else .powerOn := by
  simp only [tableAtRst, standingAtRst_eq]
  split_ifs <;> simp_all

/-- Settles O4: each event by the branches of its definition. -/
theorem powerAndRst : Obligations.PowerAndRst := by
  unfold Obligations.PowerAndRst
  intro s
  refine ⟨?powerOn, ?powerLoss, fun straps hp => ?holdEnd, fun straps hp => ?noHold, fun hf => ?assert, fun hf => ?assertHeld,
    fun straps hr => ?release, fun straps hr => ?noRelease⟩
  case powerOn => exact ⟨_, rfl, rfl, rfl, rfl, rfl, rfl, rfl, rfl, rfl, rfl⟩
  case powerLoss => exact ⟨_, rfl, rfl, rfl, rfl, rfl, rfl, rfl, rfl, rfl, rfl⟩
  case holdEnd =>
    refine congrArg Host.Outcome.next ?_
    rw [endHold, if_pos hp]
    split <;> rfl
  case noHold => exact congrArg Host.Outcome.next (if_neg hp)
  case assert =>
    have he : assertRst s = (rstValues s).setRst true := by simp [assertRst, hf]
    refine ⟨_, congrArg Host.Outcome.next he, rfl, rfl, rfl, ?_, tableAtRst_eq s, rfl, rfl, rfl, rfl, rfl⟩
    simp only [rstValues, State.setRst_vu, State.setTu_vu, State.setVu_vu, standingAtRst_eq]
    rfl
  case assertHeld => exact congrArg Host.Outcome.next (if_pos hf)
  case release =>
    refine congrArg Host.Outcome.next ?_
    rw [releaseRst, if_pos hr]
    split <;> rfl
  case noRelease => exact congrArg Host.Outcome.next (if_neg (by simp [hr]))

end Sys2Proof.Machine
end

section
/-! SUPPORT. The line code and the check (R50, R51, R169): what one arbitration bit leaves among the stations sending, and what one bit
fed into the check register does to its bits. -/

namespace Sys2Proof.Machine

/-! ## Arbitration -/

/-- The stations left after an arbitration bit are those whose bit is lowest among the stations still sending (R51). -/
theorem mem_arbitrationBit (l : List (BitVec 6)) (i : Nat) (x : BitVec 6) :
    x ∈ arbitrationBit l i ↔ x ∈ l ∧ ∀ y ∈ l, x.getLsbD i ≤ y.getLsbD i := by
  unfold arbitrationBit
  split
  · rename_i h
    obtain ⟨z, hz, hzi⟩ := List.any_eq_true.mp h
    have hzi' : z.getLsbD i = false := by simpa using hzi
    rw [List.mem_filter]
    refine and_congr_right fun hx => ⟨fun hxi y hy => ?_, fun hle => ?_⟩
    · simp_all
    · simpa using Bool.eq_false_of_le_false (hzi' ▸ hle z hz)
  · rename_i h
    have hone : ∀ y ∈ l, y.getLsbD i = true := by simpa using h
    refine ⟨fun hx => ⟨hx, fun y hy => ?_⟩, And.left⟩
    rw [hone y hy]
    exact Bool.le_true _

/-- A field is of `l` and lowest there by its bits from bit `k` up. -/
def LowestFrom (k : Nat) (l : List (BitVec 6)) (x : BitVec 6) : Prop :=
  x ∈ l ∧ ∀ y ∈ l, x.toNat / 2 ^ k ≤ y.toNat / 2 ^ k

/-- The bits from bit `k` up are bit `k` below those from bit `k + 1` up. -/
theorem toNat_div_two_pow (x : BitVec 6) (k : Nat) :
    x.toNat / 2 ^ k = 2 * (x.toNat / 2 ^ (k + 1)) + (x.getLsbD k).toNat := by
  have hbit : (x.getLsbD k).toNat = x.toNat / 2 ^ k % 2 := by
    rw [BitVec.getLsbD, Nat.testBit_eq_decide_div_mod_eq]
    rcases Nat.mod_two_eq_zero_or_one (x.toNat / 2 ^ k) with h | h <;> simp [h]
  rw [hbit, Nat.pow_succ, ← Nat.div_div_eq_div_mul]
  omega

/-- One more arbitration bit, among the stations lowest by the bits above it, leaves those lowest by it too (R51). -/
theorem mem_arbitrationBit_iff_lowestFrom {l m : List (BitVec 6)} {k : Nat} (hm : ∀ x, x ∈ m ↔ LowestFrom (k + 1) l x)
    (x : BitVec 6) : x ∈ arbitrationBit m k ↔ LowestFrom k l x := by
  have hle (a b : Bool) : a ≤ b ↔ a.toNat ≤ b.toNat := by cases a <;> cases b <;> decide
  simp only [mem_arbitrationBit, hm, hle]
  constructor
  · rintro ⟨⟨hx, hup⟩, hbit⟩
    refine ⟨hx, fun y hy => ?_⟩
    rw [toNat_div_two_pow x, toNat_div_two_pow y]
    by_cases he : x.toNat / 2 ^ (k + 1) = y.toNat / 2 ^ (k + 1)
    · have := hbit y ⟨hy, fun z hz => he ▸ hup z hz⟩
      omega
    · have := hup y hy
      have := (x.getLsbD k).toNat_le
      omega
  · rintro ⟨hx, hlow⟩
    simp only [toNat_div_two_pow _ k] at hlow
    have hup : ∀ y ∈ l, x.toNat / 2 ^ (k + 1) ≤ y.toNat / 2 ^ (k + 1) := fun y hy => by
      have := hlow y hy
      have := (y.getLsbD k).toNat_le
      omega
    refine ⟨⟨hx, hup⟩, fun y hy => ?_⟩
    have := hlow y hy.1
    have := hy.2 x hx
    omega

/-- The arbitration bits from bit `k - 1` down to bit 0, among the stations lowest by the bits above them (R51). -/
theorem mem_foldl_arbitrationBit {l : List (BitVec 6)} (k : Nat) : ∀ m, (∀ x, x ∈ m ↔ LowestFrom k l x) →
    ∀ x, x ∈ (List.range k).reverse.foldl arbitrationBit m ↔ LowestFrom 0 l x := by
  induction k with
  | zero => exact fun m hm => hm
  | succ k ih =>
    intro m hm
    rw [List.range_succ, List.reverse_append]
    exact ih _ (mem_arbitrationBit_iff_lowestFrom hm)

/-- Settles O60: above bit 5 all fields are alike, and each bit in turn leaves the lowest by the bits so far. -/
theorem arbitrationLowest : Obligations.ArbitrationLowest := by
  unfold Obligations.ArbitrationLowest
  intro fields x
  have hall : ∀ y, y ∈ fields ↔ LowestFrom 6 fields y := fun y => by
    have hzero (z : BitVec 6) : z.toNat / 2 ^ 6 = 0 := Nat.div_eq_of_lt z.isLt
    simp only [LowestFrom, hzero, Nat.le_refl, implies_true, and_true]
  rw [show arbitrate fields = (List.range 6).reverse.foldl arbitrationBit fields from rfl,
    mem_foldl_arbitrationBit 6 fields hall]
  simp only [LowestFrom, Nat.pow_zero, Nat.div_one]

/-! ## The check register -/

/-- Bit 0 of the check register after a bit is the bit fed back (R169). -/
theorem checkStep_lowest (reg : BitVec 16) (b : Bool) : (checkStep reg b).getLsbD 0 = (b ^^ reg.msb) := by
  unfold checkStep
  split <;> rename_i h
  · rw [h]; simp [Config.checkPolynomial]
  · simpa using h

/-- Every other bit is the bit below it, changed where the polynomial has a term and a 1 is fed back (R169). -/
theorem checkStep_above (reg : BitVec 16) (b : Bool) (i : Nat) (hi : i + 1 < 16) :
    (checkStep reg b).getLsbD (i + 1)
      = (reg.getLsbD i ^^ ((b ^^ reg.msb) && Config.checkPolynomial.getLsbD (i + 1))) := by
  unfold checkStep
  have hlow : i < 16 := by omega
  split <;> rename_i h <;> simp [h, hi, ← BitVec.getLsbD_eq_getElem hlow]

/-- Two registers that differ stay different over a bit (R169). -/
theorem checkStep_injective (b : Bool) : Function.Injective (checkStep · b) := by
  intro r r' h
  have hbit (i : Nat) : (checkStep r b).getLsbD i = (checkStep r' b).getLsbD i := congrArg (·.getLsbD i) h
  have hmsb : r.msb = r'.msb := by
    have := hbit 0
    rwa [checkStep_lowest, checkStep_lowest, Bool.xor_right_inj] at this
  apply BitVec.eq_of_getLsbD_eq
  intro i hi
  by_cases hlast : i = 15
  · simpa [hlast, BitVec.msb_eq_getLsbD_last] using hmsb
  · have := hbit (i + 1)
    rw [checkStep_above r b i (by omega), checkStep_above r' b i (by omega), hmsb] at this
    simpa using this

/-- A bit read wrong makes the register another one (R169). -/
theorem checkStep_not (reg : BitVec 16) (b : Bool) : checkStep reg (!b) ≠ checkStep reg b := by
  intro h
  have := (checkStep_lowest reg !b).symm.trans ((congrArg (·.getLsbD 0) h).trans (checkStep_lowest reg b))
  cases b <;> cases hm : reg.msb <;> simp [hm] at this

/-- Two registers that differ stay different over the same bits (R169). -/
theorem foldl_checkStep_injective (bits : List Bool) : Function.Injective (bits.foldl checkStep ·) := by
  induction bits with
  | nil => exact Function.injective_id
  | cons b bits ih => exact ih.comp (checkStep_injective b)

/-- Settles O59: the bit read wrong makes the register another one, and the bits after it keep it so. -/
theorem checkFindsOneBit : Obligations.CheckFindsOneBit := by
  unfold Obligations.CheckFindsOneBit
  intro bits i hi h
  have hsplit : bits = bits.take i ++ bits[i] :: bits.drop (i + 1) := by simp
  have hset : bits.set i (!bits.getD i false) = bits.take i ++ (!bits[i]) :: bits.drop (i + 1) := by
    rw [List.set_eq_take_append_cons_drop, if_pos hi, List.getD_eq_getElem _ _ hi]
  rw [hset] at h
  conv at h => rhs; rw [hsplit]
  simp only [checkOf, List.foldl_append, List.foldl_cons] at h
  exact checkStep_not _ _ (foldl_checkStep_injective _ h)

end Sys2Proof.Machine
end

section
/-! SUPPORT. Commands of the line at a part that is not held, SU's refresh at the end of an attempt, and the start of an item: the frame
that it begins and what LU, SU and QU then hold (R48, R60, R80, R81). -/

namespace Sys2Proof.Machine

variable {s u : State} {i : Item} {f : Frame}

/-! ## Commands of the line -/

/-- While the part is not held, an event of the line is its operation. -/
theorem onLine_free (hf : held s = false) (g : State → State) : onLine g s = g s := by simp [onLine, hf]

/-- A command whose operation is an event of the line, at a part that is not held. -/
theorem next_onLine (hf : held s = false) (g : State → State) :
    (Host.Outcome.next (onLine g s) : Host.Outcome State Fault Refusal) = .next (g s) := by rw [onLine_free hf]

/-- SU brought into line once the attempt is over and nothing else of SU has changed. -/
theorem SendingSettled.of_su (h : u.su = { s.su with attempt := none }) : SendingSettled s (Machine.refresh u) :=
  (SendingSettled.refresh (by rw [h])).of (by rw [h]) (by rw [h]) (by rw [h]) (by rw [h]) (by rw [h]) (by rw [h]) (by rw [h])

/-! ## The start of an item -/

/-- An item whose frame is fixed becomes the attempt in progress, and LU sends it from its start bit (R48, R81). -/
theorem beginItem_of_frame (h : frameOf i s = some f) : beginItem i s =
    ((markInAttempt i s).setSu { s.su with offer := none, attempt := some ⟨i, f⟩ }).setLu (startBitLine s.lu) := by
  simp [beginItem, h]

/-- An item with no frame to send begins nothing. -/
theorem beginItem_of_none (h : frameOf i s = none) : beginItem i s = s := by simp [beginItem, h]

/-- A request or claim is marked IN-ATTEMPT wherever it stands (R133). -/
theorem markInAttempt_requests {tag : Byte} (h : i = .request tag ∨ i = .claim tag) :
    (markInAttempt i s).qu.queue = s.qu.queue.map (fun q => if q.tag = tag then { q with state := .inAttempt } else q) ∧
    (markInAttempt i s).qu.park = s.qu.park.map (fun q => if q.tag = tag then { q with state := .inAttempt } else q) := by
  rcases h with rfl | rfl <;> exact ⟨rfl, rfl⟩

/-- The frame of a request or claim carries the request (R81). -/
theorem frameOf_request {tag : Byte} {q : Request} (h : i = .request tag ∨ i = .claim tag) (hq : findRequest tag s = some q) :
    frameOf i s = some ⟨own s, s.vu.view.epoch, .cell q.op q.cell q.a q.b⟩ := by
  rcases h with rfl | rfl <;> simp [frameOf, hq]

/-- The snapshot that a TRANSFER carries, record by record (R18, R94). -/
theorem chunkSnapshot_getElem (s : State) (k : BitVec 4) (j : Fin 8) :
    (chunkSnapshot s k)[j] = cellAt s (BitVec.ofNat 7 (8 * k.toNat + j.val)) := by
  simp [chunkSnapshot, cellOfChunk]

/-- LU can begin a start bit on a line that it decodes with 12 idle bit times counted (R47, R48). -/
theorem canBegin_iff (s : State) : canBegin s = true ↔ s.lu.mode = .resting ∧ 12 ≤ s.lu.idleCount := by
  rw [canBegin, Bool.and_eq_true, beq_iff_eq, decide_eq_true_eq]
  rfl

/-- LU begins the item on offer on an idle line, unless it is of class 1 while DEFERRED is set (R48, R60). -/
theorem startOffered_begins (ho : s.su.offer = some i) (hm : s.lu.mode = .resting) (hc : 12 ≤ s.lu.idleCount)
    (hd : ¬(itemClassOne i = true ∧ s.lu.deferred = true)) : startOffered s = beginItem i s := by
  have hcan : canBegin s = true := (canBegin_iff s).mpr ⟨hm, hc⟩
  simp only [startOffered, ho, hcan, hd, not_false_eq_true, and_self, if_true]

/-- Otherwise it begins nothing (R47, R60). -/
theorem startOffered_waits (ho : s.su.offer = some i)
    (h : s.lu.mode ≠ .resting ∨ s.lu.idleCount < 12 ∨ (itemClassOne i = true ∧ s.lu.deferred = true)) :
    startOffered s = s := by
  have hno : ¬(canBegin s = true ∧ ¬(itemClassOne i = true ∧ s.lu.deferred = true)) := by
    rintro ⟨hcan, hd⟩
    obtain ⟨hm, hc⟩ := (canBegin_iff s).mp hcan
    rcases h with h | h | h
    · exact h hm
    · omega
    · exact hd h
  simp only [startOffered, ho, hno, if_false]

/-- Settles O25: `startOffered_begins` where LU may begin, with the frame that `frameOf` fixes for each item. -/
theorem frameStart : Obligations.FrameStart := by
  unfold Obligations.FrameStart
  intro s i hf ho begins me v
  have hexec : exec .frameStart s = .next (startOffered s) := next_onLine hf _
  refine ⟨fun hm hc hd => ?_, fun h => by rw [hexec, startOffered_waits ho h]⟩
  have hbegins {f : Frame} (hfr : frameOf i s = some f) : begins f := by
    rw [startOffered_begins ho hm hc hd, beginItem_of_frame hfr] at hexec
    exact ⟨_, hexec, rfl, rfl, by simp, by simp, by simp, by simp, by simp, fun tag h => markInAttempt_requests h⟩
  refine ⟨?roster, ?leave, ?join, ?found, ?drop, ?transfer, ?request⟩
  case roster | leave | found => rintro rfl; exact hbegins rfl
  case join => rintro (rfl | rfl) <;> exact hbegins rfl
  case drop => rintro m rfl hm; exact hbegins (by simp only [frameOf, hm]; rfl)
  case transfer => rintro rfl; exact ⟨_, hbegins rfl, chunkSnapshot_getElem s _⟩
  case request => exact fun tag q h hq => hbegins (frameOf_request h hq)

end Sys2Proof.Machine
end

section
/-! SUPPORT. The class-1 items after BARRIER_IDLE and after a lost arbitration: what SU has on offer when DEFERRED clears (R59, R60, R80),
and how the item of a lost arbitration waits again (R51, R82, R142). -/

namespace Sys2Proof.Machine

variable {s u t : State} {i : Item} {f : Frame} {tag : Byte} {q : Request}

/-! ## DEFERRED cleared -/

/-- The station where the idle count has reached 24: DEFERRED clear, and SU's offer worked out again (R47, R59, R81). -/
def deferredCleared (s : State) : State :=
  refresh (s.setLu { s.lu with
    deferred := false, idleCount := 24, mode := .resting, asserted := false, assertedCount := 0 })

/-- DEFERRED_CLEAR begins the class-1 item then on offer, and does no more where there is none (R59, R60). -/
theorem exec_deferredClear (hf : held s = false) (hs : s.lu.stuck = false) (hm : s.lu.mode = .waitIdle ∨ s.lu.mode = .resting) :
    exec .deferredClear s = .next (match (deferredCleared s).su.offer with
      | some i => if itemClassOne i then beginItem i (deferredCleared s) else deferredCleared s
      | none => deferredCleared s) := by
  have hb : betweenFrames s = true := by rcases hm with hm | hm <;> simp [betweenFrames, hm, hs]
  have hc : refresh (s.setLu { idleReaches Config.barrierIdle s.lu with deferred := false }) = deferredCleared s := rfl
  refine (next_onLine hf _).trans (congrArg _ ?_)
  rw [deferredClear, if_pos hb, hc]
  cases ho : (deferredCleared s).su.offer with
  | none => simp only [ho]
  | some i =>
    have hbegins : startOffered (deferredCleared s) = beginItem i (deferredCleared s) :=
      startOffered_begins ho rfl (Nat.le_of_ble_eq_true rfl) fun h => Bool.false_ne_true h.2
    simp only [ho, hbegins]

/-- SU at that station, where no attempt was in progress (R79, R80). -/
theorem deferredCleared_settled (ha : s.su.attempt = none) : SendingSettled s (deferredCleared s) :=
  SendingSettled.of_su (by rw [← ha]; rfl)

/-- A class-1 item on offer there is begun, with the frame that its kind fixes (R60, R81). -/
theorem exec_deferredClear_begins (hf : held s = false) (hs : s.lu.stuck = false)
    (hm : s.lu.mode = .waitIdle ∨ s.lu.mode = .resting) (ho : (deferredCleared s).su.offer = some i)
    (hi : itemClassOne i = true) (hfr : frameOf i (deferredCleared s) = some f) :
    ∃ t, exec .deferredClear s = .next t ∧ t.lu.mode = .sending ∧ t.lu.driver = .ownFrame ∧ t.lu.idleCount = 0 ∧
      t.lu.checkReg = 0xFFFF ∧ t.su.offer = none ∧ t.su.attempt = some ⟨i, f⟩ := by
  have hexec := exec_deferredClear hf hs hm
  simp only [ho, hi, if_true, beginItem_of_frame hfr] at hexec
  exact ⟨_, hexec, rfl, rfl, rfl, rfl, rfl, rfl⟩

/-- What a MEMBER that owes no item of class 0 has on offer there: the first of its class-1 items (R79, R80). -/
theorem deferredCleared_offer (ha : s.su.attempt = none) (hst : s.vu.station = .member) (hod : s.su.owedDrop = none)
    (hlp : s.vu.leavePending = false) (hr : ¬RosterOwed s) :
    (TransferOwed s → (deferredCleared s).su.offer = some .transfer) ∧
    (¬TransferOwed s → ∀ tag rest, s.qu.woken = tag :: rest → (deferredCleared s).su.offer = some (.claim tag)) ∧
    (¬TransferOwed s → ∀ q rest, s.qu.woken = [] → s.qu.queue = q :: rest → q.state = .queued →
      (deferredCleared s).su.offer = some (.request q.tag)) := by
  obtain ⟨-, hoffered, hdrop, -⟩ := deferredCleared_settled ha
  obtain ⟨-, -, -, hmember⟩ := hoffered
  obtain ⟨-, -, -, -, htransfer, hclaim, hrequest, -⟩ := hmember hst
  have hleave : ¬LeaveReady s := fun h => by rw [LeaveReady, hlp] at h; exact Bool.false_ne_true h.1
  have hclass : ¬((deferredCleared s).su.owedDrop.isSome = true ∨ RosterOwed s ∨ LeaveReady s) ∧
      (deferredCleared s).lu.deferred = false := by
    refine ⟨?_, rfl⟩
    rw [hdrop, hod]
    simp [hr, hleave]
  refine ⟨htransfer hclass, fun ht tag rest hw => hclaim tag rest hclass ht hw, fun ht q rest hw hqueue hqs => ?_⟩
  exact (hrequest q rest hclass ht hw hqueue).trans (if_pos hqs)

/-- Settles O26: what `deferredCleared_offer` puts first is begun by `exec_deferredClear_begins`. -/
theorem deferredClears : Obligations.DeferredClears := by
  unfold Obligations.DeferredClears
  intro s hf hs hm ha
  have hexec := exec_deferredClear hf hs hm
  have hsettled := deferredCleared_settled ha
  refine ⟨⟨_, hexec, ?_⟩, fun hst => ?_, fun hst hod hlp => ⟨fun ⟨hsup, hro, hrem⟩ => ?_, fun hno => ?_⟩⟩
  · cases ho : (deferredCleared s).su.offer with
    | none => exact ⟨rfl, rfl, rfl, rfl, fun _ => hsettled⟩
    | some i =>
      dsimp only
      split
      · refine ⟨by simp; rfl, by simp; rfl, by simp; rfl, by simp; rfl, fun hn => ?_⟩
        cases hfr : frameOf i (deferredCleared s) with
        | none => rw [beginItem_of_none hfr]; exact hsettled
        | some f => simp [beginItem_of_frame hfr] at hn
      · exact ⟨rfl, rfl, rfl, rfl, fun _ => hsettled⟩
  · have ho : (deferredCleared s).su.offer = none := hsettled.2.1.1 hst
    simp only [ho] at hexec
    exact ⟨_, hexec, rfl, rfl⟩
  · have hr : ¬RosterOwed s := fun h => by simp [RosterOwed, hro] at h
    obtain ⟨ho, -, -⟩ := deferredCleared_offer ha hst hod hlp hr
    exact ⟨_, exec_deferredClear_begins hf hs hm (ho ⟨hst, hsup, hrem, hro⟩) rfl rfl, chunkSnapshot_getElem s _⟩
  · have hr : ¬RosterOwed s := fun ⟨_, hsup, hro⟩ => by
      rcases hno with h | ⟨h, -⟩
      · exact h hsup
      · simp [h] at hro
    have ht : ¬TransferOwed s := fun ⟨_, hsup, hrem, _⟩ => by
      rcases hno with h | ⟨-, h⟩
      · exact h hsup
      · simp [h] at hrem
    obtain ⟨-, hclaim, hrequest⟩ := deferredCleared_offer ha hst hod hlp hr
    refine ⟨fun tag rest q hw hq => ?_, fun q rest hw hqueue hqs => ?_⟩
    · exact exec_deferredClear_begins hf hs hm (hclaim ht tag rest hw) rfl (frameOf_request (.inr rfl) hq)
    · have hq : findRequest q.tag (deferredCleared s) = some q := by
        rw [findRequest, show (deferredCleared s).qu = s.qu from rfl, hqueue, List.cons_append,
          List.find?_cons_of_pos (by simp)]
      exact exec_deferredClear_begins hf hs hm (hrequest ht q rest hw hqueue hqs) rfl (frameOf_request (.inl rfl) hq)

/-! ## A lost arbitration -/

/-- QU once a request of which no frame was applied is retired, as the statements name it (R143, R144). -/
theorem retire_unapplied_qu (e : Ending) (q : Request) (s : State) :
    (retire (recordUnapplied e q s) s).qu = retiredAs e q s := by
  rw [retire_qu, recordUnapplied_eq]
  rfl

/-- The request that an item names (R78). -/
theorem requestOfItem_eq (h : i = .request tag ∨ i = .claim tag) (s : State) : requestOfItem i s = findRequest tag s := by
  rcases h with rfl | rfl <;> rfl

/-- A lost arbitration at an item that names no request leaves QU as it was (R51). -/
theorem lostArbitration_system (ha : s.su.attempt = some ⟨i, f⟩)
    (hi : i ∈ [Item.drop, .roster, .leave, .probe, .found, .stallJoin, .transfer]) : (lostArbitration s).qu = s.qu := by
  simp only [List.mem_cons, List.not_mem_nil, or_false] at hi
  rcases hi with rfl | rfl | rfl | rfl | rfl | rfl | rfl <;> simp [lostArbitration, ha, requestOfItem, returnItem]

/-- A lost arbitration at a request or claim: it is retired where it is marked for cancel, and waits again otherwise (R51, R142; log
entry 7). -/
theorem lostArbitration_request (ha : s.su.attempt = some ⟨i, f⟩) (h : i = .request tag ∨ i = .claim tag)
    (hq : findRequest tag s = some q) : (lostArbitration s).qu =
      if q.cancelMark then retiredAs .cancelled q s else (returnItem i s).qu := by
  have hreq : requestOfItem i (s.setSu { s.su with attempt := none }) = some q := (requestOfItem_eq h _).trans hq
  simp only [lostArbitration, ha, hreq]
  split
  · exact retire_unapplied_qu _ _ _
  · rcases h with rfl | rfl <;> rfl

/-- Settles O27: SU has no attempt any more, LU receives, and QU is what `lostArbitration_request` says. -/
theorem arbitrationLost : Obligations.ArbitrationLost := by
  unfold Obligations.ArbitrationLost
  intro s i f hf hm ha waits
  have hexec : exec .lostArbitration s = .next (refresh ((lostArbitration s).setLu
      { (lostArbitration s).lu with mode := .receiving, driver := .released })) := by
    refine (next_onLine hf _).trans (congrArg _ ?_)
    simp only [loseArbitration, hm]
  have hsu : (lostArbitration s).su = { s.su with attempt := none } := by
    have hframe := lostArbitration_frame s
    have hnone := lostArbitration_attempt s
    generalize (lostArbitration s).su = x at hframe hnone ⊢
    cases x; simp_all
  refine ⟨_, hexec, by simp, by simp, by simp, by simp, by simp, SendingSettled.of_su hsu, fun tag q hq hc => ⟨?_, ?_⟩,
    fun tag q hi hq hc => ?_, fun hi => ?_⟩
  · rintro rfl
    exact (lostArbitration_request ha (.inl rfl) hq).trans (by rw [hc]; rfl)
  · rintro rfl
    exact (lostArbitration_request ha (.inr rfl) hq).trans (by rw [hc]; rfl)
  · exact (lostArbitration_request ha hi hq).trans (by rw [hc]; rfl)
  · exact lostArbitration_system ha hi

end Sys2Proof.Machine
end

section
/-! SUPPORT. A self fault (R62, R83, R90 to R93): an empty missing set owes no DROP, so that what follows an attempt is its record one
higher and the limit of its kind; and what it leaves of LU. -/

namespace Sys2Proof.Machine

variable {s u : State} {i : Item} {f : Frame} {tag : Byte} {q : Request} {l : Lu}

/-! ## LU and the attempt after a fault -/

/-- LU is as `l` but for DEFERRED, and no attempt is in progress. -/
def Idled (l : Lu) (u : State) : Prop := (∃ d, u.lu = { l with deferred := d }) ∧ u.su.attempt = none

theorem Idled.congr {t : State} (h : Idled l u) (hl : t.lu = u.lu) (ha : t.su.attempt = u.su.attempt) : Idled l t := by
  unfold Idled at *
  rw [hl, ha]
  exact h

/-- A withdrawal writes no more of LU than DEFERRED (R114). -/
theorem Idled.withdraw (h : Idled l u) : Idled l (withdraw u) := by
  obtain ⟨⟨d, hd⟩, ha⟩ := h
  cases hs : u.vu.station
  case member => rw [withdraw_member u hs]; exact ⟨⟨false, by simp [emptySending, hd]⟩, by simp [Su.empty]⟩
  case joining => rw [withdraw_joining u hs]; exact ⟨⟨false, by simp [emptySending, hd]⟩, by simp [Su.empty]⟩
  all_goals rw [withdraw_outside u (by simp [hs, inView])]; exact ⟨⟨d, hd⟩, ha⟩

/-- Nor does a halt where LU waits for idle with its driver released (R115). -/
theorem Idled.haltStation (h : Idled l u) (hm : l.mode = .waitIdle) (hr : l.driver = .released) : Idled l (haltStation u) := by
  obtain ⟨⟨d, hd⟩, ha⟩ := h
  by_cases hs : u.vu.station = .halted
  · rw [haltStation_halted u hs]; exact ⟨⟨d, hd⟩, ha⟩
  · exact ⟨⟨false, by simp [Machine.haltStation, hs, hd, haltLine, hm, hr]⟩, by simp [Machine.haltStation, hs, Su.empty]⟩

/-- What a withdrawal, a halt and every operation that leaves LU, the attempt and the frame under judgement keep, an incomplete attempt
of any item keeps (R83 to R93). -/
theorem incompleteAttempt_keeps {P : State → Prop}
    (hframe : ∀ {u t : State}, P u → t.lu = u.lu → t.su.attempt = u.su.attempt → t.vu.judged = u.vu.judged → P t)
    (hwithdraw : ∀ {u : State}, P u → P (withdraw u)) (hhalt : ∀ {u : State}, P u → P (haltStation u))
    (h : P u) (i : Item) (m : Mask) : P (incompleteAttempt i m u) := by
  have hlimit {w : State} (hw : P w) : P (attemptLimit i w) := by
    unfold attemptLimit
    split
    · exact hframe hw (by simp) (by simp) (by simp)
    · cases i <;> simp only
      case request | claim =>
        split
        · exact hframe hw (by simp) (by simp) (by simp)
        · exact hw
      case drop => exact hwithdraw hw
      case leave => exact hhalt hw
      case roster | transfer => exact hframe hw (by simp) (by simp) (by simp)
      case stallJoin => exact hframe hw (by simp) (by simp) (by simp)
      case probe | found => exact hw
  have hdecide {w : State} (hw : P w) : P (decideItem i w) := by
    unfold decideItem
    split
    · exact hwithdraw hw
    · exact hlimit (hframe hw (by simp) (by simp) (by simp))
    · exact hlimit hw
  have hweigh {w : State} (hw : P w) : P (weighMiss i w) := by
    unfold weighMiss
    split
    · split
      · exact hframe hw (by simp) (by simp) (by simp)
      · exact hdecide hw
    · exact hdecide hw
  unfold incompleteAttempt
  split
  · exact hframe h (by simp) (by simp) (by simp)
  · exact hframe h (by simp) (by simp) (by simp)
  all_goals exact hweigh (hframe h (by simp) (by simp) (by simp))

/-- An incomplete attempt writes no more of LU than DEFERRED where LU waits for idle with its driver released. -/
theorem Idled.incompleteAttempt (h : Idled l u) (hm : l.mode = .waitIdle) (hr : l.driver = .released) (i : Item) (m : Mask) :
    Idled l (incompleteAttempt i m u) :=
  incompleteAttempt_keeps (P := Idled l) (fun hw hl ha _ => hw.congr hl ha) Idled.withdraw (fun hw => hw.haltStation hm hr) h i m

/-- A withdrawal leaves no frame under judgement where there was none (R114). -/
theorem withdraw_judged (h : u.vu.judged = none) : (withdraw u).vu.judged = none := by
  cases hs : u.vu.station
  case member => simp [withdraw_member u hs]
  case joining => simp [withdraw_joining u hs]
  all_goals rw [withdraw_outside u (by simp [hs, inView])]; exact h

/-- Nor does an incomplete attempt. -/
theorem incompleteAttempt_judged (h : u.vu.judged = none) (i : Item) (m : Mask) : (incompleteAttempt i m u).vu.judged = none := by
  refine incompleteAttempt_keeps (P := fun w => w.vu.judged = none) (fun hw _ _ hj => hj.trans hw) withdraw_judged (fun {w} hw => ?_) h i m
  by_cases hs : w.vu.station = .halted
  · rwa [haltStation_halted w hs]
  · exact (haltStation_standing hs).2.1

/-! ## An empty missing set -/

/-- A record one attempt with an empty missing set later (R83). -/
theorem recordMiss_empty (r : AttemptRec) : recordMiss 0 r = faultedRecord r := by
  simp [recordMiss, faultedRecord, appendMissing, Config.historyDepth]

/-- No station is missing from every entry of a history that ends in an empty set. -/
theorem sharedMisses_faultedRecord (r : AttemptRec) : sharedMisses (faultedRecord r).history = 0 := by
  have hlast : (faultedRecord r).history = r.history.drop (r.history.length - 2) ++ [0] :=
    List.drop_append_of_le_length (Nat.sub_le _ _)
  rw [hlast, sharedMisses, List.foldl_append]
  exact BitVec.and_zero

/-- The drop decision keeps an item whose record ends in an empty missing set, or is new (R85). -/
theorem dropDecision_keep {r : AttemptRec} (h : sharedMisses r.history = 0 ∨ r.history = []) (i : Item) (s : State) :
    dropDecision i r s = .keep := by
  unfold dropDecision
  refine if_pos ?_
  rcases h with h | h
  · exact .inr (by rw [h]; exact BitVec.zero_and)
  · exact .inl (by rw [h]; decide)

/-- The request of a tag after a change of the requests of that tag, which keeps their tag. -/
theorem findRequest_updateRequest {g : Request → Request} (hg : ∀ r, (g r).tag = r.tag) (tag : Byte) (s : State) :
    findRequest tag (updateRequest tag g s) = (findRequest tag s).map g := by
  have hmap (l : List Request) : (l.map fun r => if r.tag = tag then g r else r).find? (fun r => r.tag == tag)
      = (l.find? fun r => r.tag == tag).map g := by
    induction l with
    | nil => rfl
    | cons r l ih => by_cases hr : r.tag = tag <;> simp [hr, hg, ih]
  unfold findRequest updateRequest
  rw [State.setQu_qu, ← List.map_append]
  exact hmap _

/-- The items that are not of a request, the JOIN and the FOUND of probing left out: those that SU keeps a record of (R78, R79). -/
def systemItem : Item → Bool
  | .drop | .roster | .leave | .stallJoin | .transfer => true
  | .probe | .found | .claim _ | .request _ => false

/-- A system item's record is the one last written. -/
theorem recordOf_setRecord (hi : systemItem i = true) (r : AttemptRec) (s : State) : recordOf i (setRecord i r s) = r := by
  cases i
  case probe | found | claim | request => cases hi
  all_goals rfl

/-- An item whose record owes no DROP is left to the attempt limit (R85). -/
theorem decideItem_keep (h : sharedMisses (recordOf i s).history = 0 ∨ (recordOf i s).history = []) :
    decideItem i s = attemptLimit i s := by
  simp only [decideItem, dropDecision_keep h]

/-- A self fault of a system item: its record one attempt later, and the attempt limit (R83, R90). -/
theorem incompleteAttempt_system (hi : systemItem i = true) (s : State) :
    incompleteAttempt i 0 s = attemptLimit i (setRecord i (faultedRecord (recordOf i s)) s) := by
  have hkeep : decideItem i (setRecord i (faultedRecord (recordOf i s)) s)
      = attemptLimit i (setRecord i (faultedRecord (recordOf i s)) s) :=
    decideItem_keep (.inl (by rw [recordOf_setRecord hi]; exact sharedMisses_faultedRecord _))
  rw [← hkeep, ← recordMiss_empty]
  cases i
  case probe | found | claim | request => cases hi
  all_goals rfl

/-- Before the limit an item waits for another attempt (R90). -/
theorem attemptLimit_waits (h : (recordOf i s).count < 8) : attemptLimit i s = returnItem i s := if_pos h

/-! ## A request or claim -/

/-- A request one self fault later (R83). -/
def faultedRequest (q : Request) : Request := { q with attempts := faultedRecord q.attempts }

/-- A request or claim at its self fault, its record one attempt later. -/
theorem findRequest_setRecord (hi : i = .request tag ∨ i = .claim tag) (hq : findRequest tag s = some q) :
    findRequest tag (setRecord i (faultedRecord q.attempts) s) = some (faultedRequest q) := by
  have hset : setRecord i (faultedRecord q.attempts) s
      = updateRequest tag (fun r => { r with attempts := faultedRecord q.attempts }) s := by rcases hi with rfl | rfl <;> rfl
  rw [hset, findRequest_updateRequest (by simp), hq]
  rfl

/-- The record of a request or claim is the one that its request carries (R78). -/
theorem recordOf_request (hi : i = .request tag ∨ i = .claim tag) (hq : findRequest tag s = some q) :
    recordOf i s = q.attempts := by
  rcases hi with rfl | rfl <;> simp [recordOf, hq]

/-- A self fault of a request or claim: retired CANCELLED where it is marked, waiting again before its 8th attempt, and FAILED at it
(R90, R92, R142). -/
theorem incompleteAttempt_request (hi : i = .request tag ∨ i = .claim tag) (hq : findRequest tag s = some q) :
    let w := setRecord i (faultedRecord q.attempts) s
    incompleteAttempt i 0 s =
      if q.cancelMark then retire (recordUnapplied .cancelled (faultedRequest q) w) w
      else if q.attempts.count < 7 then returnItem i w
      else retire (recordUnapplied .failed (faultedRequest q) w) w := by
  intro w
  have hw : findRequest tag w = some (faultedRequest q) := findRequest_setRecord hi hq
  have hreq : requestOfItem i w = some (faultedRequest q) := (requestOfItem_eq hi w).trans hw
  have hrec : recordOf i w = faultedRecord q.attempts := recordOf_request hi hw
  have hweigh : incompleteAttempt i 0 s = weighMiss i w := by
    have hmiss : recordMiss 0 (recordOf i s) = faultedRecord q.attempts := by rw [recordMiss_empty, recordOf_request hi hq]
    rcases hi with rfl | rfl <;> simp only [incompleteAttempt, hmiss, w]
  have hdecide : decideItem i w = attemptLimit i w := decideItem_keep (.inl (by rw [hrec]; exact sharedMisses_faultedRecord _))
  have hlimit : attemptLimit i w = if q.attempts.count < 7 then returnItem i w
      else retire (recordUnapplied .failed (faultedRequest q) w) w := by
    have hcount : (recordOf i w).count < Config.attemptLimit ↔ q.attempts.count < 7 := by
      rw [hrec]; exact Nat.succ_lt_succ_iff (b := 7)
    rcases hi with rfl | rfl <;> simp only [attemptLimit, hcount, hreq]
  rw [hweigh, weighMiss, hreq, hdecide, hlimit]
  rfl

/-- A request left out of QU leaves it as it would have before its record was written. -/
theorem retiredAs_setRecord (hi : i = .request tag ∨ i = .claim tag) (e : Ending) (c : Request) (hc : c.tag = tag) (r : AttemptRec)
    (s : State) : retiredAs e c (setRecord i r s) = retiredAs e c s := by
  have hfilter (l : List Request) : (l.map fun q => if q.tag = tag then { q with attempts := r } else q).filter (·.tag ≠ tag)
      = l.filter (·.tag ≠ tag) := by
    induction l with
    | nil => rfl
    | cons q l ih => by_cases hq : q.tag = tag <;> simp_all
  have hset : setRecord i r s = updateRequest tag (fun q => { q with attempts := r }) s := by rcases hi with rfl | rfl <;> rfl
  rw [hset]
  unfold retiredAs
  rw [hc]
  simp only [updateRequest, State.setQu_qu, hfilter]
  rfl

/-! ## The attempt over -/

/-- `u` is `s` with the attempt at a frame `f` over: SU has none in progress, DEFERRED is set for a class-1 frame, and LU may have
given the line up (R59, R82). -/
structure AttemptOver (f : Frame) (s u : State) : Prop where
  vu : u.vu = s.vu
  tu : u.tu = s.tu
  qu : u.qu = s.qu
  wu : u.wu = s.wu
  hp : u.hp = s.hp
  su : u.su = { s.su with attempt := none }
  deferred : u.lu.deferred = (s.lu.deferred || classOne f.body)

/-- The end of an attempt at which LU is `l`, with DEFERRED as it was. -/
theorem attemptOver_endAttempt (s : State) (i : Item) (f : Frame) (hl : l.deferred = s.lu.deferred) :
    AttemptOver f s (endAttempt ⟨i, f⟩ (s.setLu l)) :=
  ⟨rfl, rfl, rfl, rfl, rfl, rfl, by rw [← hl]; rfl⟩

/-- Entries of other tags are left by a change of the requests of one. -/
theorem map_other_tags {g : Request → Request} {l : List Request} (h : tag ∉ l.map (·.tag)) :
    (l.map fun r => if r.tag = tag then g r else r) = l := by
  have hid : ∀ r ∈ l, (if r.tag = tag then g r else r) = id r := fun r hr => if_neg fun e => h (List.mem_map.2 ⟨r, hr, e⟩)
  rw [List.map_congr_left hid, List.map_id]

/-- Where tags are distinct, a change of the requests of a tag is a change of the one request that bears it. -/
theorem map_distinct_tag {g : Request → Request} {l : List Request} (hn : (l.map (·.tag)).Nodup) (hm : q ∈ l) (ht : q.tag = tag) :
    (l.map fun r => if r.tag = tag then g r else r) = l.map fun r => if r.tag = tag then g q else r := by
  refine List.map_congr_left fun r hr => ?_
  by_cases hrt : r.tag = tag
  · rw [List.inj_on_of_nodup_map hn hr hm (hrt.trans ht.symm)]
  · rw [if_neg hrt, if_neg hrt]

/-- A self fault of a request or claim, with SU in line again (R83, R90, R92, R142). -/
theorem AttemptOver.request (h : AttemptOver f s u) (hi : i = .request tag ∨ i = .claim tag) (hq : findRequest tag s = some q) :
    let t := refresh (incompleteAttempt i 0 u)
    (t.tu = s.tu ∧ t.wu = s.wu ∧ t.lu.deferred = (s.lu.deferred || classOne f.body)) ∧ t.vu = s.vu ∧ SendingSettled s t ∧
      (q.cancelMark = true → t.qu = retiredAs .cancelled (faultedRequest q) s) ∧
      (q.cancelMark = false → q.attempts.count < 7 →
        t.qu = (returnItem i (setRecord i (faultedRecord q.attempts) s)).qu) ∧
      (q.cancelMark = false → q.attempts.count = 7 → t.qu = retiredAs .failed (faultedRequest q) s) := by
  intro t
  have hu : findRequest tag u = some q := by rw [findRequest, h.qu]; exact hq
  have htag : (faultedRequest q).tag = tag := (findRequest_mem hq).2
  have hretired (e : Ending) : retiredAs e (faultedRequest q) (setRecord i (faultedRecord q.attempts) u)
      = retiredAs e (faultedRequest q) s := by
    rw [retiredAs_setRecord hi e _ htag]
    simp only [retiredAs, unappliedRecord, cellAt, h.qu, h.vu, h.tu]
  have hreturn : (returnItem i (setRecord i (faultedRecord q.attempts) u)).qu
      = (returnItem i (setRecord i (faultedRecord q.attempts) s)).qu := by
    rcases hi with rfl | rfl <;>
      simp only [returnItem, requeueHead, requeueClaim, setRecord, updateRequest, State.setQu_qu, h.qu]
  have hrun := incompleteAttempt_request hi hu
  have hquOnly : incompleteAttempt i 0 u = u.setQu (incompleteAttempt i 0 u).qu := by
    rw [hrun]
    rcases hi with rfl | rfl <;> split_ifs <;> rfl
  have hqu : t.qu = (incompleteAttempt i 0 u).qu := rfl
  have htu : t.tu = (incompleteAttempt i 0 u).tu := rfl
  refine ⟨⟨?_, ?_, ?_⟩, ?_, ?_, fun hc => ?_, fun hc hn => ?_, fun hc hn => ?_⟩
  · exact (congrArg State.tu hquOnly).trans h.tu
  · exact (congrArg State.wu hquOnly).trans h.wu
  · exact (congrArg (·.lu.deferred) hquOnly).trans h.deferred
  · exact (congrArg State.vu hquOnly).trans h.vu
  · exact SendingSettled.of_su ((congrArg State.su hquOnly).trans h.su)
  · rw [hqu, hrun, if_pos hc, retire_unapplied_qu, hretired]
  · rw [hqu, hrun, if_neg (by simp [hc]), if_pos hn, hreturn]
  · rw [hqu, hrun, if_neg (by simp [hc]), if_neg (by omega), retire_unapplied_qu, hretired]

/-- Two changes of the requests of a tag are one. -/
theorem updateRequest_updateRequest {g g' : Request → Request} (hg : ∀ r, (g r).tag = r.tag) (tag : Byte) (s : State) :
    updateRequest tag g' (updateRequest tag g s) = updateRequest tag (g' ∘ g) s := by
  have hmap (l : List Request) : (l.map fun r => if r.tag = tag then g r else r).map (fun r => if r.tag = tag then g' r else r)
      = l.map fun r => if r.tag = tag then g' (g r) else r := by
    rw [List.map_map]
    refine List.map_congr_left fun r _ => ?_
    by_cases hr : r.tag = tag <;> simp [hr, hg]
  simp only [updateRequest, State.setQu_qu, hmap]
  rfl

/-- The head of the queue waiting again after a self fault (R83, R137). -/
theorem requeued_after_fault (hn : ((s.qu.queue ++ s.qu.park).map (·.tag)).Nodup) (hq : q ∈ s.qu.queue) (ht : q.tag = tag) :
    (returnItem (.request tag) (setRecord (.request tag) (faultedRecord q.attempts) s)).qu = { s.qu with
      queue := s.qu.queue.map fun r => if r.tag = tag then { faultedRequest q with state := .queued } else r } := by
  rw [List.map_append, List.nodup_append] at hn
  obtain ⟨hqueue, -, hdisjoint⟩ := hn
  have hpark : tag ∉ s.qu.park.map (·.tag) := fun hp => hdisjoint tag (List.mem_map.2 ⟨q, hq, ht⟩) tag hp rfl
  simp only [returnItem, requeueHead, setRecord]
  rw [updateRequest_updateRequest (by intro r; rfl)]
  simp only [updateRequest, State.setQu_qu, map_distinct_tag hqueue hq ht, map_other_tags hpark]
  rfl

/-- A woken claim waiting again after a self fault, first in woken order (R83, R140). -/
theorem reparked_after_fault (hn : ((s.qu.queue ++ s.qu.park).map (·.tag)).Nodup) (hq : q ∈ s.qu.park) (ht : q.tag = tag) :
    (returnItem (.claim tag) (setRecord (.claim tag) (faultedRecord q.attempts) s)).qu = { s.qu with
      park := s.qu.park.map fun r => if r.tag = tag then { faultedRequest q with state := .eligible } else r
      woken := tag :: s.qu.woken } := by
  rw [List.map_append, List.nodup_append] at hn
  obtain ⟨-, hpark, hdisjoint⟩ := hn
  have hqueue : tag ∉ s.qu.queue.map (·.tag) := fun hp => hdisjoint tag hp tag (List.mem_map.2 ⟨q, hq, ht⟩) rfl
  simp only [returnItem, requeueClaim, setRecord]
  rw [updateRequest_updateRequest (by intro r; rfl)]
  simp only [updateRequest, State.setQu_qu, map_distinct_tag hpark hq ht, map_other_tags hqueue]
  rfl

/-- A system item's record does not look at the attempt. -/
theorem AttemptOver.recordOf_system (h : AttemptOver f s u) (hi : systemItem i = true) : recordOf i u = recordOf i s := by
  cases i
  case probe | found | claim | request => cases hi
  all_goals simp only [recordOf, h.su]

/-- A record written after the attempt and SU brought into line, seen from the state before it. -/
theorem AttemptOver.setRecord_settled (h : AttemptOver f s u) (hi : systemItem i = true) (r : AttemptRec) :
    let t := refresh (setRecord i r u)
    (t.tu = s.tu ∧ t.wu = s.wu ∧ t.lu.deferred = (s.lu.deferred || classOne f.body)) ∧ t.vu = s.vu ∧ t.qu = s.qu ∧
      SendingSettled (setRecord i r s) t := by
  have hsu : (setRecord i r u).su = { (setRecord i r s).su with attempt := none } := by
    cases i
    case probe | found | claim | request => cases hi
    all_goals simp only [setRecord, State.setSu_su, h.su]
  have hqu : (setRecord i r u).qu = u.qu := by
    cases i
    case probe | found | claim | request => cases hi
    all_goals rfl
  exact ⟨⟨by simp [h.tu], by simp [h.wu], by simp [h.deferred]⟩, by simp [h.vu], by simp [hqu, h.qu], SendingSettled.of_su hsu⟩

/-- A self fault of a system item: below the limit its record is one attempt later, and at it the limit's action follows (R83, R90). -/
theorem AttemptOver.system (h : AttemptOver f s u) (hi : systemItem i = true) :
    ((recordOf i s).count < 7 → incompleteAttempt i 0 u = setRecord i (faultedRecord (recordOf i s)) u) ∧
    ((recordOf i s).count = 7 → incompleteAttempt i 0 u = match i with
      | .drop => withdraw (setRecord i (faultedRecord (recordOf i s)) u)
      | .leave => haltStation (setRecord i (faultedRecord (recordOf i s)) u)
      | .stallJoin => restartStall (setRecord i .fresh u)
      | _ => setRecord i .fresh u) := by
  have hrec := recordOf_setRecord hi (faultedRecord (recordOf i s)) u
  rw [incompleteAttempt_system hi, h.recordOf_system hi]
  refine ⟨fun hc => ?_, fun hc => ?_⟩
  · rw [attemptLimit_waits (by rw [hrec]; exact Nat.succ_lt_succ hc)]
    cases i
    case probe | found | claim | request => cases hi
    all_goals rfl
  · rw [attemptLimit.eq_def, if_neg (by rw [hrec]; exact Nat.not_lt.mpr (by rw [faultedRecord, hc]; exact Nat.le_refl 8))]
    cases i
    case probe | found | claim | request => cases hi
    all_goals rfl

/-- A stall JOIN that is no longer owed has a new record, whatever it was (R127). -/
theorem SendingSettled.of_stall {t : State} {r : AttemptRec} (h : SendingSettled (setRecord .stallJoin r s) t)
    (ht : t.vu.stallOwed = false) : SendingSettled s t := by
  unfold SendingSettled at *
  simpa [ht, setRecord] using h

/-- A stall JOIN given up at its limit, with STALL_WAIT started afresh (R92, R127). -/
theorem AttemptOver.stallEnds (h : AttemptOver f s u) (hst : s.vu.station = .joining) :
    let t := refresh (restartStall (setRecord .stallJoin .fresh u))
    (t.tu = s.tu ∧ t.wu = s.wu ∧ t.lu.deferred = (s.lu.deferred || classOne f.body)) ∧
      t.vu = { s.vu with stallTimer := some 8192, stallOwed := false } ∧ t.qu = s.qu ∧ SendingSettled s t := by
  intro t
  have hvu : (restartStall (setRecord .stallJoin .fresh u)).vu = { s.vu with stallTimer := some 8192, stallOwed := false } := by
    simp [restartStall, h.vu, hst, Config.stallWait]
  have hsu : (restartStall (setRecord .stallJoin .fresh u)).su = { (setRecord .stallJoin .fresh s).su with attempt := none } := by
    simp [setRecord, h.su]
  have hvu' : t.vu = { s.vu with stallTimer := some 8192, stallOwed := false } := hvu
  refine ⟨⟨by simp [t, h.tu], by simp [t, h.wu], by simp [t, h.deferred]⟩, hvu', by simp [t, setRecord, h.qu], ?_⟩
  exact (SendingSettled.of_su hsu).of_stall (by rw [show _ = t.vu from rfl, hvu'])

/-- SU stays empty at a HALTED station (R78, R79). -/
theorem refresh_halted (hst : s.vu.station = .halted) (hsu : s.su = .empty) : (refresh s).su = .empty := by
  simp [refresh, setOffer, chosenOffer, itemsInOrder, pruneItems, keptRecord, prunedDrop, hst, hsu, Su.empty]

/-- What an exit reports looks at the station before it only by these. -/
theorem ExitReported.congr {t : State} (h : ExitReported u t) (hv : u.vu = s.vu) (ht : u.tu = s.tu) (hw : u.wu = s.wu) :
    ExitReported s t := by
  have hwatch : ∀ i, watchAt u i = watchAt s i := fun i => by simp only [watchAt, hw]
  have hcell : ∀ c, cellAt u c = cellAt s c := fun c => by simp only [cellAt, ht]
  unfold ExitReported lostNotices at *
  simp only [hv, hw, hwatch, hcell] at h
  exact h

/-- So do the requests that it withdraws. -/
theorem allWithdrawn_congr (hv : u.vu = s.vu) (ht : u.tu = s.tu) (hq : u.qu = s.qu) : allWithdrawn u = allWithdrawn s := by
  simp only [allWithdrawn, unappliedRecord, cellAt, hv, ht, hq]

/-- A halt from MEMBER, whole, with SU in line (R115). -/
theorem haltStation_member (hs : s.vu.station = .member) :
    let t := refresh (haltStation s)
    t.vu.station = .halted ∧ t.vu.standing = .retained ∧ t.vu.retainedEpoch = s.vu.view.epoch ∧ t.vu.view = .empty ∧
      t.vu.leavePending = false ∧ t.su = .empty ∧ t.lu.deferred = false ∧ t.tu = s.tu ∧ ExitReported s t ∧
      t.qu = allWithdrawn s := by
  have hhalt : haltStation s = enterHalted (((retain (leaveQueues s)).setSu .empty).setLu (haltLine s.lu)) := by
    simp [haltStation, hs, haltStanding]
  have hwu : (haltStation s).wu = { (leaveQueues s).wu with statePending := true } := by
    simp [hhalt, enterHalted, enter, hs, raiseState]
  have hqu : (haltStation s).qu = (retireAll s).qu := by simp [hhalt, leaveQueues, hs]
  rw [retireAll_qu] at hqu
  refine ⟨by simp [hhalt], by simp [hhalt], by simp [hhalt], by simp [hhalt], by simp [hhalt],
    refresh_halted (by simp [hhalt]) (by simp [hhalt]), by simp [hhalt], by simp [hhalt],
    ExitReported.of_leaveQueues (by simpa using hwu), by simpa using hqu⟩

/-- A self fault of this station's JOIN from LISTENING leaves it unanswered (R105). -/
theorem AttemptOver.probe (h : AttemptOver f s u) (hn : s.vu.unanswered ≤ 3) :
    let t := refresh (incompleteAttempt .probe 0 u)
    (t.tu = s.tu ∧ t.wu = s.wu ∧ t.lu.deferred = (s.lu.deferred || classOne f.body)) ∧ t.qu = s.qu ∧ SendingSettled s t ∧
      t.vu = { s.vu with
        unanswered := min 3 (s.vu.unanswered + 1)
        probeDue := .nothing
        probeTimer := some
          (if 2 ≤ s.vu.unanswered ∧ s.hp.straps.fp = false then 4096 else 256 + 16 * s.hp.straps.sn.toNat) } := by
  intro t
  have ht : t = refresh (probeUnanswered u) := rfl
  have hcount : (if s.vu.unanswered < Config.probeLimit then s.vu.unanswered + 1 else s.vu.unanswered)
      = min 3 (s.vu.unanswered + 1) := by
    rw [Config.probeLimit]
    split <;> omega
  have hwait : probeWaitAfter s.hp.straps (min 3 (s.vu.unanswered + 1))
      = if 2 ≤ s.vu.unanswered ∧ s.hp.straps.fp = false then 4096 else 256 + 16 * s.hp.straps.sn.toNat := by
    have hlast : min 3 (s.vu.unanswered + 1) = 3 ↔ 2 ≤ s.vu.unanswered := by omega
    simp only [probeWaitAfter, Config.probeLimit, hlast, Bool.not_eq_true']
    rfl
  refine ⟨⟨?_, ?_, ?_⟩, ?_, ?_, ?_⟩
  · simp [ht, h.tu]
  · simp [ht, h.wu]
  · simp [ht, h.deferred]
  · simp [ht, h.qu]
  · exact SendingSettled.of_su (by simp [incompleteAttempt, h.su])
  · simp only [ht, refresh_frame, probeUnanswered, State.setVu_vu, h.vu, h.hp, hcount, hwait]

/-- A self fault of a FOUND is an incomplete attempt, and the 8th gives it up for a JOIN (R93, R107). -/
theorem AttemptOver.found (h : AttemptOver f s u) (hst : s.vu.station = .listening) (hdue : s.vu.probeDue = .found) :
    let t := refresh (incompleteAttempt .found 0 u)
    let count := s.su.foundRec.count
    (t.tu = s.tu ∧ t.wu = s.wu ∧ t.lu.deferred = (s.lu.deferred || classOne f.body)) ∧ t.qu = s.qu ∧
      (count < 7 → t.vu = s.vu ∧ t.su.foundRec = ⟨count + 1, []⟩ ∧ t.su.offer = some .found) ∧
      (count = 7 → t.vu = { s.vu with unanswered := 0, probeTimer := none, probeDue := .join } ∧
        t.su.foundRec = ⟨0, []⟩ ∧ t.su.offer = some .probe) := by
  intro t count
  have hlimit : u.su.foundRec.count + 1 < Config.attemptLimit ↔ count < 7 := by rw [h.su]; exact Nat.succ_lt_succ_iff (b := 7)
  have ht : t = if count < 7 then refresh (setRecord .found ⟨count + 1, []⟩ u)
      else refresh (restartProbing (setRecord .found .fresh u)) := by
    show refresh (foundIncomplete u) = _
    simp only [foundIncomplete, hlimit]
    split
    · rw [h.su]
    · rfl
  refine ⟨?_, ?_, fun hc => ?_, fun hc => ?_⟩
  · rw [ht]; split <;> simp [h.tu, h.wu, h.deferred]
  · rw [ht]; split <;> simp [setRecord, h.qu]
  · rw [ht, if_pos hc]
    simp [refresh, setOffer, pruneItems, keptRecord, chosenOffer, itemsInOrder, setRecord, itemClassOne, h.su, h.vu, hst, hdue]
  · rw [ht, if_neg (by omega)]
    simp [refresh, setOffer, pruneItems, keptRecord, chosenOffer, itemsInOrder, setRecord, restartProbing, itemClassOne, attempting,
      AttemptRec.fresh, h.su, h.vu, hst]

/-! ## Every item -/

/-- The end of an attempt with an empty missing set, at which LU waits for idle, is what the statements call a self fault, whatever
the item. -/
theorem AttemptOver.selfFaulted (h : AttemptOver f s u) (hu : Idled l u) (hm : l.mode = .waitIdle) (hr : l.driver = .released) (i : Item) :
    SelfFaulted i f s (refresh (incompleteAttempt i 0 u)) := by
  have hover : (refresh (incompleteAttempt i 0 u)).su.attempt = none := by simpa using (hu.incompleteAttempt hm hr i 0).2
  have hhp : (refresh (incompleteAttempt i 0 u)).hp = s.hp := by simp [h.hp]
  have hfound {tag : Byte} {q : Request} (hn : (tags s).Nodup) (hq : q ∈ requests s) (ht : q.tag = tag) :
      findRequest tag s = some q := ht ▸ findRequest_of_mem hn hq
  refine ⟨hover, hhp, ?_⟩
  cases i
  case request tag =>
    intro hn q hq ht
    obtain ⟨hstill, hvu, hsend, hcancelled, hwaits, hfailed⟩ :=
      h.request (.inl rfl) (hfound hn (List.mem_append_left _ hq) ht)
    rw [requeued_after_fault hn hq ht] at hwaits
    exact ⟨hstill, hvu, hsend, hcancelled, hwaits, hfailed⟩
  case claim tag =>
    intro hn q hq ht
    obtain ⟨hstill, hvu, hsend, hcancelled, hwaits, hfailed⟩ :=
      h.request (.inr rfl) (hfound hn (List.mem_append_right _ hq) ht)
    rw [reparked_after_fault hn hq ht] at hwaits
    exact ⟨hstill, hvu, hsend, hcancelled, hwaits, hfailed⟩
  case roster | transfer =>
    refine ⟨fun hc => ?_, fun hc => ?_⟩
    · rw [(h.system rfl).1 hc]; exact h.setRecord_settled rfl _
    · rw [(h.system rfl).2 hc]; exact h.setRecord_settled rfl _
  case stallJoin =>
    refine fun hst => ⟨fun hc => ?_, fun hc => ?_⟩
    · rw [(h.system rfl).1 hc]; exact h.setRecord_settled rfl _
    · rw [(h.system rfl).2 hc]
      exact h.stallEnds hst
  case drop =>
    refine fun hv => ⟨fun hc => ?_, fun hc => ?_⟩
    · rw [(h.system rfl).1 hc]; exact h.setRecord_settled rfl _
    · rw [(h.system rfl).2 hc]
      exact (Withdrawn.of_withdraw _ (by simpa [h.vu] using hv)).congr (by simp [h.vu]) (by simp [h.vu]) (by simp [h.vu])
        (by simp [h.vu]) (by simp [h.tu]) (by simp [setRecord, h.qu]) (by simp [h.wu])
  case leave =>
    refine fun hst => ⟨fun hc => ?_, fun hc => ?_⟩
    · rw [(h.system rfl).1 hc]; exact h.setRecord_settled rfl _
    · rw [(h.system rfl).2 hc]
      obtain ⟨h1, h2, h3, h4, h5, h6, h7, h8, h9, h10⟩ :=
        haltStation_member (s := setRecord .leave (faultedRecord (recordOf .leave s)) u) (by simp [h.vu, hst])
      refine ⟨h1, h2, h3.trans (by simp [h.vu]), h4, h5, h6, h7, h8.trans (by simp [h.tu]), ?_, ?_⟩
      · exact h9.congr (by simp [h.vu]) (by simp [h.tu]) (by simp [h.wu])
      · exact h10.trans (allWithdrawn_congr (by simp [h.vu]) (by simp [h.tu]) (by simp [setRecord, h.qu]))
  case probe => exact h.probe
  case found => exact h.found

/-! ## A read-back fault before the window -/

/-- LU that has given the line up, and an attempt over. -/
theorem idled_endAttempt (s : State) (a : Attempt) (run : Nat) :
    Idled (giveUpLine run s.lu) (endAttempt a (s.setLu (giveUpLine run s.lu))) := ⟨⟨_, rfl⟩, rfl⟩

/-- A read-back fault while LU sends: the line is given up, the attempt is over, and a self fault follows (R55, R62). -/
theorem readBackFault_sending (hm : s.lu.mode = .sending) (ha : s.su.attempt = some ⟨i, f⟩) (slot : Station) (inData : Bool)
    (level : LineLevel) : readBackFault slot inData level s = refresh (incompleteAttempt i 0
      (endAttempt ⟨i, f⟩ (s.setLu (giveUpLine (runAfter level s.lu) s.lu)))) := by
  simp only [readBackFault, hm, selfFault, State.setLu_su, ha]

/-- What it leaves is a self fault, with LU waiting for idle (R55, R58, R62). -/
theorem readBackFault_selfFaulted (hm : s.lu.mode = .sending) (ha : s.su.attempt = some ⟨i, f⟩) (slot : Station) (inData : Bool)
    (level : LineLevel) : SelfFaulted i f s (readBackFault slot inData level s) ∧
      Idled (giveUpLine (runAfter level s.lu) s.lu) (readBackFault slot inData level s) := by
  have hidled := idled_endAttempt s ⟨i, f⟩ (runAfter level s.lu)
  rw [readBackFault_sending hm ha]
  have hover : AttemptOver f s (endAttempt ⟨i, f⟩ (s.setLu (giveUpLine (runAfter level s.lu) s.lu))) :=
    attemptOver_endAttempt s i f rfl
  exact ⟨hover.selfFaulted hidled rfl rfl i,
    (hidled.incompleteAttempt rfl rfl i 0).congr (by simp) (by simp)⟩

/-- Settles O28: the fault is a self fault by `readBackFault_selfFaulted`, and LU has given the line up. -/
theorem selfFault_holds : Obligations.SelfFault := by
  unfold Obligations.SelfFault
  intro s slot inData level i f hf hm ha
  obtain ⟨hfault, ⟨d, hlu⟩, -⟩ := readBackFault_selfFaulted hm ha slot inData level
  refine ⟨_, next_onLine hf _, ?_⟩
  rw [hlu]
  exact ⟨rfl, rfl, rfl, rfl, by cases level <;> rfl, hfault⟩

end Sys2Proof.Machine
end

section
/-! SUPPORT. The end of a check part at a receiver and at the sender (R54, R63 to R66, R106): what a receiver makes of bits that are a
frame, and of bits that are none. -/

namespace Sys2Proof.Machine

variable {s : State} {f : Frame} {intact : Bool} {bits : List Bool}

/-! ## Another station's frame -/

/-- Another station's frame handed to VU, with SU working out its offer again (R54, R63, R81). -/
theorem exec_frameCheckEnd_other (hf : held s = false) (hm : s.lu.mode = .receiving)
    (hd : decodeFrame bits = some (f, intact)) :
    let j := judgedOther f intact s
    let s1 := if intact then hearFrame f s else s
    exec (.frameCheckEnd bits) s = .next (refresh ((s1.setVu { s1.vu with judged := some j }).setLu
      (windowLine (if j.accept then .ownSlot else .released) (registerOf bits) (assertedRun bits) s1.lu))) := by
  refine (next_onLine hf _).trans (congrArg _ ?_)
  simp only [frameCheck, hm, checkEnd, checkEndOther, hd]

/-- A frame that is not intact is accepted nowhere (R54, R65). -/
theorem accepts_not_intact (f : Frame) (s : State) : accepts f false s = false := by
  unfold accepts
  cases s.vu.station <;> rfl

/-- Probing goes on as it was at a LISTENING station that hears a JOIN, and begins again at any other frame (R106). -/
theorem hearFrame_listening (hst : s.vu.station = .listening) (f : Frame) :
    hearFrame f s = if f.body = .join then s else restartProbing s := by
  have hjoin : isJoin f.body = true ↔ f.body = .join := by cases f.body <;> simp [isJoin]
  simp only [hearFrame, hst, hjoin]

/-- A JOIN due is what a LISTENING station has on offer (R79, R80). -/
theorem refresh_offers_probe (ha : s.su.attempt = none) (hst : s.vu.station = .listening) (hdue : s.vu.probeDue = .join) :
    (refresh s).su.offer = some .probe := by
  obtain ⟨-, hoffered, -⟩ := SendingSettled.refresh ha
  have := hoffered.2.1 hst
  rwa [show (refresh s).vu = s.vu from rfl, hdue] at this

/-! ## Bits that are no frame -/

/-- The body length of a kind code is known where it is assigned in its class, and only there (R49, R53). -/
theorem bodyLength_isSome (cls : Bool) (code : Nat) : (bodyLength cls code).isSome = true ↔
    if cls = true then (1 ≤ code ∧ code ≤ 13) ∨ code = 15 else 1 ≤ code ∧ code ≤ 5 := by
  unfold bodyLength
  cases cls
  · simp only [Bool.false_eq_true, if_false]
    match code with
    | 0 | 1 | 2 | 3 | 4 | 5 => decide
    | n + 6 => simp
  · simp only [if_true]
    split_ifs <;> simp <;> omega

/-- Bits of an unassigned kind code are no frame (R54). -/
theorem decodeFrame_unassigned (h : ¬(if field bits 1 1 = 1 then
      (1 ≤ (field bits 7 4).toNat ∧ (field bits 7 4).toNat ≤ 13) ∨ (field bits 7 4).toNat = 15
      else 1 ≤ (field bits 7 4).toNat ∧ (field bits 7 4).toNat ≤ 5)) : decodeFrame bits = none := by
  have hlength : bodyLength (field bits 1 1 == 1) (field bits 7 4).toNat = none := by
    rw [← Option.not_isSome_iff_eq_none, bodyLength_isSome]
    simpa only [beq_iff_eq] using h
  simp only [decodeFrame, hlength]

/-- Bits that are no frame are given up, and VU gets nothing (R54; log entry 14). -/
theorem exec_frameCheckEnd_none (hf : held s = false) (hm : s.lu.mode = .receiving) (hd : decodeFrame bits = none) :
    exec (.frameCheckEnd bits) s = .next (refresh (s.setLu (unknownKind bits s.lu))) := by
  refine (next_onLine hf _).trans (congrArg _ ?_)
  simp only [frameCheck, hm, checkEnd, checkEndOther, hd]

/-! ## An own frame -/

/-- This station's own frame, the one fixed at its start bit (R64; log entry 14). -/
theorem exec_frameCheckEnd_own {a : Attempt} (hf : held s = false) (hm : s.lu.mode = .sending) (ha : s.su.attempt = some a)
    (bits : List Bool) : exec (.frameCheckEnd bits) s = .next (refresh (checkEndOwn a s)) := by
  refine (next_onLine hf _).trans (congrArg _ ?_)
  simp only [frameCheck, hm, checkEnd, ha]

/-- Settles O30: the four ends of a check part, each by what it hands to VU. -/
theorem acceptanceElsewhere : Obligations.AcceptanceElsewhere := by
  unfold Obligations.AcceptanceElsewhere
  refine ⟨fun s bits f intact hf hm hd => ?heard, fun s bits f hf hm hst ha hd => ?listening,
    fun s bits a hf hm ha => ?own, fun s bits hf hm => ?none⟩
  case heard =>
    refine ⟨_, _, exec_frameCheckEnd_other hf hm hd, rfl, rfl, rfl, ?_, fun hst => ?_, fun hst => ?_, by cases intact <;> simp⟩
    · rintro rfl
      have hno : (judgedOther f false s).accept = false := accepts_not_intact f s
      exact ⟨hno, by simp [hno], by simp, by simp, by simp, by simp⟩
    · cases intact <;> simp [judgedOther, accepts, hst]
    · have hno : (judgedOther f intact s).accept = false := by rcases hst with hst | hst <;> simp [judgedOther, accepts, hst]
      exact ⟨hno, by simp [hno]⟩
  case listening =>
    have hexec := exec_frameCheckEnd_other hf hm hd
    simp only [if_true, hearFrame_listening hst] at hexec
    by_cases hb : f.body = .join
    · rw [if_pos hb] at hexec
      exact ⟨_, hexec, hst, fun h => absurd hb h, fun _ => ⟨rfl, rfl, rfl⟩⟩
    · rw [if_neg hb] at hexec
      exact ⟨_, hexec, hst, fun _ => ⟨rfl, rfl, rfl, refresh_offers_probe ha hst rfl⟩, fun h => absurd h hb⟩
  case own =>
    exact ⟨_, judgedOwn a.frame s, exec_frameCheckEnd_own hf hm ha bits, rfl, rfl, rfl, rfl, rfl, rfl, rfl, rfl, ha, rfl, rfl, rfl,
      rfl, rfl⟩
  case none =>
    intro code assigned h
    have hd : decodeFrame bits = none := h.elim decodeFrame_unassigned id
    exact ⟨_, exec_frameCheckEnd_none hf hm hd, rfl, rfl, rfl, rfl, rfl, rfl, rfl, rfl, rfl, rfl, rfl,
      fun ha => SendingSettled.of_su (by rw [← ha]; rfl)⟩

end Sys2Proof.Machine
end

section
/-! SUPPORT. Window faults in every station state (R57, R75, R76): where a station leaves its view, where it stays, and what LU and VU
then hold. -/

namespace Sys2Proof.Machine

variable {s u : State} {j : Judged} {slot : Station} {inData : Bool} {i : Item} {f : Frame}

/-! ## A window fault -/

/-- The station whose window a fault has ended: no frame is under judgement, and LU has given the line up (R57). -/
def windowLost (s : State) : State := (s.setVu { s.vu with judged := none }).setLu (giveUpLine 0 s.lu)

/-- A window fault at a station that judges the frame (R75, R76). -/
theorem windowFault_judging (h : Judging j s) (slot : Station) (inData : Bool) :
    windowFault slot inData s = refresh (disposeFault j (assertedBy j slot inData s) (windowLost s)) := by
  obtain ⟨-, hm, hj, -⟩ := h
  simp only [windowFault, hm, hj]
  rfl

/-- Whether a receiver's slot had been asserted at a fault (R57, R75). -/
theorem assertedBy_other (hown : j.own = false) : assertedBy j slot inData s = true ↔
    j.accept = true ∧ (own s < slot ∨ (own s = slot ∧ inData = true)) := by
  simp [assertedBy, hown]

/-- Whether an originator's slot is over at a fault (R76; log entry 8). -/
theorem assertedBy_own (hown : j.own = true) (ha : j.accept = true) : assertedBy j slot inData s = true ↔ own s < slot := by
  simp [assertedBy, hown, ha]

/-- In MEMBER or JOINING a window fault in another station's frame withdraws the station where its slot had been asserted, where the
frame had shown it out of step, and where it accepted a frame that does not require it (R75, R77; log entry 10). -/
theorem disposeFault_inView (hown : j.own = false) (hst : j.station = .member ∨ j.station = .joining) (asserted : Bool) (u : State) :
    disposeFault j asserted u = if asserted = true ∨ j.outOfStep = true ∨
      (j.accept = true ∧ ¬has (requiredSet j.frame u.vu.view) (own u) = true) then withdraw u else u := by
  have hother : disposeFault j asserted u = faultOther j asserted u := by
    rcases hst with hst | hst <;> simp [disposeFault, hown, hst]
  simp [hother, faultOther, or_assoc]

/-- The withdrawal of a station whose window a fault has ended (R75, R114). -/
theorem withdrawn_windowLost (hv : inView s.vu.station = true) : Withdrawn s (refresh (withdraw (windowLost s))) :=
  (Withdrawn.of_withdraw (windowLost s) hv).congr rfl rfl rfl rfl rfl rfl rfl

/-- LU once a window fault is disposed of in another station's frame (R57). -/
theorem disposeFault_idled (hown : j.own = false) (ha : s.su.attempt = none) (asserted : Bool) :
    Idled (giveUpLine 0 s.lu) (disposeFault j asserted (windowLost s)) := by
  have h : Idled (giveUpLine 0 s.lu) (windowLost s) := ⟨⟨s.lu.deferred, rfl⟩, ha⟩
  unfold disposeFault
  rw [if_neg (by simp [hown])]
  split
  · exact h
  · exact h
  · split
    · exact h.congr (by simp) (by simp)
    · exact h.congr (by simp) (by simp)
  all_goals
    unfold faultOther
    split
    · exact h.withdraw
    · exact h

/-- So at the end of the command. -/
theorem windowFault_idled (h : Judging j s) (hown : j.own = false) (ha : s.su.attempt = none) (slot : Station) (inData : Bool) :
    Idled (giveUpLine 0 s.lu) (windowFault slot inData s) := by
  rw [windowFault_judging h]
  exact (disposeFault_idled hown ha (assertedBy j slot inData s)).congr (by simp) (by simp)

/-- An ADMITTING station goes back to LISTENING where its slot had been asserted, and takes an expiry that waited otherwise (R75,
R118). -/
theorem disposeFault_admitting (hown : j.own = false) (hst : j.station = .admitting) (hu : u.vu.station = .admitting)
    (asserted : Bool) : disposeFault j asserted u = if asserted then enterListening u else takeExpiry u := by
  simp [disposeFault, hown, hst, hu]

/-- No frame is under judgement once a window fault is disposed of. -/
theorem disposeFault_judged (h : u.vu.judged = none) (j : Judged) (asserted : Bool) : (disposeFault j asserted u).vu.judged = none := by
  have hexpiry : (takeExpiry u).vu.judged = none := by
    unfold takeExpiry
    split
    · simp
    · exact h
  unfold disposeFault faultOwn faultOther
  split
  · split
    · exact h
    · split
      · exact withdraw_judged (by simpa using h)
      · exact incompleteAttempt_judged (by simpa using h) _ _
  · split
    · exact h
    · exact h
    · split
      · simp
      · exact hexpiry
    all_goals
      split
      · exact withdraw_judged h
      · exact h

/-- So after a window fault at a station in whose window it falls. -/
theorem windowFault_judged (hm : s.lu.mode = .window) : (windowFault slot inData s).vu.judged = none := by
  cases hj : s.vu.judged with
  | none => simp [windowFault, hm, hj]
  | some j =>
    simp only [windowFault, hm, hj]
    exact disposeFault_judged rfl j _

/-- A window fault in an own frame: a withdrawal where the own slot is over in MEMBER or JOINING, and an ordinary self fault otherwise
(R75, R76, R96). -/
theorem windowFault_own (h : JudgingOwn j ⟨i, f⟩ s) (ha : j.accept = true) (slot : Station) (inData : Bool) :
    windowFault slot inData s = refresh (if inView s.vu.station = true ∧ own s < slot
      then withdraw (endAttempt ⟨i, f⟩ (windowLost s)) else incompleteAttempt i 0 (endAttempt ⟨i, f⟩ (windowLost s))) := by
  obtain ⟨hjudging, hown, hat, -⟩ := h
  have hat : (windowLost s).su.attempt = some ⟨i, f⟩ := hat
  rw [windowFault_judging hjudging]
  simp only [disposeFault, hown, if_true, faultOwn, hat, Bool.and_eq_true, assertedBy_own hown ha, hjudging.2.2.2]

/-- Settles O31: `disposeFault_inView` and `windowFault_own` tell the rows of R75 and R76 apart. -/
theorem windowFaultTable : Obligations.WindowFaultTable := by
  unfold Obligations.WindowFaultTable
  refine ⟨fun s j slot inData h hown ha hst => ?view, fun s j slot inData h hown ha => ?outside,
    fun s j slot inData i f c h ha hc => ?own⟩
  case view =>
    intro asserted required stays
    obtain ⟨⟨d, hlu⟩, -⟩ := windowFault_idled h hown ha slot inData
    have hv : inView s.vu.station = true := by rcases hst with hst | hst <;> simp [inView, hst]
    have hasserted : assertedBy j slot inData s = true ↔ asserted := assertedBy_other hown
    have hrun := windowFault_judging h slot inData
    rw [disposeFault_inView hown (by rwa [h.2.2.2])] at hrun
    have hleaves (hout : assertedBy j slot inData s = true ∨ j.outOfStep = true ∨ (j.accept = true ∧ ¬required)) :
        Withdrawn s (windowFault slot inData s) := by
      rw [hrun.trans (congrArg refresh (if_pos hout))]
      exact withdrawn_windowLost hv
    have hstays (hin : ¬(assertedBy j slot inData s = true ∨ j.outOfStep = true ∨ (j.accept = true ∧ ¬required))) :
        stays (windowFault slot inData s) := by
      rw [hrun.trans (congrArg refresh (if_neg hin))]
      exact ⟨rfl, rfl, rfl, rfl, SendingSettled.of_su (by rw [← ha]; rfl)⟩
    refine ⟨_, next_onLine h.1 _, windowFault_judged h.2.1, by rw [hlu]; rfl, by rw [hlu]; rfl, by rw [hlu]; rfl, by simp,
      fun ho => ?_, fun _ hs => ?_, fun ho hs hr => ?_, fun _ _ hr hac => ?_, fun ho hs _ hac => ?_⟩
    · exact hleaves (.inr (.inl ho))
    · exact hleaves (.inl (hasserted.mpr hs))
    · exact hstays (by simp [hasserted, hs, ho, hr])
    · exact hleaves (.inr (.inr ⟨hac, hr⟩))
    · exact hstays (by simp [hasserted, hs, ho, hac])
  case outside =>
    intro asserted
    obtain ⟨⟨d, hlu⟩, -⟩ := windowFault_idled h hown ha slot inData
    have hasserted : assertedBy j slot inData s = true ↔ asserted := assertedBy_other hown
    have hrun := windowFault_judging h slot inData
    refine ⟨_, next_onLine h.1 _, by rw [hlu]; rfl, by rw [hlu]; rfl, by rw [hlu]; rfl, fun hst => ?_, fun hst => ?_⟩
    · rw [disposeFault_admitting hown (h.2.2.2.trans hst) (by exact hst)] at hrun
      rw [hrun]
      refine ⟨?_, ?_, ?_, ?_, fun hs => ?_, fun hs he => ?_⟩
      · split <;> simp [windowLost]
      · split <;> simp [windowLost]
      · split <;> simp [windowLost]
      · split <;> simp [windowLost]
      · rw [if_pos (hasserted.mpr hs), enterListening_eq _ (by simp [windowLost, hst])]
        exact ⟨rfl, rfl, rfl, rfl, rfl⟩
      · rw [if_neg (fun e => hs (hasserted.mp e)), takeExpiry, if_neg (by simp [windowLost, he])]
        exact ⟨rfl, rfl⟩
    · have hstays : disposeFault j (assertedBy j slot inData s) (windowLost s) = windowLost s := by
        rw [← h.2.2.2] at hst
        rcases hst with hst | hst <;> simp [disposeFault, hown, hst]
      rw [hrun, hstays]
      exact ⟨rfl, rfl, rfl, rfl⟩
  case own =>
    have hexec : exec c s = .next (windowFault slot inData s) := by
      rcases hc with rfl | rfl
      · exact next_onLine h.1.1 _
      · refine (next_onLine h.1.1 _).trans (congrArg _ ?_)
        simp only [readBackFault, h.1.2.1]
    have hrun := windowFault_own h ha slot inData
    have hidled : Idled (giveUpLine 0 s.lu) (endAttempt ⟨i, f⟩ (windowLost s)) := ⟨⟨_, rfl⟩, rfl⟩
    have hover : AttemptOver f (s.setVu { s.vu with judged := none }) (endAttempt ⟨i, f⟩ (windowLost s)) :=
      attemptOver_endAttempt _ i f rfl
    obtain ⟨⟨d, hlu⟩, hat⟩ : Idled (giveUpLine 0 s.lu) (windowFault slot inData s) := by
      rw [hrun]
      split
      · exact hidled.withdraw.congr (by simp) (by simp)
      · exact (hidled.incompleteAttempt rfl rfl i 0).congr (by simp) (by simp)
    refine ⟨_, hexec, by rw [hlu]; rfl, by rw [hlu]; rfl, by rw [hlu]; rfl, hat, by simp, fun hv hs => ?_, fun hv => ?_⟩
    · rw [hrun, if_pos ⟨hv, hs⟩]
      exact (Withdrawn.of_withdraw (endAttempt ⟨i, f⟩ (windowLost s)) hv).congr rfl rfl rfl rfl rfl rfl rfl
    · have hno : ¬(inView s.vu.station = true ∧ own s < slot) := by
        rintro ⟨hin, hs⟩
        rcases hv with hv | hv
        · simp [hv] at hin
        · exact hv hs
      rw [hrun, if_neg hno]
      exact hover.selfFaulted hidled rfl rfl i

end Sys2Proof.Machine
end

section
/-! SUPPORT. The trouble of a line: lost frames, the counts of asserted bit times that their bits leave, and a line that sticks and is
released (R44, R45, R54, R56, R58). -/

namespace Sys2Proof.Machine

variable {s : State} {slot : Station} {inData : Bool} {i : Item} {f : Frame}

/-! ## Counts that bits leave -/

/-- The ten bits up to a kind code end in their bits of 0, the start bit among them where they are all 0 (R44, R49). -/
theorem assertedRun_of_kind {bits : List Bool} {n : Nat} (hl : bits.length = 10)
    (h : (∃ front, bits = front ++ [true] ++ List.replicate n false) ∨ (bits = List.replicate 10 false ∧ n = 11)) :
    assertedRun bits = n := by
  rcases h with ⟨front, rfl⟩ | ⟨rfl, rfl⟩
  · have hn : n < Config.stuckCount := by
      simp only [List.length_append, List.length_replicate] at hl
      exact Nat.lt_of_le_of_lt (by omega : n ≤ 10) (by decide)
    exact assertedRun_zeros front hn
  · decide

/-- The end of a check part leaves the count that the frame's bits end in, whether they are a frame or none (R54, R58). -/
theorem frameCheck_assertedCount (hm : s.lu.mode = .receiving) (bits : List Bool) :
    (frameCheck bits s).lu.assertedCount = assertedRun bits := by
  simp only [frameCheck, hm, refresh_frame, checkEnd, checkEndOther]
  split
  · exact (unknownKind_fields bits s.lu).2.2.2.2.1
  · exact (windowLine_fields _ _ _ _).2.2.2.2.2.1

/-! ## A line that sticks -/

/-- The station of a line that has been found stuck: LU gives it up, and LINE is pending (R58). -/
def lineStuckFrom (u : State) : State := raiseLine (u.setLu (stuckLine u.lu))

/-- The 256th asserted bit time abandons the frame in progress, and sticks the line (R58). -/
theorem exec_lineStuck (hf : held s = false) (hs : s.lu.stuck = false) (slot : Station) (inData : Bool) :
    exec (.lineStuck slot inData) s = .next (lineStuckFrom (abandonFrame slot inData s)) := by
  refine (next_onLine hf _).trans (congrArg _ ?_)
  rw [lineSticks, if_neg (by simp [hs])]
  rfl

/-- Outside an own frame and a window no frame is abandoned but by LU (R54, R58). -/
theorem lineStuckFrom_abandonFrame
    (hm : s.lu.mode = .waitIdle ∨ s.lu.mode = .resting ∨ s.lu.mode = .receiving ∨ s.lu.mode = .tracking) :
    lineStuckFrom (abandonFrame slot inData s) = lineStuckFrom s := by
  rcases hm with hm | hm | hm | hm <;> simp only [abandonFrame, frameLost, hm] <;> rfl

/-- Settles O32: each event by the mode that LU is in. -/
theorem lineTrouble : Obligations.LineTrouble := by
  unfold Obligations.LineTrouble
  refine ⟨fun s hf => ?lost, fun s front n hf hn => ?checkEnd, fun s slot inData hf => ?stuck⟩
  case lost =>
    intro lost endsIn
    refine ⟨fun hm => ?_, fun bits n hl hn => ⟨fun hm => ?_, fun hm => ?_⟩⟩
    · refine (next_onLine hf _).trans (congrArg _ ?_)
      rcases hm with hm | hm <;> simp only [frameLost, hm] <;> rfl
    · refine (next_onLine hf _).trans (congrArg _ ?_)
      simp only [frameLost, hm, loseLine, unknownKind, assertedRun_of_kind hl hn, List.take_of_length_le (Nat.le_of_eq hl)]
      rfl
    · refine (next_onLine hf _).trans (congrArg _ ?_)
      simp only [frameLost, hm, lossRun, assertedRun_of_kind hl hn]
      rfl
  case checkEnd =>
    intro bits
    have hrun : assertedRun bits = n := assertedRun_zeros front hn
    refine ⟨fun hm => ⟨_, next_onLine hf _, (frameCheck_assertedCount hm bits).trans hrun⟩, fun hm => ?_⟩
    refine (next_onLine hf _).trans (congrArg _ ?_)
    simp only [frameCheck, hm, hrun]
    rfl
  case stuck =>
    intro stuckFrom
    refine ⟨fun hs hm => ?_, fun hs hm => ?_, fun hs hm => ?_, fun hs => ?_, fun hs => ?_⟩
    · rw [exec_lineStuck hf hs, lineStuckFrom_abandonFrame hm]
      rfl
    · have habandon : abandonFrame slot inData s = readBackFault slot inData .asserted s := by simp only [abandonFrame, hm]
      refine ⟨readBackFault slot inData .asserted s, next_onLine hf _, ?_, fun i f ha => ?_⟩
      · rw [exec_lineStuck hf hs, habandon]
        rfl
      · exact (readBackFault_selfFaulted hm ha slot inData .asserted).1
    · have habandon : abandonFrame slot inData s = windowFault slot inData s := by simp only [abandonFrame, hm]
      refine ⟨windowFault slot inData s, next_onLine hf _, ?_, windowFault_judged hm⟩
      rw [exec_lineStuck hf hs, habandon]
      rfl
    · exact (next_onLine hf _).trans (congrArg _ (if_pos hs))
    · exact (next_onLine hf _).trans (congrArg _ (if_pos hs))

end Sys2Proof.Machine
end

section
/-! SUPPORT. One bit time (R44, R47, R48, R58 to R60): what it does to a resting line, to a line last met asserted and inside a frame, and
what the timers' part of it leaves. -/

namespace Sys2Proof.Machine

variable {s u : State}

/-! ## A resting line -/

/-- Below the count of an idle line nothing begins (R47, R48). -/
theorem startOffered_busy (hc : s.lu.idleCount < 12) : startOffered s = s := by
  cases ho : s.su.offer with
  | none => simp only [startOffered, ho]
  | some i => exact startOffered_waits ho (.inr (.inl hc))

/-- FRAME_START where an item is on offer, and nothing otherwise, is what a bit time does on a resting line (R48, R60). -/
theorem starts_eq (hf : held s = false) :
    (if s.su.offer = none then .next s else exec .frameStart s) = Host.Outcome.next (startOffered s) := by
  split
  · rename_i ho
    simp only [startOffered, ho]
  · exact next_onLine hf _

/-- A bit time of a resting line below 24 counts one idle bit time more (R47). -/
theorem restTick_counts (hc : s.lu.idleCount < 23) : restTick s = startOffered (s.setLu { s.lu with
    idleCount := s.lu.idleCount + 1, asserted := false, assertedCount := 0
    mode := if 12 ≤ s.lu.idleCount + 1 then .resting else s.lu.mode }) := by
  have hn : min Config.barrierIdle (s.lu.idleCount + 1) = s.lu.idleCount + 1 := Nat.min_eq_right (show _ ≤ 24 by omega)
  have hne : s.lu.idleCount + 1 ≠ Config.barrierIdle := show _ ≠ 24 by omega
  simp only [restTick, hn, hne, if_false]
  rfl

/-- At 24 it clears DEFERRED first (R59). -/
theorem restTick_clears (hc : 23 ≤ s.lu.idleCount) : restTick s = startOffered (deferredCleared s) := by
  have hn : min Config.barrierIdle (s.lu.idleCount + 1) = Config.barrierIdle := Nat.min_eq_left (show 24 ≤ _ by omega)
  simp only [restTick, hn, if_true]
  rfl

/-! ## A line last met asserted -/

/-- A bit time of rest counts one idle bit time more, and at the 12th the line is known to rest (R47, R56). -/
theorem gapTick_counts (ha : s.lu.asserted = true) (hc : s.lu.idleCount < 23) : gapTick s = startOffered (s.setLu { s.lu with
    idleCount := s.lu.idleCount + 1, asserted := decide (s.lu.idleCount < 11), assertedCount := 0
    mode := if 12 ≤ s.lu.idleCount + 1 then .resting else s.lu.mode }) := by
  have hmin : s.lu.idleCount + 1 < Config.idleMin ↔ s.lu.idleCount < 11 := Nat.succ_lt_succ_iff (b := 11)
  by_cases hi : s.lu.idleCount < 11
  · have hlow : ¬12 ≤ s.lu.idleCount + 1 := by omega
    rw [gapTick, if_pos (hmin.mpr hi), startOffered_busy (show s.lu.idleCount + 1 < 12 by omega)]
    simp only [hi, decide_true, hlow, if_false, ← ha]
  · rw [gapTick, if_neg (hmin.not.mpr hi), restTick_counts hc]
    simp only [hi, decide_false]

/-- A bit time asserted throughout counts towards the stuck line (R58). -/
theorem assertedTick_below (hc : s.lu.assertedCount < 255) (slot : Station) (inData : Bool) : assertedTick slot inData s =
    s.setLu { s.lu with idleCount := 0, assertedCount := s.lu.assertedCount + 1 } :=
  if_pos (show _ < 256 by omega)

/-- The 256th finds the line stuck (R58). -/
theorem assertedTick_sticks (hc : ¬s.lu.assertedCount < 255) (slot : Station) (inData : Bool) :
    assertedTick slot inData s = lineSticks slot inData s :=
  if_neg (show ¬_ < 256 by omega)

/-- Between frames a line that sticks is given up and reported (R58). -/
theorem lineSticks_between (hm : s.lu.mode = .waitIdle ∨ s.lu.mode = .resting) (hs : s.lu.stuck = false) (slot : Station)
    (inData : Bool) : lineSticks slot inData s = lineStuckFrom s := by
  rw [lineSticks, if_neg (by simp [hs])]
  rcases hm with hm | hm <;> simp only [abandonFrame, hm] <;> rfl

/-- Between frames a bit time of a line last met asserted goes by what the line carries (R47; log entry 21). -/
theorem lineTick_busy (hm : s.lu.mode = .waitIdle ∨ s.lu.mode = .resting) (hs : s.lu.stuck = false) (ha : s.lu.asserted = true) :
    lineTick s = busyTick s := by
  rcases hm with hm | hm <;> simp only [lineTick, hm, hs, ha, Bool.false_eq_true, if_false, if_true]

/-- And one of any other line is a bit time of rest (R47). -/
theorem lineTick_rest (hm : s.lu.mode = .waitIdle ∨ s.lu.mode = .resting) (hs : s.lu.stuck = false) (ha : s.lu.asserted = false) :
    lineTick s = restTick s := by
  rcases hm with hm | hm <;> simp only [lineTick, hm, hs, ha, Bool.false_eq_true, if_false]

/-! ## A bit time inside a frame -/

/-- This station drives its own slot in a window that it accepts (R43, R54). -/
theorem drivesSlot_iff (s : State) : drivesSlot s = true ↔
    s.lu.mode = .window ∧ s.lu.driver ≠ .released ∧ s.lu.bitPos = s.hp.straps.sn.toNat := by
  simp [drivesSlot, own, and_assoc]

/-- A bit of an own frame shows an asserted bit time for a 0 and both levels for a 1, and past its last bit it is a free value (R44). -/
theorem frameLevel_sending {a : Attempt} (hm : s.lu.mode = .sending) (ha : s.su.attempt = some a) :
    frameLevel s = .asserted ↔ match (sentBits a.frame)[s.lu.bitPos]? with
      | some b => b = false
      | none => Config.lineBit s.freeCount = .asserted := by
  have hdriven := drivenBit_sending hm ha
  cases hb : (sentBits a.frame)[s.lu.bitPos]? with
  | none => rw [frameLevel_free (hdriven.trans hb)]
  | some b => rw [frameLevel_driven (hdriven.trans hb)]; cases b <;> simp

/-- Elsewhere the own slot shows an asserted bit time, and any other bit a free value (R43, R54). -/
theorem frameLevel_other (h : s.lu.mode ≠ .sending ∨ s.su.attempt = none) : frameLevel s = .asserted ↔
    (s.lu.mode = .window ∧ s.lu.driver ≠ .released ∧ s.lu.bitPos = s.hp.straps.sn.toNat) ∨
      Config.lineBit s.freeCount = .asserted := by
  have hdriven := drivenBit_other h
  rw [← drivesSlot_iff]
  by_cases hd : drivesSlot s = true
  · rw [if_pos hd] at hdriven
    simp [frameLevel_driven hdriven, hd]
  · rw [if_neg hd] at hdriven
    simp [frameLevel_free hdriven, hd]

/-- An asserted bit time inside a frame counts towards the stuck line, found in the data phase of the slot reached (R58). -/
theorem frameTick_asserted (h : frameLevel s = .asserted) : frameTick s = assertedTick (slotReached s) true (passBit s) := by
  simp only [frameTick, h]

/-- Any other ends the count (R47, R58). -/
theorem frameTick_mixed (h : frameLevel s ≠ .asserted) : frameTick s = mixedTick (passBit s) := by
  unfold frameTick
  cases hl : frameLevel s with
  | asserted => exact absurd hl h
  | released | mixed => rfl

/-! ## The whole bit time -/

/-- A step on an empty queue is the line's part and then the timers' part of a bit time (log entry 3). -/
theorem step_bitTime (hf : held s = false) (hp : s.pending = []) : step s = .next (timerTick s.vu (lineTick s)) := by
  simp [step, hp, tick, hf]

/-- The timers' part comes after the line's, touches neither LU nor the attempt, and does nothing where no timer runs, or ran when the
bit time began (R105, R118, R127). -/
theorem step_after_lineTick (hf : held s = false) (hp : s.pending = []) : ∃ t, step s = .next t ∧ t.lu = (lineTick s).lu ∧
    t.su.attempt = (lineTick s).su.attempt ∧
    ((lineTick s).vu.probeTimer = none → (lineTick s).vu.admitTimer = none → (lineTick s).vu.stallTimer = none →
      t = lineTick s) ∧
    (s.vu.probeTimer = none → s.vu.admitTimer = none → s.vu.stallTimer = none → t = lineTick s) :=
  ⟨_, step_bitTime hf hp, by simp, by simp, timerTick_stopped s.vu (lineTick s), timerTick_started s.vu (lineTick s)⟩

/-- Settles O24: the parts of a bit time by what the line is and shows in it. -/
theorem idleCounting : Obligations.IdleCounting := by
  unfold Obligations.IdleCounting
  refine ⟨fun s hf hs hm => ⟨fun hc => ?idle, fun hp => ?between⟩, fun s hf hp hm => ?inside,
    fun s hf => ⟨fun hm => ?starts, fun hm hs => ?startsWaiting, fun hm hs => ?startsStuck⟩⟩
  case idle =>
    refine (next_onLine hf _).trans (congrArg _ (if_pos ⟨?_, hc⟩))
    rcases hm with hm | hm <;> simp [betweenFrames, hm, hs]
  case between =>
    intro starts passes
    have hstarts (u : State) (hu : held u = false) : starts u = .next (startOffered u) := starts_eq hu
    have hpasses {o : Host.Outcome State Fault Refusal} (h : o = .next (lineTick s)) : passes o := by
      obtain ⟨t, hstep, hlu, hat, -, hstopped⟩ := step_after_lineTick hf hp
      exact ⟨_, t, h, hstep, hlu, hat, hstopped⟩
    refine ⟨fun ha hc => hpasses ?_, fun ha hc hat => ⟨deferredCleared s, deferredCleared_settled hat, ?_, hpasses ?_⟩,
      fun ha hc => hpasses ?_⟩
    · rw [hstarts _ (by exact hf), lineTick_rest hm hs ha, restTick_counts hc]
      simp only [State.setLu, ha]
    · simp only [ha]
      rfl
    · rw [hstarts _ (by exact hf), lineTick_rest hm hs ha, restTick_clears hc]
    · rw [lineTick_busy hm hs ha, busyTick]
      cases hl : Config.lineBit s.freeCount with
      | released =>
        dsimp only
        rw [hstarts _ (by exact hf), gapTick_counts (s := s.setFreeCount (s.freeCount + 1)) ha hc]
        rfl
      | mixed => rfl
      | asserted =>
        dsimp only
        split
        · rename_i hn
          rw [assertedTick_below (s := s.setFreeCount (s.freeCount + 1)) hn]
          rfl
        · rename_i hn
          rw [assertedTick_sticks (s := s.setFreeCount (s.freeCount + 1)) hn, lineSticks_between (by exact hm) (by exact hs)]
          rfl
  case inside =>
    intro fed s1 ownSlot whole
    have hwhole : whole ↔ frameLevel s = .asserted := by
      simp only [whole]
      split
      · rename_i a hm ha
        rw [frameLevel_sending hm ha]
        rfl
      · rename_i hno
        refine (frameLevel_other ?_).symm
        by_contra hsend
        obtain ⟨hm, hat⟩ := not_or.mp hsend
        obtain ⟨a, ha⟩ := Option.ne_none_iff_exists'.mp hat
        exact hno a (not_not.mp hm) ha
    have hline : lineTick s = frameTick s := by rcases hm with hm | hm | hm | hm <;> simp only [lineTick, hm]
    obtain ⟨t, hstep, hlu, hat, hstopped, hstarted⟩ := step_after_lineTick hf hp
    refine ⟨lineTick s, t, fun hw hc => ?_, fun hw hc => ?_, fun hw => ?_, hstep, hlu, hat, hstopped, hstarted⟩
    · rw [hline, frameTick_asserted (hwhole.mp hw), assertedTick_sticks (by simpa using hc)]
      exact next_onLine (show held s1 = false from hf) _
    · rw [hline, frameTick_asserted (hwhole.mp hw), assertedTick_below (by simpa using hc)]
      rfl
    · rw [hline, frameTick_mixed (hwhole.not.mp hw)]
      rfl
  case starts => exact (next_onLine hf _).trans (congrArg _ (by simp only [otherStarts, hm]; rfl))
  case startsWaiting =>
    refine (next_onLine hf _).trans (congrArg _ ?_)
    simp only [otherStarts, hm, hs]
    rfl
  case startsStuck =>
    refine (next_onLine hf _).trans (congrArg _ ?_)
    simp only [otherStarts, hm, hs, if_true]

end Sys2Proof.Machine
end

section
/-! SUPPORT. The answer to another station's intact frame in MEMBER and JOINING (R65, R67 to R69): entitlement, FOREIGN and the findings
out of step, kind by kind. -/

namespace Sys2Proof.Machine

variable {s : State} {f : Frame}

/-- A station of the view is a full member or a joiner of it (R98). -/
theorem has_everyone_iff (v : View) (n : Station) : has (everyone v) n = true ↔ has v.full n = true ∨ has v.joiners n = true := by
  rw [everyone, has_or, Bool.or_eq_true]

/-- A ROSTER agrees with a view where its four fields are the view's (R69). -/
theorem rosterAgrees_roster_iff (full joiners : Mask) (cursor : BitVec 4) (remaining : BitVec 5) (v : View) :
    rosterAgrees (.roster full joiners cursor remaining) v = true ↔
      full = v.full ∧ joiners = v.joiners ∧ cursor = v.cursor ∧ remaining.toNat = v.remaining := by
  simp [rosterAgrees, and_assoc]

/-- A station of a view sets FOREIGN at a foreign frame and does nothing else at its check part, besides the answer (R67). -/
theorem hearFrame_inView (hst : s.vu.station = .member ∨ s.vu.station = .joining) (f : Frame) :
    hearFrame f s = if isForeign f s.vu.view then setForeign f s else s := by
  rcases hst with hst | hst <;> simp only [hearFrame, hst]

/-- Its answer is entitlement, and the frame shows it out of step by R68 and R69 (R65). -/
theorem judgedOther_inView (hst : s.vu.station = .member ∨ s.vu.station = .joining) (f : Frame) :
    (judgedOther f true s).accept = entitled f s.vu.view ∧ (judgedOther f true s).outOfStep = showsOutOfStep f s.vu.view := by
  rcases hst with hst | hst <;> simp [judgedOther, accepts, inView, hst]

/-- A frame shows a station of a view out of step where it comes from the view, is neither JOIN nor FOUND, and has not both the view's
epoch and, as a ROSTER, its fields (R68, R69). -/
theorem showsOutOfStep_iff (f : Frame) (v : View) : showsOutOfStep f v = true ↔ isFound f.body = false ∧ isJoin f.body = false ∧
    (has v.full f.orig = true ∨ has v.joiners f.orig = true) ∧ ¬(f.epoch = v.epoch ∧ rosterAgrees f.body v = true) := by
  rw [showsOutOfStep, ← has_everyone_iff]
  simp only [Bool.and_eq_true, Bool.or_eq_true, Bool.not_eq_true', bne_iff_ne, not_and_or, Bool.not_eq_true, and_assoc, ne_eq]

/-- A frame is foreign where it is a FOUND, or comes from outside the view and is no JOIN (R67). -/
theorem isForeign_iff (f : Frame) (v : View) : isForeign f v = true ↔ isFound f.body = true ∨
    (isJoin f.body = false ∧ ¬(has v.full f.orig = true ∨ has v.joiners f.orig = true)) := by
  rw [isForeign, ← has_everyone_iff]
  simp only [Bool.and_eq_true, Bool.or_eq_true, Bool.not_eq_true', Bool.not_eq_true]

/-- Settles O29: entitlement, FOREIGN and the findings out of step, each by the kind of the frame. -/
theorem acceptance : Obligations.Acceptance := by
  unfold Obligations.Acceptance
  intro s bits f hf hm hst hd v inIt same accepted foreign shows
  have hentitled : entitled f v = true ↔ accepted := by
    cases hb : f.body <;>
      simp only [entitled, accepted, hb, rosterAgrees_roster_iff, has_everyone_iff, Bool.and_eq_true, beq_iff_eq, decide_eq_true_eq,
        Bool.not_eq_true', and_assoc, Bool.false_eq_true] <;> rfl
  have hforeign : isForeign f v = true ↔ foreign := by
    rw [isForeign_iff]
    cases hb : f.body <;> simp [foreign, hb, isFound, isJoin, inIt]
  have hshows : showsOutOfStep f v = true ↔ shows := by
    rw [showsOutOfStep_iff]
    cases hb : f.body <;> simp only [shows, hb, isFound, isJoin, rosterAgrees_roster_iff, true_and] <;> simp [rosterAgrees, inIt, same]
  obtain ⟨haccept, hstep⟩ := judgedOther_inView hst f
  have hexec := exec_frameCheckEnd_other hf hm hd
  rw [if_pos rfl, hearFrame_inView hst] at hexec
  refine ⟨_, judgedOther f true s, hexec, rfl, rfl, rfl, rfl, rfl, by rw [haccept, hentitled], by rw [hstep, hshows], rfl, ?_,
    fun h => ?_, fun h => ?_, ?_⟩
  · rw [← hentitled, ← haccept]
    cases hj : (judgedOther f true s).accept <;> simp
  · rw [if_pos (hforeign.mpr h)]
    exact ⟨rfl, rfl⟩
  · rw [if_neg (mt hforeign.mp h)]
    exact ⟨rfl, rfl⟩
  · split <;> exact ⟨rfl, rfl, rfl, rfl, rfl⟩

end Sys2Proof.Machine
end

section
/-! SUPPORT. The end of a window at an ADMITTING station (R73, R118, R119): which ROSTER admits it, and an expiry that waited for the
window's end. -/

namespace Sys2Proof.Machine

variable {s u : State} {j : Judged} {slots : Mask}

/-- The window's end at an ADMITTING station (R73, R118). -/
theorem disposeFrame_admitting (h : Judging j s) (hst : s.vu.station = .admitting) :
    disposeFrame j slots (closeWindow s) = endAdmitting j slots (closeWindow s) := by
  obtain ⟨-, -, -, hgoverns⟩ := h
  simp only [disposeFrame, hgoverns, hst]

/-- The set that a ROSTER names, read slot by slot (R71, R73). -/
theorem within_members_iff (full joiners slots : Mask) : within (full ||| joiners) slots = true ↔
    ∀ n : Station, has full n = true ∨ has joiners n = true → has slots n = true := by
  simp only [within_iff, has_or, Bool.or_eq_true]

/-- Whether a ROSTER admits station `n` (R73, R119). -/
def Admits (full joiners : Mask) (remaining : BitVec 5) (slots : Mask) (n : Station) : Prop :=
  has joiners n = true ∧ 1 ≤ remaining.toNat ∧ remaining.toNat ≤ 16 ∧
    ∀ k : Station, has full k = true ∨ has joiners k = true → has slots k = true

/-- A ROSTER that admits the station is applied, and any other leaves the expiry that waits, if one does (R73, R118, R119). -/
theorem endAdmitting_roster {full joiners : Mask} {cursor : BitVec 4} {remaining : BitVec 5} (hi : j.intact = true)
    (hb : j.frame.body = .roster full joiners cursor remaining) (slots : Mask) (u : State) :
    (Admits full joiners remaining slots (own u) → endAdmitting j slots u
      = admitStation ⟨full, joiners, j.frame.epoch, false, cursor, remaining.toNat⟩ u) ∧
    (¬Admits full joiners remaining slots (own u) → endAdmitting j slots u = takeExpiry u) := by
  have hadmits : (j.intact && has joiners (own u) && decide (1 ≤ remaining.toNat) && decide (remaining.toNat ≤ 16)
      && within (full ||| joiners) slots) = true ↔ Admits full joiners remaining slots (own u) := by
    simp only [hi, Bool.true_and, Bool.and_eq_true, decide_eq_true_eq, within_members_iff, and_assoc, Admits]
  refine ⟨fun h => ?_, fun h => ?_⟩
  · simp only [endAdmitting, admits, hb, if_pos (hadmits.mpr h)]
  · simp only [endAdmitting, admits, hb, if_neg (mt hadmits.mp h)]

/-- An expiry that waited is taken with an entry into LISTENING (R105, R118). -/
theorem takeExpiry_expired (hst : u.vu.station = .admitting) (he : u.vu.admitExpired = true) :
    takeExpiry u = (u.setVu { quiet u.vu with station := .listening, probeDue := .join }).setWu
      { u.wu with statePending := true } := by
  rw [takeExpiry, if_pos ⟨hst, he⟩, enterListening_eq _ (by simp [hst])]

/-- No expiry is taken where none waited, or outside ADMITTING (R118). -/
theorem takeExpiry_none (h : u.vu.station ≠ .admitting ∨ u.vu.admitExpired = false) : takeExpiry u = u := by
  rw [takeExpiry, if_neg]
  rintro ⟨hst, he⟩
  rcases h with h | h
  · exact h hst
  · rw [h] at he; cases he

/-- WU at an admission: STATE is pending (R102). -/
theorem admitStation_wu (v : View) (h : u.vu.station ≠ .joining) : (admitStation v u).wu = { u.wu with statePending := true } := by
  simp [admitStation, enter, h, raiseState]

/-- Settles O44: `endAdmitting_roster` tells the ROSTERs apart; any other leaves the expiry that waits, if one does. -/
theorem rosterAdmits : Obligations.RosterAdmits := by
  unfold Obligations.RosterAdmits
  intro slots s j full joiners cursor remaining h hst hown hi hb named
  have hkind : admissionWindow j = true := by simp [admissionWindow, hb, isRoster, h.2.2.2, hst]
  have hrun : exec (.rosterAdmission slots) s = .next (refresh (endAdmitting j slots (closeWindow s))) := by
    rw [← disposeFrame_admitting h hst]
    exact congrArg Host.Outcome.next (windowEndOf_judging h hkind slots)
  have hclosed : (closeWindow s).vu.station = .admitting := hst
  obtain ⟨hyes, hno⟩ := endAdmitting_roster hi hb slots (closeWindow s)
  by_cases hn : named
  · rw [hyes hn] at hrun
    have hwu (v : View) : (admitStation v (closeWindow s)).wu = { s.wu with statePending := true } :=
      admitStation_wu v (by rw [hclosed]; decide)
    refine ⟨_, hrun, by simp, by simp, by simp, by simp, by simp, fun _ => ?_, fun h => absurd hn h, fun h => absurd hn h⟩
    refine ⟨by simp, by simp, by simp, by simp, by simp [Config.stallWait], by simp, by simp, ?_, by simp [Tu.powerOn], by simp [hwu]⟩
    exact fun c => cellAt_of_powerOn (by simp) c
  · rw [hno hn] at hrun
    refine ⟨_, hrun, by simp, by simp, by simp, by simp, ?_, fun h => absurd h hn, fun _ he => ?_, fun _ he => ?_⟩
    · simp only [refresh_frame, takeExpiry]
      split <;> simp
    · rw [takeExpiry_none (u := closeWindow s) (.inr he)]
      exact ⟨rfl, rfl, rfl⟩
    · rw [takeExpiry_expired hclosed he]
      exact ⟨rfl, rfl, rfl, rfl, rfl, rfl⟩

end Sys2Proof.Machine
end

section
/-! SUPPORT. The end of an own window at a LISTENING station (R72): a JOIN answered or not (R105), and a FOUND, which enters MEMBER
over a table whose claims are released where it was RETAINED (R16, R104, R107). -/

namespace Sys2Proof.Machine

variable {s w : State} {j : Judged} {slots : Mask} {i : Item} {f : Frame}

/-! ## The window closed -/

/-- A station with no frame under judgement (R63). -/
def unjudged (s : State) : State := s.setVu { s.vu with judged := none }

@[simp] theorem unjudged_vu (s : State) : (unjudged s).vu = { s.vu with judged := none } := rfl

@[simp] theorem unjudged_frame (s : State) : (unjudged s).lu = s.lu ∧ (unjudged s).tu = s.tu ∧ (unjudged s).su = s.su ∧
    (unjudged s).qu = s.qu ∧ (unjudged s).wu = s.wu ∧ (unjudged s).hp = s.hp := ⟨rfl, rfl, rfl, rfl, rfl, rfl⟩

/-- The station of an own attempt once the window is closed and the attempt over (R54, R59). -/
theorem attemptOver_closeWindow (s : State) (i : Item) (f : Frame) :
    AttemptOver f (unjudged s) (endAttempt ⟨i, f⟩ (closeWindow s)) :=
  attemptOver_endAttempt (unjudged s) i f
    (l := { s.lu with mode := .resting, driver := .released, asserted := false, idleCount := 0, assertedCount := 0 }) rfl

/-- The end of an own window at a LISTENING station (R72). -/
theorem disposeFrame_listening {a : Attempt} (h : JudgingOwn j a s) (hst : s.vu.station = .listening) :
    disposeFrame j slots (closeWindow s) = endOwnListening a slots (closeWindow s) := by
  obtain ⟨⟨-, -, -, hgoverns⟩, hown, ha, -⟩ := h
  have ha : (closeWindow s).su.attempt = some a := ha
  simp only [disposeFrame, hgoverns, hst, hown, ha]

/-- Slots of other stations than one. -/
theorem without_only_iff (slots : Mask) (n : Station) : without slots (only n) ≠ 0 ↔ ∃ k, k ≠ n ∧ has slots k = true := by
  rw [ne_eq, mask_eq_zero_iff, not_forall]
  refine exists_congr fun k => ?_
  rw [has_without, has_only, Bool.not_eq_false, Bool.and_eq_true, Bool.not_eq_true', beq_eq_false_iff_ne, and_comm, ne_comm]

/-! ## A JOIN -/

/-- The end of an own JOIN's window (R105, R118): answered where the own slot and another were asserted. -/
theorem endOwnListening_probe (slots : Mask) (s : State) : endOwnListening ⟨.probe, f⟩ slots s =
    if has slots (own s) = true ∧ ∃ k, k ≠ own s ∧ has slots k = true then probeAnswered (endAttempt ⟨.probe, f⟩ s)
    else probeUnanswered (endAttempt ⟨.probe, f⟩ s) := by
  simp only [endOwnListening, without_only_iff]
  by_cases hs : has slots (own s) = true
  · simp only [hs, if_true, true_and]
  · simp only [hs]
    rfl

/-- WU at an answered JOIN: STATE is pending (R102, R105). -/
theorem probeAnswered_wu (h : s.vu.station ≠ .admitting) : (probeAnswered s).wu = { s.wu with statePending := true } := by
  simp [probeAnswered, enter, h, raiseState, quiet]

/-! ## A FOUND -/

/-- A cell held by another station than one. -/
theorem heldBy_others (n : Station) (r : Cell) : heldBy (~~~only n) r = true ↔ ∃ h, r.holder = some h ∧ h ≠ n := by
  have hnot (h : Station) : has (~~~only n) h = true ↔ h ≠ n := by
    rw [show has (~~~only n) h = !has (only n) h by simp [has, h.isLt], has_only, Bool.not_eq_true', beq_eq_false_iff_ne, ne_comm]
  simp only [heldBy_iff, hnot]

/-- The records after a founding: on a RETAINED table the claims of other stations are released (R16). -/
theorem cellAt_foundView (f : Frame) (s : State) (c : CellNo) : cellAt (foundView f s) c =
    if s.vu.standing = .retained ∧ heldBy (~~~only (own s)) (cellAt s c) = true
    then { cellAt s c with holder := none, version := (cellAt s c).version + 1 } else cellAt s c := by
  have htable : (foundView f s).tu = (if s.vu.standing = .retained then releaseForFounding s else s).tu := by simp [foundView]
  by_cases hr : s.vu.standing = .retained
  · rw [if_pos hr] at htable
    rw [cellAt_congr (congrArg Tu.cells htable), releaseForFounding, cellAt_freeCells]
    simp only [hr, true_and]
  · rw [if_neg hr] at htable
    rw [cellAt_congr (congrArg Tu.cells htable), if_neg (fun h => hr h.1)]

/-- The end of an own FOUND's window: complete where the own slot was asserted (R72, R93). -/
theorem endOwnListening_found (slots : Mask) (s : State) : endOwnListening ⟨.found, f⟩ slots s =
    if has slots (own s) = true then foundView f (setRecord .found .fresh (endAttempt ⟨.found, f⟩ s))
    else foundIncomplete (endAttempt ⟨.found, f⟩ s) := rfl

/-- A founding reports its entry into MEMBER (R104, R151). -/
theorem foundView_reported (hst : w.vu.station ≠ .member) (hw : w.wu = s.wu) (hh : w.hp = s.hp) :
    EntryReported s (refresh (foundView f w)) := by
  generalize hr : (if w.vu.standing = .retained then releaseForFounding w else w) = r
  have hvu : r.vu = w.vu := by rw [← hr]; split <;> simp
  have hwu : r.wu = w.wu := by rw [← hr]; split <;> simp
  have hhp : r.hp = w.hp := by rw [← hr]; split <;> simp
  obtain ⟨u, hfound, hust, huwu, huhp⟩ : ∃ u, foundView f w = enterMember u ∧ u.vu.station = r.vu.station ∧ u.wu = r.wu ∧
      u.hp = r.hp := by
    simp only [foundView, hr]
    exact ⟨_, rfl, rfl, rfl, rfl⟩
  rw [hfound]
  exact EntryReported.of_enterMember (u := u) (by rwa [hust, hvu]) (huwu.trans (hwu.trans hw)) (huhp.trans (hhp.trans hh))
    (by simp) (by simp)

/-- Settles O49: `endOwnListening_probe` tells a JOIN answered from one unanswered, and the own slot a FOUND complete from one that
is not. -/
theorem probesEnd : Obligations.ProbesEnd := by
  unfold Obligations.ProbesEnd
  intro slots s j f hst answered sp
  refine ⟨fun h hb hn => ?join, fun r h hb hdue => ?found⟩
  case join =>
    have ⟨hjudging, hown, _, hsent⟩ := h
    have hkind : probeWindow j = true := by simp [probeWindow, hsent, hb, isJoin, hown, hjudging.2.2.2, hst]
    have hrun : exec (.joinProbe slots) s = .next (refresh (endOwnListening ⟨.probe, f⟩ slots (closeWindow s))) := by
      rw [← disposeFrame_listening h hst]
      exact congrArg Host.Outcome.next (windowEndOf_judging hjudging hkind slots)
    have hover := attemptOver_closeWindow s .probe f
    rw [endOwnListening_probe] at hrun
    by_cases ha : answered
    · replace hrun := hrun.trans (congrArg (Host.Outcome.next ∘ refresh) (if_pos ha))
      have hwu := probeAnswered_wu (s := endAttempt ⟨.probe, f⟩ (closeWindow s)) (by simp [hst])
      refine ⟨_, hrun, by simp, by simp, by simp, by simp [hb, classOne], by simp, by simp, by simp, fun _ => ?_,
        fun hno => absurd ha hno⟩
      simp [hwu, Config.admitWait]
    · replace hrun := hrun.trans (congrArg (Host.Outcome.next ∘ refresh) (if_neg ha))
      obtain ⟨⟨htu, hwu, hdef⟩, hqu, -, hvu⟩ := hover.probe hn
      refine ⟨_, hrun, htu, hqu, by simp, hdef.trans (by simp [hb, classOne]), ?_, ?_, ?_, fun hyes => absurd hyes ha, fun _ => ?_⟩
      · exact (congrArg Vu.standing hvu :)
      · exact (congrArg Vu.retainedEpoch hvu :)
      · exact (congrArg Vu.view hvu :)
      · exact ⟨(congrArg Vu.station hvu).trans hst, congrArg Vu.unanswered hvu, congrArg Vu.probeDue hvu,
          congrArg Vu.probeTimer hvu, hwu⟩
  case found =>
    have ⟨hjudging, _, _, hsent⟩ := h
    have hkind : foundWindow j = true := by simp [foundWindow, hsent, hb, isFound]
    have hrun : exec (.found slots) s = .next (refresh (endOwnListening ⟨.found, f⟩ slots (closeWindow s))) := by
      rw [← disposeFrame_listening h hst]
      exact congrArg Host.Outcome.next (windowEndOf_judging hjudging hkind slots)
    have hover := attemptOver_closeWindow s .found f
    rw [endOwnListening_found] at hrun
    by_cases hs : has slots (own s) = true
    · replace hrun := hrun.trans (congrArg (Host.Outcome.next ∘ refresh) (if_pos hs))
      simp only [Function.comp] at hrun
      generalize hw : setRecord .found .fresh (endAttempt ⟨.found, f⟩ (closeWindow s)) = w at hrun
      have hvu : w.vu = { s.vu with judged := none } := by rw [← hw]; rfl
      have hreported : EntryReported s (refresh (foundView f w)) :=
        foundView_reported (by simp [hvu, hst]) (by rw [← hw]; rfl) (by rw [← hw]; rfl)
      have hown : own w = own s := by rw [← hw]; rfl
      have hcell (c : CellNo) : cellAt w c = cellAt s c := by rw [← hw]; rfl
      refine ⟨_, hrun, by simp [← hw, setRecord], by simp [← hw], by simp [← hw], by simp [← hw], fun _ => ?_,
        fun hno => absurd hs (by simp [hno])⟩
      refine ⟨by simp, by simp, by simp, by simp [hown, View.empty], by simp, by simp, hreported, fun c => ?_⟩
      rw [cellAt_refresh, cellAt_foundView]
      simp only [hvu, hown, hcell, heldBy_others]
      exact ⟨fun hr => if_pos hr, fun hr => if_neg hr⟩
    · replace hrun := hrun.trans (congrArg (Host.Outcome.next ∘ refresh) (if_neg hs))
      obtain ⟨⟨htu, hwu, -⟩, hqu, hwaits, hgives⟩ := hover.found hst hdue
      refine ⟨_, hrun, hqu, by simp, by simp, congrArg Tu.known htu, fun hyes => absurd hyes hs, fun _ => ?_⟩
      refine ⟨by simp [hst], htu, hwu, fun hc => ?_, fun hc => ?_⟩
      · obtain ⟨hvu, hrec, hoffer⟩ := hwaits hc
        exact ⟨hrec, (congrArg Vu.probeDue hvu).trans hdue, (congrArg Vu.unanswered hvu :), hoffer⟩
      · obtain ⟨hvu, -, hoffer⟩ := hgives hc
        exact ⟨congrArg Vu.unanswered hvu, congrArg Vu.probeDue hvu, hoffer⟩

end Sys2Proof.Machine
end

section
/-! SUPPORT. Windows that apply nothing: which frames are complete in a view (R70, R71), an incomplete frame of another station there
(R77), and windows that a station disregards or only tracks (R61, R63, R103, R118). -/

namespace Sys2Proof.Machine

variable {s u : State} {j : Judged} {slots : Mask} {c : Instr}

/-! ## Completeness -/

/-- The stations that a DROP requires (R70). -/
theorem has_requiredSet_drop {m : Mask} {f : Frame} (hb : f.body = .drop m) (v : View) (n : Station) :
    has (requiredSet f v) n = true ↔ (has v.full n = true ∨ has v.joiners n = true) ∧ has m n = false := by
  simp only [requiredSet, hb, has_without, Bool.and_eq_true, has_everyone_iff, Bool.not_eq_true']

/-- The one station that a FOUND requires (R70). -/
theorem has_requiredSet_found {r : Bool} {f : Frame} (hb : f.body = .found r) (v : View) (n : Station) :
    has (requiredSet f v) n = true ↔ n = f.orig := by
  rw [requiredSet, hb, has_only, beq_iff_eq, eq_comm]

/-- A frame is complete by four tests (R71). -/
theorem isComplete_iff (j : Judged) (slots : Mask) (s : State) : isComplete j slots s = true ↔ j.intact = true ∧
    (j.own = false → j.accept = true) ∧ (j.own = true → has slots (own s) = true) ∧
    ∀ n, has (requiredSet j.frame s.vu.view) n = true → has slots n = true := by
  rw [isComplete, Bool.and_eq_true, Bool.and_eq_true, within_iff]
  cases j.own <;> simp [and_assoc]

/-! ## An incomplete frame in a view -/

/-- An incomplete frame of another station withdraws the station that it had shown out of step, and does nothing else (R77). -/
theorem disposeFrame_other_incomplete (h : Judging j s) (hown : j.own = false) (hc : isComplete j slots s = false)
    (hst : s.vu.station = .member ∨ s.vu.station = .joining) :
    disposeFrame j slots (closeWindow s) = if j.outOfStep then withdraw (closeWindow s) else closeWindow s := by
  have hc : isComplete j slots (closeWindow s) = false := hc
  have hwindow : disposeFrame j slots (closeWindow s) = endOtherWindow j slots (closeWindow s) := by
    obtain ⟨-, -, -, hgoverns⟩ := h
    rcases hst with hst | hst <;> simp only [disposeFrame, hgoverns, hst, hown]
  rw [hwindow, endOtherWindow, hc]
  rfl

/-! ## Which command ends a window -/

/-- A command that ends the windows of the frames of one kind. -/
def EndsWindow (kind : Judged → Bool) (slots : Mask) (c : Instr) : Prop :=
  ∀ s, exec c s = .next (onLine (windowEndOf kind slots) s)

/-- The command of a heard frame's kind, and the command of an incomplete window, end its window, but for a ROSTER's at an ADMITTING
station (log entry 2). -/
theorem heard_endsWindow (hown : j.own = false) (hr : j.station = .admitting → isRoster j.frame.body = false)
    (hc : c = heardCommand j.frame slots ∨ c = .incompleteWindowEnd slots) : ∃ kind, EndsWindow kind slots c ∧ kind j = true := by
  rcases hc with rfl | rfl
  · unfold heardCommand
    cases hb : j.frame.body with
    | cell op c a b => exact ⟨cellWindow op, exec_cellCommand op slots, by simp [cellWindow, hb]⟩
    | found r => exact ⟨foundWindow, fun _ => rfl, by simp [foundWindow, hb, isFound]⟩
    | join => exact ⟨joinWindow, fun _ => rfl, by simp [joinWindow, probeWindow, hb, isJoin, hown]⟩
    | roster full joiners cursor remaining =>
      refine ⟨rosterWindow, fun _ => rfl, ?_⟩
      have hst : j.station ≠ .admitting := fun e => by simpa [hb, isRoster] using hr e
      simp [rosterWindow, hb, isRoster, hst]
    | transfer k images => exact ⟨transferWindow, fun _ => rfl, by simp [transferWindow, hb]⟩
    | drop m => exact ⟨dropWindow, fun _ => rfl, by simp [dropWindow, hb]⟩
    | leave => exact ⟨leaveWindow, fun _ => rfl, by simp [leaveWindow, hb]⟩
  · exact ⟨anyWindow, fun _ => rfl, rfl⟩

/-- Every command of a window's end ends the windows of some kind (log entry 2). -/
theorem windowEnds_endsWindow (hc : c ∈ windowEnds slots) : ∃ kind, EndsWindow kind slots c := by
  rcases List.mem_append.mp hc with hc | hc
  · obtain ⟨op, -, rfl⟩ := List.mem_map.mp hc
    exact ⟨cellWindow op, exec_cellCommand op slots⟩
  · simp only [List.mem_cons, List.not_mem_nil, or_false] at hc
    rcases hc with rfl | rfl | rfl | rfl | rfl | rfl | rfl | rfl | rfl <;> exact ⟨_, fun _ => rfl⟩

/-- The end of the window of the frame under judgement, by a command of its kind (R54, R63). -/
theorem EndsWindow.exec_judged {kind : Judged → Bool} (h : EndsWindow kind slots c) (hk : kind j = true) (hf : held u = false)
    (hm : u.lu.mode = .window) (hj : u.vu.judged = some j) :
    exec c u = .next (refresh (disposeFrame j slots (closeWindow u))) := by
  rw [h u, onLine_free hf]
  simp only [windowEndOf, hj, hk, if_true, windowEnd, hm]

/-- The end of a window with no frame under judgement (R61). -/
theorem EndsWindow.exec_tracked {kind : Judged → Bool} (h : EndsWindow kind slots c) (hf : held u = false)
    (hm : u.lu.mode = .tracking ∨ u.lu.mode = .window) (hj : u.vu.judged = none) : exec c u = .next (refresh (closeWindow u)) := by
  rw [h u, onLine_free hf]
  rcases hm with hm | hm <;> simp only [windowEndOf, hj, windowEnd, hm]

/-! ## A disregarded frame -/

/-- A frame that HALTED governs, or another station's at a LISTENING station, is disregarded (R63). -/
theorem disposeFrame_disregarded (h : j.station = .halted ∨ (j.station = .listening ∧ j.own = false)) (slots : Mask) (s : State) :
    disposeFrame j slots s = s := by
  rcases h with h | ⟨h, hown⟩
  · simp only [disposeFrame, h]
  · simp only [disposeFrame, h, hown]

/-- No frame but a ROSTER admits a station (R73). -/
theorem endAdmitting_other (h : isRoster j.frame.body = false) (slots : Mask) (s : State) : endAdmitting j slots s = takeExpiry s := by
  have hno : admits j slots s = none := by
    unfold admits
    cases hb : j.frame.body with
    | roster => simp [hb, isRoster] at h
    | _ => rfl
  simp only [endAdmitting, hno]

/-- START at a HALTED station (R103, R165). -/
theorem exec_start_halted (hf : held s = false) (hst : s.vu.station = .halted) (hk : s.hp.controlBytes = []) :
    exec .start s = .next (controlResult .taken (refresh (beginListening s))) := by
  refine congrArg Host.Outcome.next ?_
  simp [hostWrite, hf, controlCommand, bytesToWrite, hk, controlWrite, controlFirst, takeStart, hst]

/-- A fault in the window of a frame that HALTED governs (R57, R63). -/
theorem windowFault_disregarded (hm : s.lu.mode = .window) (hj : s.vu.judged = some j) (hst : j.station = .halted)
    (hown : j.own = false) (slot : Station) (inData : Bool) : windowFault slot inData s = refresh (windowLost s) := by
  simp only [windowFault, hm, hj, disposeFault, hown, hst]
  rfl

/-- Settles O50: `disposeFrame_other_incomplete` in a view, and outside one `disposeFrame_disregarded` and `endAdmitting_other`. -/
theorem incompleteElsewhere : Obligations.IncompleteElsewhere := by
  unfold Obligations.IncompleteElsewhere
  refine ⟨fun j slots s => ?complete, fun slots s j h hown hc ha _ hst => ?view, fun slots s c hf ha => ?outside⟩
  case complete =>
    intro v inIt required
    have hrequired (n : Station) : has (requiredSet j.frame s.vu.view) n = true ↔ required n := by
      cases hb : j.frame.body with
      | drop m => simp only [required, hb, has_requiredSet_drop hb]; rfl
      | found r => simp only [required, hb, has_requiredSet_found hb]
      | _ => simp only [required, hb, requiredSet, has_everyone_iff]; rfl
    rw [isComplete_iff]
    simp only [hrequired]
  case view =>
    have hrun : exec (.incompleteWindowEnd slots) s = .next (refresh (disposeFrame j slots (closeWindow s))) :=
      congrArg Host.Outcome.next (windowEndOf_judging h rfl slots)
    rw [disposeFrame_other_incomplete h hown hc hst] at hrun
    cases ho : j.outOfStep
    · rw [ho] at hrun
      exact ⟨_, hrun, rfl, rfl, rfl, rfl, fun _ => ⟨rfl, rfl, rfl, rfl⟩, fun e => by cases e⟩
    · rw [ho, if_pos rfl] at hrun
      have hv : inView (closeWindow s).vu.station = true := by
        rcases hst with hst | hst <;> simp [inView, hst]
      refine ⟨_, hrun, by simp, by simp, by simp, by simp, fun e => (by cases e), fun _ => ?_⟩
      exact (Withdrawn.of_withdraw _ hv).congr rfl rfl rfl rfl rfl rfl rfl
  case outside =>
    intro rests
    have hrests {w : State} (htu : w.tu = s.tu) (hqu : w.qu = s.qu) (hhp : w.hp = s.hp) (hsu : w.su = s.su)
        (hlu : w.lu = (closeWindow s).lu) : rests (refresh w) :=
      ⟨htu, hqu, hhp, SendingSettled.of_su (by rw [hsu, ← ha]), hlu⟩
    refine ⟨fun j h hown hc hst => ?disregarded, fun j h hown hc hst hk => ?started, fun hm hj hc => ?tracked⟩
    case disregarded =>
      obtain ⟨-, hm, hj, hgoverns⟩ := h
      have hr : j.station = .admitting → isRoster j.frame.body = false := by
        rw [hgoverns]
        rcases hst with hst | hst | ⟨-, hr⟩
        · simp [hst]
        · simp [hst]
        · exact fun _ => hr
      obtain ⟨kind, hends, hkind⟩ := heard_endsWindow hown hr hc
      have hrun := hends.exec_judged hkind hf hm hj
      by_cases hadm : s.vu.station = .admitting
      · have hend : disposeFrame j slots (closeWindow s) = takeExpiry (closeWindow s) := by
          rw [disposeFrame_admitting ⟨hf, hm, hj, hgoverns⟩ hadm, endAdmitting_other (hr (hgoverns.trans hadm))]
        rw [hend] at hrun
        cases he : s.vu.admitExpired
        · rw [takeExpiry_none (u := closeWindow s) (.inr he)] at hrun
          exact ⟨_, hrun, hrests rfl rfl rfl rfl rfl, fun _ => ⟨rfl, rfl⟩, fun _ e => by cases e⟩
        · rw [takeExpiry_expired (u := closeWindow s) hadm he] at hrun
          refine ⟨_, hrun, hrests rfl rfl rfl rfl rfl, fun hno => ?_, fun _ _ => ⟨rfl, rfl, rfl, rfl, rfl, rfl, rfl, rfl⟩⟩
          rcases hno with hno | hno
          · exact absurd hadm hno
          · cases hno
      · have hout : j.station = .halted ∨ (j.station = .listening ∧ j.own = false) := by
          rw [hgoverns]
          rcases hst with hst | hst | ⟨hst, -⟩
          · exact .inl hst
          · exact .inr ⟨hst, hown⟩
          · exact absurd hst hadm
        rw [disposeFrame_disregarded hout] at hrun
        exact ⟨_, hrun, hrests rfl rfl rfl rfl rfl, fun _ => ⟨rfl, rfl⟩, fun hyes => absurd hyes hadm⟩
    case started =>
      obtain ⟨-, hm, hj, hgoverns⟩ := h
      have hgoverns : j.station = .halted := hgoverns.trans hst
      obtain ⟨kind, hends, hkind⟩ := heard_endsWindow (slots := slots) hown (by simp [hgoverns]) hc
      refine ⟨_, exec_start_halted hf hst hk, ?_⟩
      generalize hu : controlResult .taken (refresh (beginListening s)) = u
      have huf : held u = false := by rw [← hf]; exact held_congr (by simp [← hu]) (by simp [← hu])
      have hulu : u.lu = s.lu := by simp [← hu]
      have huj : u.vu.judged = some j := by simp [← hu, hj]
      have hul : u.vu.station = .listening := by simp [← hu]
      have hud : u.vu.probeDue = .join := by simp [← hu]
      have hua : u.su.attempt = none := by simp [← hu, ha]
      have hutu : u.tu = s.tu := by simp [← hu]
      have huqu : u.qu = s.qu := by simp [← hu]
      refine ⟨hul, huj, ⟨_, hends.exec_judged hkind huf (by rw [hulu, hm]) huj, ?_⟩, fun slot inData => ⟨_, next_onLine huf _, ?_⟩⟩
      · rw [disposeFrame_disregarded (.inl hgoverns)]
        refine ⟨⟨rfl, hutu, huqu, rfl, rfl, refresh_offers_probe hua hul hud⟩, ?_⟩
        rw [← hulu]
        rfl
      · rw [windowFault_disregarded (by rw [hulu, hm]) huj hgoverns hown]
        refine ⟨⟨rfl, hutu, huqu, rfl, rfl, refresh_offers_probe hua hul hud⟩, ?_⟩
        rw [← hulu]
        rfl
    case tracked =>
      obtain ⟨kind, hends⟩ := windowEnds_endsWindow hc
      refine ⟨_, hends.exec_tracked hf hm hj, hrests rfl rfl rfl rfl rfl, ?_, rfl⟩
      show { s.vu with judged := none } = s.vu
      rw [← hj]

end Sys2Proof.Machine
end

section
/-! SUPPORT. An own attempt in a view whose window leaves it incomplete (R83, R85 to R92, R142): the missing set recorded, the drop
decision with its quorum test, and the limit of the item's kind. -/

namespace Sys2Proof.Machine

variable {s u t : State} {j : Judged} {slots : Mask} {i : Item} {f : Frame} {q : Request} {tag : Byte} {r : AttemptRec} {l : Lu}

/-! ## LU and the attempt after the window -/

/-- A halt writes no more of LU than DEFERRED where the line rests with the driver released (R61, R115). -/
theorem idled_haltStation_resting (h : Idled l u) (hm : l.mode = .resting) (hr : l.driver = .released) : Idled l (haltStation u) := by
  obtain ⟨⟨d, hd⟩, ha⟩ := h
  by_cases hs : u.vu.station = .halted
  · rw [haltStation_halted u hs]; exact ⟨⟨d, hd⟩, ha⟩
  · exact ⟨⟨false, by simp [haltStation, hs, hd, haltLine, hm, hr]⟩, by simp [haltStation, hs, Su.empty]⟩

/-- So does an incomplete attempt at a window's end (R83 to R92). -/
theorem incompleteAttempt_resting (s : State) (a : Attempt) (i : Item) (m : Mask) :
    Idled (closeWindow s).lu (refresh (incompleteAttempt i m (endAttempt a (closeWindow s)))) := by
  have hclosed : Idled (closeWindow s).lu (endAttempt a (closeWindow s)) := ⟨⟨_, rfl⟩, rfl⟩
  have hidled : Idled (closeWindow s).lu (incompleteAttempt i m (endAttempt a (closeWindow s))) :=
    incompleteAttempt_keeps (P := Idled (closeWindow s).lu) (fun hw hl ha _ => hw.congr hl ha) Idled.withdraw
      (fun hw => idled_haltStation_resting hw rfl rfl) hclosed i m
  exact hidled.congr rfl rfl

/-- The end of the window of an own frame that it leaves incomplete, in a view (R71, R83). -/
theorem exec_incomplete_own {a : Attempt} (h : JudgingOwn j a s) (hv : inView s.vu.station = true)
    (hc : isComplete j slots s = false) : exec (.incompleteWindowEnd slots) s
      = .next (refresh (incompleteAttempt a.item (missingSet j slots s) (endAttempt a (closeWindow s)))) := by
  have ⟨hjudging, hown, ha, _⟩ := h
  have hend : disposeFrame j slots (closeWindow s)
      = incompleteAttempt a.item (missingSet j slots s) (endAttempt a (closeWindow s)) := by
    have ha : (closeWindow s).su.attempt = some a := ha
    have hc : isComplete j slots (closeWindow s) = false := hc
    have hwindow : disposeFrame j slots (closeWindow s) = endOwnWindow j a slots (closeWindow s) := by
      rcases (by simpa [inView] using hv : s.vu.station = .member ∨ s.vu.station = .joining) with hst | hst <;>
        simp only [disposeFrame, hjudging.2.2.2, hst, hown, ha]
    rw [hwindow, endOwnWindow, hc]
    rfl
  rw [← hend]
  exact congrArg Host.Outcome.next (windowEndOf_judging hjudging rfl slots)

/-! ## The missing set and the history -/

/-- The record after a miss keeps the last three missing sets (R83). -/
theorem recordMiss_eq (m : Mask) (r : AttemptRec) :
    recordMiss m r = ⟨r.count + 1, (r.history ++ [m]).drop (r.history.length - 2)⟩ := by
  simp [recordMiss, appendMissing, Config.historyDepth]

/-- The stations of a view that are missing from every entry of a history (R85). -/
def sharedOf (r : AttemptRec) (v : View) : Mask := r.history.foldl (fun m h => m &&& h) (v.full ||| v.joiners)

/-- They are what the drop decision weighs (R85). -/
theorem sharedMisses_inView (r : AttemptRec) (v : View) : sharedMisses r.history &&& everyone v = sharedOf r v := by
  have hfold : r.history.foldl (· &&& ·) (everyone v &&& BitVec.allOnes 32)
      = everyone v &&& r.history.foldl (· &&& ·) (BitVec.allOnes 32) := List.foldl_assoc
  rw [BitVec.and_allOnes] at hfold
  rw [sharedMisses, BitVec.and_comm, ← hfold]
  rfl

/-- They are stations of the view. -/
theorem sharedOf_inView (r : AttemptRec) (v : View) : sharedOf r v &&& everyone v = sharedOf r v := by
  rw [← sharedMisses_inView, BitVec.and_assoc, BitVec.and_self]

/-- What the quorum test weighs: those stations and, for the owed DROP, its mask with them (R86, R88). -/
def weighedOf (i : Item) (s : State) : Mask :=
  if i = .drop then s.su.owedDrop.getD 0 ||| sharedOf (recordOf i s) s.vu.view else sharedOf (recordOf i s) s.vu.view

/-- The drop decision on an item (R85, R86, R88): kept, a DROP owed, or the station withdrawn. -/
theorem decideItem_eq (i : Item) (s : State) : decideItem i s =
    if (recordOf i s).history.length < 3 ∨ sharedOf (recordOf i s) s.vu.view = 0 then attemptLimit i s
    else if 2 * size (weighedOf i s &&& s.vu.view.full) < size s.vu.view.full then attemptLimit i (oweDrop i (weighedOf i s) s)
    else withdraw s := by
  have hverdict : dropDecision i (recordOf i s) s =
      if (recordOf i s).history.length < 3 ∨ sharedOf (recordOf i s) s.vu.view = 0 then .keep
      else if 2 * size (weighedOf i s &&& s.vu.view.full) < size s.vu.view.full then .owe (weighedOf i s) else .withdraw := by
    simp only [dropDecision, sharedMisses_inView, Config.historyDepth, quorumPasses, decide_eq_true_eq, weighedOf]
    rfl
  rw [decideItem, hverdict]
  split_ifs <;> rfl

/-! ## The attempt over, with a record written or a DROP owed -/

/-- An item's record written on both sides (R78). -/
theorem AttemptOver.of_setRecord (h : AttemptOver f s u) (i : Item) (r : AttemptRec) :
    AttemptOver f (setRecord i r s) (setRecord i r u) := by
  refine ⟨by simp [h.vu], by simp [h.tu], ?_, by simp [h.wu], by simp [h.hp], ?_, by simp [h.deferred]⟩
  · cases i <;> simp only [setRecord, updateRequest, State.setSu_qu, State.setQu_qu, h.qu]
  · cases i <;> simp only [setRecord, updateRequest, State.setSu_su, State.setQu_su, h.su]

/-- A DROP owed on both sides (R86). -/
theorem AttemptOver.of_oweDrop (h : AttemptOver f s u) (i : Item) (m : Mask) : AttemptOver f (oweDrop i m s) (oweDrop i m u) :=
  ⟨h.vu, h.tu, h.qu, h.wu, h.hp, by simp only [oweDrop, State.setSu_su, h.su], h.deferred⟩

/-- What SU's refresh leaves where no more than QU has changed after the attempt (R59, R81). -/
theorem AttemptOver.settled_setQu (h : AttemptOver f s u) (x : Qu) :
    let t := refresh (u.setQu x)
    (t.tu = s.tu ∧ t.wu = s.wu ∧ t.lu.deferred = (s.lu.deferred || classOne f.body)) ∧ t.vu = s.vu ∧ SendingSettled s t ∧
      t.qu = x :=
  ⟨⟨h.tu, h.wu, h.deferred⟩, h.vu, SendingSettled.of_su h.su, rfl⟩

/-- SU brought into line looks at SU before it alone. -/
theorem SendingSettled.of_su_eq (h : SendingSettled u t) (hsu : u.su = s.su) : SendingSettled s t :=
  h.of (by rw [hsu]) (by rw [hsu]) (by rw [hsu]) (by rw [hsu]) (by rw [hsu]) (by rw [hsu]) (by rw [hsu])

/-- A DROP owed at a station of a view that has stations of its mask is on offer (R80, R87). -/
theorem SendingSettled.offers_drop {m : Mask} (h : SendingSettled s t) (hst : t.vu.station = .member)
    (hm : s.su.owedDrop = some m) (hin : m &&& everyone t.vu.view ≠ 0) : t.su.offer = some .drop := by
  obtain ⟨-, hoffered, howed, -⟩ := h
  rw [hm] at howed
  have howed : t.su.owedDrop = some (m &&& everyone t.vu.view) := howed.trans (if_neg hin)
  exact (hoffered.2.2.2 hst).1 (by rw [howed]; rfl)

/-- A withdrawal at the end of a window, seen from the station in it (R114). -/
theorem withdrawn_of_judged (hv : inView s.vu.station = true) (hvu : u.vu = { s.vu with judged := none }) (htu : u.tu = s.tu)
    (hqu : u.qu = s.qu) (hwu : u.wu = s.wu) : Withdrawn s (refresh (withdraw u)) :=
  (Withdrawn.of_withdraw u (by rw [hvu]; exact hv)).congr (by rw [hvu]) (by rw [hvu]) (by rw [hvu]) (by rw [hvu]) htu hqu hwu

/-! ## A request or claim -/

/-- QU with a request retired unapplied looks at the station before it only by these (R144). -/
theorem retiredAs_congr (hv : u.vu = s.vu) (ht : u.tu = s.tu) (hq : u.qu = s.qu) (e : Ending) (q : Request) :
    retiredAs e q u = retiredAs e q s := by
  simp only [retiredAs, unappliedRecord, cellAt, hv, ht, hq]

/-- QU with a request or claim waiting again looks at QU before it alone (R137, R140). -/
theorem returnItem_qu_congr (hi : i = .request tag ∨ i = .claim tag) (hq : u.qu = s.qu) :
    (returnItem i u).qu = (returnItem i s).qu := by
  rcases hi with rfl | rfl <;> simp only [returnItem, requeueHead, requeueClaim, updateRequest, State.setQu_qu, hq]

/-- The drop decision on a request or claim (R85, R86). -/
theorem decideItem_request (hi : i = .request tag ∨ i = .claim tag) (hq : findRequest tag s = some q) : decideItem i s =
    if q.attempts.history.length < 3 ∨ sharedOf q.attempts s.vu.view = 0 then attemptLimit i s
    else if 2 * size (sharedOf q.attempts s.vu.view &&& s.vu.view.full) < size s.vu.view.full
    then attemptLimit i (oweDrop i (sharedOf q.attempts s.vu.view) s)
    else withdraw s := by
  have hne : i ≠ .drop := by rcases hi with rfl | rfl <;> simp
  rw [decideItem_eq, weighedOf, if_neg hne, recordOf_request hi hq]

/-- The limit of a request or claim: before its 8th attempt it waits again, and at it it is retired FAILED (R90, R92). -/
theorem attemptLimit_request (hi : i = .request tag ∨ i = .claim tag) (hq : findRequest tag s = some q) : attemptLimit i s =
    if q.attempts.count < 8 then returnItem i s else retire (recordUnapplied .failed q s) s := by
  have hrec : recordOf i s = q.attempts := recordOf_request hi hq
  have hreq : requestOfItem i s = some q := (requestOfItem_eq hi s).trans hq
  rcases hi with rfl | rfl <;> simp only [attemptLimit, hrec, hreq, Config.attemptLimit]

/-- What it leaves, with SU in line again. -/
theorem AttemptOver.limit_request (h : AttemptOver f s u) (hi : i = .request tag ∨ i = .claim tag)
    (hq : findRequest tag s = some q) :
    let t := refresh (attemptLimit i u)
    (t.tu = s.tu ∧ t.wu = s.wu ∧ t.lu.deferred = (s.lu.deferred || classOne f.body)) ∧ t.vu = s.vu ∧ SendingSettled s t ∧
      (q.attempts.count < 8 → t.qu = (returnItem i s).qu) ∧ (q.attempts.count = 8 → t.qu = retiredAs .failed q s) := by
  have hu : findRequest tag u = some q := by rw [findRequest, h.qu]; exact hq
  have hlimit := attemptLimit_request hi hu
  have hquOnly : attemptLimit i u = u.setQu (attemptLimit i u).qu := by
    rw [hlimit]
    rcases hi with rfl | rfl <;> split <;> rfl
  have hsettled := h.settled_setQu (attemptLimit i u).qu
  rw [← hquOnly] at hsettled
  obtain ⟨hstill, hvu, hsend, -⟩ := hsettled
  refine ⟨hstill, hvu, hsend, fun hc => ?_, fun hc => ?_⟩
  · show (attemptLimit i u).qu = _
    rw [hlimit, if_pos hc, returnItem_qu_congr hi h.qu]
  · show (attemptLimit i u).qu = _
    rw [hlimit, if_neg (by omega), retire_unapplied_qu, retiredAs_congr h.vu h.tu h.qu]

/-- A request or claim with its record written. -/
theorem findRequest_recorded (hi : i = .request tag ∨ i = .claim tag) (hq : findRequest tag s = some q) (r : AttemptRec) :
    findRequest tag (setRecord i r s) = some { q with attempts := r } := by
  have hset : setRecord i r s = updateRequest tag (fun x => { x with attempts := r }) s := by rcases hi with rfl | rfl <;> rfl
  rw [hset, findRequest_updateRequest (by simp), hq]
  rfl

/-- An incomplete attempt of a request or claim, its record written: retired CANCELLED where it is marked, and decided on otherwise
(R83, R85, R142). -/
theorem incompleteAttempt_recorded (hi : i = .request tag ∨ i = .claim tag) (hq : findRequest tag s = some q) {m : Mask}
    (hr : recordMiss m q.attempts = r) : incompleteAttempt i m s =
      if q.cancelMark then retire (recordUnapplied .cancelled { q with attempts := r } (setRecord i r s)) (setRecord i r s)
      else decideItem i (setRecord i r s) := by
  have hreq : requestOfItem i (setRecord i r s) = some { q with attempts := r } :=
    (requestOfItem_eq hi _).trans (findRequest_recorded hi hq r)
  have hweigh : incompleteAttempt i m s = weighMiss i (setRecord i r s) := by
    rw [← hr, ← recordOf_request hi hq]
    rcases hi with rfl | rfl <;> rfl
  rw [hweigh, weighMiss, hreq]

/-- A request that waits again as QUEUED, with its record written (R137). -/
theorem requeued_recorded (hn : tag ∉ s.qu.park.map (·.tag)) (r : AttemptRec) :
    (returnItem (.request tag) (setRecord (.request tag) r s)).qu = { s.qu with
      queue := s.qu.queue.map fun x => if x.tag = tag then { x with state := .queued, attempts := r } else x } := by
  simp only [returnItem, requeueHead, setRecord]
  rw [updateRequest_updateRequest (by intro x; rfl)]
  simp only [updateRequest, State.setQu_qu, map_other_tags hn]
  rfl

/-- A woken claim that waits again as ELIGIBLE, first in woken order, with its record written (R140). -/
theorem reparked_recorded (hn : tag ∉ s.qu.queue.map (·.tag)) (r : AttemptRec) :
    (returnItem (.claim tag) (setRecord (.claim tag) r s)).qu = { s.qu with
      park := s.qu.park.map fun x => if x.tag = tag then { x with state := .eligible, attempts := r } else x
      woken := tag :: s.qu.woken } := by
  simp only [returnItem, requeueClaim, setRecord]
  rw [updateRequest_updateRequest (by intro x; rfl)]
  simp only [updateRequest, State.setQu_qu, map_other_tags hn]
  rfl

/-- A request or claim retired unapplied at the end of its attempt, with SU in line again (R81, R143, R144). -/
theorem AttemptOver.retired (h : AttemptOver f s u) (e : Ending) (q : Request) :
    let t := refresh (retire (recordUnapplied e q u) u)
    (t.tu = s.tu ∧ t.wu = s.wu ∧ t.lu.deferred = (s.lu.deferred || classOne f.body)) ∧ t.vu = s.vu ∧ SendingSettled s t ∧
      t.qu = retiredAs e q s := by
  rw [← retiredAs_congr h.vu h.tu h.qu, ← retire_unapplied_qu]
  exact h.settled_setQu _

/-- A tag of the queue is no tag of the park list where tags are distinct (R136). -/
theorem tag_not_parked (hn : (tags s).Nodup) (hq : q ∈ s.qu.queue) : q.tag ∉ s.qu.park.map (·.tag) := by
  rw [tags, requests, List.map_append, List.nodup_append] at hn
  exact fun hp => hn.2.2 q.tag (List.mem_map.2 ⟨q, hq, rfl⟩) q.tag hp rfl

/-- Nor is a tag of the park list one of the queue. -/
theorem tag_not_queued (hn : (tags s).Nodup) (hq : q ∈ s.qu.park) : q.tag ∉ s.qu.queue.map (·.tag) := by
  rw [tags, requests, List.map_append, List.nodup_append] at hn
  exact fun hp => hn.2.2 q.tag hp q.tag (List.mem_map.2 ⟨q, hq, rfl⟩) rfl

/-- The limit of a request or claim whose record has been written at `s`, on the way to `u`, where `x` has the rest as it stands: what
SU and QU then hold (R81, R90, R92). -/
theorem AttemptOver.limit_recorded {x : State} (h : AttemptOver f x u) (hn : (tags s).Nodup)
    (hi : (i = .request q.tag ∧ q ∈ s.qu.queue) ∨ (i = .claim q.tag ∧ q ∈ s.qu.park))
    (hx : x.qu = (setRecord i r s).qu ∧ x.vu = s.vu ∧ x.tu = s.tu ∧ x.wu = s.wu ∧ x.lu = s.lu) :
    let t := refresh (attemptLimit i u)
    (t.tu = s.tu ∧ t.wu = s.wu ∧ t.lu.deferred = (s.lu.deferred || classOne f.body)) ∧ t.vu = s.vu ∧ SendingSettled x t ∧
      (r.count < 8 →
        (i = .request q.tag → t.qu = { s.qu with
          queue := s.qu.queue.map fun y => if y.tag = q.tag then { y with state := .queued, attempts := r } else y }) ∧
        (i = .claim q.tag → t.qu = { s.qu with
          park := s.qu.park.map fun y => if y.tag = q.tag then { y with state := .eligible, attempts := r } else y
          woken := q.tag :: s.qu.woken })) ∧
      (r.count = 8 → t.qu = retiredAs .failed { q with attempts := r } s) := by
  obtain ⟨hqu, hvu, htu, hwu, hlu⟩ := hx
  have hitem : i = .request q.tag ∨ i = .claim q.tag := hi.imp And.left And.left
  have hq : findRequest q.tag (setRecord i r s) = some { q with attempts := r } :=
    findRequest_recorded hitem (findRequest_of_mem hn (List.mem_append.mpr (hi.imp And.right And.right))) r
  have hqx : findRequest q.tag x = some { q with attempts := r } := by rw [findRequest, hqu]; exact hq
  have hretired : retiredAs .failed { q with attempts := r } x = retiredAs .failed { q with attempts := r } s := by
    rw [← retiredAs_setRecord hitem .failed { q with attempts := r } rfl r s]
    exact retiredAs_congr (by simp [hvu]) (by simp [htu]) hqu .failed { q with attempts := r }
  obtain ⟨⟨htu', hwu', hdef⟩, hvu', hsend, hwaits, hfails⟩ := h.limit_request hitem hqx
  rw [returnItem_qu_congr hitem hqu] at hwaits
  refine ⟨⟨htu'.trans htu, hwu'.trans hwu, by rw [hdef, hlu]⟩, hvu'.trans hvu, hsend, fun hc => ?_,
    fun hc => (hfails hc).trans hretired⟩
  rcases hi with ⟨rfl, hmem⟩ | ⟨rfl, hmem⟩
  · exact ⟨fun _ => (hwaits hc).trans (requeued_recorded (tag_not_parked hn hmem) r), fun e => by cases e⟩
  · exact ⟨fun e => (by cases e), fun _ => (hwaits hc).trans (reparked_recorded (tag_not_queued hn hmem) r)⟩

/-! ## A system item -/

/-- An incomplete attempt of a system item is recorded and decided on (R83, R85). -/
theorem incompleteAttempt_decided (hi : systemItem i = true) (m : Mask) (s : State) :
    incompleteAttempt i m s = decideItem i (setRecord i (recordMiss m (recordOf i s)) s) := by
  cases i
  case probe | found | claim | request => cases hi
  all_goals rfl

/-- A DROP owed in place of the decided item leaves that item's count (R86, R88). -/
theorem recordOf_oweDrop_count (hi : systemItem i = true) (m : Mask) (s : State) :
    (recordOf i (oweDrop i m s)).count = (recordOf i s).count := by
  cases i
  case probe | found | claim | request => cases hi
  all_goals rfl

/-- A system item of a view is sent in the view alone (R79). -/
theorem inView_of_system {st : StationState} (hi : systemItem i = true) (hfits : itemFits i st = true) : inView st = true := by
  cases i
  case probe | found | claim | request => cases hi
  case drop => exact hfits
  all_goals
    have hst := beq_iff_eq.mp hfits
    rw [hst]
    rfl

/-- The record of a system item is no request's (R78). -/
theorem setRecord_system_qu (hi : systemItem i = true) (r : AttemptRec) (s : State) : (setRecord i r s).qu = s.qu := by
  cases i
  case probe | found | claim | request => cases hi
  all_goals rfl

/-- A record written in SU looks at SU alone (R78). -/
theorem setRecord_su_congr (hsu : u.su = s.su) (i : Item) (r : AttemptRec) : (setRecord i r u).su = (setRecord i r s).su := by
  cases i <;> simp [setRecord, hsu]

/-- A DROP owed after the record of a system item is written: a new one, and the owed DROP itself with its count kept (R86, R88). -/
theorem oweDrop_recorded_su (hi : systemItem i = true) (hsu : u.su = s.su) (r : AttemptRec) (m : Mask) :
    (oweDrop i m (setRecord i r u)).su = { (setRecord i r s).su with
      owedDrop := some m, dropRec := if i = .drop then ⟨r.count, []⟩ else ⟨0, []⟩ } := by
  rw [← setRecord_su_congr hsu]
  cases i
  case probe | found | claim | request => cases hi
  all_goals rfl

/-- A system item below its limit waits as it is (R90). -/
theorem attemptLimit_system (hi : systemItem i = true) (hc : (recordOf i s).count < 8) : attemptLimit i s = s := by
  rw [attemptLimit_waits hc]
  cases i
  case probe | found | claim | request => cases hi
  all_goals rfl

/-- What the limit of a system item leaves, with SU in line again (R81, R90 to R92): below it the item waits; at it the record of a ROSTER
or a TRANSFER is cleared, a stall JOIN ends, a DROP withdraws the station and a LEAVE halts it. -/
theorem AttemptOver.limit_system (h : AttemptOver f s u) (hi : systemItem i = true) (hfits : itemFits i s.vu.station = true)
    (ht : t = refresh (attemptLimit i u)) :
    let quiet : Prop := t.tu = s.tu ∧ t.qu = s.qu ∧ t.wu = s.wu ∧ t.lu.deferred = (s.lu.deferred || classOne f.body)
    ((recordOf i u).count < 8 → quiet ∧ t.vu = s.vu ∧ SendingSettled s t) ∧
    ((recordOf i u).count = 8 → (i = .roster ∨ i = .transfer → quiet ∧ t.vu = s.vu ∧ SendingSettled (setRecord i ⟨0, []⟩ s) t) ∧
      (i = .stallJoin →
        quiet ∧ t.vu = { s.vu with stallTimer := some 8192, stallOwed := false } ∧ SendingSettled s t) ∧
      (i = .drop → Withdrawn s t) ∧
      (i = .leave → t.vu.station = .halted ∧ t.vu.standing = .retained ∧ t.vu.retainedEpoch = s.vu.view.epoch ∧
        t.vu.view = .empty ∧ t.vu.leavePending = false ∧ t.su = .empty ∧ t.lu.deferred = false ∧ t.tu = s.tu ∧
        ExitReported s t ∧ t.qu = allWithdrawn s)) := by
  intro quiet
  refine ⟨fun hc => ?_, fun hc => ?_⟩
  · obtain ⟨⟨htu, hwu, hdef⟩, hvu, hsend, hqu⟩ := h.settled_setQu u.qu
    have hend : t = refresh u := ht.trans (congrArg refresh (attemptLimit_system hi hc))
    subst hend
    exact ⟨⟨htu, hqu.trans h.qu, hwu, hdef⟩, hvu, hsend⟩
  have hlimit : ¬(recordOf i u).count < Config.attemptLimit := by rw [hc]; decide
  refine ⟨fun hcleared => ?_, ?_, ?_, ?_⟩
  · have hend : t = refresh (setRecord i ⟨0, []⟩ u) := by
      rcases hcleared with rfl | rfl <;> exact ht.trans (congrArg refresh (if_neg hlimit))
    obtain ⟨⟨htu, hwu, hdef⟩, hvu, hqu, hsend⟩ := h.setRecord_settled hi ⟨0, []⟩
    subst hend
    exact ⟨⟨htu, hqu, hwu, hdef⟩, hvu, hsend⟩
  · rintro rfl
    have hend : t = refresh (restartStall (setRecord .stallJoin .fresh u)) := ht.trans (congrArg refresh (if_neg hlimit))
    obtain ⟨⟨htu, hwu, hdef⟩, hvu, hqu, hsend⟩ := h.stallEnds (beq_iff_eq.mp hfits)
    subst hend
    exact ⟨⟨htu, hqu, hwu, hdef⟩, hvu, hsend⟩
  · rintro rfl
    have hend : t = refresh (withdraw u) := ht.trans (congrArg refresh (if_neg hlimit))
    subst hend
    exact (Withdrawn.of_withdraw u (by rw [h.vu]; exact hfits)).congr (by rw [h.vu]) (by rw [h.vu]) (by rw [h.vu]) (by rw [h.vu])
      h.tu h.qu h.wu
  · rintro rfl
    have hend : t = refresh (haltStation u) := ht.trans (congrArg refresh (if_neg hlimit))
    have hst : u.vu.station = .member := by rw [h.vu]; exact beq_iff_eq.mp hfits
    obtain ⟨hhalted, hretained, hepoch, hview, hpending, hempty, hdef, htu, hexit, hqu⟩ := haltStation_member hst
    subst hend
    exact ⟨hhalted, hretained, hepoch.trans (by rw [h.vu]), hview, hpending, hempty, hdef, htu.trans h.tu,
      hexit.congr h.vu h.tu h.wu, hqu.trans (allWithdrawn_congr h.vu h.tu h.qu)⟩

/-! ## The obligation -/

/-- Settles O51: the record of the miss by `recordMiss_eq`, the decision by `decideItem_eq`, and what follows by the limit of the
item's kind. -/
theorem incompleteOwnRequest : Obligations.IncompleteOwnRequest := by
  unfold Obligations.IncompleteOwnRequest
  refine ⟨fun slots s j i f q op c a b h hst hb hi hc hn hcount _ => ?request, fun slots s j i f h hi hfits hfound hc hcount => ?system⟩
  case request =>
    intro v missing history shared recorded waits fails still follows
    have hitem : i = .request q.tag ∨ i = .claim q.tag := hi.imp And.left And.left
    have hmember : q ∈ requests s := List.mem_append.mpr (hi.imp And.right And.right)
    have hq : findRequest q.tag (unjudged s) = some q := findRequest_of_mem (s := s) hn hmember
    have hsent : j.frame = f := h.2.2.2
    have hmissing : missingSet j slots s = missing := by
      simp only [missingSet, requiredSet, hsent, hb]
      rfl
    have hr : recordMiss missing q.attempts = ⟨q.attempts.count + 1, history⟩ := recordMiss_eq missing q.attempts
    have hover := attemptOver_closeWindow s i f
    have hrun := exec_incomplete_own h (by simp [inView, hst]) hc
    obtain ⟨⟨d, hlu⟩, -⟩ := incompleteAttempt_resting s ⟨i, f⟩ i (missingSet j slots s)
    have hu : findRequest q.tag (endAttempt ⟨i, f⟩ (closeWindow s)) = some q := by rw [findRequest, hover.qu]; exact hq
    have hover1 := hover.of_setRecord i ⟨q.attempts.count + 1, history⟩
    have hclass : (s.lu.deferred || classOne f.body) = true := by simp [hb, classOne]
    have hfollows {x u : State} (hxu : AttemptOver f x u)
        (hx : x.qu = (setRecord i ⟨q.attempts.count + 1, history⟩ (unjudged s)).qu ∧ x.vu = (unjudged s).vu ∧ x.tu = s.tu ∧
          x.wu = s.wu ∧ x.lu = s.lu) :
        follows (refresh (attemptLimit i u)) ∧ SendingSettled x (refresh (attemptLimit i u)) := by
      obtain ⟨⟨htu, hwu, hdef⟩, hvu, hsend, hwaits, hfails⟩ := hxu.limit_recorded (s := unjudged s) hn hi hx
      refine ⟨⟨fun hlt => hwaits (Nat.succ_lt_succ hlt), fun hlast => ?_, hvu, htu, hwu, hdef.trans hclass⟩, hsend⟩
      refine (hfails (congrArg (· + 1) hlast)).trans ?_
      simp only [retiredAs, unappliedRecord, hlast]
      rfl
    have hq1 := findRequest_recorded hitem hu ⟨q.attempts.count + 1, history⟩
    have hrecorded : (setRecord i ⟨q.attempts.count + 1, history⟩ (endAttempt ⟨i, f⟩ (closeWindow s))).qu
        = { s.qu with queue := s.qu.queue.map (recorded id), park := s.qu.park.map (recorded id) } := by
      rcases hitem with rfl | rfl <;> rfl
    refine ⟨_, hrun, by rw [hlu]; rfl, by rw [hlu]; rfl, by simp, ?_⟩
    rw [hmissing, incompleteAttempt_recorded hitem hu hr]
    generalize hw : setRecord i ⟨q.attempts.count + 1, history⟩ (endAttempt ⟨i, f⟩ (closeWindow s)) = w at *
    have hvu : w.vu = { s.vu with judged := none } := hover1.vu.trans (by simp)
    have hdecide : decideItem i w = if history.length < 3 ∨ shared = 0 then attemptLimit i w
        else if 2 * size (shared &&& v.full) < size v.full then attemptLimit i (oweDrop i shared w) else withdraw w := by
      rw [decideItem_request hitem hq1, hvu]
      rfl
    have hsu : (setRecord i ⟨q.attempts.count + 1, history⟩ (unjudged s)).su = s.su := by rcases hitem with rfl | rfl <;> rfl
    refine ⟨fun hcancel => ?cancelled, fun hcancel hkept => ?kept, fun hcancel hlen hshared hquorum => ?owed,
      fun hcancel hlen hshared hquorum => ?withdrawn⟩
    case cancelled =>
      rw [if_pos hcancel]
      obtain ⟨⟨htu, hwu, hdef⟩, hvu, hsend, hqu⟩ := hover1.retired .cancelled
        { q with attempts := ⟨q.attempts.count + 1, history⟩ }
      have hretired := retiredAs_setRecord hitem .cancelled { q with attempts := ⟨q.attempts.count + 1, history⟩ } rfl
        ⟨q.attempts.count + 1, history⟩ (unjudged s)
      exact ⟨⟨hvu.trans (by simp), htu.trans (by simp), hwu.trans (by simp), hdef.trans (by simpa using hclass)⟩,
        hsend.of_su_eq hsu, hqu.trans hretired⟩
    case kept =>
      rw [if_neg (by simp [hcancel]), hdecide, if_pos hkept]
      obtain ⟨hf, hsend⟩ := hfollows hover1 ⟨rfl, by simp, by simp, by simp, by simp⟩
      exact ⟨hf, hsend.of_su_eq hsu⟩
    case owed =>
      have hkept : ¬(history.length < 3 ∨ shared = 0) := not_or.mpr ⟨by rw [hlen]; decide, hshared⟩
      rw [if_neg (by simp [hcancel]), hdecide, if_neg hkept, if_pos hquorum]
      obtain ⟨hf, hsend⟩ := hfollows (hover1.of_oweDrop i shared) ⟨rfl, by simp, by simp, by simp, by simp⟩
      have ⟨_, _, hvu, _⟩ := hf
      have hin : shared &&& everyone v = shared := sharedOf_inView ⟨q.attempts.count + 1, history⟩ v
      refine ⟨hf, hsend.of_su_eq ?_, hsend.offers_drop ((congrArg Vu.station hvu).trans hst) rfl ?_⟩
      · rcases hitem with rfl | rfl <;> rfl
      · rw [hvu]
        exact fun e => hshared (hin.symm.trans e)
    case withdrawn =>
      have hkept : ¬(history.length < 3 ∨ shared = 0) := not_or.mpr ⟨by rw [hlen]; decide, hshared⟩
      rw [if_neg (by simp [hcancel]), hdecide, if_neg hkept, if_neg (by omega)]
      exact withdrawn_of_judged (s := s.setQu _) (by simp [inView, hst]) hvu (hover1.tu.trans (by simp)) hrecorded
        (hover1.wu.trans (by simp))
  case system =>
    intro v r required missing history shared weighed kept passes recorded sending quiet
    have hsys : systemItem i = true := by
      simp only [List.mem_cons, List.not_mem_nil, or_false] at hi
      rcases hi with rfl | rfl | rfl | rfl | rfl <;> rfl
    have hv : inView s.vu.station = true := inView_of_system hsys hfits
    have hsent : j.frame = f := h.2.2.2
    have hmissing : missingSet j slots s = missing := by
      have hrequired : requiredSet f v = required := by
        cases hb : f.body with
        | found => rw [hb] at hfound; cases hfound
        | drop m => simp only [requiredSet, hb, required]; rfl
        | _ => simp only [requiredSet, hb, required]; exact (BitVec.and_allOnes).symm
      rw [missingSet, hsent, hrequired]
      rfl
    have hover := attemptOver_closeWindow s i f
    have hrun := exec_incomplete_own h hv hc
    obtain ⟨⟨d, hlu⟩, -⟩ := incompleteAttempt_resting s ⟨i, f⟩ i (missingSet j slots s)
    have hr : recordMiss missing (recordOf i (endAttempt ⟨i, f⟩ (closeWindow s))) = ⟨r.count + 1, history⟩ := by
      rw [hover.recordOf_system hsys]
      exact recordMiss_eq missing r
    have hover1 := hover.of_setRecord i ⟨r.count + 1, history⟩
    have hrec := recordOf_setRecord hsys ⟨r.count + 1, history⟩ (endAttempt ⟨i, f⟩ (closeWindow s))
    refine ⟨_, hrun, by rw [hlu]; rfl, by rw [hlu]; rfl, by simp, ?_⟩
    rw [hmissing, incompleteAttempt_decided hsys, hr]
    generalize setRecord i ⟨r.count + 1, history⟩ (endAttempt ⟨i, f⟩ (closeWindow s)) = w at *
    have hvu : w.vu = { s.vu with judged := none } := hover1.vu.trans (by simp)
    have hqu : (setRecord i ⟨r.count + 1, history⟩ (unjudged s)).qu = s.qu := setRecord_system_qu hsys _ _
    have hdecide : decideItem i w = if kept then attemptLimit i w
        else if passes then attemptLimit i (oweDrop i weighed w) else withdraw w := by
      have howed : w.su.owedDrop = s.su.owedDrop := by rw [hover1.su]; simp
      rw [decideItem_eq, weighedOf, hrec, hvu, howed]
      rfl
    obtain ⟨x, w', hover2, hx, hsu, hcount', hlimit⟩ : ∃ x w', AttemptOver f x w' ∧
        (x.vu = (unjudged s).vu ∧ x.tu = s.tu ∧ x.qu = s.qu ∧ x.wu = s.wu ∧ x.lu = s.lu) ∧ x.su = sending.su ∧
        (recordOf i w').count = r.count + 1 ∧ (kept ∨ passes → decideItem i w = attemptLimit i w') := by
      by_cases hk : kept
      · refine ⟨_, w, hover1, ⟨by simp, by simp, hqu, by simp, by simp⟩, ?_, by rw [hrec], fun _ => hdecide.trans (if_pos hk)⟩
        rw [show sending = recorded from if_pos hk]
        exact setRecord_su_congr (s := s) (u := unjudged s) rfl i _
      · refine ⟨_, oweDrop i weighed w, hover1.of_oweDrop i weighed, ⟨by simp, by simp, hqu, by simp, by simp⟩, ?_,
          by rw [recordOf_oweDrop_count hsys, hrec], fun hp => ?_⟩
        · rw [show sending = _ from if_neg hk]
          exact oweDrop_recorded_su (s := s) (u := unjudged s) hsys rfl ⟨r.count + 1, history⟩ weighed
        · rw [hdecide, if_neg hk, if_pos (hp.resolve_left hk)]
    obtain ⟨hvu', htu', hqu', hwu', hlu'⟩ := hx
    obtain ⟨hwaits, hends⟩ := hover2.limit_system hsys (by rw [hvu']; exact hfits) rfl
    rw [hcount', hvu', htu', hqu', hwu', hlu'] at hwaits hends
    refine ⟨fun hp hlt => ?waiting, fun hp hlast hi => ?cleared, fun hp hlast hi => ?stalled,
      fun hp hlast hi => ?dropped, fun hp hlast hi => ?left, fun hk hp => ?withdrawn⟩
    case waiting =>
      rw [hlimit hp]
      obtain ⟨hquiet, hvu, hsend⟩ := hwaits (Nat.succ_lt_succ hlt)
      exact ⟨hquiet, hvu, hsend.of_su_eq hsu⟩
    case withdrawn =>
      rw [hdecide, if_neg hk, if_neg hp]
      exact withdrawn_of_judged hv hvu (hover1.tu.trans (by simp)) (hover1.qu.trans hqu) (hover1.wu.trans (by simp))
    all_goals
      obtain ⟨hcleared, hstall, hdrop, hleave⟩ := hends (congrArg (· + 1) hlast)
      rw [hlimit hp]
    case cleared =>
      obtain ⟨hquiet, hvu, hsend⟩ := hcleared hi
      exact ⟨hquiet, hvu, hsend.of_su_eq (setRecord_su_congr hsu i _)⟩
    case stalled =>
      obtain ⟨hquiet, hvu, hsend⟩ := hstall hi
      exact ⟨hquiet, hvu, hsend.of_su_eq hsu⟩
    case dropped =>
      exact (hdrop hi).congr (by rw [hvu']; rfl) (by rw [hvu']; rfl) (by rw [hvu']; rfl) (by rw [hvu']; rfl) htu' hqu' hwu'
    case left =>
      obtain ⟨hhalted, hretained, hepoch, hview, hpending, hempty, hdef, htu, hexit, hqu⟩ := hleave hi
      exact ⟨hhalted, hretained, hepoch, hview, hpending, hempty, hdef, htu, hexit.congr (s := unjudged s) hvu' htu' hwu',
        hqu.trans (allWithdrawn_congr (s := unjudged s) hvu' htu' hqu')⟩

end Sys2Proof.Machine
end

section
/-! SUPPORT. The laws at the reset values, block by block (R78, R98, R116, R147, R158): each law whose blocks a reset has just
written holds, whatever the other blocks hold. -/

namespace Sys2Proof.Machine

variable {s : State}

/-- With QU at its reset values there is no request, so no two of one tag (R136, R147). -/
theorem requestLaw_of_reset (hq : s.qu = .empty) : RequestLaw s := by
  unfold RequestLaw admissionTotal
  rw [hq]
  exact ⟨Nat.zero_le _, Nat.zero_le _, Nat.zero_le _, List.nodup_nil⟩

/-- With WU at its reset values every watch is FREE. -/
theorem watchAt_of_reset (hw : s.wu = .empty) (i : Fin 16) : watchAt s i = Watch.freed := by
  simp [watchAt, hw, Wu.empty]

/-- With WU at its reset values no watch is FIRED, and there is no notice (R152, R158). -/
theorem noticeLaw_of_reset (hw : s.wu = .empty) : NoticeLaw s := by
  intro i
  have hfree : (watchAt s i).state ≠ .fired := by simp [watchAt_of_reset hw i, Watch.freed]
  have hevents : s.wu.events = [] := by rw [hw]; rfl
  rw [if_neg hfree, hevents, List.countP_nil]

/-- The view of a station that is in none (R98, R101): both sets are empty and no round runs. -/
theorem viewShape_empty : ViewShape .empty :=
  ⟨rfl, fun hjoiners => absurd rfl hjoiners, fun _ => ⟨rfl, rfl⟩⟩

/-- With no frame under judgement there is no ROSTER to be lawful. -/
theorem lawfulRoster_of_no_judged (hj : s.vu.judged = none) : LawfulRoster s := by
  intro j _ _ _ _ hjudged _
  rw [hj] at hjudged
  cases hjudged

/-- A station every block of which is at its power-on values is sound, whatever its pins and its straps (section 1.3, R116). -/
theorem sound_of_powerOn (hlu : s.lu = .afterReset) (hvu : s.vu = .afterReset .none 0) (htu : s.tu = .powerOn)
    (hsu : s.su = .empty) (hqu : s.qu = .empty) (hwu : s.wu = .empty) : Sound s := by
  have hstanding : s.vu.standing = .none := by rw [hvu]; rfl
  have hepoch : s.vu.retainedEpoch = 0 := by rw [hvu]; rfl
  have hcells : s.tu.cells = Tu.powerOn.cells := by rw [htu]
  have hknown : s.tu.known = 0 := by rw [htu]; rfl
  have hreset : s.vu = .afterReset s.vu.standing s.vu.retainedEpoch := by rw [hstanding, hepoch, hvu]
  exact ⟨requestLaw_of_reset hqu, noticeLaw_of_reset hwu,
    coherent_of_reset hlu hsu hreset (.inl ⟨hstanding, hepoch, hcells⟩) hknown⟩

/-- Settles O56: each block of the machine after reset is at its power-on values, with the empty view and nothing under
judgement. -/
theorem resetIsSound : Obligations.ResetIsSound :=
  ⟨sound_of_powerOn rfl rfl rfl rfl rfl rfl, viewShape_empty, lawfulRoster_of_no_judged rfl⟩

end Sys2Proof.Machine
end

section
/-! SUPPORT. The law of the view over every step (R98): each change that VU makes to its view record keeps the record's shape, and
every command and bit time makes one of those changes, empties the record or leaves it. -/

namespace Sys2Proof.Machine

variable {s t u : State} {j : Judged} {slots : Mask}

/-! ## The changes of a view record -/

/-- A TRANSFER that does not end the round leaves frames of it to come (R124). -/
theorem viewShape_advanceRound {v : View} (h : ViewShape v) (hr : 1 < v.remaining) : ViewShape (advanceRound v) := by
  obtain ⟨hdisjoint, hround, hnone⟩ := h
  refine ⟨hdisjoint, fun hj => ?_, fun hj => absurd (hnone hj).1 (by omega)⟩
  obtain ⟨-, hle⟩ := hround hj
  exact ⟨Nat.le_sub_of_add_le hr, (Nat.sub_le _ _).trans hle⟩

/-- The promotion that ends a round leaves no joiner (R125). -/
theorem viewShape_promoteView (v : View) : ViewShape (promoteView v) :=
  ⟨BitVec.and_zero, fun hj => absurd rfl hj, fun _ => ⟨rfl, rfl⟩⟩

/-- A complete ROSTER is owed no more (R121). -/
theorem viewShape_rosterSent {v : View} (h : ViewShape v) : ViewShape { v with rosterOwed := false } := by
  obtain ⟨hdisjoint, hround, hnone⟩ := h
  exact ⟨hdisjoint, hround, fun hj => ⟨(hnone hj).1, rfl⟩⟩

/-- A station's own set of full members, with no joiner, as a founding leaves it (R107). -/
theorem viewShape_founded (full : Mask) (epoch : Byte) : ViewShape { View.empty with full := full, epoch := epoch } :=
  ⟨BitVec.and_zero, fun hj => absurd rfl hj, fun _ => ⟨rfl, rfl⟩⟩

/-- Disjoint sets, slot by slot. -/
theorem mask_disjoint_iff (a b : Mask) : a &&& b = 0 ↔ ∀ n, has a n = true → has b n = false := by
  have hand (n : Station) : has (a &&& b) n = (has a n && has b n) := by simp [has]
  simp only [mask_eq_zero_iff, hand, Bool.and_eq_false_imp]

/-- A view with a whole round before it and a joiner in it has the shape where its sets are disjoint (R98). -/
theorem viewShape_of_round {v : View} {n : Station} (hd : v.full &&& v.joiners = 0) (hn : has v.joiners n = true)
    (hr : 1 ≤ v.remaining ∧ v.remaining ≤ 16) : ViewShape v := by
  refine ⟨hd, fun _ => hr, fun hj => ?_⟩
  rw [(mask_eq_zero_iff _).mp hj n] at hn
  cases hn

/-- A complete JOIN leaves its originator a joiner and no full member, with a whole round to come (R108). -/
theorem viewShape_joinView {v : View} (h : ViewShape v) (n : Station) : ViewShape (joinView n v) := by
  obtain ⟨hdisjoint, -, -⟩ := h
  rw [mask_disjoint_iff] at hdisjoint
  have hround : 1 ≤ Config.roundLength ∧ Config.roundLength ≤ 16 := by decide
  unfold joinView joinRow
  by_cases hfull : has v.full n = true
  · simp only [hfull, if_true]
    refine viewShape_of_round (n := n) ((mask_disjoint_iff _ _).mpr fun k hk => ?_) (by simp [has_or, has_only]) hround
    simp only [has_without, has_only, Bool.and_eq_true, Bool.not_eq_true', beq_eq_false_iff_ne] at hk
    simp [has_or, has_only, hdisjoint k hk.1, hk.2]
  · by_cases hjoiner : has v.joiners n = true
    · simp only [hfull, hjoiner, if_true, if_false, Bool.false_eq_true]
      exact viewShape_of_round (n := n) ((mask_disjoint_iff _ _).mpr hdisjoint) hjoiner hround
    · simp only [hfull, hjoiner, if_false, Bool.false_eq_true]
      refine viewShape_of_round (n := n) ((mask_disjoint_iff _ _).mpr fun k hk => ?_) (by simp [has_or, has_only]) hround
      have hne : n ≠ k := fun e => hfull (e ▸ hk)
      simp [has_or, has_only, hdisjoint k hk, hne]

/-- A removal leaves disjoint sets, and ends the round with the last joiner (R98, R110, R112). -/
theorem viewShape_removeFromView {v : View} (h : ViewShape v) (m : Mask) : ViewShape (removeFromView m v) := by
  obtain ⟨hdisjoint, hround, -⟩ := h
  have hkeeps : without v.full m &&& without v.joiners m = 0 := by
    rw [mask_disjoint_iff] at hdisjoint ⊢
    intro n hn
    simp only [has_without, Bool.and_eq_true] at hn
    simp [has_without, hdisjoint n hn.1]
  unfold removeFromView endEmptyRound
  by_cases hj : without v.joiners m = 0
  · rw [if_pos hj]
    exact ⟨hkeeps, fun hne => absurd hj hne, fun _ => ⟨rfl, rfl⟩⟩
  · rw [if_neg hj]
    have hjoiners : v.joiners ≠ 0 := fun e => hj (by rw [e]; exact BitVec.zero_and)
    exact ⟨hkeeps, fun _ => hround hjoiners, fun e => absurd e hj⟩

/-- A ROSTER that admits the station, and whose masks are disjoint, carries a view of the shape (R98, R119). -/
theorem viewShape_admits {v : View} (h : admits j slots s = some v)
    (hd : ∀ full joiners cursor remaining, j.frame.body = .roster full joiners cursor remaining → full &&& joiners = 0) :
    ViewShape v := by
  unfold admits at h
  split at h
  · rename_i full joiners cursor remaining hb
    split at h
    · rename_i hc
      simp only [Bool.and_eq_true, decide_eq_true_eq] at hc
      obtain ⟨⟨⟨⟨-, hjoiner⟩, hlow⟩, hhigh⟩, -⟩ := hc
      cases h
      exact viewShape_of_round (hd _ _ _ _ hb) hjoiner ⟨hlow, hhigh⟩
    · cases h
  all_goals cases h

/-! ## Operations that keep the shape -/

/-- The view record has its shape after an operation where it had it before. -/
def ShapeKept (s t : State) : Prop := ViewShape s.vu.view → ViewShape t.vu.view

theorem ShapeKept.refl (s : State) : ShapeKept s s := id

theorem ShapeKept.trans (h : ShapeKept s t) (h' : ShapeKept t u) : ShapeKept s u := h' ∘ h

theorem ShapeKept.of_same (h : t.vu.view = s.vu.view) : ShapeKept s t := fun hs => h.symm ▸ hs

theorem ShapeKept.of_shape (h : ViewShape t.vu.view) : ShapeKept s t := fun _ => h

theorem ShapeKept.of_empty (h : t.vu.view = .empty) : ShapeKept s t := .of_shape (h ▸ viewShape_empty)

theorem ShapeKept.onLine {f : State → State} (h : ShapeKept s (f s)) : ShapeKept s (onLine f s) := by
  unfold Machine.onLine
  split
  · exact .refl s
  · exact h

theorem ShapeKept.hostWrite {f : State → State} (h : ShapeKept s (f s)) : ShapeKept s (hostWrite f s) := by
  unfold Machine.hostWrite
  split
  · exact .refl s
  · exact h

theorem ShapeKept.hostRead {f : State → State} (h : ShapeKept s (f s)) : ShapeKept s (hostRead f s) := by
  unfold Machine.hostRead
  split
  · exact .of_same (by simp)
  · split
    · exact .of_same (by simp)
    · exact h

/-- A withdrawal empties the view record (R114). -/
theorem shapeKept_withdraw (s : State) : ShapeKept s (withdraw s) := by
  cases hs : s.vu.station
  case member => exact .of_empty (by simp [withdraw_member s hs])
  case joining => exact .of_empty (by simp [withdraw_joining s hs])
  all_goals rw [withdraw_outside s (by simp [hs, inView])]; exact .refl s

/-- So does a halt (R115). -/
theorem shapeKept_haltStation (s : State) : ShapeKept s (haltStation s) := by
  by_cases hs : s.vu.station = .halted
  · rw [haltStation_halted s hs]; exact .refl s
  · exact .of_empty (by simp [haltStation, hs])

/-- An entry into LISTENING from ADMITTING leaves it (R118). -/
theorem shapeKept_takeExpiry (s : State) : ShapeKept s (takeExpiry s) := .of_same (by simp)

/-! ## After an attempt -/

theorem shapeKept_attemptLimit (i : Item) (s : State) : ShapeKept s (attemptLimit i s) := by
  unfold attemptLimit
  split
  · exact .of_same (by simp)
  · cases i <;> simp only
    case request | claim =>
      split
      · exact .of_same (by simp)
      · exact .refl s
    case drop => exact shapeKept_withdraw s
    case leave => exact shapeKept_haltStation s
    all_goals exact .of_same (by simp)

theorem shapeKept_decideItem (i : Item) (s : State) : ShapeKept s (decideItem i s) := by
  unfold decideItem
  split
  · exact shapeKept_withdraw s
  · exact ShapeKept.trans (.of_same (by simp)) (shapeKept_attemptLimit i _)
  · exact shapeKept_attemptLimit i s

theorem shapeKept_weighMiss (i : Item) (s : State) : ShapeKept s (weighMiss i s) := by
  unfold weighMiss
  split
  · split
    · exact .of_same (by simp)
    · exact shapeKept_decideItem i s
  · exact shapeKept_decideItem i s

/-- An incomplete attempt changes the view record by a withdrawal or a halt alone (R83 to R95). -/
theorem shapeKept_incompleteAttempt (i : Item) (m : Mask) (s : State) : ShapeKept s (incompleteAttempt i m s) := by
  unfold incompleteAttempt
  split
  · exact .of_same (by simp)
  · exact .of_same (by simp)
  all_goals exact ShapeKept.trans (.of_same (by simp)) (shapeKept_weighMiss _ _)

/-- A self fault is an incomplete attempt (R62). -/
theorem shapeKept_selfFault (s : State) : ShapeKept s (selfFault s) := by
  unfold selfFault
  split
  · exact .refl s
  · exact ShapeKept.trans (.of_same (by simp)) (shapeKept_incompleteAttempt _ _ _)

/-! ## A complete frame -/

/-- A TRANSFER moves the round on, promotes the joiners, or withdraws the station (R124, R125). -/
theorem shapeKept_moveRound (k : BitVec 4) (images : Vector Cell 8) (s : State) : ShapeKept s (moveRound k images s) := by
  have hadvance (hr : ¬s.vu.view.remaining ≤ 1) (h : ViewShape s.vu.view) : ViewShape (advanceRound s.vu.view) :=
    viewShape_advanceRound h (by omega)
  unfold moveRound
  split
  · dsimp only
    split
    · unfold promoteJoining
      split
      · exact .of_shape (by simp [promoteStation, viewShape_promoteView])
      · exact shapeKept_withdraw s
    · rename_i hr
      exact fun h => by simpa using hadvance hr h
  · split
    · exact .of_shape (viewShape_promoteView _)
    · rename_i hr
      exact hadvance hr
  all_goals exact .refl s

/-- A complete frame keeps the shape, whatever its kind (R74). -/
theorem shapeKept_applyFrame (f : Frame) (item : Option Item) (s : State) : ShapeKept s (applyFrame f item s) := by
  unfold applyFrame
  cases f.body with
  | found r => exact .refl s
  | cell op c a b => exact .of_same (by simp)
  | transfer k images => exact ShapeKept.trans (.of_same (by simp)) (shapeKept_moveRound k images _)
  | roster full joiners cursor remaining => exact fun h => by simpa [applyRoster] using viewShape_rosterSent h
  | join =>
    intro h
    dsimp only [applyJoin]
    split
    · exact shapeKept_withdraw s h
    · split <;> simpa using viewShape_joinView h f.orig
  | drop m =>
    intro h
    dsimp only [applyDrop]
    split
    · exact shapeKept_withdraw s h
    · simpa using viewShape_removeFromView h m
  | leave =>
    dsimp only [applyLeaveOther]
    split
    · exact .of_empty (by simp [leaveOwn])
    · split
      · exact shapeKept_withdraw s
      · exact fun h => by simpa using viewShape_removeFromView h (only f.orig)

/-! ## The window's end -/

theorem shapeKept_endOwnListening (a : Attempt) (slots : Mask) (s : State) : ShapeKept s (endOwnListening a slots s) := by
  unfold endOwnListening
  dsimp only
  split
  · split
    · exact .of_shape (by simpa using viewShape_founded _ _)
    · split <;> exact .of_same (by simp)
    all_goals exact .of_same (by simp)
  · exact ShapeKept.trans (.of_same (by simp)) (shapeKept_incompleteAttempt _ _ _)

theorem shapeKept_endOwnWindow (j : Judged) (a : Attempt) (slots : Mask) (s : State) : ShapeKept s (endOwnWindow j a slots s) := by
  unfold endOwnWindow
  dsimp only
  split
  · exact ShapeKept.trans (.of_same (by simp)) (shapeKept_applyFrame _ _ _)
  · exact ShapeKept.trans (.of_same (by simp)) (shapeKept_incompleteAttempt _ _ _)

theorem shapeKept_endOtherWindow (j : Judged) (slots : Mask) (s : State) : ShapeKept s (endOtherWindow j slots s) := by
  unfold endOtherWindow
  split
  · exact shapeKept_applyFrame _ _ s
  · split
    · exact shapeKept_withdraw s
    · exact .refl s

/-- The end of the window of a frame that, as a ROSTER, carries disjoint masks keeps the shape (R71 to R74, R98, R119). -/
theorem shapeKept_disposeFrame (slots : Mask) (s : State)
    (hd : ∀ full joiners cursor remaining, j.frame.body = .roster full joiners cursor remaining → full &&& joiners = 0) :
    ShapeKept s (disposeFrame j slots s) := by
  unfold disposeFrame
  split
  case h_1 | h_3 => exact .refl s
  case h_2 => exact shapeKept_endOwnListening _ _ s
  case h_4 =>
    unfold endAdmitting
    split
    · rename_i v hv
      exact .of_shape (by simpa using viewShape_admits hv hd)
    · exact shapeKept_takeExpiry s
  case h_5 | h_6 => exact shapeKept_endOwnWindow _ _ _ s
  case h_7 | h_8 => exact shapeKept_endOtherWindow _ _ s

/-- The end of a window keeps the shape where a ROSTER under judgement is lawful. -/
theorem shapeKept_windowEnd (h : LawfulRoster s) (slots : Mask) : ShapeKept s (windowEnd slots s) := by
  unfold windowEnd
  split
  · rename_i j _ hj
    have hdispose := shapeKept_disposeFrame (j := j) slots (closeWindow s) fun full joiners cursor remaining hb =>
      h j full joiners cursor remaining hj hb
    exact ShapeKept.trans (.of_same (by simp)) (hdispose.trans (.of_same (by simp)))
  · exact .of_same (by simp)
  · exact .of_same (by simp)
  · exact .refl s

theorem shapeKept_windowEndOf (h : LawfulRoster s) (kind : Judged → Bool) (slots : Mask) :
    ShapeKept s (windowEndOf kind slots s) := by
  unfold windowEndOf
  split
  · split
    · exact shapeKept_windowEnd h slots
    · exact .refl s
  · exact shapeKept_windowEnd h slots

/-! ## Faults and a line that sticks -/

/-- A window fault changes the view record by a withdrawal or a halt alone (R75, R76). -/
theorem shapeKept_disposeFault (j : Judged) (asserted : Bool) (s : State) : ShapeKept s (disposeFault j asserted s) := by
  unfold disposeFault faultOwn faultOther
  split
  · split
    · exact .refl s
    · split
      · exact ShapeKept.trans (.of_same (by simp)) (shapeKept_withdraw _)
      · exact ShapeKept.trans (.of_same (by simp)) (shapeKept_incompleteAttempt _ _ _)
  · split
    · exact .refl s
    · exact .refl s
    · split
      · exact .of_same (by simp)
      · exact shapeKept_takeExpiry s
    all_goals
      split
      · exact shapeKept_withdraw s
      · exact .refl s

theorem shapeKept_windowFault (slot : Station) (inData : Bool) (s : State) : ShapeKept s (windowFault slot inData s) := by
  unfold windowFault
  dsimp only
  split
  · rename_i j _ _
    have hdispose := shapeKept_disposeFault j (assertedBy j slot inData s) (windowLost s)
    exact ShapeKept.trans (t := windowLost s) (.of_same rfl) (hdispose.trans (.of_same (by simp [windowLost])))
  · exact .of_same (by simp)
  · exact .of_same (by simp)
  · exact .refl s

theorem shapeKept_readBackFault (slot : Station) (inData : Bool) (level : LineLevel) (s : State) :
    ShapeKept s (readBackFault slot inData level s) := by
  unfold readBackFault
  split
  · have hself := shapeKept_selfFault (s.setLu (giveUpLine (runAfter level s.lu) s.lu))
    exact ShapeKept.trans (.of_same rfl) (hself.trans (.of_same (by simp)))
  · exact shapeKept_windowFault slot inData s
  all_goals exact .refl s

/-- A line that sticks is a fault in the frame in progress (R58). -/
theorem shapeKept_lineSticks (slot : Station) (inData : Bool) (s : State) : ShapeKept s (lineSticks slot inData s) := by
  have habandon : ShapeKept s (abandonFrame slot inData s) := by
    unfold abandonFrame
    split
    · exact shapeKept_readBackFault slot inData _ s
    · exact shapeKept_windowFault slot inData s
    all_goals exact .of_same (by simp)
  unfold lineSticks
  split
  · exact .refl s
  · exact habandon.trans (.of_same (by simp))

/-! ## A bit time -/

theorem shapeKept_assertedTick (slot : Station) (inData : Bool) (s : State) : ShapeKept s (assertedTick slot inData s) := by
  unfold assertedTick
  split
  · exact .of_same rfl
  · exact shapeKept_lineSticks slot inData s

/-- The line's part of a bit time changes the view record only where the line sticks inside a frame (R58). -/
theorem shapeKept_lineTick (s : State) : ShapeKept s (lineTick s) := by
  by_cases h : s.lu.mode = .waitIdle ∨ s.lu.mode = .resting ∨ s.lu.assertedCount < 255
  · exact .of_same (by rw [(lineTick_keeps s h).1])
  · have hframe : lineTick s = frameTick s := by
      unfold lineTick
      cases hm : s.lu.mode <;> simp_all
    rw [hframe]
    unfold frameTick
    split
    · exact .of_same rfl
    · exact .of_same rfl
    · exact ShapeKept.trans (.of_same rfl) (shapeKept_assertedTick _ _ (passBit s))

theorem shapeKept_tick (s : State) : ShapeKept s (tick s) := by
  unfold tick
  split
  · exact .refl s
  · exact (shapeKept_lineTick s).trans (.of_same (by simp))

/-! ## Every command -/

/-- A byte at CONTROL changes the view record by a halt alone (R165). -/
theorem shapeKept_controlWrite (b : Byte) (s : State) : ShapeKept s (controlWrite b s) := by
  unfold controlWrite
  split
  · unfold controlFirst
    split_ifs
    · unfold takeStart
      split <;> exact .of_same (by simp)
    · exact (shapeKept_haltStation s).trans (.of_same (by simp [takeHalt]))
    all_goals exact .of_same (by simp)
  · split_ifs <;> exact .of_same (by simp)

theorem shapeKept_controlCommand (command : List Byte) (s : State) : ShapeKept s (controlCommand command s) :=
  foldl_keeps (P := ShapeKept s) (fun t b ht => ht.trans (shapeKept_controlWrite b t)) _ s (.refl s)

/-- Every command keeps the shape where a ROSTER under judgement is lawful. -/
theorem shapeKept_exec (h : LawfulRoster s) (c : Instr) : ∃ t, exec c s = .next t ∧ ShapeKept s t := by
  cases c
  case powerOn | powerLoss => exact ⟨_, rfl, .of_empty rfl⟩
  case rstAssert =>
    refine ⟨_, rfl, ?_⟩
    unfold assertRst
    split
    · exact .of_same rfl
    · exact .of_empty rfl
  case powerOnHoldEnd | rstRelease => exact ⟨_, rfl, .of_same (by simp)⟩
  case start | halt | leaveCommand | cancel | mask => exact ⟨_, rfl, (shapeKept_controlCommand _ s).hostWrite⟩
  case controlBadFirstByte data => exact ⟨_, rfl, (shapeKept_controlWrite data s).hostWrite⟩
  case partialSequenceWrite port data =>
    cases port with
    | watch => exact ⟨_, rfl, ShapeKept.hostWrite (.of_same (by simp [partialByte]))⟩
    | control => exact ⟨_, rfl, (shapeKept_controlWrite data s).hostWrite⟩
  case requestWrite | sequenceRestart | cellIndexWrite | arm | disarm | watchBadFirstByte =>
    exact ⟨_, rfl, ShapeKept.hostWrite (.of_same (by simp))⟩
  case requestRead | completionRead | cellRead | watchRead | noticeRead | statusRead | viewRead | controlRead =>
    exact ⟨_, rfl, ShapeKept.hostRead (.of_same (by simp))⟩
  case readBackFault slot inData level => exact ⟨_, rfl, (shapeKept_readBackFault slot inData level s).onLine⟩
  case windowFault slot inData => exact ⟨_, rfl, (shapeKept_windowFault slot inData s).onLine⟩
  case lineStuck slot inData => exact ⟨_, rfl, (shapeKept_lineSticks slot inData s).onLine⟩
  case lineIdle | frameStart | lostArbitration | frameCheckEnd | frameLost | lineStuckEnd | deferredClear | probeWaitExpiry
      | admitWaitExpiry | stallWaitExpiry | anotherStationStartBit =>
    exact ⟨_, rfl, ShapeKept.onLine (.of_same (by simp))⟩
  all_goals exact ⟨_, rfl, (shapeKept_windowEndOf h _ _).onLine⟩

/-- Settles O55: a step is a bit time or a command, and each of them keeps the shape. -/
theorem stepKeepsViewShape : Obligations.StepKeepsViewShape := by
  unfold Obligations.StepKeepsViewShape
  intro s t hshape hroster hstep
  unfold step at hstep
  split at hstep
  · cases hstep; exact shapeKept_tick s hshape
  · rename_i c rest _
    have hrest : LawfulRoster (s.setPending rest) := hroster
    obtain ⟨u, hexec, hu⟩ := shapeKept_exec hrest c
    rw [hexec] at hstep
    cases hstep; exact hu hshape

end Sys2Proof.Machine
end

section
/-! SUPPORT. The commands of CONTROL that change VU or the enable mask (R103, R111, R115, R157, R165): what HALT leaves of a running
station, and START, LEAVE and MASK. -/

namespace Sys2Proof.Machine

variable {s t : State}

/-! ## A command of one byte -/

/-- A command of one byte, with no byte of CONTROL kept, is that first byte taken (R161, R165). -/
theorem control_oneByte (hf : held s = false) (hk : s.hp.controlBytes = []) (b : Byte) :
    hostWrite (controlCommand [b]) s = controlFirst b s := by
  simp [hostWrite, hf, controlCommand, bytesToWrite, hk, controlWrite]

/-- The last control result is in no law of what SU sends. -/
theorem SendingSettled.controlResult (h : SendingSettled s t) (x : ControlResult) :
    SendingSettled s (Machine.controlResult x t) := h

/-! ## HALT -/

/-- A halt of a running station enters HALTED with LU as a HALT leaves it and SU empty (R43, R59, R61, R115). -/
theorem haltStation_running (hs : s.vu.station ≠ .halted) :
    ∃ u, haltStation s = enterHalted u ∧ u.lu = haltLine s.lu ∧ u.su = .empty ∧ u.vu.foreign = s.vu.foreign :=
  ⟨((haltStanding (leaveQueues s)).setSu .empty).setLu (haltLine (haltStanding (leaveQueues s)).lu), if_neg hs, by simp, rfl,
    by simp⟩

/-- A halt of a running station withdraws every request, and reports the exit (R104, R115, R146). -/
theorem haltStation_queues (hs : s.vu.station ≠ .halted) :
    (haltStation s).qu = allWithdrawn s ∧ ExitReported s (haltStation s) := by
  have hqueues : (leaveQueues s).qu = (retireAll s).qu := by
    unfold leaveQueues
    split <;> simp
  have hqu : (haltStation s).qu = (leaveQueues s).qu := by simp [haltStation, hs]
  have hwu : (haltStation s).wu = { (leaveQueues s).wu with statePending := true } := by
    simp [haltStation, hs, enterHalted, enter, raiseState]
  exact ⟨hqu.trans (hqueues.trans (retireAll_qu s)), .of_leaveQueues hwu⟩

/-- Settles O22: `haltStation_running` and `haltStation_queues` say what a halt leaves, and a HALTED station is not halted again. -/
theorem haltCommand : Obligations.HaltCommand := by
  unfold Obligations.HaltCommand
  intro s hf hk
  refine ⟨fun hs => ?_, fun hs => ⟨_, exec_halt hf hk, ?_⟩⟩
  · rw [exec_halt hf hk, haltStation_halted s hs]
    rfl
  · obtain ⟨hqu, hexit⟩ := haltStation_queues hs
    obtain ⟨u, hu, hlu, hsu, hforeign⟩ := haltStation_running hs
    simp only [controlResult_frame, hqu]
    rw [show (controlResult .taken (haltStation s)).hp = { s.hp with controlResult := .taken } by simp [controlResult]]
    simp only [hu, enterHalted_fields, enterHalted_frame, hlu, hsu, hforeign, haltLine_fields, true_and, and_true]
    exact ⟨rfl, rfl, hu ▸ hexit⟩

/-! ## START, LEAVE and MASK -/

/-- START enters LISTENING with STATE pending, and keeps the standing, the retained epoch and the table (R102, R103). -/
theorem beginListening_keeps (hs : s.vu.station = .halted) :
    (beginListening s).vu.standing = s.vu.standing ∧ (beginListening s).vu.retainedEpoch = s.vu.retainedEpoch ∧
      (beginListening s).tu = s.tu ∧ (beginListening s).lu = s.lu ∧ (beginListening s).qu = s.qu ∧ (beginListening s).hp = s.hp ∧
      (beginListening s).su = s.su ∧ (beginListening s).wu = { s.wu with statePending := true } := by
  simp [beginListening, enterListening_eq s (by simp [hs])]

/-- MASK with no byte of CONTROL kept (R157, R165). -/
theorem exec_mask (hf : held s = false) (hk : s.hp.controlBytes = []) (m : Byte) :
    exec (.mask m) s = .next (takeMask m s) := by
  refine congrArg Host.Outcome.next ?_
  have hkept : (s.setHp { s.hp with controlBytes := [] }) = s := by rw [← hk]; rfl
  have htwo : hostWrite (controlCommand (maskCommandBytes m)) s
      = takeMask m (keepControlBytes [] (keepControlBytes [0x05] s)) := by
    simp [hostWrite, hf, controlCommand, bytesToWrite, hk, controlWrite, maskCommandBytes, controlFirst, keepControlBytes]
  rw [htwo]
  exact congrArg (takeMask m) hkept

/-- Settles O23: each command by the station state that it is taken in. -/
theorem controlCommands : Obligations.ControlCommands := by
  unfold Obligations.ControlCommands
  refine ⟨fun s hf hk => ⟨fun hs => ?start, fun hs => ?notHalted⟩, fun s hf hk => ⟨fun hs => ?leave, fun hs => ?notMember⟩,
    fun s m hf hk => ?mask⟩
  case start =>
    obtain ⟨hstanding, hepoch, htu, hlu, hqu, hhp, hsu, hwu⟩ := beginListening_keeps hs
    refine ⟨_, exec_start_halted hf hs hk, ?_⟩
    simp only [controlResult_frame, refresh_frame, beginListening_fields, hstanding, hepoch, htu, hlu, hqu, hwu, true_and]
    refine ⟨fun ha => ?_, ?_⟩
    · exact refresh_offers_probe (by rw [hsu, ha]) (by simp) (by simp)
    · simp only [controlResult, State.setHp_hp, refresh_frame, hhp]
  case notHalted =>
    refine congrArg Host.Outcome.next ((control_oneByte hf hk _).trans ?_)
    exact if_neg hs
  case leave =>
    have hrun : exec .leaveCommand s = .next (controlResult .taken (refresh (s.setVu { s.vu with leavePending := true }))) := by
      refine congrArg Host.Outcome.next ((control_oneByte hf hk _).trans ?_)
      exact if_pos hs
    refine ⟨_, hrun, rfl, rfl, fun ha => ?_, rfl, rfl, rfl, rfl, rfl⟩
    have hsend := SendingSettled.refresh (s := s.setVu { s.vu with leavePending := true }) ha
    exact (hsend.of_su_eq rfl).controlResult _
  case notMember =>
    refine congrArg Host.Outcome.next ((control_oneByte hf hk _).trans ?_)
    exact if_neg hs
  case mask => exact exec_mask hf hk m

end Sys2Proof.Machine
end

section
/-! SUPPORT. The timers (R105, R118, R127): what each expiry does, and the one timer that a bit time counts down in each station
state. -/

namespace Sys2Proof.Machine

variable {s u : State} {n : Nat}

/-! ## The expiries -/

/-- VU once the probe timer has expired: a JOIN due, or a FOUND after the third unanswered one where FP permits it (R105). -/
def probedVu (s : State) : Vu := { s.vu with
  probeTimer := none
  probeDue := if s.vu.unanswered = 3 ∧ s.hp.straps.fp = true then .found else .join }

/-- VU once STALL_WAIT has expired: a stall JOIN owed (R127). -/
def stalledVu (v : Vu) : Vu := { v with stallTimer := none, stallOwed := true }

theorem probeExpires_listening (hs : s.vu.station = .listening) (ht : s.vu.probeTimer.isSome = true) :
    probeExpires s = refresh (s.setVu (probedVu s)) := if_pos ⟨hs, ht⟩

theorem stallExpires_joining (hs : s.vu.station = .joining) (ht : s.vu.stallTimer.isSome = true) :
    stallExpires s = refresh (s.setVu (stalledVu s.vu)) := if_pos ⟨hs, ht⟩

/-- ADMIT_WAIT expires outside a window (R118). -/
theorem admitExpires_between (hs : s.vu.station = .admitting) (ht : s.vu.admitTimer.isSome = true)
    (hw : s.lu.mode = .window → s.vu.judged = none) : admitExpires s = refresh (enterListening s) := by
  have hno : ¬(s.lu.mode = .window ∧ s.vu.judged.isSome = true) := fun h => by simp [hw h.1] at h
  exact (if_pos ⟨hs, ht⟩).trans (if_neg hno)

/-- ADMIT_WAIT expires in the window of a frame under judgement, and waits for its end (R118). -/
theorem admitExpires_window (hs : s.vu.station = .admitting) (ht : s.vu.admitTimer.isSome = true)
    (hw : s.lu.mode = .window) (hj : s.vu.judged ≠ none) :
    admitExpires s = s.setVu { s.vu with admitTimer := none, admitExpired := true } :=
  (if_pos ⟨hs, ht⟩).trans (if_pos ⟨hw, Option.isSome_iff_ne_none.mpr hj⟩)

/-- What SU offers after its refresh, where no attempt is in progress, is what R80 puts first. -/
theorem offered_refresh (h : (refresh s).su.attempt = none) : Offered (refresh s) := by
  obtain ⟨-, hoffered, -⟩ := SendingSettled.refresh (s := s) (by simpa using h)
  exact hoffered

/-- An entry into LISTENING makes STATE pending (R102, R118). -/
theorem enterListening_wu (hs : s.vu.station = .admitting) : (enterListening s).wu = { s.wu with statePending := true } := by
  simp [enterListening_eq s (by simp [hs])]

/-! ## The one timer that runs -/

/-- A timer of one bit time expires, and a longer one is one bit time shorter (R105, R118, R127). -/
theorem countDown_running (write : Option Nat → State → State) (expire : State → State) (s : State) :
    countDown (some n) (some n) write expire s = if n ≤ 1 then expire s else write (some (n - 1)) s := if_pos rfl

theorem timerTick_probe (hp : u.vu.probeTimer = some n) (ha : u.vu.admitTimer = none) (hs : u.vu.stallTimer = none) :
    timerTick u.vu u = if n ≤ 1 then probeExpires u else u.setVu { u.vu with probeTimer := some (n - 1) } := by
  simp only [timerTick, hp, ha, hs, countDown_running, countDown_started]

theorem timerTick_admit (hp : u.vu.probeTimer = none) (ha : u.vu.admitTimer = some n) (hs : u.vu.stallTimer = none) :
    timerTick u.vu u = if n ≤ 1 then admitExpires u else u.setVu { u.vu with admitTimer := some (n - 1) } := by
  simp only [timerTick, hp, ha, hs, countDown_running, countDown_started]

theorem timerTick_stall (hp : u.vu.probeTimer = none) (ha : u.vu.admitTimer = none) (hs : u.vu.stallTimer = some n) :
    timerTick u.vu u = if n ≤ 1 then stallExpires u else u.setVu { u.vu with stallTimer := some (n - 1) } := by
  simp only [timerTick, hp, ha, hs, countDown_running, countDown_started]

/-- Settles O33: the expiry commands are the expiries, and a bit time is the line's part, which leaves VU, and one timer's count. -/
theorem timerExpiries : Obligations.TimerExpiries := by
  unfold Obligations.TimerExpiries
  intro s hf v probed stalled listens
  refine ⟨fun hst ht => ?probe, fun hst ht hw => ?admission, fun hst ht hw hj => ?admitInWindow, fun hst ht => ?stall,
    fun hp hm => ?bitTime⟩
  case probe =>
    refine ⟨_, (next_onLine hf _).trans (congrArg _ (probeExpires_listening hst ht)), rfl, fun ha => ?_, rfl, rfl, rfl, rfl⟩
    exact (SendingSettled.refresh (s := s.setVu (probedVu s)) ha).of_su_eq rfl
  case admission =>
    have hwu := enterListening_wu hst
    refine ⟨_, (next_onLine hf _).trans (congrArg _ (admitExpires_between hst ht hw)), ?_, fun ha => ?_, by simp, by simp, by simp,
      hwu⟩
    · simp [listens, hwu, v]
    · exact (SendingSettled.refresh (s := enterListening s) (by simp [ha])).of_su_eq (by simp)
  case admitInWindow => exact (next_onLine hf _).trans (congrArg _ (admitExpires_window hst ht hw hj))
  case stall =>
    refine ⟨_, (next_onLine hf _).trans (congrArg _ (stallExpires_joining hst ht)), rfl, fun ha => ?_, rfl, rfl, rfl, rfl⟩
    exact (SendingSettled.refresh (s := s.setVu (stalledVu s.vu)) ha).of_su_eq rfl
  case bitTime =>
    obtain ⟨hvu, htu, hwindow, -⟩ := lineTick_keeps s hm
    have hstraps : (lineTick s).hp = s.hp := by simp
    refine ⟨_, step_bitTime hf hp, by simp [htu], by simp, ?_⟩
    generalize lineTick s = u at *
    simp only [v, ← hvu]
    refine ⟨fun h1 h2 h3 => ?stopped, fun n hst h1 h2 h3 => ?probing, fun n hst h1 h2 h3 => ?admitting,
      fun n hst h1 h2 h3 => ?stalling⟩
    case stopped => rw [timerTick_stopped _ u h1 h2 h3]
    case probing =>
      rw [timerTick_probe h1 h2 h3]
      refine ⟨fun hn => by rw [if_neg (by omega)]; rfl, fun hn => ?_⟩
      rw [if_pos hn, probeExpires_listening hst (by simp [h1])]
      exact ⟨by simp [probed, probedVu, v, hvu, hstraps], offered_refresh⟩
    case admitting =>
      rw [timerTick_admit h1 h2 h3]
      refine ⟨fun hn => by rw [if_neg (by omega)]; rfl, fun hn hw => ?_, fun hn hw hj => ?_⟩
      · rw [if_pos hn, admitExpires_between hst (by simp [h2]) (fun e => hw (hwindow.mp e))]
        exact ⟨by simp [listens, enterListening_wu hst, v, hvu], offered_refresh⟩
      · rw [if_pos hn, admitExpires_window hst (by simp [h2]) (hwindow.mpr hw) hj]
        rfl
    case stalling =>
      rw [timerTick_stall h1 h2 h3]
      refine ⟨fun hn => by rw [if_neg (by omega)]; rfl, fun hn => ?_⟩
      rw [if_pos hn, stallExpires_joining hst (by simp [h3])]
      exact ⟨by simp [stalled, stalledVu, v, hvu], offered_refresh⟩

end Sys2Proof.Machine
end

section
/-! SUPPORT. The claims that a frame releases in a copy of the view's table (R17), the station of a view once a window is over, and a
complete JOIN there (R108, R109, R127). -/

namespace Sys2Proof.Machine

variable {s u t : State} {j : Judged} {slots : Mask} {gone : Mask} {n : Station} {f : Frame}

/-! ## The claims released -/

/-- The claims of a set of stations released between `s` and `t`: the records of the cells that they hold in a LIVE table, or in the
known chunks of a PENDING one, and the reports at a LIVE station alone (R6, R17). -/
structure ClaimsReleased (gone : Mask) (s t : State) : Prop where
  known : t.tu.known = s.tu.known
  cells : ∀ c, let frees := heldBy gone (cellAt s c) = true ∧
      (s.vu.station = .member ∨ s.tu.known.getLsbD (c.toNat / 8) = true)
    (frees → cellAt t c = releasedRecord s c) ∧ (¬frees → cellAt t c = cellAt s c)
  live : s.vu.station = .member → ReleaseReported (fun c => heldBy gone (cellAt s c)) s t
  pending : s.vu.station = .joining → t.wu = s.wu ∧ t.qu = s.qu

/-- A release is seen in TU, WU and QU. -/
theorem ClaimsReleased.of_same (h : ClaimsReleased gone s u) (htu : t.tu = u.tu) (hwu : t.wu = u.wu) (hqu : t.qu = u.qu) :
    ClaimsReleased gone s t where
  known := by rw [htu, h.known]
  cells c := by
    rw [show cellAt t c = cellAt u c from cellAt_congr (by rw [htu]) c]
    exact h.cells c
  live hs := by
    have hlive := h.live hs
    unfold ReleaseReported watchAt at *
    rwa [hwu, hqu]
  pending hs := by rw [hwu, hqu]; exact h.pending hs

/-- Which cells a release reaches in a station of the view (R6, R17). -/
theorem releaseFrees_inView (h : StandingLaw s) (hst : s.vu.station = .member ∨ s.vu.station = .joining) (gone : Mask) (c : CellNo) :
    releaseFrees gone s c = true ↔
      heldBy gone (cellAt s c) = true ∧ (s.vu.station = .member ∨ s.tu.known.getLsbD (c.toNat / 8) = true) := by
  obtain ⟨hlive, hpending, -⟩ := h
  rcases hst with hs | hs
  · simp [releaseFrees, copyReaches, hlive.mp hs, hs]
  · simp [releaseFrees, copyReaches, hpending.mp hs, hs, chunkKnown, chunkOf_toNat]

/-- What a release reports looks at the station before it only by these. -/
theorem ReleaseReported.congr {frees : CellNo → Bool} (h : ReleaseReported frees u t) (htu : u.tu = s.tu) (hwu : u.wu = s.wu)
    (hqu : u.qu = s.qu) (hhp : u.hp = s.hp) : ReleaseReported frees s t := by
  unfold ReleaseReported firesOnRelease releaseNotices releaseWakes releasedRecord firesOn noticeOf watchAt own cellAt at *
  simpa only [htu, hwu, hqu, hhp] using h

/-- A claim release at a station of the view, whatever VU's other fields and SU hold (R17). -/
theorem claimsReleased_releaseClaims (h : StandingLaw s) (hst : s.vu.station = .member ∨ s.vu.station = .joining)
    (hstanding : u.vu.standing = s.vu.standing) (htu : u.tu = s.tu) (hwu : u.wu = s.wu) (hqu : u.qu = s.qu) (hhp : u.hp = s.hp)
    (gone : Mask) : ClaimsReleased gone s (releaseClaims gone u) := by
  have hcell (c : CellNo) : cellAt u c = cellAt s c := cellAt_congr (by rw [htu]) c
  have hfrees : releaseFrees gone u = releaseFrees gone s := by
    funext c
    simp only [releaseFrees, copyReaches, chunkKnown, hcell, hstanding, htu]
  obtain ⟨hreported, hsilent⟩ := releaseClaims_reported gone u
  have ⟨hlive, hpending, _⟩ := h
  refine ⟨by simp [htu], fun c => ?_, fun hs => ?_, fun hs => ?_⟩
  · rw [cellAt_releaseClaims, hfrees, hcell]
    simp only [← releaseFrees_inView h hst]
    exact ⟨fun hc => if_pos hc, fun hc => if_neg hc⟩
  · have hall : releaseFrees gone u = fun c => heldBy gone (cellAt s c) := by
      funext c
      simp [releaseFrees, copyReaches, hcell, hstanding, hlive.mp hs]
    exact (hall ▸ hreported (hstanding.trans (hlive.mp hs))).congr htu hwu hqu hhp
  · obtain ⟨hw, hq⟩ := hsilent (by simp [hstanding, hpending.mp hs])
    exact ⟨hw.trans hwu, hq.trans hqu⟩

/-- A cell held by one station, read off its record. -/
theorem heldBy_only_eq (n : Station) (r : Cell) : heldBy (only n) r = (r.holder == some n) :=
  Bool.eq_iff_iff.mpr ((heldBy_only n r).trans beq_iff_eq.symm)

/-- The records once one station's claims are released (R17). -/
theorem ClaimsReleased.cells_only (h : ClaimsReleased (only n) s t) (c : CellNo) :
    let reached := s.vu.station = .member ∨ s.tu.known.getLsbD (c.toNat / 8) = true
    ((cellAt s c).holder = some n ∧ reached → cellAt t c = releasedRecord s c) ∧
      (¬((cellAt s c).holder = some n ∧ reached) → cellAt t c = cellAt s c) := by
  simpa only [heldBy_only] using h.cells c

/-! ## The window over -/

/-- `u` is the judging station `s` once its window is closed, whatever SU then holds (R43, R54, R63). -/
structure WindowOver (s u : State) : Prop where
  vu : u.vu = { s.vu with judged := none }
  tu : u.tu = s.tu
  qu : u.qu = s.qu
  wu : u.wu = s.wu
  hp : u.hp = s.hp
  line : u.lu.mode = .resting ∧ u.lu.driver = .released

theorem windowOver_closeWindow (s : State) : WindowOver s (closeWindow s) := ⟨rfl, rfl, rfl, rfl, rfl, rfl, rfl⟩

/-- A station that the frame withdraws (R109, R110, R112, R114). -/
theorem WindowOver.withdrawn (h : WindowOver s u) (hv : inView s.vu.station = true) :
    let t := refresh (withdraw u)
    (t.lu.mode = .resting ∧ t.lu.driver = .released ∧ t.hp = s.hp) ∧ Withdrawn s t :=
  ⟨⟨by simp [h.line.1], by simp [h.line.2], by simp [h.hp]⟩, withdrawn_of_judged hv h.vu h.tu h.qu h.wu⟩

/-- A new view, and the claims of a set of stations released, at a station of the view (R17). -/
theorem WindowOver.released (h : WindowOver s u) (hl : StandingLaw s) (hst : s.vu.station = .member ∨ s.vu.station = .joining)
    (gone : Mask) (v : View) : ClaimsReleased gone s (releaseClaims gone (setView v u)) :=
  claimsReleased_releaseClaims (u := setView v u) hl hst (by simp [h.vu]) h.tu h.wu h.qu h.hp gone

/-- Such a station with SU in line. -/
theorem WindowOver.line_refresh (h : WindowOver s u) {w : State} (hlu : w.lu = u.lu) (hhp : w.hp = u.hp) :
    (refresh w).lu.mode = .resting ∧ (refresh w).lu.driver = .released ∧ (refresh w).hp = s.hp :=
  ⟨by simp [hlu, h.line.1], by simp [hlu, h.line.2], by simp [hhp, h.hp]⟩

/-- SU in line after the end of another station's window, where no more than VU and the table have changed (R81). -/
theorem sendingSettled_heard (ha : s.su.attempt = none) {w : State} (hw : w.su = s.su) : SendingSettled s (refresh w) :=
  SendingSettled.of_su (by rw [hw, ← ha])

/-- The view without a set of stations (R98, R110, R112). -/
theorem removeFromView_eq (m : Mask) (v : View) : removeFromView m v = ⟨v.full &&& ~~~m, v.joiners &&& ~~~m, v.epoch + 1,
    if v.joiners &&& ~~~m = 0 then false else v.rosterOwed, v.cursor, if v.joiners &&& ~~~m = 0 then 0 else v.remaining⟩ := by
  unfold removeFromView endEmptyRound without
  by_cases hj : v.joiners &&& ~~~m = 0
  · simp only [if_pos hj]
  · simp only [if_neg hj]

/-! ## A JOIN -/

/-- The JOINs that withdraw the station (R109). -/
theorem joinWithdraws_iff (n : Station) (s : State) : joinWithdraws n s = true ↔
    (s.vu.station = .member ∧ n = own s) ∨ (s.vu.station = .joining ∧ s.vu.view.full = only n) := by
  unfold joinWithdraws
  cases s.vu.station <;> simp

/-- A JOIN that does not withdraw the station changes the view, and releases the claims of a full member (R108). -/
theorem applyJoin_stays (h : joinWithdraws n s = false) :
    applyJoin n s = if has s.vu.view.full n = true then releaseClaims (only n) (setView (joinView n s.vu.view) s)
      else setView (joinView n s.vu.view) s := by
  unfold applyJoin joinRow
  rw [if_neg (by simp [h])]
  cases has s.vu.view.full n <;> cases has s.vu.view.joiners n <;> rfl

/-- The rows of R108, written out. -/
theorem joinView_rows (n : Station) (v : View) :
    (has v.full n = false → has v.joiners n = false →
      joinView n v = ⟨v.full, v.joiners ||| only n, v.epoch + 1, true, v.cursor, 16⟩) ∧
    (has v.full n = false → has v.joiners n = true → joinView n v = ⟨v.full, v.joiners, v.epoch, true, v.cursor, 16⟩) ∧
    (has v.full n = true → joinView n v = ⟨v.full &&& ~~~only n, v.joiners ||| only n, v.epoch + 1, true, v.cursor, 16⟩) := by
  unfold joinView joinRow
  refine ⟨fun hf hj => ?_, fun hf hj => ?_, fun hf => ?_⟩
  · simp only [hf, hj]; rfl
  · simp only [hf, hj]; rfl
  · simp only [hf]; rfl

/-- A JOIN of another station, complete at a station of the view, is applied (R74, R108). -/
theorem exec_join_other (h : JudgingOther j slots s) (hv : inView s.vu.station = true) (hb : j.frame.body = .join) :
    exec (.join slots) s = .next (refresh (applyJoin j.frame.orig (closeWindow s))) := by
  have ⟨hjudging, hown, _, _⟩ := h
  have hkind : joinWindow j = true := by simp [joinWindow, probeWindow, hb, isJoin, hown]
  have happ : disposeFrame j slots (closeWindow s) = applyJoin j.frame.orig (closeWindow s) := by
    rw [disposeFrame_other h hv, applyFrame, hb]
  rw [← happ]
  exact congrArg Host.Outcome.next (windowEndOf_judging hjudging hkind slots)

/-- The end of the window of an own stall JOIN, complete at a JOINING station that is a joiner and no full member (R108, R127). -/
theorem exec_join_own (h : JudgingOwn j ⟨.stallJoin, f⟩ s) (hc : isComplete j slots s = true) (hst : s.vu.station = .joining)
    (hb : f.body = .join) (ho : f.orig = own s) (hfull : has s.vu.view.full (own s) = false) :
    exec (.join slots) s = .next (refresh (setView (joinView (own s) s.vu.view)
      (restartStall (setRecord .stallJoin .fresh (endAttempt ⟨.stallJoin, f⟩ (closeWindow s)))))) := by
  have ⟨hjudging, _, _, hsent⟩ := h
  have hkind : joinWindow j = true := by simp [joinWindow, probeWindow, hsent, hb, isJoin, hjudging.2.2.2, hst]
  have hstays : joinWithdraws (own s) (restartStall (setRecord .stallJoin .fresh (endAttempt ⟨.stallJoin, f⟩ (closeWindow s)))) = false := by
    have hne : s.vu.view.full ≠ only (own s) := fun e => by simp [e, has_only] at hfull
    simp [joinWithdraws, hst, hne]
  have happ : disposeFrame j slots (closeWindow s) = setView (joinView (own s) s.vu.view)
      (restartStall (setRecord .stallJoin .fresh (endAttempt ⟨.stallJoin, f⟩ (closeWindow s)))) := by
    rw [disposeFrame_own h hc (by simp [inView, hst])]
    simp only [applyFrame, hb, ho, completeItem]
    rw [applyJoin_stays hstays]
    simp [hfull]
  rw [← happ]
  exact congrArg Host.Outcome.next (windowEndOf_judging hjudging hkind slots)

/-- Settles O42: `joinWithdraws_iff` and `joinView_rows` tell the rows apart, and a full member's claims are `ClaimsReleased`. -/
theorem joinApplied : Obligations.JoinApplied := by
  unfold Obligations.JoinApplied
  refine ⟨fun slots s j h hl hst hb => ?heard, fun slots s j f h hc hst hb ho hfull hjoiner => ?own⟩
  case heard =>
    intro n v withdraws reached
    have ⟨_, _, ha, _⟩ := h
    have hv : inView s.vu.station = true := by rcases hst with hs | hs <;> simp [inView, hs]
    have hover := windowOver_closeWindow s
    have hrun := exec_join_other h hv hb
    obtain ⟨houtside, hjoiner, hmember⟩ := joinView_rows n v
    by_cases hw : withdraws
    · have happ : applyJoin n (closeWindow s) = withdraw (closeWindow s) := if_pos ((joinWithdraws_iff n (closeWindow s)).mpr hw)
      rw [happ] at hrun
      obtain ⟨⟨hmode, hdriver, hhp⟩, hwithdrawn⟩ := hover.withdrawn hv
      exact ⟨_, hrun, hmode, hdriver, hhp, fun _ => hwithdrawn, fun hn => absurd hw hn, fun hn => absurd hw hn,
        fun hn => absurd hw hn, fun hn => absurd hw hn⟩
    · have happ : applyJoin n (closeWindow s) = if has v.full n = true
          then releaseClaims (only n) (setView (joinView n v) (closeWindow s)) else setView (joinView n v) (closeWindow s) :=
        applyJoin_stays (Bool.eq_false_iff.mpr (mt (joinWithdraws_iff n (closeWindow s)).mp hw))
      by_cases hf : has v.full n = true
      · rw [happ.trans (if_pos hf)] at hrun
        obtain ⟨hmode, hdriver, hhp⟩ := hover.line_refresh (w := releaseClaims (only n) (setView (joinView n v) (closeWindow s)))
          (by simp) (by simp)
        have hreleased := (hover.released hl hst (only n) (joinView n v)).of_same
          (t := refresh (releaseClaims (only n) (setView (joinView n v) (closeWindow s)))) (by simp) (by simp) (by simp)
        refine ⟨_, hrun, hmode, hdriver, hhp, fun hy => absurd hy hw, fun _ hno => ?_, fun _ hno => ?_, fun _ _ _ => ?_,
          fun _ => sendingSettled_heard ha (by simp)⟩
        · rw [hf] at hno; cases hno
        · rw [hf] at hno; cases hno
        · refine ⟨?_, hreleased.known, hreleased.cells_only, fun hs => ?_, hreleased.pending⟩
          · simpa [setView, v] using hmember hf
          · simpa only [heldBy_only_eq] using hreleased.live hs
      · have hf' : has v.full n = false := by simpa using hf
        rw [happ.trans (if_neg hf)] at hrun
        obtain ⟨hmode, hdriver, hhp⟩ := hover.line_refresh (w := setView (joinView n v) (closeWindow s)) rfl rfl
        refine ⟨_, hrun, hmode, hdriver, hhp, fun hy => absurd hy hw, fun _ _ hj => ⟨?_, rfl, rfl, rfl⟩,
          fun _ _ hj => ⟨?_, rfl, rfl, rfl⟩, fun _ hyes => absurd hyes hf, fun _ => sendingSettled_heard ha rfl⟩
        · rw [← houtside hf' hj]; rfl
        · rw [← hjoiner hf' hj]; rfl
  case own =>
    have hrun := exec_join_own h hc hst hb ho hfull
    generalize hw : restartStall (setRecord .stallJoin .fresh (endAttempt ⟨.stallJoin, f⟩ (closeWindow s))) = w at hrun
    have hvu : w.vu = { s.vu with judged := none, stallTimer := some 8192, stallOwed := false } := by
      simp [← hw, restartStall, hst, Config.stallWait]
    have hview := (joinView_rows (own s) s.vu.view).2.1 hfull hjoiner
    have hsend : SendingSettled s (refresh (setView (joinView (own s) s.vu.view) w)) := by
      have hset := SendingSettled.of_su (s := setRecord .stallJoin .fresh s) (u := setView (joinView (own s) s.vu.view) w)
        (by simp [← hw, setRecord])
      exact hset.of_stall (by simp [hvu])
    refine ⟨_, hrun, by simp [setView, hvu, hview], by simp [← hw, endAttempt, closeWindow, hb, classOne], hsend, ?_, by simp [← hw],
      by simp [← hw], by simp [← hw, setRecord], by simp [← hw]⟩
    obtain ⟨-, -, -, -, -, -, -, -, -, -, hstall⟩ := hsend
    exact hstall.trans (by simp [hvu]; rfl)

end Sys2Proof.Machine
end

section
/-! SUPPORT. A complete DROP at a station of the view, heard or own (R87, R89, R110): the named stations gone with their claims, and
every missing history cleared. -/

namespace Sys2Proof.Machine

variable {s u t : State} {j : Judged} {slots m : Mask}

/-! ## Missing histories cleared -/

/-- A request with its missing history cleared (R89). -/
def forgetting (q : Request) : Request := { q with attempts := clearHistory q.attempts }

/-- QU with every missing history cleared (R89). -/
def forgottenQu (q : Qu) : Qu := { q with queue := q.queue.map forgetting, park := q.park.map forgetting }

theorem clearHistories_qu (s : State) : (clearHistories s).qu = forgottenQu s.qu := rfl

/-- A claim that a release wakes has a new attempt record, with no history to clear (R89, R95). -/
theorem forgetting_wokenBy (frees : CellNo → Bool) (q : Request) :
    forgetting (wokenBy frees q) = wokenBy frees (forgetting q) := by
  unfold wokenBy
  by_cases hq : (q.state == .parked && frees q.cell) = true
  · rw [if_pos hq, if_pos (show ((forgetting q).state == .parked && frees (forgetting q).cell) = true from hq)]
    rfl
  · rw [if_neg hq, if_neg (show ¬((forgetting q).state == .parked && frees (forgetting q).cell) = true from hq)]

/-- No history decides which parked claims a release wakes (R139). -/
theorem releaseWakes_forgotten (frees : CellNo → Bool) (s : State) :
    releaseWakes frees (s.setQu (forgottenQu s.qu)) = releaseWakes frees s := by
  unfold releaseWakes forgottenQu
  refine List.flatMap_congr fun c _ => ?_
  simp only [State.setQu_qu, List.filter_map, List.map_map]
  rfl

/-- A release reported before the histories are cleared is one reported after (R89, R139). -/
theorem ReleaseReported.forgotten {frees : CellNo → Bool} (h : ReleaseReported frees s u) (hwu : t.wu = u.wu)
    (hqu : t.qu = forgottenQu u.qu) : ReleaseReported frees (s.setQu (forgottenQu s.qu)) t := by
  obtain ⟨hwatch, hnotices, hrequests⟩ := h
  refine ⟨fun i => ?_, ?_, ?_⟩
  · rw [show watchAt t i = watchAt u i by simp only [watchAt, hwu]]
    exact hwatch i
  · rw [hwu]
    exact hnotices
  · rw [hqu, hrequests, releaseWakes_forgotten]
    simp only [forgottenQu, State.setQu_qu, List.map_map, Qu.mk.injEq, true_and, and_true]
    exact List.map_congr_left fun q _ => forgetting_wokenBy frees q

/-- SU with every missing history cleared (R89). -/
def forgottenSu (x : Su) : Su := { x with
  dropRec := clearHistory x.dropRec
  rosterRec := clearHistory x.rosterRec
  transferRec := clearHistory x.transferRec
  leaveRec := clearHistory x.leaveRec
  foundRec := clearHistory x.foundRec
  stallRec := clearHistory x.stallRec }

theorem clearHistories_su (s : State) : (clearHistories s).su = forgottenSu s.su := rfl

/-- With no DROP owed its record is a new one, whatever it was (R79). -/
theorem SendingSettled.of_dropRec (h : SendingSettled s t) (hs : s.su.owedDrop = none) (r : AttemptRec) :
    SendingSettled (s.setSu { s.su with dropRec := r }) t := by
  have howed : t.su.owedDrop = none := by
    obtain ⟨-, -, howed, -⟩ := h
    simpa [hs] using howed
  unfold SendingSettled at *
  simpa [howed] using h

/-- STALL_WAIT started afresh, seen in VU (R127). -/
theorem restartStall_vu (s : State) : (restartStall s).vu = { s.vu with
    stallTimer := if s.vu.station = .joining then some 8192 else s.vu.stallTimer
    stallOwed := if s.vu.station = .joining then false else s.vu.stallOwed } := by
  unfold restartStall
  by_cases hs : s.vu.station = .joining
  · simp only [if_pos hs]; rfl
  · simp only [if_neg hs]

/-! ## The end of the window -/

/-- A complete DROP, heard or own, is applied from a station whose window is over; an own one has left SU (R74, R84). -/
theorem exec_drop_judging (h : JudgingOther j slots s ∨ ∃ f, JudgingOwn j ⟨.drop, f⟩ s ∧ isComplete j slots s = true)
    (hv : inView s.vu.station = true) (hb : j.frame.body = .drop m) :
    ∃ u, WindowOver s u ∧ exec (.drop slots) s = .next (refresh (applyDrop m u)) ∧
      u.su = { s.su with attempt := none, owedDrop := if j.own then none else s.su.owedDrop,
                         dropRec := if j.own then .fresh else s.su.dropRec } := by
  have hkind : dropWindow j = true := by simp [dropWindow, hb]
  have hends (hjudging : Judging j s) : exec (.drop slots) s = .next (refresh (disposeFrame j slots (closeWindow s))) :=
    congrArg Host.Outcome.next (windowEndOf_judging hjudging hkind slots)
  rcases h with h | ⟨f, h, hc⟩
  · have ⟨hjudging, hown, ha, _⟩ := h
    have happ : disposeFrame j slots (closeWindow s) = applyDrop m (closeWindow s) := by
      rw [disposeFrame_other h hv]
      simp only [applyFrame, hb]
    exact ⟨closeWindow s, windowOver_closeWindow s, happ ▸ hends hjudging, by rw [hown, ← ha]; rfl⟩
  · have ⟨hjudging, hown, _, hsent⟩ := h
    have hbody : f.body = .drop m := by rw [← hb, hsent]
    have happ : disposeFrame j slots (closeWindow s)
        = applyDrop m (completeItem .drop (endAttempt ⟨.drop, f⟩ (closeWindow s))) := by
      rw [disposeFrame_own h hc hv]
      simp only [applyFrame, hbody]
    exact ⟨completeItem .drop (endAttempt ⟨.drop, f⟩ (closeWindow s)), ⟨rfl, rfl, rfl, rfl, rfl, rfl, rfl⟩,
      happ ▸ hends hjudging, by rw [hown]; rfl⟩

/-- The stations that a DROP removes from a view, as holders of a cell (R17, R110). -/
theorem heldBy_removed (m : Mask) (v : View) (r : Cell) : heldBy (m &&& everyone v) r = match r.holder with
    | some h => has m h && (has v.full h || has v.joiners h)
    | none => false := by
  unfold heldBy
  cases r.holder <;> simp [has, everyone]

/-- Settles O47: `exec_drop_judging` reaches the state in which the DROP is applied; `ClaimsReleased` says which claims go, and
`ReleaseReported.forgotten` that the histories may be cleared first. -/
theorem dropApplied : Obligations.DropApplied := by
  unfold Obligations.DropApplied
  intro slots s j m h hl hst hb v full joiners gone frees cleared forgets requests
  have hv : inView s.vu.station = true := by rcases hst with hs | hs <;> simp [inView, hs]
  obtain ⟨u, hover, hrun, hsu⟩ := exec_drop_judging h hv hb
  have hown : own u = own s := by simp only [own, hover.hp]
  by_cases hm : has m (own s) = true
  · rw [applyDrop, if_pos (hown ▸ hm)] at hrun
    obtain ⟨⟨hmode, hdriver, hhp⟩, hwithdrawn⟩ := hover.withdrawn hv
    refine ⟨_, hrun, hmode, hdriver, hhp, fun _ => hwithdrawn, fun hno => ?_⟩
    rw [hm] at hno
    cases hno
  · rw [applyDrop, if_neg (hown ▸ hm)] at hrun
    dsimp only at hrun
    rw [hover.vu] at hrun
    generalize hr : releaseClaims (m &&& everyone s.vu.view) (setView (removeFromView m s.vu.view) u) = r at hrun
    have hreleased : ClaimsReleased (m &&& everyone s.vu.view) s r := hr ▸ hover.released hl hst _ _
    have hrvu : r.vu = { s.vu with judged := none, view := removeFromView m s.vu.view } := by simp [← hr, setView, hover.vu]
    have hrsu : r.su = u.su := by simp [← hr]
    have hgone (c : CellNo) : heldBy (m &&& everyone s.vu.view) (cellAt s c) = gone c := heldBy_removed m v (cellAt s c)
    obtain ⟨hmode, hdriver, hhp⟩ := hover.line_refresh (w := clearHistories (restartStall r)) (by simp [← hr]) (by simp [← hr])
    refine ⟨_, hrun, hmode, hdriver, hhp, fun hyes => absurd hyes hm, fun _ => ⟨?vu, ?known, ?cells, ?live, ?pending, ?sending⟩⟩
    case vu =>
      rw [show (refresh (clearHistories (restartStall r))).vu = (restartStall r).vu by simp, restartStall_vu, hrvu,
        removeFromView_eq]
    case known => simpa using hreleased.known
    case cells =>
      intro c
      have hc := hreleased.cells c
      rw [show cellAt (refresh (clearHistories (restartStall r))) c = cellAt r c from cellAt_congr (by simp) c]
      simp only [hgone] at hc
      exact hc
    case live =>
      intro hs
      exact ((funext hgone : _ = gone) ▸ hreleased.live hs).forgotten (by simp) (by simp [clearHistories_qu])
    case pending =>
      intro hs
      obtain ⟨hwu, hqu⟩ := hreleased.pending hs
      refine ⟨by simp [hwu], ?_⟩
      rw [show (refresh (clearHistories (restartStall r))).qu = forgottenQu r.qu by simp [clearHistories_qu], hqu]
      rfl
    case sending =>
      have hcsu : (clearHistories (restartStall r)).su = forgottenSu u.su := by simp [clearHistories_su, hrsu]
      have hset := (SendingSettled.refresh (s := clearHistories (restartStall r)) (by simp [hrsu, hsu])).of_su_eq
        (s := s.setSu (forgottenSu u.su)) hcsu
      rw [hsu] at hset
      cases hj : j.own
      · rw [hj] at hset
        exact hset.of rfl rfl rfl rfl rfl rfl rfl
      · rw [hj] at hset
        exact (hset.of_dropRec rfl (cleared s.su.dropRec)).of rfl rfl rfl rfl rfl rfl rfl

end Sys2Proof.Machine
end

section
/-! SUPPORT. A complete LEAVE (R112): another station's at a station of the view, one of this station's own number, and the leaver's
own, which halts it. -/

namespace Sys2Proof.Machine

variable {s t r : State} {j : Judged} {slots : Mask} {f : Frame}

/-! ## Another station's LEAVE -/

/-- The end of the window of a LEAVE under judgement (R74, R112). -/
theorem exec_leave_judging (h : Judging j s) (hb : j.frame.body = .leave) (slots : Mask) :
    exec (.leave slots) s = .next (refresh (disposeFrame j slots (closeWindow s))) :=
  congrArg Host.Outcome.next (windowEndOf_judging h (by simp [leaveWindow, hb]) slots)

/-- A LEAVE of another station, complete at a station of the view, is applied (R74, R112). -/
theorem exec_leave_other (h : JudgingOther j slots s) (hv : inView s.vu.station = true) (hb : j.frame.body = .leave) :
    exec (.leave slots) s = .next (refresh (applyLeaveOther j.frame.orig (closeWindow s))) := by
  have ⟨hjudging, _⟩ := h
  have happ : disposeFrame j slots (closeWindow s) = applyLeaveOther j.frame.orig (closeWindow s) := by
    rw [disposeFrame_other h hv]
    simp [applyFrame, hb]
  exact happ ▸ exec_leave_judging hjudging hb slots

/-! ## The leaver -/

/-- The leaver, with its attempt over and its LEAVE gone from SU (R54, R84). -/
def leaverReady (f : Frame) (s : State) : State := completeItem .leave (endAttempt ⟨.leave, f⟩ (closeWindow s))

/-- A leaver's own LEAVE, complete at MEMBER, is applied (R74, R112). -/
theorem exec_leave_own (h : JudgingOwn j ⟨.leave, f⟩ s) (hc : isComplete j slots s = true) (hst : s.vu.station = .member)
    (hb : j.frame.body = .leave) : exec (.leave slots) s = .next (refresh (leaveOwn (leaverReady f s))) := by
  have ⟨hjudging, _, _, hsent⟩ := h
  have hbody : f.body = .leave := by rw [← hb, hsent]
  have happ : disposeFrame j slots (closeWindow s) = leaveOwn (leaverReady f s) := by
    rw [disposeFrame_own h hc (by simp [inView, hst])]
    simp [applyFrame, hbody, leaverReady]
  exact happ ▸ exec_leave_judging hjudging hb slots

/-- What the exit of a MEMBER with its claims released leaves, with SU in line (R104, R112, R146): `r` is the station once they are. -/
theorem leaver_exits (hr : r.vu.station = .member) :
    let t := refresh (enterHalted (retain (emptySending (leaveQueues r))))
    t.vu.station = .halted ∧ t.vu.standing = .retained ∧ t.vu.retainedEpoch = r.vu.view.epoch ∧ t.vu.view = .empty ∧
      t.vu.leavePending = false ∧ t.lu = { r.lu with deferred := false } ∧ t.su = .empty ∧ t.tu = r.tu ∧ t.qu = allWithdrawn r ∧
      ExitReported r t := by
  have hwu : (enterHalted (retain (emptySending (leaveQueues r)))).wu = { (leaveQueues r).wu with statePending := true } := by
    simp [enterHalted, enter, hr, raiseState]
  have hqu : (leaveQueues r).qu = (retireAll r).qu := by simp [leaveQueues, hr]
  refine ⟨by simp, by simp, by simp, by simp, by simp, by simp [emptySending], refresh_halted (by simp) (by simp), by simp, ?_,
    ExitReported.of_leaveQueues (by simpa using hwu)⟩
  simpa [hqu] using retireAll_qu r

/-- The watches after the exit that follows a claim release: none is ARMED, and the LOST notices are those of the watches that
the release did not fire, from the records that it left (R17, R104, R153). -/
theorem exit_after_release {frees : CellNo → Bool} (hs : r.vu.station = .member) (h : ReleaseReported frees s r)
    (he : ExitReported r t) (htu : t.tu = r.tu) : (∀ i, (watchAt t i).state ≠ .armed) ∧ t.wu.statePending = true ∧
      t.wu.events = s.wu.events ++ releaseNotices frees s ++
        ((List.finRange 16).filter (fun i => (watchAt s i).state == .armed && !firesOnRelease frees s i)).map (fun i =>
          ⟨i, (watchAt s i).tag, .lost, (cellAt t (watchAt s i).cell).value, (cellAt t (watchAt s i).cell).holder,
            (cellAt t (watchAt s i).cell).version⟩) := by
  obtain ⟨hwatch, hnotices, -⟩ := h
  unfold ExitReported at he
  rw [if_pos hs] at he
  obtain ⟨hexit, hwu⟩ := he
  have hcell (c : CellNo) : cellAt t c = cellAt r c := cellAt_congr (by rw [htu]) c
  have hsame (i : Fin 16) : (watchAt r i).cell = (watchAt s i).cell ∧ (watchAt r i).tag = (watchAt s i).tag := by
    rw [hwatch i]
    split <;> exact ⟨rfl, rfl⟩
  have harmed (i : Fin 16) : ((watchAt r i).state == .armed) = ((watchAt s i).state == .armed && !firesOnRelease frees s i) := by
    rw [hwatch i]
    cases firesOnRelease frees s i <;> simp
  refine ⟨fun i => ?_, by rw [hwu], ?_⟩
  · rw [hexit i]
    by_cases ha : (watchAt r i).state = .armed <;> simp [ha]
  · have hlost : lostNotices r = ((List.finRange 16).filter
        (fun i => (watchAt s i).state == .armed && !firesOnRelease frees s i)).map (fun i =>
          ⟨i, (watchAt s i).tag, .lost, (cellAt t (watchAt s i).cell).value, (cellAt t (watchAt s i).cell).holder,
            (cellAt t (watchAt s i).cell).version⟩) := by
      simp only [lostNotices, harmed, hsame, hcell]
    rw [hwu]
    dsimp only
    rw [hlost, hnotices]

/-- The completion records of the requests that an exit withdraws, by tag, ending and epoch: a release before it changes none of these
(R139, R144, R146). -/
theorem withdrawn_after_release {frees : CellNo → Bool} (h : ReleaseReported frees s r) (hv : r.vu.view.epoch = s.vu.view.epoch) :
    (allWithdrawn r).completions.map (fun x => (x.tag, x.ending, x.epoch)) =
      s.qu.completions.map (fun x => (x.tag, x.ending, x.epoch)) ++
        (s.qu.queue ++ s.qu.park).map (fun q => (q.tag, Ending.withdrawn, s.vu.view.epoch)) := by
  obtain ⟨-, -, hqu⟩ := h
  have hwoken (q : Request) : (wokenBy frees q).tag = q.tag := by unfold wokenBy; split <;> rfl
  simp only [allWithdrawn, unappliedRecord, hqu, hv, List.map_append, List.map_map]
  simp [Function.comp_def, hwoken]

/-- Settles O48: `exec_leave_other` applies the removal or the withdrawal, and `leaver_exits` the halt of the leaver. -/
theorem leaveApplied : Obligations.LeaveApplied := by
  unfold Obligations.LeaveApplied
  intro slots s j hl hb hc n v joiners mine released
  have hreleases {h : Station} {t : State} (hr : ClaimsReleased (only h) s t) :
      released t h fun c => s.vu.station = .member ∨ s.tu.known.getLsbD (c.toNat / 8) = true := hr.cells_only
  have hinView (hst : s.vu.station = .member ∨ s.vu.station = .joining) : inView s.vu.station = true := by
    rcases hst with hs | hs <;> simp [inView, hs]
  have hover := windowOver_closeWindow s
  refine ⟨fun h hst hne => ?others, fun h hst he => ?ownNumber, fun f h hst => ?leaver⟩
  case others =>
    have ⟨_, _, ha, _⟩ := h
    have hrun := exec_leave_other h (hinView hst) hb
    have happ : applyLeaveOther n (closeWindow s) = releaseClaims (only n) (setView (removeFromView (only n) v) (closeWindow s)) :=
      if_neg hne
    rw [happ] at hrun
    have hreleased := hover.released hl hst (only n) (removeFromView (only n) v)
    have hvu : (releaseClaims (only n) (setView (removeFromView (only n) v) (closeWindow s))).vu
        = { s.vu with judged := none, view := removeFromView (only n) v } := by simp [setView]
    have hsend : SendingSettled s (refresh (releaseClaims (only n) (setView (removeFromView (only n) v) (closeWindow s)))) :=
      sendingSettled_heard ha (by simp)
    obtain ⟨hmode, hdriver, hhp⟩ := hover.line_refresh
      (w := releaseClaims (only n) (setView (removeFromView (only n) v) (closeWindow s))) (by simp) (by simp)
    generalize releaseClaims (only n) (setView (removeFromView (only n) v) (closeWindow s)) = r at *
    have hreleased := hreleased.of_same (t := refresh r) (by simp) (by simp) (by simp)
    refine ⟨_, hrun, hhp, hmode, hdriver, ?_, hreleased.known, hsend, fun hs => ?_, hreleased.pending, hreleases hreleased⟩
    · rw [show (refresh r).vu = r.vu from rfl, hvu, removeFromView_eq]
    · simpa only [heldBy_only_eq] using hreleased.live hs
  case ownNumber =>
    have hrun := exec_leave_other h (hinView hst) hb
    have happ : applyLeaveOther n (closeWindow s) = withdraw (closeWindow s) := if_pos he
    rw [happ] at hrun
    obtain ⟨⟨hmode, hdriver, hhp⟩, hwithdrawn⟩ := hover.withdrawn (hinView hst)
    exact ⟨_, hrun, hhp, hmode, hdriver, hwithdrawn⟩
  case leaver =>
    have hrun := exec_leave_own h hc hst hb
    have hown : own (leaverReady f s) = own s := rfl
    rw [leaveOwn, hown] at hrun
    have hreleased : ClaimsReleased (only (own s)) s (releaseClaims (only (own s)) (leaverReady f s)) :=
      claimsReleased_releaseClaims (u := leaverReady f s) hl (.inl hst) rfl rfl rfl rfl rfl _
    have hvu : (releaseClaims (only (own s)) (leaverReady f s)).vu = { s.vu with judged := none, leavePending := false } := by
      simp [leaverReady, completeItem, setRecord]
    have hlu : (releaseClaims (only (own s)) (leaverReady f s)).lu.driver = .released := by simp [leaverReady]
    generalize releaseClaims (only (own s)) (leaverReady f s) = r at *
    have hmember : r.vu.station = .member := by rw [hvu]; exact hst
    obtain ⟨hhalted, hstanding, hepoch, hview, hpending, hline, hsu, htu, hqu, hexit⟩ := leaver_exits hmember
    generalize refresh (enterHalted (retain (emptySending (leaveQueues r)))) = t at *
    have hreported : ReleaseReported mine s r := by simpa only [heldBy_only_eq] using hreleased.live hst
    obtain ⟨hunarmed, hstate, hevents⟩ := exit_after_release hmember hreported hexit htu
    refine ⟨_, hrun, hhalted, hstanding, hepoch.trans (by rw [hvu]), hview, hpending, by rw [hline]; exact hlu, by rw [hline], hsu,
      hstate, fun c => ?_, hunarmed, hevents, by rw [hqu]; rfl, by rw [hqu]; rfl, ?_⟩
    · rw [show cellAt t c = cellAt r c from cellAt_congr (by rw [htu]) c]
      simpa only [hst, true_or] using hreleases hreleased c
    · rw [hqu]
      exact withdrawn_after_release hreported (by rw [hvu])

end Sys2Proof.Machine
end

section
/-! SUPPORT. A complete ROSTER at a station of the view, heard or own (R121, R127): no longer owed, and STALL_WAIT afresh at a joiner. -/

namespace Sys2Proof.Machine

variable {s u : State} {j : Judged} {slots full joiners : Mask} {cursor : BitVec 4} {remaining : BitVec 5}

/-! ## The end of the window -/

/-- A complete ROSTER, heard or own, is applied from a station whose window is over and whose attempt has ended; no ROSTER sets
DEFERRED (R59, R74, R84, R121). -/
theorem exec_roster_judging (h : JudgingOther j slots s ∨ ∃ f, JudgingOwn j ⟨.roster, f⟩ s ∧ isComplete j slots s = true)
    (hv : inView s.vu.station = true) (hb : j.frame.body = .roster full joiners cursor remaining) :
    ∃ u, WindowOver s u ∧ exec (.roster slots) s = .next (refresh (applyRoster u)) ∧ u.lu.deferred = s.lu.deferred ∧
      u.su.attempt = none := by
  have hends (hjudging : Judging j s) : exec (.roster slots) s = .next (refresh (disposeFrame j slots (closeWindow s))) := by
    have ⟨_, _, _, hstation⟩ := hjudging
    have hst : j.station ≠ .admitting := fun e => by rw [← hstation, e] at hv; cases hv
    exact congrArg Host.Outcome.next (windowEndOf_judging hjudging (by simp [rosterWindow, hb, isRoster, hst]) slots)
  rcases h with h | ⟨f, h, hc⟩
  · have ⟨hjudging, _, ha, _⟩ := h
    have happ : disposeFrame j slots (closeWindow s) = applyRoster (closeWindow s) := by
      rw [disposeFrame_other h hv]
      simp only [applyFrame, hb]
    exact ⟨closeWindow s, windowOver_closeWindow s, happ ▸ hends hjudging, rfl, ha⟩
  · have ⟨hjudging, _, _, hsent⟩ := h
    have hbody : f.body = .roster full joiners cursor remaining := by rw [← hb, hsent]
    have happ : disposeFrame j slots (closeWindow s)
        = applyRoster (completeItem .roster (endAttempt ⟨.roster, f⟩ (closeWindow s))) := by
      rw [disposeFrame_own h hc hv]
      simp only [applyFrame, hbody]
    exact ⟨completeItem .roster (endAttempt ⟨.roster, f⟩ (closeWindow s)), ⟨rfl, rfl, rfl, rfl, rfl, rfl, rfl⟩,
      happ ▸ hends hjudging, by simp [hbody, classOne], rfl⟩

/-! ## The ROSTER applied -/

/-- VU once a ROSTER is applied from a window that is over (R121, R127). -/
theorem WindowOver.applyRoster_vu (h : WindowOver s u) : (applyRoster u).vu = { s.vu with
    judged := none
    view := { s.vu.view with rosterOwed := false }
    stallTimer := if s.vu.station = .joining then some 8192 else s.vu.stallTimer
    stallOwed := if s.vu.station = .joining then false else s.vu.stallOwed } := by
  rw [applyRoster, restartStall_vu, setView, State.setVu_vu, h.vu]

/-- With no attempt in progress SU's refresh after a ROSTER leaves a new record of it: none is owed (R79, R84, R121). -/
theorem refresh_applyRoster_su (ha : u.su.attempt = none) :
    (refresh (applyRoster u)).su.attempt = none ∧ (refresh (applyRoster u)).su.rosterRec = ⟨0, []⟩ := by
  have hpaid : ¬RosterOwed (refresh (applyRoster u)) := fun ⟨_, _, howed⟩ => by
    simp [applyRoster, restartStall_vu, setView] at howed
  obtain ⟨hattempt, -, -, -, -, hcleared, -⟩ := SendingSettled.refresh (s := applyRoster u) (by simp [ha])
  exact ⟨hattempt, hcleared hpaid⟩

/-- Settles O43: `exec_roster_judging` reaches the state in which the ROSTER is applied, whether heard or own. -/
theorem rosterApplied : Obligations.RosterApplied := by
  unfold Obligations.RosterApplied
  intro slots s j full joiners cursor remaining hb hc
  refine ⟨fun h hst => ?heard, fun f h hst => ?own⟩
  case heard =>
    have hv : inView s.vu.station = true := by rcases hst with hs | hs <;> simp [inView, hs]
    obtain ⟨u, hover, hrun, hdeferred, -⟩ := exec_roster_judging (.inl h) hv hb
    obtain ⟨hmode, hdriver, hhp⟩ := hover.line_refresh (w := applyRoster u) (by simp) (by simp)
    exact ⟨_, hrun, by simp [hover.tu], by simp [hover.wu], by simp [hover.qu], hhp, hmode, hdriver, by simp [hdeferred],
      hover.applyRoster_vu⟩
  case own =>
    obtain ⟨u, hover, hrun, hdeferred, ha⟩ := exec_roster_judging (.inr ⟨f, h, hc⟩) (by simp [inView, hst]) hb
    obtain ⟨hattempt, hrecord⟩ := refresh_applyRoster_su ha
    have hvu : (refresh (applyRoster u)).vu
        = { s.vu with judged := none, view := { s.vu.view with rosterOwed := false } } := by
      simpa [hst] using hover.applyRoster_vu
    exact ⟨_, hrun, by simp [hover.tu], by simp [hover.wu], by simp [hover.qu], by simp [hover.hp], by simp [hdeferred],
      hattempt, hrecord, hvu⟩

end Sys2Proof.Machine
end

section
/-! SUPPORT. The law of the queues over every step (R136): on the line it is touched where a frame is cut off, begun or ended, at
the host port by a submission, a read of COMPLETION, a CANCEL and a HALT, and each of these is an operation on the requests
that keeps it. -/

namespace Sys2Proof.Machine

variable {s t : State}

/-! ## What the law looks at -/

/-- The law looks at QU alone. -/
theorem RequestLaw.of_qu (h : RequestLaw s) (hq : t.qu = s.qu) : RequestLaw t := h.of (by rw [hq]) (by rw [hq]) (by rw [hq])

/-- Fewer completion records keep the law: they count in the budget alone (R136). -/
theorem RequestLaw.of_fewer_completions (h : RequestLaw s) (hq : t.qu.queue = s.qu.queue) (hp : t.qu.park = s.qu.park)
    (hc : t.qu.completions.length ≤ s.qu.completions.length) : RequestLaw t := by
  obtain ⟨hqueue, hpark, hbudget, htags⟩ := h
  unfold RequestLaw admissionTotal at *
  rw [hq, hp]
  exact ⟨hqueue, hpark, by omega, htags⟩

/-! ## The line -/

theorem RequestLaw.startOffered (h : RequestLaw s) : RequestLaw (startOffered s) := by
  unfold Machine.startOffered
  split
  · split
    · exact h.beginItem _
    · exact h
  · exact h

theorem RequestLaw.loseArbitration (h : RequestLaw s) : RequestLaw (loseArbitration s) := by
  unfold Machine.loseArbitration
  split
  · exact h.lostArbitration.of_qu (by simp)
  all_goals exact h

theorem RequestLaw.readBackFault (h : RequestLaw s) (slot : Station) (inData : Bool) (level : LineLevel) :
    RequestLaw (readBackFault slot inData level s) := by
  have hgiven : RequestLaw (s.setLu (giveUpLine (runAfter level s.lu) s.lu)) := h.of_qu rfl
  unfold Machine.readBackFault
  split
  · exact hgiven.selfFault.refresh
  · exact h.windowFault slot inData
  all_goals exact h

/-- A line that sticks abandons the frame in progress (R58). -/
theorem RequestLaw.lineSticks (h : RequestLaw s) (slot : Station) (inData : Bool) : RequestLaw (lineSticks slot inData s) := by
  have habandon : RequestLaw (abandonFrame slot inData s) := by
    unfold abandonFrame
    split
    · exact h.readBackFault slot inData _
    · exact h.windowFault slot inData
    all_goals exact h.of_qu (by simp)
  unfold Machine.lineSticks
  split
  · exact h
  · exact habandon.of_qu rfl

/-- DEFERRED clears, and a class-1 item may begin (R59, R60). -/
theorem RequestLaw.deferredClear (h : RequestLaw s) : RequestLaw (deferredClear s) := by
  have hclear : RequestLaw (Machine.refresh (s.setLu { idleReaches Config.barrierIdle s.lu with deferred := false })) :=
    h.of_qu (by simp)
  unfold Machine.deferredClear
  dsimp only
  split
  · split
    · split
      · exact hclear.startOffered
      · exact hclear
    · exact hclear
  · exact h

theorem RequestLaw.windowEndOf (h : RequestLaw s) (kind : Judged → Bool) (slots : Mask) :
    RequestLaw (windowEndOf kind slots s) := by
  unfold Machine.windowEndOf
  split
  · split
    · exact h.windowEnd slots
    · exact h
  · exact h.windowEnd slots

/-! ## A bit time -/

theorem RequestLaw.restTick (h : RequestLaw s) : RequestLaw (restTick s) := by
  unfold Machine.restTick
  dsimp only
  split
  · exact (h.of_qu (by simp)).startOffered
  · exact (h.of_qu (by simp)).startOffered

theorem RequestLaw.assertedTick (h : RequestLaw s) (slot : Station) (inData : Bool) :
    RequestLaw (assertedTick slot inData s) := by
  unfold Machine.assertedTick
  split
  · exact h.of_qu rfl
  · exact h.lineSticks slot inData

theorem RequestLaw.gapTick (h : RequestLaw s) : RequestLaw (gapTick s) := by
  unfold Machine.gapTick
  split
  · exact h.of_qu rfl
  · exact h.restTick

theorem RequestLaw.busyTick (h : RequestLaw s) : RequestLaw (busyTick s) := by
  have hcounted : RequestLaw (s.setFreeCount (s.freeCount + 1)) := h.of_qu rfl
  unfold Machine.busyTick
  dsimp only
  split
  · exact hcounted.gapTick
  · exact hcounted.of_qu rfl
  · exact hcounted.assertedTick _ _

theorem RequestLaw.frameTick (h : RequestLaw s) : RequestLaw (frameTick s) := by
  have hpassed : RequestLaw (passBit s) := h.of_qu rfl
  unfold Machine.frameTick
  split
  · exact hpassed.of_qu rfl
  · exact hpassed.of_qu rfl
  · exact hpassed.assertedTick _ _

theorem RequestLaw.lineTick (h : RequestLaw s) : RequestLaw (lineTick s) := by
  unfold Machine.lineTick
  split
  case h_1 | h_2 =>
    split
    · exact h
    · split
      · exact h.busyTick
      · exact h.restTick
  all_goals exact h.frameTick

/-- A bit time keeps the law: the timers' part of it leaves QU as it was. -/
theorem RequestLaw.tick (h : RequestLaw s) : RequestLaw (tick s) := by
  unfold Machine.tick
  split
  · exact h
  · exact h.lineTick.of_qu (by simp)

/-! ## The host port -/

/-- A byte at REQUEST: the seventh is judged (R134, R135). -/
theorem RequestLaw.requestByte (h : RequestLaw s) (b : Byte) : RequestLaw (requestByte b s) := by
  have hsubmit := h.submit (entryOf (s.qu.entry ++ [b]))
  unfold Machine.requestByte
  dsimp only
  split
  · exact h.of rfl rfl rfl
  · split
    · exact hsubmit.refresh
    · exact hsubmit

/-- A read of COMPLETION removes at most the head record (R145). -/
theorem RequestLaw.readCompletion (h : RequestLaw s) : RequestLaw (readCompletion s) := by
  refine h.of_fewer_completions (by simp) (by simp) ?_
  unfold Machine.readCompletion
  split
  · simp
  · rename_i hc
    rw [hc]
    simp only [answer_frame, State.setQu_qu]
    split <;> simp

/-- CANCEL retires a request that waits, and marks one in attempt (R141, R142). -/
theorem RequestLaw.takeCancel (h : RequestLaw s) (tag : Byte) : RequestLaw (takeCancel tag s) := by
  have hjudged : RequestLaw (judgeCancel tag s).2 := by
    unfold judgeCancel
    split
    · exact h
    · rename_i hf
      split
      · exact h.update _ _ fun _ => rfl
      · exact h.retireFound hf _ rfl
  unfold Machine.takeCancel
  dsimp only
  split
  · exact hjudged.of_qu (by simp [controlResult])
  · exact hjudged.of_qu rfl

theorem RequestLaw.controlWrite (h : RequestLaw s) (b : Byte) : RequestLaw (controlWrite b s) := by
  have hkept (bytes : List Byte) : RequestLaw (keepControlBytes bytes s) := h.of_qu rfl
  unfold Machine.controlWrite
  split
  · unfold controlFirst
    split_ifs
    · exact h.of_qu (by simp)
    · exact h.haltStation.of_qu (by simp [takeHalt])
    · exact h.of_qu (by simp)
    · exact hkept _
    · exact h.of_qu rfl
  · split_ifs
    · exact (hkept _).takeCancel b
    · exact h.of_qu (by simp)

theorem RequestLaw.controlCommand (h : RequestLaw s) (command : List Byte) : RequestLaw (controlCommand command s) :=
  foldl_keeps (P := RequestLaw) (fun _ b ht => ht.controlWrite b) _ s h

/-! ## Every command -/

/-- An event of the line or of a timer keeps the law when its operation does. -/
theorem RequestLaw.onLine (h : RequestLaw s) {f : State → State} (hf : RequestLaw (f s)) : RequestLaw (onLine f s) := by
  unfold Machine.onLine
  split
  · exact h
  · exact hf

/-- A host write keeps the law when its operation does. -/
theorem RequestLaw.hostWrite (h : RequestLaw s) {f : State → State} (hf : RequestLaw (f s)) : RequestLaw (hostWrite f s) := by
  unfold Machine.hostWrite
  split
  · exact h
  · exact hf

/-- A host read keeps the law when its operation does. -/
theorem RequestLaw.hostRead (h : RequestLaw s) {f : State → State} (hf : RequestLaw (f s)) : RequestLaw (hostRead f s) := by
  unfold Machine.hostRead
  split
  · exact h.of_qu (by simp)
  · split
    · exact h.of_qu (by simp)
    · exact hf

/-- RST empties QU, or changes the pin alone (R147, R167). -/
theorem RequestLaw.assertRst (h : RequestLaw s) : RequestLaw (assertRst s) := by
  unfold Machine.assertRst
  split
  · exact h.of_qu rfl
  · exact requestLaw_of_reset rfl

/-- Every command completes and keeps the law. -/
theorem RequestLaw.exec (h : RequestLaw s) (c : Instr) : ∃ t, exec c s = .next t ∧ RequestLaw t := by
  cases c
  case powerOn | powerLoss => exact ⟨_, rfl, requestLaw_of_reset rfl⟩
  case powerOnHoldEnd | rstRelease => exact ⟨_, rfl, h.of_qu (by simp)⟩
  case rstAssert => exact ⟨_, rfl, h.assertRst⟩
  case requestWrite data => exact ⟨_, rfl, h.hostWrite (h.requestByte data)⟩
  case completionRead => exact ⟨_, rfl, h.hostRead h.readCompletion⟩
  case requestRead | cellRead | watchRead | noticeRead | statusRead | viewRead | controlRead =>
    exact ⟨_, rfl, h.hostRead (h.of (by simp) (by simp) (by simp))⟩
  case sequenceRestart | cellIndexWrite | arm | disarm | watchBadFirstByte =>
    exact ⟨_, rfl, h.hostWrite (h.of (by simp) (by simp) (by simp))⟩
  case start | halt | leaveCommand | cancel | mask => exact ⟨_, rfl, h.hostWrite (h.controlCommand _)⟩
  case controlBadFirstByte data => exact ⟨_, rfl, h.hostWrite (h.controlWrite data)⟩
  case partialSequenceWrite port data =>
    cases port with
    | watch => exact ⟨_, rfl, h.hostWrite (h.of_qu (by simp [partialByte]))⟩
    | control => exact ⟨_, rfl, h.hostWrite (h.controlWrite data)⟩
  case frameStart => exact ⟨_, rfl, h.onLine h.startOffered⟩
  case lostArbitration => exact ⟨_, rfl, h.onLine h.loseArbitration⟩
  case readBackFault slot inData level => exact ⟨_, rfl, h.onLine (h.readBackFault slot inData level)⟩
  case windowFault slot inData => exact ⟨_, rfl, h.onLine (h.windowFault slot inData)⟩
  case lineStuck slot inData => exact ⟨_, rfl, h.onLine (h.lineSticks slot inData)⟩
  case deferredClear => exact ⟨_, rfl, h.onLine h.deferredClear⟩
  case lineIdle | frameCheckEnd | frameLost | lineStuckEnd | probeWaitExpiry | admitWaitExpiry | stallWaitExpiry
      | anotherStationStartBit =>
    exact ⟨_, rfl, h.onLine (h.of_qu (by simp))⟩
  all_goals exact ⟨_, rfl, h.onLine (h.windowEndOf _ _)⟩

/-- Settles O52: a step is a bit time or a command, and each of them keeps the law of the queues. -/
theorem stepKeepsRequestLaw : Obligations.StepKeepsRequestLaw := by
  unfold Obligations.StepKeepsRequestLaw
  intro s t h hstep
  unfold step at hstep
  split at hstep
  · cases hstep; exact h.tick
  · rename_i c rest _
    have hrest : RequestLaw (s.setPending rest) := h
    obtain ⟨u, hexec, hu⟩ := hrest.exec c
    rw [hexec] at hstep
    cases hstep; exact hu

end Sys2Proof.Machine
end

section
/-! SUPPORT. The ports of QU (R134, R135, R141, R145): what a byte at REQUEST and a read of REQUEST and COMPLETION do, when an
entry passes each test of a submission, and what CANCEL does to the request of a tag. -/

namespace Sys2Proof.Machine

variable {s : State} {e : Entry}

/-! ## Accesses of a part that is not held -/

/-- While the part is not held, a write is its operation. -/
theorem hostWrite_free (hf : held s = false) (g : State → State) : hostWrite g s = g s := by simp [hostWrite, hf]

/-- A byte whose every bit the layout gives is driven as it is, and takes no free value. -/
theorem answer_whole (x : Byte) (s : State) : answer (whole x) s = s.setHostData x := rfl

/-! ## REQUEST -/

/-- A byte before the seventh is stored (R134). -/
theorem requestByte_stored (h : s.qu.entry.length < 6) (b : Byte) :
    requestByte b s = s.setQu { s.qu with entry := s.qu.entry ++ [b] } :=
  if_pos (by rw [List.length_append, List.length_singleton]; omega)

/-- The seventh byte submits the entry, and SU works out its offer again where it is accepted (R81, R134). -/
theorem requestByte_submits (h : s.qu.entry.length = 6) (b : Byte) :
    let u := submit (entryOf (s.qu.entry ++ [b])) s
    requestByte b s = if u.qu.result = .accepted then refresh u else u :=
  if_neg (by simp [h])

/-- Settles O7: a byte before the seventh is stored, and a read answers the result's code. -/
theorem requestPort : Obligations.RequestPort := by
  unfold Obligations.RequestPort
  intro s hf
  refine ⟨fun b hb => congrArg Host.Outcome.next ?write, congrArg Host.Outcome.next ?read⟩
  case write => exact (hostWrite_free hf _).trans (requestByte_stored hb b)
  case read =>
    rw [hostRead_free hf, readRequest, answer_whole]
    cases s.qu.result <;> rfl

/-! ## COMPLETION -/

/-- Settles O9: the byte at the position is answered, and the position leaves the 11th byte together with the record. -/
theorem completionRead : Obligations.CompletionRead := by
  unfold Obligations.CompletionRead
  intro s hf
  refine ⟨fun hc => ?empty, fun c rest hc => ?record⟩
  case empty =>
    have hread : hostRead readCompletion s = s.setHostData 0 := by
      rw [hostRead_free hf, readCompletion, hc]
      exact answer_whole 0 s
    exact congrArg Host.Outcome.next hread
  case record =>
    have hread : hostRead readCompletion s = answer (byteAt (completionBytes c) s.qu.pos.val) (s.setQu { s.qu with
        completions := if s.qu.pos = 10 then rest else c :: rest
        pos := s.qu.pos + 1 }) := by
      rw [hostRead_free hf, readCompletion, hc]
    refine ⟨_, congrArg Host.Outcome.next hread, answer_given _ _, fun hpos => ?_, fun hpos => ?_, by simp⟩
    · have hne : s.qu.pos ≠ 10 := fun h => by simp [h] at hpos
      simp [hne, ← hc]
    · have heq : s.qu.pos = 10 := Fin.ext hpos
      simp [heq]

/-! ## The tests of a submission -/

/-- The operation codes are those of the thirteen operations (R20, R170). -/
theorem opOfCode_eq_some {n : Nat} {op : CellOp} : opOfCode n = some op ↔ opCode op = n := by
  constructor
  · intro h
    unfold opOfCode at h
    split at h <;> simp at h <;> subst h <;> rfl
  · rintro rfl
    exact opOfCode_opCode op

theorem opOfCode_eq_none {n : Nat} : opOfCode n = none ↔ n = 0 ∨ 13 < n := by
  constructor
  · intro h
    by_contra hn
    have hcode : ∀ m : Fin 14, m.val ≠ 0 → opOfCode m.val ≠ none := by decide
    exact hcode ⟨n, by omega⟩ (by simp; omega) h
  · intro hn
    refine Option.eq_none_iff_forall_ne_some.mpr fun op h => ?_
    have hcode := opOfCode_eq_some.mp h
    have hrange := opCode_range op
    omega

/-- The bit operations are those of the codes 6 to 8 (R20). -/
theorem bitOperation_iff (op : CellOp) : bitOperation op = true ↔ opCode op = 6 ∨ opCode op = 7 ∨ opCode op = 8 := by
  cases op <;> decide

/-- The operand test (R135). -/
theorem entryOp_eq_none : entryOp e = none ↔
    e.opByte.toNat % 128 = 0 ∨ 13 < e.opByte.toNat % 128 ∨ 127 < e.cell.toNat ∨
      ((e.opByte.toNat % 128 = 6 ∨ e.opByte.toNat % 128 = 7 ∨ e.opByte.toNat % 128 = 8) ∧ 15 < e.a.toNat) := by
  unfold entryOp
  split
  case h_1 h =>
    rw [opOfCode_eq_none] at h
    simp only [true_iff]
    omega
  case h_2 op h =>
    rw [opOfCode_eq_some] at h
    have hrange := opCode_range op
    have hbit := bitOperation_iff op
    rw [h] at hrange hbit
    simp only [ite_eq_right_iff, reduceCtorEq, imp_false, hbit]
    omega

/-- An entry that passes names the operation of its code. -/
theorem opCode_of_entryOp {op : CellOp} (h : entryOp e = some op) : opCode op = e.opByte.toNat % 128 := by
  unfold entryOp at h
  split at h
  · cases h
  · rename_i o ho
    split at h
    · cases h; exact opOfCode_eq_some.mp ho
    · cases h

/-- The tag test (R135, R136). -/
theorem findRequest_isSome {tag : Byte} : (findRequest tag s).isSome = true ↔ ∃ q ∈ s.qu.queue ++ s.qu.park, q.tag = tag := by
  rw [findRequest, List.find?_isSome]
  simp only [beq_iff_eq]

/-! ## A submission -/

/-- A submission empties the entry buffer and sets the result (R134, R135). -/
theorem submit_result (e : Entry) (s : State) :
    (submit e s).qu.entry = [] ∧ (submit e s).qu.result = admissionResult e s := by
  unfold submit
  dsimp only
  split <;> exact ⟨rfl, rfl⟩

/-- A refused entry leaves the queue (R135). -/
theorem submit_refused (h : admissionResult e s ≠ .accepted) : (submit e s).qu.queue = s.qu.queue := by
  unfold submit
  dsimp only
  split
  · rename_i hr _; exact absurd hr h
  · rfl

/-- An accepted entry has an operation, and its request joins the queue's tail (R135). -/
theorem submit_accepted (h : admissionResult e s = .accepted) :
    ∃ op, entryOp e = some op ∧ (submit e s).qu.queue = s.qu.queue ++ [requestOf e op] := by
  have hop : entryOp e ≠ none := fun hnone => by
    unfold admissionResult at h
    split_ifs at h
  obtain ⟨op, hop⟩ := Option.ne_none_iff_exists'.mp hop
  exact ⟨op, hop, by simp [submit, h, hop]⟩

/-- Settles O8: the tests of `admissionResult` in their order, and what `submit_refused` and `submit_accepted` say of the queue. -/
theorem submissionJudged : Obligations.SubmissionJudged := by
  unfold Obligations.SubmissionJudged
  intro s b0 b1 b2 b3 b4 b5 b6 hf hentry code a bad known full
  have hrun := (hostWrite_free hf (requestByte b6)).trans (requestByte_submits (by rw [hentry]; rfl) b6)
  have hspells : entryOf (s.qu.entry ++ [b6]) = ⟨b0, b1, b2, a, b5 ++ b6⟩ := by rw [hentry]; rfl
  generalize entryOf (s.qu.entry ++ [b6]) = e at hrun hspells
  have hbad : entryOp e = none ↔ bad := by rw [hspells]; exact entryOp_eq_none
  have hknown : (findRequest e.tag s).isSome = true ↔ known := by rw [hspells]; exact findRequest_isSome
  obtain ⟨hempty, hresult⟩ := submit_result e s
  have hqu : ∀ u : State, (if u.qu.result = .accepted then refresh u else u).qu = u.qu := fun u => by split <;> simp
  refine ⟨_, congrArg Host.Outcome.next hrun, ?_⟩
  rw [hqu, hempty, hresult]
  refine ⟨rfl, fun hs => if_pos hs, fun hs hb => ?bad, fun hs hb hk => ?known, fun hs hb hk hfull => ?full,
    fun hs hb hk hfull => ?accepted, fun hr => ?refused, fun hr ha => ?settled, ?frame⟩
  case bad => rw [admissionResult, if_neg hs, if_pos (hbad.mpr hb)]
  case known => rw [admissionResult, if_neg hs, if_neg (hbad.not.mpr hb), if_pos (hknown.mpr hk)]
  case full =>
    rw [admissionResult, if_neg hs, if_neg (hbad.not.mpr hb), if_neg (hknown.not.mpr hk)]
    exact if_pos hfull
  case accepted =>
    have hr : admissionResult e s = .accepted := by
      rw [admissionResult, if_neg hs, if_neg (hbad.not.mpr hb), if_neg (hknown.not.mpr hk)]
      exact if_neg hfull
    obtain ⟨op, hop, hqueue⟩ := submit_accepted hr
    have hcode := opCode_of_entryOp hop
    subst hspells
    exact ⟨hr, op, hcode, hqueue⟩
  case refused =>
    rw [if_neg hr]
    exact ⟨submit_refused hr, by simp⟩
  case settled =>
    rw [if_pos hr]
    exact sendingSettled_heard ha (by simp)
  case frame => split <;> simp

/-! ## CANCEL -/

/-- CANCEL with no byte of CONTROL kept (R141, R165). -/
theorem exec_cancel (hf : held s = false) (hk : s.hp.controlBytes = []) (tag : Byte) :
    exec (.cancel tag) s = .next (takeCancel tag s) := by
  refine congrArg Host.Outcome.next ?_
  have hkept : keepControlBytes [] (keepControlBytes [0x04] s) = s := by
    show s.setHp { s.hp with controlBytes := [] } = s
    rw [← hk]; rfl
  have htwo : hostWrite (controlCommand (cancelBytes tag)) s = takeCancel tag (keepControlBytes [] (keepControlBytes [0x04] s)) := by
    simp [hostWrite, hf, controlCommand, bytesToWrite, hk, controlWrite, cancelBytes, controlFirst, keepControlBytes]
  rw [htwo, hkept]

/-- CANCEL of an unknown tag (R141). -/
theorem takeCancel_unknown {tag : Byte} (h : findRequest tag s = none) : takeCancel tag s = controlResult .noSuchTag s := by
  simp [takeCancel, judgeCancel, h]

/-- CANCEL of a request in attempt marks it (R141, R142). -/
theorem takeCancel_inAttempt {tag : Byte} {q : Request} (h : findRequest tag s = some q) (hs : q.state = .inAttempt) :
    takeCancel tag s = controlResult .cancelPending (updateRequest tag (fun r => { r with cancelMark := true }) s) := by
  simp [takeCancel, judgeCancel, h, hs]

/-- CANCEL of a request that waits retires it CANCELLED (R81, R141). -/
theorem takeCancel_waiting {tag : Byte} {q : Request} (h : findRequest tag s = some q) (hs : q.state ≠ .inAttempt) :
    takeCancel tag s = controlResult .cancelledNow (refresh (retire (recordUnapplied .cancelled q s) s)) := by
  simp [takeCancel, judgeCancel, h, hs]

/-- Settles O10: the request that CANCEL finds is the one of its tag, and its state says which of the three answers it is. -/
theorem cancelJudged : Obligations.CancelJudged := by
  unfold Obligations.CancelJudged
  intro s tag hf hk
  rw [exec_cancel hf hk]
  refine ⟨fun hno => ?unknown, fun q hn hq htag => ⟨_, rfl, by simp, by simp, by simp, by simp, by simp, by simp, by simp, by simp,
    fun hs => ?inAttempt, fun hs => ?waiting⟩⟩
  case unknown =>
    have hnone : findRequest tag s = none := findRequest_none.mpr fun hm => by
      obtain ⟨q, hq, htag⟩ := List.mem_map.mp hm
      exact hno q hq htag
    rw [takeCancel_unknown hnone]
    rfl
  case inAttempt =>
    subst htag
    rw [takeCancel_inAttempt (findRequest_of_mem hn hq) hs]
    exact ⟨rfl, rfl, rfl, rfl, rfl⟩
  case waiting =>
    subst htag
    rw [takeCancel_waiting (findRequest_of_mem hn hq) hs]
    have hqu : (controlResult .cancelledNow (refresh (retire (recordUnapplied .cancelled q s) s))).qu = retiredAs .cancelled q s := by
      simp only [controlResult_frame, refresh_frame, retire_unapplied_qu]
    have hsend : s.su.attempt = none → SendingSettled s (refresh (retire (recordUnapplied .cancelled q s) s)) := fun ha =>
      sendingSettled_heard ha (by simp)
    rw [hqu]
    exact ⟨rfl, fun ha => (hsend ha).controlResult _, rfl, rfl, rfl, rfl⟩

end Sys2Proof.Machine
end

section
/-! SUPPORT. A CLAIM with WAIT that met HELD (R95, R138, R140): nothing is written and nothing reported, so that the end of its
window is the settling of the request alone, which parks it, parks it again, or retires it on a full list. -/

namespace Sys2Proof.Machine

variable {s : State} {q : Request}

/-! ## The claim refused -/

/-- A CLAIM that met HELD leaves the record, and answers with its flags (R21, R22, R38). -/
theorem applyOp_claim_held {orig : Station} {a b : Half} {r : Cell} (h : (applyOp .claim orig a b r).outcome = .held) :
    applyOp .claim orig a b r = refuse .held r := by
  rcases heldCheck_cases .claim orig r.holder with ⟨-, hc⟩ | ⟨hfree, -⟩ | ⟨-, hc⟩
  · simp [applyOp, hc, comparing]
  · simp [applyOp, hfree, heldCheck, needsHolder, opPassed, opClaim, doneWith] at h
  · simp only [applyOp, hc, opPassed, opClaim] at h
    split at h <;> cases h

/-- A record put back where it stands changes nothing. -/
theorem putCell_cellAt (c : CellNo) (s : State) : putCell c (cellAt s c) s = s := by
  have hcells : s.tu.cells.set c.toNat (cellAt s c) c.isLt = s.tu.cells := Vector.set_getElem_self c.isLt
  unfold putCell
  rw [hcells]
  rfl

/-- An own CLAIM that met HELD at a LIVE station is settled, and nothing else (R11, R12, R38). -/
theorem applyCell_claim_held {c : CellNo} {a b : Half} {f : Frame} (hl : s.vu.standing = .live)
    (h : (applyOp .claim f.orig a b (cellAt s c)).outcome = .held) (item : Option Item) :
    applyCell .claim c a b f item s = settleOwn item (refuse .held (cellAt s c)) f.epoch s := by
  simp only [applyCell, hl, applyOp_claim_held h, refuse, putCell_cellAt, Bool.false_eq_true, if_false]

/-! ## The claim settled -/

/-- Entries of other tags stay when those of one tag are taken out. -/
theorem filter_other_tags {tag : Byte} {l : List Request} (h : tag ∉ l.map (·.tag)) : l.filter (fun r => r.tag ≠ tag) = l :=
  List.filter_eq_self.mpr fun r hr => decide_eq_true fun htag => h (List.mem_map.mpr ⟨r, hr, htag⟩)

/-- QU once the head is parked (R95, R138). -/
theorem parkHead_qu (q : Request) (s : State) : (parkHead q s).qu = { s.qu with
    queue := s.qu.queue.filter (fun r => r.tag ≠ q.tag)
    park := s.qu.park.filter (fun r => r.tag ≠ q.tag) ++ [{ q with state := .parked, attempts := ⟨0, []⟩ }]
    woken := s.qu.woken.filter (fun w => w ≠ q.tag) } := by
  have hne (x y : Byte) : (x != y) = decide (x ≠ y) := by by_cases h : x = y <;> simp [h]
  simp only [← hne]
  rfl

/-- How a refused CLAIM with WAIT is settled where it is not marked for cancel: a woken one is parked again at its place, and the
head is parked while the list has room and retired otherwise (R138, R140). -/
theorem settleApplied_held (hop : q.op = .claim) (hw : q.wait = true) (hm : q.cancelMark = false) (fromPark : Bool) (r : Cell)
    (epoch : Byte) (s : State) :
    settleApplied fromPark q (refuse .held r) epoch s =
      if fromPark then updateRequest q.tag (fun r => { r with state := .parked, attempts := .fresh }) s
      else if s.qu.park.length < 4 then parkHead q s else retire (recordApplied (refuse .held r) epoch q) s :=
  if_pos ⟨hop, hw, rfl, by simp [hm]⟩

/-- Settles O40: the window's end is `settleOwn` of the refused claim, and distinct tags leave the entries of the other store. -/
theorem claimParks : Obligations.ClaimParks := by
  unfold Obligations.ClaimParks
  intro slots s j i f c a b q h hc hst hl hb hheld hn hop hw hm
  have ⟨hjudging, _, _, hsent⟩ := h
  have hrun := exec_cellCommand_judging hjudging (by rw [hsent]; exact hb) slots
  have happ := disposeFrame_own h hc (by simp [inView, hst])
  generalize hu : completeItem i (endAttempt ⟨i, f⟩ (closeWindow s)) = u at happ
  have htu : u.tu = s.tu := by simp [← hu]
  have hat : cellAt u c = cellAt s c := cellAt_congr (by rw [htu]) c
  rw [happ, applyFrame, hb] at hrun
  dsimp only at hrun
  rw [applyCell_claim_held (by simp [← hu, hl]) (by rw [hat]; exact hheld), hat] at hrun
  have hover : (i = .request q.tag ∨ i = .claim q.tag) → u.qu = s.qu := by
    rintro (rfl | rfl) <;> simp [← hu, completeItem]
  have hfind (hi : i = .request q.tag ∨ i = .claim q.tag) (hq : q ∈ s.qu.queue ++ s.qu.park) : findRequest q.tag u = some q := by
    rw [findRequest, hover hi]
    exact findRequest_of_mem hn hq
  have hsettle (fromPark : Bool) := settleApplied_held hop hw hm fromPark (cellAt s c) f.epoch u
  refine ⟨_, hrun, by simp [htu], by simp [← hu], ?deferred, by simp [← hu, endAttempt], fun hi hq hroom => ?parked,
    fun hi hq hfull => ?retired, fun hi hq => ?again⟩
  case deferred => simp [← hu, endAttempt, classOne, hb]
  case parked =>
    have hqu := hover (.inl hi)
    simp only [refresh_frame, hi, settleOwn, hfind (.inl hi) (List.mem_append_left _ hq), hsettle]
    rw [hqu, if_neg Bool.false_ne_true, if_pos hroom, parkHead_qu, hqu, filter_other_tags (tag_not_parked hn hq)]
  case retired =>
    have hqu := hover (.inl hi)
    simp only [refresh_frame, hi, settleOwn, hfind (.inl hi) (List.mem_append_left _ hq), hsettle]
    rw [hqu, if_neg Bool.false_ne_true, if_neg (by omega), retire_qu, hqu]
    simp only [recordApplied, refuse, endingOf, hop, hw, hm, filter_other_tags (tag_not_parked hn hq)]
  case again =>
    simp only [refresh_frame, hi, settleOwn, hfind (.inr hi) (List.mem_append_right _ hq), hsettle, if_true, updateRequest,
      State.setQu_qu, hover (.inr hi), map_other_tags (tag_not_queued hn hq)]
    rfl

end Sys2Proof.Machine
end

section
/-! SUPPORT. The law of the event queue over every step (R152): WU is touched where TU reports a changed cell, where the station
enters or leaves MEMBER, at WATCH and NOTICE, and by a reset, and each of these changes the watches and their notices together. -/

namespace Sys2Proof.Machine

variable {s t : State}

/-- The law looks at WU alone. -/
theorem NoticeLaw.of_wu (h : NoticeLaw s) (hw : t.wu = s.wu) : NoticeLaw t := h.of (by rw [hw]) (by rw [hw])

/-! ## Releases, entries and exits -/

/-- A claim release reports the cells that it frees (R17). -/
theorem NoticeLaw.releaseClaims (h : NoticeLaw s) (gone : Mask) : NoticeLaw (releaseClaims gone s) := by
  have hfreed : NoticeLaw (freeCells (releaseFrees gone s) s) := h.of_wu (by simp)
  unfold Machine.releaseClaims
  dsimp only
  split
  · exact foldl_keeps (P := NoticeLaw) (fun _ c ht => ht.report c) _ _ hfreed
  · exact hfreed

/-- An entry into MEMBER evaluates the ARMED watches (R104). -/
theorem NoticeLaw.enterMember (h : NoticeLaw s) : NoticeLaw (enterMember s) :=
  NoticeLaw.watchesOnEntry (s := enter .member s) (h.of (by simp) (by simp))

/-- An exit from MEMBER fires the ARMED watches LOST (R104). -/
theorem NoticeLaw.leaveQueues (h : NoticeLaw s) : NoticeLaw (leaveQueues s) := by
  have hretired : NoticeLaw (retireAll s) := h.of_wu (by simp)
  unfold Machine.leaveQueues
  split
  · exact hretired.watchesOnExit
  · exact hretired

theorem NoticeLaw.withdraw (h : NoticeLaw s) : NoticeLaw (withdraw s) := by
  unfold Machine.withdraw
  split
  case h_1 | h_2 => exact h.leaveQueues.of (by simp) (by simp)
  all_goals exact h

theorem NoticeLaw.haltStation (h : NoticeLaw s) : NoticeLaw (haltStation s) := by
  unfold Machine.haltStation
  split
  · exact h
  · exact h.leaveQueues.of (by simp) (by simp)

/-- An own LEAVE releases the station's claims and leaves MEMBER (R112). -/
theorem NoticeLaw.leaveOwn (h : NoticeLaw s) : NoticeLaw (leaveOwn s) := by
  unfold Machine.leaveOwn
  exact (h.releaseClaims (only (own s))).leaveQueues.of (by simp) (by simp)

/-! ## After an attempt -/

/-- The attempt limit touches WU by the withdrawal of a DROP and the halt of a LEAVE alone (R90 to R92). -/
theorem NoticeLaw.attemptLimit (h : NoticeLaw s) (i : Item) : NoticeLaw (attemptLimit i s) := by
  unfold Machine.attemptLimit
  split
  · exact h.of_wu (by simp)
  · cases i <;> simp only
    case request | claim =>
      split
      · exact h.of_wu (by simp)
      · exact h
    case drop => exact h.withdraw
    case leave => exact h.haltStation
    all_goals exact h.of_wu (by simp)

theorem NoticeLaw.decideItem (h : NoticeLaw s) (i : Item) : NoticeLaw (decideItem i s) := by
  unfold Machine.decideItem
  split
  · exact h.withdraw
  · rename_i m _
    have howed : NoticeLaw (oweDrop i m s) := h.of_wu (by simp)
    exact howed.attemptLimit i
  · exact h.attemptLimit i

theorem NoticeLaw.weighMiss (h : NoticeLaw s) (i : Item) : NoticeLaw (weighMiss i s) := by
  unfold Machine.weighMiss
  split
  · split
    · exact h.of_wu (by simp)
    · exact h.decideItem i
  · exact h.decideItem i

theorem NoticeLaw.incompleteAttempt (h : NoticeLaw s) (i : Item) (m : Mask) : NoticeLaw (incompleteAttempt i m s) := by
  have hrecorded : NoticeLaw (setRecord i (recordMiss m (recordOf i s)) s) := h.of_wu (by simp)
  unfold Machine.incompleteAttempt
  split
  case h_1 | h_2 => exact h.of_wu (by simp)
  all_goals exact hrecorded.weighMiss _

theorem NoticeLaw.endAttempt (h : NoticeLaw s) (a : Attempt) : NoticeLaw (endAttempt a s) := h.of_wu (by simp)

theorem NoticeLaw.refresh (h : NoticeLaw s) : NoticeLaw (refresh s) := h.of_wu (by simp)

theorem NoticeLaw.selfFault (h : NoticeLaw s) : NoticeLaw (selfFault s) := by
  unfold Machine.selfFault
  split
  · exact h
  · exact (h.endAttempt _).incompleteAttempt _ _

/-! ## A complete frame -/

/-- An application at a LIVE copy reports a cell that it changes (R12). -/
theorem NoticeLaw.applyCell (h : NoticeLaw s) (op : CellOp) (c : CellNo) (a b : Half) (f : Frame) (item : Option Item) :
    NoticeLaw (applyCell op c a b f item s) := by
  unfold Machine.applyCell
  dsimp only
  split
  · generalize hu : settleOwn item _ f.epoch _ = u
    have hsettled : NoticeLaw u := h.of_wu (by simp [← hu])
    split
    · exact hsettled.report c
    · exact hsettled
  · split
    · exact h.of_wu (by simp)
    · exact h
  all_goals exact h

/-- A TRANSFER touches WU where it promotes this station, or withdraws it (R125). -/
theorem NoticeLaw.moveRound (h : NoticeLaw s) (k : BitVec 4) (images : Vector Cell 8) : NoticeLaw (moveRound k images s) := by
  unfold Machine.moveRound
  split
  · dsimp only
    split
    · unfold promoteJoining
      split
      · unfold promoteStation
        exact NoticeLaw.enterMember (h.of_wu (by simp))
      · exact h.withdraw
    · exact h.of_wu (by simp)
  · split <;> exact h.of_wu (by simp)
  all_goals exact h

theorem NoticeLaw.setView (h : NoticeLaw s) (v : View) : NoticeLaw (setView v s) := h.of_wu rfl

theorem NoticeLaw.applyJoin (h : NoticeLaw s) (n : Station) : NoticeLaw (applyJoin n s) := by
  unfold Machine.applyJoin
  split
  · exact h.withdraw
  · dsimp only
    split
    · exact (h.setView _).releaseClaims _
    all_goals exact h.setView _

theorem NoticeLaw.applyDrop (h : NoticeLaw s) (m : Mask) : NoticeLaw (applyDrop m s) := by
  unfold Machine.applyDrop
  split
  · exact h.withdraw
  · have hremoved := (h.setView (removeFromView m s.vu.view)).releaseClaims (m &&& everyone s.vu.view)
    exact hremoved.of_wu (by simp)

theorem NoticeLaw.applyLeaveOther (h : NoticeLaw s) (n : Station) : NoticeLaw (applyLeaveOther n s) := by
  unfold Machine.applyLeaveOther
  split
  · exact h.withdraw
  · exact (h.setView _).releaseClaims _

/-- A complete frame keeps the law, whatever its kind (R74). -/
theorem NoticeLaw.applyFrame (h : NoticeLaw s) (f : Frame) (item : Option Item) : NoticeLaw (applyFrame f item s) := by
  unfold Machine.applyFrame
  cases f.body with
  | cell op c a b => exact h.applyCell op c a b f item
  | transfer k images => exact NoticeLaw.moveRound (h.of_wu (by simp)) k images
  | roster => exact h.of_wu (by simp)
  | join => exact h.applyJoin f.orig
  | drop m => exact h.applyDrop m
  | leave =>
    dsimp only
    split
    · exact h.leaveOwn
    · exact h.applyLeaveOther f.orig
  | found => exact h

/-! ## The window's end -/

/-- A founding enters MEMBER (R107). -/
theorem NoticeLaw.foundView (h : NoticeLaw s) (f : Frame) : NoticeLaw (foundView f s) := by
  unfold Machine.foundView
  dsimp only
  refine NoticeLaw.enterMember (h.of_wu ?_)
  split <;> simp

theorem NoticeLaw.endOwnListening (h : NoticeLaw s) (a : Attempt) (slots : Mask) : NoticeLaw (endOwnListening a slots s) := by
  have hended : NoticeLaw (Machine.endAttempt a s) := h.endAttempt a
  unfold Machine.endOwnListening
  dsimp only
  split
  · split
    · exact NoticeLaw.foundView (hended.of_wu (by simp)) a.frame
    · split <;> exact hended.of (by simp) (by simp)
    all_goals exact hended
  · exact hended.incompleteAttempt _ _

theorem NoticeLaw.endOwnWindow (h : NoticeLaw s) (j : Judged) (a : Attempt) (slots : Mask) :
    NoticeLaw (endOwnWindow j a slots s) := by
  unfold Machine.endOwnWindow
  dsimp only
  split
  · exact NoticeLaw.applyFrame (h.of_wu (by simp)) _ _
  · exact (h.endAttempt a).incompleteAttempt _ _

theorem NoticeLaw.endOtherWindow (h : NoticeLaw s) (j : Judged) (slots : Mask) : NoticeLaw (endOtherWindow j slots s) := by
  unfold Machine.endOtherWindow
  split
  · exact h.applyFrame _ _
  · split
    · exact h.withdraw
    · exact h

theorem NoticeLaw.disposeFrame (h : NoticeLaw s) (j : Judged) (slots : Mask) : NoticeLaw (disposeFrame j slots s) := by
  unfold Machine.disposeFrame
  split
  case h_1 | h_3 => exact h
  case h_2 => exact h.endOwnListening _ _
  case h_4 => exact h.of (by simp) (by simp)
  case h_5 | h_6 => exact h.endOwnWindow _ _ _
  case h_7 | h_8 => exact h.endOtherWindow _ _

theorem NoticeLaw.windowEnd (h : NoticeLaw s) (slots : Mask) : NoticeLaw (windowEnd slots s) := by
  have hclosed : NoticeLaw (closeWindow s) := h.of_wu (by simp)
  unfold Machine.windowEnd
  split
  · exact (hclosed.disposeFrame _ _).refresh
  · exact hclosed.refresh
  · exact hclosed.refresh
  · exact h

theorem NoticeLaw.windowEndOf (h : NoticeLaw s) (kind : Judged → Bool) (slots : Mask) :
    NoticeLaw (windowEndOf kind slots s) := by
  unfold Machine.windowEndOf
  split
  · split
    · exact h.windowEnd slots
    · exact h
  · exact h.windowEnd slots

/-! ## Faults and a line that sticks -/

/-- A window fault touches WU where it withdraws or halts the station (R75, R76). -/
theorem NoticeLaw.disposeFault (h : NoticeLaw s) (j : Judged) (asserted : Bool) : NoticeLaw (disposeFault j asserted s) := by
  unfold Machine.disposeFault faultOwn faultOther
  split
  · split
    · exact h
    · split
      · exact (h.endAttempt _).withdraw
      · exact (h.endAttempt _).incompleteAttempt _ _
  · split
    · exact h
    · exact h
    · split <;> exact h.of (by simp) (by simp)
    all_goals
      split
      · exact h.withdraw
      · exact h

theorem NoticeLaw.windowFault (h : NoticeLaw s) (slot : Station) (inData : Bool) : NoticeLaw (windowFault slot inData s) := by
  have hlost : NoticeLaw (windowLost s) := h.of_wu rfl
  unfold Machine.windowFault
  dsimp only
  split
  · exact (hlost.disposeFault _ _).refresh
  · exact hlost.refresh
  · exact hlost.refresh
  · exact h

theorem NoticeLaw.readBackFault (h : NoticeLaw s) (slot : Station) (inData : Bool) (level : LineLevel) :
    NoticeLaw (readBackFault slot inData level s) := by
  have hgiven : NoticeLaw (s.setLu (giveUpLine (runAfter level s.lu) s.lu)) := h.of_wu rfl
  unfold Machine.readBackFault
  split
  · exact hgiven.selfFault.refresh
  · exact h.windowFault slot inData
  all_goals exact h

/-- A line that sticks is a fault in the frame in progress (R58). -/
theorem NoticeLaw.lineSticks (h : NoticeLaw s) (slot : Station) (inData : Bool) : NoticeLaw (lineSticks slot inData s) := by
  have habandon : NoticeLaw (abandonFrame slot inData s) := by
    unfold abandonFrame
    split
    · exact h.readBackFault slot inData _
    · exact h.windowFault slot inData
    all_goals exact h.of_wu (by simp)
  unfold Machine.lineSticks
  split
  · exact h
  · exact habandon.of (by simp) (by simp)

/-! ## A bit time -/

theorem NoticeLaw.assertedTick (h : NoticeLaw s) (slot : Station) (inData : Bool) : NoticeLaw (assertedTick slot inData s) := by
  unfold Machine.assertedTick
  split
  · exact h.of_wu rfl
  · exact h.lineSticks slot inData

theorem NoticeLaw.busyTick (h : NoticeLaw s) : NoticeLaw (busyTick s) := by
  have hcounted : NoticeLaw (s.setFreeCount (s.freeCount + 1)) := h.of_wu rfl
  unfold Machine.busyTick
  dsimp only
  split
  · exact h.of_wu (by simp)
  · exact h.of_wu rfl
  · exact hcounted.assertedTick _ _

theorem NoticeLaw.frameTick (h : NoticeLaw s) : NoticeLaw (frameTick s) := by
  have hpassed : NoticeLaw (passBit s) := h.of_wu rfl
  unfold Machine.frameTick
  split
  · exact h.of_wu rfl
  · exact h.of_wu rfl
  · exact hpassed.assertedTick _ _

theorem NoticeLaw.lineTick (h : NoticeLaw s) : NoticeLaw (lineTick s) := by
  unfold Machine.lineTick
  split
  case h_1 | h_2 =>
    split
    · exact h
    · split
      · exact h.busyTick
      · exact h.of_wu (by simp)
  all_goals exact h.frameTick

/-- A bit time keeps the law: the timers' part of it leaves the watches and the event queue as they were. -/
theorem NoticeLaw.tick (h : NoticeLaw s) : NoticeLaw (tick s) := by
  unfold Machine.tick
  split
  · exact h
  · exact h.lineTick.of (by simp) (by simp)

/-! ## The host port -/

/-- A read of NOTICE removes at most the head notice, together with its watch (R154). -/
theorem NoticeLaw.readNotice (h : NoticeLaw s) : NoticeLaw (readNotice s) := by
  unfold Machine.readNotice
  split
  · exact h.of_wu (by simp)
  · rename_i n rest he
    dsimp only
    split
    · exact (h.takeNotice he).of (by simp) (by simp)
    · exact h.of (by simp) (by simp)

/-- A byte at WATCH: the last of an ARM or a DISARM is judged (R149, R155, R161). -/
theorem NoticeLaw.watchByte (h : NoticeLaw s) (b : Byte) : NoticeLaw (watchByte b s) := by
  have hkept (bytes : List Byte) : NoticeLaw (keepWatchBytes bytes s) := h.of_wu (by simp)
  unfold Machine.watchByte
  dsimp only
  split
  · split
    · exact hkept _
    · exact (hkept []).of (by simp) (by simp)
  · split_ifs
    · exact (hkept []).judgeDisarm b
    · exact hkept _
    · exact (hkept []).judgeArm _ _ _ _ b

theorem NoticeLaw.watchCommand (h : NoticeLaw s) (command : List Byte) : NoticeLaw (watchCommand command s) :=
  foldl_keeps (P := NoticeLaw) (fun _ b ht => ht.watchByte b) _ s h

/-- A byte at CONTROL touches the watches by a halt alone (R165). -/
theorem NoticeLaw.controlWrite (h : NoticeLaw s) (b : Byte) : NoticeLaw (controlWrite b s) := by
  unfold Machine.controlWrite
  split
  · unfold controlFirst
    split_ifs
    · exact h.of (by simp) (by simp)
    · exact h.haltStation.of_wu (by simp [takeHalt])
    all_goals exact h.of_wu (by simp)
  · split_ifs <;> exact h.of (by simp) (by simp)

theorem NoticeLaw.controlCommand (h : NoticeLaw s) (command : List Byte) : NoticeLaw (controlCommand command s) :=
  foldl_keeps (P := NoticeLaw) (fun _ b ht => ht.controlWrite b) _ s h

/-! ## Every command -/

/-- An event of the line or of a timer keeps the law when its operation does. -/
theorem NoticeLaw.onLine (h : NoticeLaw s) {f : State → State} (hf : NoticeLaw (f s)) : NoticeLaw (onLine f s) := by
  unfold Machine.onLine
  split <;> assumption

/-- A host write keeps the law when its operation does. -/
theorem NoticeLaw.hostWrite (h : NoticeLaw s) {f : State → State} (hf : NoticeLaw (f s)) : NoticeLaw (hostWrite f s) := by
  unfold Machine.hostWrite
  split <;> assumption

/-- A host read keeps the law when its operation does. -/
theorem NoticeLaw.hostRead (h : NoticeLaw s) {f : State → State} (hf : NoticeLaw (f s)) : NoticeLaw (hostRead f s) := by
  have hanswered (x : PortByte) : NoticeLaw (answer x s) := h.of_wu (by simp)
  unfold Machine.hostRead
  split_ifs
  · exact hanswered _
  · exact hanswered _
  · exact hf

/-- RST empties WU, or changes the pin alone (R158, R167). -/
theorem NoticeLaw.assertRst (h : NoticeLaw s) : NoticeLaw (assertRst s) := by
  unfold Machine.assertRst
  split
  · exact h.of_wu rfl
  · exact noticeLaw_of_reset rfl

/-- Every command completes and keeps the law. -/
theorem NoticeLaw.exec (h : NoticeLaw s) (c : Instr) : ∃ t, exec c s = .next t ∧ NoticeLaw t := by
  cases c
  case powerOn | powerLoss => exact ⟨_, rfl, noticeLaw_of_reset rfl⟩
  case powerOnHoldEnd | rstRelease => exact ⟨_, rfl, h.of_wu (by simp)⟩
  case rstAssert => exact ⟨_, rfl, h.assertRst⟩
  case arm | disarm => exact ⟨_, rfl, h.hostWrite (h.watchCommand _)⟩
  case watchBadFirstByte data => exact ⟨_, rfl, h.hostWrite (h.watchByte data)⟩
  case noticeRead => exact ⟨_, rfl, h.hostRead h.readNotice⟩
  case requestWrite | sequenceRestart | cellIndexWrite => exact ⟨_, rfl, h.hostWrite (h.of (by simp) (by simp))⟩
  case requestRead | completionRead | cellRead | watchRead | statusRead | viewRead | controlRead =>
    exact ⟨_, rfl, h.hostRead (h.of (by simp) (by simp))⟩
  case start | halt | leaveCommand | cancel | mask => exact ⟨_, rfl, h.hostWrite (h.controlCommand _)⟩
  case controlBadFirstByte data => exact ⟨_, rfl, h.hostWrite (h.controlWrite data)⟩
  case partialSequenceWrite port data =>
    cases port with
    | watch => exact ⟨_, rfl, h.hostWrite (h.watchByte data)⟩
    | control => exact ⟨_, rfl, h.hostWrite (h.controlWrite data)⟩
  case readBackFault slot inData level => exact ⟨_, rfl, h.onLine (h.readBackFault slot inData level)⟩
  case windowFault slot inData => exact ⟨_, rfl, h.onLine (h.windowFault slot inData)⟩
  case lineStuck slot inData => exact ⟨_, rfl, h.onLine (h.lineSticks slot inData)⟩
  case lineIdle | frameStart | lostArbitration | frameCheckEnd | frameLost | lineStuckEnd | deferredClear | probeWaitExpiry
      | admitWaitExpiry | stallWaitExpiry | anotherStationStartBit =>
    exact ⟨_, rfl, h.onLine (h.of (by simp) (by simp))⟩
  all_goals exact ⟨_, rfl, h.onLine (h.windowEndOf _ _)⟩

/-- Settles O53: a step is a bit time or a command, and each of them keeps the law of the event queue. -/
theorem stepKeepsNoticeLaw : Obligations.StepKeepsNoticeLaw := by
  unfold Obligations.StepKeepsNoticeLaw
  intro s t h hstep
  unfold step at hstep
  split at hstep
  · cases hstep; exact h.tick
  · rename_i c rest _
    have hrest : NoticeLaw (s.setPending rest) := h
    obtain ⟨u, hexec, hu⟩ := hrest.exec c
    rw [hexec] at hstep
    cases hstep; exact hu

end Sys2Proof.Machine
end

section
/-! SUPPORT. The ports of WU (R149, R150, R154, R155): what each test says of the record, when ARM names a watch and a test, what
ARM and DISARM do to the watch that they name, and what a read of NOTICE answers. -/

namespace Sys2Proof.Machine

variable {s : State} {i : Fin 16} {watch cell test tag : Byte} {operand : Half}

/-! ## The tests -/

/-- A bit of a half is the binary digit of its number. -/
theorem getLsbD_eq_digit (x : Half) (n : Nat) : x.getLsbD n = decide (x.toNat / 2 ^ n % 2 = 1) :=
  Nat.testBit_eq_decide_div_mod_eq

/-- Settles O20: signed comparisons are those of the signed numbers, and a bit is a binary digit. -/
theorem watchTests : Obligations.WatchTests := by
  unfold Obligations.WatchTests
  intro me operand ref r
  refine ⟨?eq, ?ne, ?lt, ?ge, ?le, ?gt, ?ult, ?uge, ?ule, ?ugt, fun _ => ?bitOne, fun _ => ?bitZero, ?free, ?held, ?mine,
    ?changed, Iff.rfl, Iff.rfl⟩
  case eq | ne => simp [testHolds, BitVec.toNat_inj]
  case lt | ge | le | gt =>
    simp only [testHolds, toInt_eq_signedNat, decide_eq_true_eq]
    exact Iff.rfl
  case ult | uge | ule | ugt => exact decide_eq_true_iff
  case bitOne => simp only [testHolds, getLsbD_eq_digit, decide_eq_true_eq]
  case bitZero => simp [testHolds, getLsbD_eq_digit]
  case free | held | mine | changed => simp [testHolds]

/-! ## The codes of the tests -/

/-- The code of a test (R170). -/
def testCode : WatchTest → Nat
  | .eq => 1 | .ne => 2 | .lt => 3 | .ge => 4 | .le => 5 | .gt => 6 | .ult => 7 | .uge => 8 | .ule => 9 | .ugt => 10
  | .bitOne => 11 | .bitZero => 12 | .free => 13 | .held => 14 | .mine => 15 | .changed => 16 | .carry => 17 | .overflow => 18

theorem testOfCode_eq_some {n : Nat} {t : WatchTest} : testOfCode n = some t ↔ testCode t = n := by
  constructor
  · intro h
    unfold testOfCode at h
    split at h <;> cases h <;> rfl
  · rintro rfl
    cases t <;> rfl

theorem testCode_range (t : WatchTest) : 1 ≤ testCode t ∧ testCode t ≤ 18 := by cases t <;> decide

theorem testOfCode_eq_none {n : Nat} : testOfCode n = none ↔ n = 0 ∨ 18 < n := by
  constructor
  · intro h
    by_contra hn
    have hcode : ∀ m : Fin 19, m.val ≠ 0 → testOfCode m.val ≠ none := by decide
    exact hcode ⟨n, by omega⟩ (by simp; omega) h
  · intro hn
    refine Option.eq_none_iff_forall_ne_some.mpr fun t h => ?_
    have hcode := testOfCode_eq_some.mp h
    have hrange := testCode_range t
    omega

/-- The tests that read their operand as a bit number are those of the codes 11 and 12 (R150). -/
theorem bitTest_iff (t : WatchTest) : bitTest t = true ↔ testCode t = 11 ∨ testCode t = 12 := by
  cases t <;> decide

/-! ## ARM -/

/-- The operand test of ARM (R149). -/
theorem armNames_eq_none : armNames watch cell test operand = none ↔
    15 < watch.toNat ∨ 127 < cell.toNat ∨ test.toNat = 0 ∨ 18 < test.toNat ∨
      ((test.toNat = 11 ∨ test.toNat = 12) ∧ 15 < operand.toNat) := by
  unfold armNames
  split
  case h_1 h =>
    rw [testOfCode_eq_none] at h
    simp only [true_iff]
    omega
  case h_2 t h =>
    rw [testOfCode_eq_some] at h
    have hrange := testCode_range t
    have hbit := bitTest_iff t
    rw [h] at hrange hbit
    split_ifs with hwatch hfits
    · rw [hbit] at hfits
      simp only [false_iff]
      omega
    · rw [hbit] at hfits
      simp only [true_iff]
      omega
    · simp only [true_iff]
      omega

/-- Operands that pass name the watch of their number and the test of their code (R149, R170). -/
theorem armNames_eq_some {t : WatchTest} (h : armNames watch cell test operand = some (i, t)) :
    i.val = watch.toNat ∧ testCode t = test.toNat := by
  unfold armNames at h
  split at h
  · cases h
  · rename_i ht
    split_ifs at h
    cases h
    exact ⟨rfl, testOfCode_eq_some.mp ht⟩

/-- ARM refused by its operand test (R149). -/
theorem judgeArm_bad (h : armNames watch cell test operand = none) :
    judgeArm watch cell test operand tag s = watchResult .badWatch s := by
  simp only [judgeArm, h]

/-- ARM of a watch that is not FREE (R149). -/
theorem judgeArm_busy {t : WatchTest} (h : armNames watch cell test operand = some (i, t)) (hs : (watchAt s i).state ≠ .free) :
    judgeArm watch cell test operand tag s = watchResult .busyWatch s := by
  simp only [judgeArm, h, if_neg hs]

/-- The state once WU has taken watch `i` as `w`, before any evaluation (R149). -/
def watchTaken (i : Fin 16) (w : Watch) (s : State) : State := putWatch i w (watchResult .taken s)

/-- ARM of a FREE watch: outside MEMBER it waits, and in MEMBER it is evaluated once (R149, R151). -/
theorem judgeArm_taken {t : WatchTest} (h : armNames watch cell test operand = some (i, t)) (hs : (watchAt s i).state = .free) :
    judgeArm watch cell test operand tag s =
      let u := watchTaken i (armedWatch s cell t operand tag) s
      if s.vu.station = .member then evaluate i u else u := by
  simp only [judgeArm, h, if_pos hs, watchTaken]

/-- The evaluation of a watch just taken as ARMED: where its test holds it is FIRED, with its notice (R151, R152). -/
theorem evaluate_watchTaken {w : Watch} (hw : w.state = .armed) :
    let r := cellAt s w.cell
    (testHolds (own s) w.test w.operand w.reference r ≠ true → evaluate i (watchTaken i w s) = watchTaken i w s) ∧
    (testHolds (own s) w.test w.operand w.reference r = true → evaluate i (watchTaken i w s) = s.setWu { s.wu with
      result := .taken
      watches := s.wu.watches.set i { w with state := .fired }
      events := s.wu.events ++ [⟨i, w.tag, .met, r.value, r.holder, r.version⟩] }) := by
  have hat : watchAt (watchTaken i w s) i = w := (watchAt_set _ _ _ _ _ rfl).trans (if_pos rfl)
  have hcell (c : CellNo) : cellAt (watchTaken i w s) c = cellAt s c := rfl
  have hown : own (watchTaken i w s) = own s := rfl
  simp only [evaluate, hat, hw, hcell, hown, true_and]
  refine ⟨fun hno => if_neg hno, fun hyes => (if_pos hyes).trans ?_⟩
  simp only [fire, hat]
  simp only [watchTaken, putWatch, watchResult, State.setWu_wu, Vector.set_set]
  rfl

/-- A byte of a sequence other than DISARM's, before the seventh, is kept (R161). -/
theorem watchByte_kept {x : Byte} {rest : List Byte} (hx : x ≠ 0x02) (h : rest.length < 5) (b : Byte) :
    watchByte b (keepWatchBytes (x :: rest) s) = keepWatchBytes (x :: rest ++ [b]) s := by
  have hshort : (x :: rest ++ [b]).length < 7 := by simp; omega
  have hsecond : (x :: rest ++ [b]).length ≠ 1 := by simp
  exact (if_neg hsecond).trans ((if_neg hx).trans (if_pos hshort))

/-- Bytes kept at WATCH and discarded again leave a state that kept none. -/
theorem keepWatchBytes_discarded (hk : s.hp.watchBytes = []) (bytes : List Byte) :
    keepWatchBytes [] (keepWatchBytes bytes s) = s := by
  show s.setHp { s.hp with watchBytes := [] } = s
  rw [← hk]; rfl

/-- A command at WATCH with no byte kept is all its bytes written, in order. -/
theorem watchCommand_whole (hk : s.hp.watchBytes = []) (command : List Byte) :
    watchCommand command s = command.foldl (fun t b => watchByte b t) s := by
  rw [watchCommand, hk]
  rfl

/-- ARM with no byte of WATCH kept (R149, R161). -/
theorem exec_arm (hf : held s = false) (hk : s.hp.watchBytes = []) (watch cell test : Byte) (operand : Half) (tag : Byte) :
    exec (.arm watch cell test operand tag) s = .next (judgeArm watch cell test operand tag s) := by
  refine congrArg Host.Outcome.next ((hostWrite_free hf _).trans ?_)
  have hfirst : watchByte 0x01 s = keepWatchBytes [0x01] s := by simp [watchByte, hk]
  have hrun : watchCommand (armBytes watch cell test operand tag) s
      = watchByte tag (keepWatchBytes [0x01, watch, cell, test, highByte operand, lowByte operand] s) := by
    rw [watchCommand_whole hk, armBytes, List.foldl_cons, hfirst]
    simp [watchByte_kept]
  have hlast : watchByte tag (keepWatchBytes [0x01, watch, cell, test, highByte operand, lowByte operand] s)
      = judgeArm watch cell test (highByte operand ++ lowByte operand) tag
          (keepWatchBytes [] (keepWatchBytes [0x01, watch, cell, test, highByte operand, lowByte operand] s)) := rfl
  rw [hrun, hlast, highByte_append_lowByte, keepWatchBytes_discarded hk]

/-- Settles O18: the operands name no watch, one that is not FREE, or one that `judgeArm_taken` arms and `evaluate_watchTaken`
evaluates. -/
theorem armJudged : Obligations.ArmJudged := by
  unfold Obligations.ArmJudged
  intro s watch cell test operand tag hf hk bad
  rw [exec_arm hf hk]
  refine ⟨fun hbad => ?refused, fun i hgood hi => ?_⟩
  case refused => rw [judgeArm_bad (armNames_eq_none.mpr hbad)]; rfl
  obtain ⟨⟨k, t⟩, hnames⟩ := Option.ne_none_iff_exists'.mp (armNames_eq_none.not.mpr hgood)
  obtain ⟨hwatch, hcode⟩ := armNames_eq_some hnames
  obtain rfl : i = k := Fin.ext (hi.trans hwatch.symm)
  have hcell : (cell.truncate 7).toNat = cell.toNat := by
    simp only [bad] at hgood
    rw [BitVec.truncate_eq_setWidth, BitVec.toNat_setWidth]
    omega
  refine ⟨fun hs => ?busy, fun hs => ⟨armedWatch s cell t operand tag, cell.truncate 7, ?code, rfl, rfl, hcell, rfl, rfl, rfl,
    fun hno => ?waits, fun hyes => ?fires⟩⟩
  case busy => rw [judgeArm_busy hnames hs]; rfl
  case code => rw [← hcode]; cases t <;> rfl
  case waits =>
    obtain ⟨hwaits, -⟩ := evaluate_watchTaken (s := s) (i := i) (w := armedWatch s cell t operand tag) rfl
    rw [judgeArm_taken hnames hs]
    refine congrArg Host.Outcome.next ?_
    dsimp only
    split
    · rename_i hm
      exact hwaits fun htest => hno ⟨hm, htest⟩
    · rfl
  case fires =>
    obtain ⟨-, hfires⟩ := evaluate_watchTaken (s := s) (i := i) (w := armedWatch s cell t operand tag) rfl
    obtain ⟨hm, htest⟩ := hyes
    rw [judgeArm_taken hnames hs]
    exact congrArg Host.Outcome.next ((if_pos hm).trans (hfires htest))

/-! ## DISARM -/

/-- DISARM with no byte of WATCH kept (R155, R161). -/
theorem exec_disarm (hf : held s = false) (hk : s.hp.watchBytes = []) (watch : Byte) :
    exec (.disarm watch) s = .next (judgeDisarm watch s) := by
  refine congrArg Host.Outcome.next ((hostWrite_free hf _).trans ?_)
  have hfirst : watchByte 0x02 s = keepWatchBytes [0x02] s := by simp [watchByte, hk]
  have hlast : watchByte watch (keepWatchBytes [0x02] s) = judgeDisarm watch (keepWatchBytes [] (keepWatchBytes [0x02] s)) := rfl
  have hrun : watchCommand (disarmBytes watch) s = watchByte watch (keepWatchBytes [0x02] s) := by
    rw [watchCommand_whole hk, disarmBytes, List.foldl_cons, hfirst, List.foldl_cons, List.foldl_nil]
  rw [hrun, hlast, keepWatchBytes_discarded hk]

/-- DISARM of a number that no watch has (R155). -/
theorem judgeDisarm_bad (h : 15 < watch.toNat) : judgeDisarm watch s = watchResult .badWatch s := dif_neg (by omega)

/-- DISARM of a watch, by the state of the watch (R155). -/
theorem judgeDisarm_watch (h : i.val = watch.toNat) :
    ((watchAt s i).state = .free → judgeDisarm watch s = watchResult .notInUse s) ∧
    ((watchAt s i).state = .armed → judgeDisarm watch s = watchResult .freed (freeWatch i s)) ∧
    ((watchAt s i).state = .fired → judgeDisarm watch s = watchResult .noticeRemoved (freeWatch i (removeNotice i s))) := by
  have hlt : watch.toNat < 16 := h ▸ i.isLt
  obtain rfl : i = ⟨watch.toNat, hlt⟩ := Fin.ext h
  refine ⟨fun hs => ?_, fun hs => ?_, fun hs => ?_⟩ <;> simp only [judgeDisarm, dif_pos hlt, hs]

/-- Settles O19: the state of the named watch says which of the results it is. -/
theorem disarmJudged : Obligations.DisarmJudged := by
  unfold Obligations.DisarmJudged
  intro s watch hf hk
  rw [exec_disarm hf hk]
  refine ⟨fun hbad => ?_, fun i hi => ?_⟩
  · rw [judgeDisarm_bad hbad]; rfl
  · obtain ⟨hfree, harmed, hfired⟩ := judgeDisarm_watch (s := s) hi
    exact ⟨fun hs => congrArg Host.Outcome.next (hfree hs), fun hs => congrArg Host.Outcome.next (harmed hs),
      fun hs => congrArg Host.Outcome.next (hfired hs)⟩

/-! ## NOTICE -/

/-- The number that byte `k` of a notice is read as (R171). -/
def noticeNumber (n : Notice) (k : Nat) : Nat :=
  match k with
  | 0 => (match n.reason with | .met => 1 | .lost => 2)
  | 1 => n.watch.val
  | 2 => n.tag.toNat
  | 3 => n.value.toNat / 256
  | 4 => n.value.toNat % 256
  | 5 => (match n.holder with | some h => h.toNat | none => 63)
  | _ => n.version.toNat

theorem highByte_toNat (x : Half) : (highByte x).toNat = x.toNat / 256 := by
  have := x.isLt
  simp only [highByte, BitVec.extractLsb'_toNat, Nat.shiftRight_eq_div_pow]
  omega

theorem lowByte_toNat (x : Half) : (lowByte x).toNat = x.toNat % 256 := by
  simp [lowByte, BitVec.extractLsb'_toNat]

/-- A byte is the numeral of its number. -/
theorem eq_ofNat_of_toNat {x : Byte} {n : Nat} (h : x.toNat = n) : x = BitVec.ofNat 8 n := by
  rw [← h, BitVec.ofNat_toNat, BitVec.setWidth_eq]

/-- The seven bytes of a notice, each with every bit given (R171). -/
theorem byteAt_noticeBytes (n : Notice) (k : Fin 7) :
    byteAt (noticeBytes n) k.val = whole (BitVec.ofNat 8 (noticeNumber n k.val)) := by
  have hreason : (reasonCode n.reason).toNat = noticeNumber n 0 := by
    simp only [noticeNumber]
    cases n.reason <;> rfl
  match k with
  | 0 => exact congrArg whole (eq_ofNat_of_toNat hreason)
  | 1 => rfl
  | 2 => exact congrArg whole (eq_ofNat_of_toNat rfl)
  | 3 => exact congrArg whole (eq_ofNat_of_toNat (highByte_toNat n.value))
  | 4 => exact congrArg whole (eq_ofNat_of_toNat (lowByte_toNat n.value))
  | 5 => exact congrArg whole (eq_ofNat_of_toNat (holderByte_toNat n.holder))
  | 6 => exact congrArg whole (eq_ofNat_of_toNat rfl)

/-- A read of NOTICE answers the byte at the position, and the read of the last byte takes the notice (R154). -/
theorem readNotice_cons {n : Notice} {rest : List Notice} (h : s.wu.events = n :: rest) :
    readNotice s =
      let u := if s.wu.pos = 6 then takeNotice n rest s else s
      (u.setWu { u.wu with pos := s.wu.pos + 1 }).setHostData (BitVec.ofNat 8 (noticeNumber n s.wu.pos.val)) := by
  simp only [readNotice, h, byteAt_noticeBytes, answer_whole]

/-- Settles O21: the position is before the seventh byte, or at it. -/
theorem noticeRead : Obligations.NoticeRead := by
  unfold Obligations.NoticeRead
  intro s hf
  refine ⟨fun he => ?empty, fun n rest he => ?_⟩
  case empty =>
    have hread : hostRead readNotice s = s.setHostData 0 := by
      rw [hostRead_free hf, readNotice, he]
      exact answer_whole 0 s
    exact congrArg Host.Outcome.next hread
  have hread := (hostRead_free hf readNotice).trans (readNotice_cons he)
  by_cases hpos : s.wu.pos.val < 6
  · have hne : s.wu.pos ≠ 6 := fun h => by simp [h] at hpos
    rw [if_neg hne] at hread
    rw [if_pos hpos]
    exact congrArg Host.Outcome.next hread
  · have hlast : s.wu.pos = 6 := Fin.ext (by have := s.wu.pos.isLt; simp; omega)
    rw [if_pos hlast, hlast] at hread
    rw [if_neg hpos, hlast]
    exact congrArg Host.Outcome.next hread

end Sys2Proof.Machine
end

section
/-! SUPPORT. What every command has in common (section 0.3, R159, R167): the reads of the host, the reset commands, and all others,
which the part takes only while it is not held. -/

namespace Sys2Proof.Machine

variable {c : Instr} {s : State}

/-! ## Three forms of a command -/

/-- Two states alike in the queue of commands, the supply, the RST pin and the straps. -/
def SamePins (s t : State) : Prop :=
  t.pending = s.pending ∧ t.power = s.power ∧ t.rst = s.rst ∧ t.hp.straps = s.hp.straps

theorem SamePins.refl (s : State) : SamePins s s := ⟨rfl, rfl, rfl, rfl⟩

/-- Two states alike in the byte on the host data pins and in the count of free values. -/
def SameData (s t : State) : Prop := t.hostData = s.hostData ∧ t.freeCount = s.freeCount

theorem SameData.refl (s : State) : SameData s s := ⟨rfl, rfl⟩

/-- A command that is a read is a read's operation behind the test whether the part is held (R159, R170). -/
theorem exec_of_hostRead (h : c ∈ hostReads) :
    ∃ f, (∀ s, exec c s = .next (hostRead f s)) ∧ ∀ s, SamePins s (f s) := by
  simp only [hostReads, List.mem_cons, List.not_mem_nil, or_false] at h
  rcases h with rfl | rfl | rfl | rfl | rfl | rfl | rfl | rfl <;>
    exact ⟨_, fun _ => rfl, fun s => by simp [SamePins]⟩

/-- A reset command leaves the queue of commands and the data pins (R61, R167, R168). -/
theorem exec_of_reset (h : resetCommand c = true) :
    ∃ f : State → State, (∀ s, exec c s = .next (f s)) ∧ ∀ s, (f s).pending = s.pending ∧ SameData s (f s) := by
  cases c
  case powerOn | powerOnHoldEnd | rstAssert | rstRelease | powerLoss =>
    exact ⟨_, fun _ => rfl, fun s => by simp [SameData]⟩
  all_goals cases h

/-- Any other command is an operation behind the test whether the part is held, and the operation touches no pin. -/
theorem exec_of_event (hr : c ∉ hostReads) (h : resetCommand c = false) :
    ∃ f, (∀ s, exec c s = .next (hostWrite f s)) ∧ ∀ s, SamePins s (f s) ∧ SameData s (f s) := by
  cases c
  case powerOn | powerOnHoldEnd | rstAssert | rstRelease | powerLoss => cases h
  case requestRead | completionRead | cellRead | watchRead | noticeRead | statusRead | viewRead | controlRead =>
    exact absurd (by simp [hostReads]) hr
  all_goals exact ⟨_, fun _ => rfl, fun s => by simp [SamePins, SameData]⟩

/-! ## Behind the held test -/

/-- A held part disregards a write (R167). -/
theorem hostWrite_held (hh : held s = true) (f : State → State) : hostWrite f s = s := if_pos hh

/-- A held part with supply answers a read with the empty indication (R167, R170). -/
theorem hostRead_held (hh : held s = true) (hp : s.power ≠ .off) (f : State → State) : hostRead f s = s.setHostData 0 :=
  (if_neg hp).trans ((if_pos hh).trans (answer_whole 0 s))

/-- A read leaves the pins that its operation leaves. -/
theorem SamePins.hostRead {f : State → State} (h : SamePins s (f s)) : SamePins s (hostRead f s) := by
  have hanswer (x : PortByte) : SamePins s (answer x s) := by simp [SamePins]
  unfold Machine.hostRead
  split
  · exact hanswer _
  · split
    · exact hanswer _
    · exact h

/-- A write leaves the pins that its operation leaves. -/
theorem samePins_hostWrite {f : State → State} (h : SamePins s (f s) ∧ SameData s (f s)) :
    SamePins s (hostWrite f s) ∧ SameData s (hostWrite f s) := by
  unfold hostWrite
  split
  · exact ⟨.refl s, .refl s⟩
  · exact h

/-- Settles O2: a command is a read, a reset command or an operation that touches no pin. -/
theorem everyCommandCompletes : Obligations.EveryCommandCompletes := by
  unfold Obligations.EveryCommandCompletes
  intro c s
  by_cases hread : c ∈ hostReads
  case pos =>
    obtain ⟨f, hexec, hpins⟩ := exec_of_hostRead hread
    obtain ⟨hpending, hothers⟩ := (hpins s).hostRead
    exact ⟨_, hexec s, hpending, fun _ => hothers, fun hno => absurd hread hno⟩
  case neg =>
    cases hreset : resetCommand c with
    | true =>
      obtain ⟨f, hexec, hkept⟩ := exec_of_reset hreset
      obtain ⟨hpending, hdata⟩ := hkept s
      exact ⟨_, hexec s, hpending, fun hno => absurd hno (by simp), fun _ => hdata⟩
    | false =>
      obtain ⟨f, hexec, hkept⟩ := exec_of_event hread hreset
      obtain ⟨⟨hpending, hothers⟩, hdata⟩ := samePins_hostWrite (hkept s)
      exact ⟨_, hexec s, hpending, fun _ => hothers, fun _ => hdata⟩

/-- Settles O6: a held part disregards a write, answers a read with the empty indication, and asserts no ATN. -/
theorem heldPartIsSilent : Obligations.HeldPartIsSilent := by
  unfold Obligations.HeldPartIsSilent
  intro c s hh hreset
  refine ⟨by simp [atn, hh], fun hread => ?disregarded, fun hread hp => ?read⟩
  case disregarded =>
    obtain ⟨f, hexec, -⟩ := exec_of_event hread hreset
    rw [hexec, hostWrite_held hh]
  case read =>
    obtain ⟨f, hexec, -⟩ := exec_of_hostRead hread
    rw [hexec, hostRead_held hh hp]
    rfl

end Sys2Proof.Machine
end

section
/-! SUPPORT. The reads of STATUS, VIEW and CONTROL (R163, R164, R166) and the restarts of the read sequences (R160). -/

namespace Sys2Proof.Machine

variable {s : State}

/-! ## STATUS -/

/-- The first byte of STATUS latches the status that stands, answers the station state, and clears (R67, R156, R163). -/
theorem readStatus_first (hp : s.hp.statusPos = 0) :
    readStatus s = ((clearSticky s).setHp { s.hp with statusLatch := some (statusOf s), statusPos := 1 }).setHostData
      (stationCode s.vu.station) := by
  simp only [readStatus, shownStatus, hp, if_true]
  rfl

/-- A later byte of STATUS comes from the latch, and clears nothing (R163). -/
theorem readStatus_later {x : Status} (hp : s.hp.statusPos ≠ 0) (hx : s.hp.statusLatch = some x) :
    readStatus s = answer (byteAt (statusBytes x) s.hp.statusPos.val)
      (s.setHp { s.hp with statusPos := s.hp.statusPos + 1 }) := by
  simp only [readStatus, shownStatus, if_neg hp, hx, Option.getD_some]

/-- A LEAVE is held back while this station is the only full member and there are joiners (R111). -/
theorem leaveHeldBack_eq (s : State) :
    leaveHeldBack s = (decide (s.vu.view.full = only (own s)) && decide (s.vu.view.joiners ≠ 0)) := by
  rw [leaveHeldBack, bne, beq_eq_decide, beq_eq_decide, decide_not]

/-- Settles O12: the read position is at the first byte, or past it. -/
theorem statusRead : Obligations.StatusRead := by
  unfold Obligations.StatusRead
  intro s hf
  refine ⟨fun hp => ?first, fun x hp hx => ?later⟩
  case first =>
    have hread := (hostRead_free hf readStatus).trans (readStatus_first hp)
    refine ⟨_, congrArg Host.Outcome.next hread, ?code, rfl, rfl, ?latch, rfl, rfl, rfl, rfl⟩
    case code => cases s.vu.station <;> rfl
    case latch => simp [statusOf, leaveHeldBack_eq, Bool.and_assoc]
  case later =>
    have hread := (hostRead_free hf readStatus).trans (readStatus_later hp hx)
    exact ⟨_, congrArg Host.Outcome.next hread, answer_given _ _, by simp⟩

/-! ## VIEW -/

/-- Byte `k` of VIEW, of the eight of both masks with the full mask first (R171). -/
theorem byteAt_viewBytes (full joiners : Mask) (k : Fin 8) :
    byteAt (viewBytes (full, joiners)) k.val = whole ((full ++ joiners).extractLsb' (8 * (7 - k.val)) 8) := by
  have hfull (i : Nat) : full.extractLsb' i 8 = (full ++ joiners).extractLsb' (32 + i) 8 := by
    ext j hj
    simp only [BitVec.getElem_extractLsb', BitVec.getLsbD_append, show ¬32 + i + j < 32 by omega, if_false]
    congr 1
    omega
  have hjoiners (i : Nat) (hi : i ≤ 24) : joiners.extractLsb' i 8 = (full ++ joiners).extractLsb' i 8 := by
    ext j hj
    simp only [BitVec.getElem_extractLsb', BitVec.getLsbD_append, show i + j < 32 by omega, if_true]
  match k with
  | 0 => exact congrArg whole (hfull 24)
  | 1 => exact congrArg whole (hfull 16)
  | 2 => exact congrArg whole (hfull 8)
  | 3 => exact congrArg whole (hfull 0)
  | 4 => exact congrArg whole (hjoiners 24 (by omega))
  | 5 => exact congrArg whole (hjoiners 16 (by omega))
  | 6 => exact congrArg whole (hjoiners 8 (by omega))
  | 7 => exact congrArg whole (hjoiners 0 (by omega))

/-- Settles O14: the masks shown are those of the view at the first byte, and those of the latch after it. -/
theorem viewRead : Obligations.ViewRead := by
  unfold Obligations.ViewRead
  intro s hf masks full joiners hmasks
  have hshown : shownView s = (full, joiners) := by
    simp only [masks] at hmasks
    unfold shownView
    split at hmasks
    · rename_i hp
      rw [if_pos hp]; exact Option.some.inj hmasks
    · rename_i hp
      rw [if_neg hp, hmasks]; rfl
  have hread : readView s = (s.setHp { s.hp with viewLatch := some (full, joiners), viewPos := s.hp.viewPos + 1 }).setHostData
      ((full ++ joiners).extractLsb' (8 * (7 - s.hp.viewPos.val)) 8) := by
    rw [readView, hshown, byteAt_viewBytes, answer_whole]
  exact congrArg Host.Outcome.next ((hostRead_free hf _).trans hread)

/-! ## Restarts -/

/-- Settles O15: a restart sets the position of its port. -/
theorem sequenceRestart : Obligations.SequenceRestart := by
  unfold Obligations.SequenceRestart
  intro s data hf
  have hrun (port : RestartPort) : exec (.sequenceRestart port data) s = .next (restartSequence port data s) :=
    congrArg Host.Outcome.next (hostWrite_free hf _)
  exact ⟨hrun .completion, hrun .notice, hrun .status, hrun .view⟩

/-! ## CONTROL -/

/-- The cause and the result stand in bits of CONTROL that do not meet (R166). -/
theorem controlByte_eq (s : State) : controlByte s =
    BitVec.ofNat 8 (32 * (causeCode (attentionCause s)).toNat + (controlCode s.hp.controlResult).toNat) := by
  unfold controlByte
  generalize attentionCause s = cause
  cases cause <;> cases s.hp.controlResult <;> rfl

/-- A queue is pending while it is not empty (R156). -/
theorem not_isEmpty_eq {α : Type} (l : List α) [Decidable (l ≠ [])] : (!l.isEmpty) = decide (l ≠ []) := by
  cases l <;> simp

/-- Only NONE has the code 0 (R170). -/
theorem causeCode_ne_zero_iff (cause : Cause) : (causeCode cause).toNat ≠ 0 ↔ cause ≠ .none := by cases cause <;> decide

/-- ATN is asserted at a part that is not held exactly while there is a cause (R157, R167). -/
theorem atn_iff (hf : held s = false) : atn s = true ↔ attentionCause s ≠ .none := by simp [atn, hf]

/-- Settles O17: `attentionCause` ranks the causes as the statement does, and a result has its code. -/
theorem controlRead : Obligations.ControlRead := by
  unfold Obligations.ControlRead
  intro s hf state line notice done cause result
  have hcause : (causeCode (attentionCause s)).toNat = cause := by
    simp only [attentionCause, pendingCauses, not_isEmpty_eq, apply_ite causeCode, apply_ite BitVec.toNat]
    rfl
  have hresult : (controlCode s.hp.controlResult).toNat = result := by
    simp only [result]
    cases s.hp.controlResult <;> rfl
  refine ⟨congrArg Host.Outcome.next ?read, ?attention⟩
  case read =>
    rw [hostRead_free hf, readControl, answer_whole, controlByte_eq, hcause, hresult]
    rfl
  case attention => rw [atn_iff hf, ← hcause, causeCode_ne_zero_iff]

end Sys2Proof.Machine
end

section
/-! SUPPORT. The sequences of the eight ports (R159, R160, R161, R165): the command that each access is, which sequence it can move,
the bytes kept at WATCH and CONTROL, and a command taken while its own first bytes are kept (log entry 2). -/

namespace Sys2Proof.Machine

variable {s : State} {b : Byte} {kept rest : List Byte}

/-! ## The command of an access -/

/-- A byte is a numeral exactly when its number is. -/
theorem byte_eq_iff (b : Byte) {n : Nat} (hn : n < 256) : b = BitVec.ofNat 8 n ↔ b.toNat = n :=
  ⟨fun h => h ▸ byteOf_toNat hn, eq_ofNat_of_toNat⟩

/-- The first byte at WATCH, by its number (R161, R170). -/
theorem watchWriteOf_first (b : Byte) : watchWriteOf [] b =
    if b.toNat = 1 ∨ b.toNat = 2 then .partialSequenceWrite .watch b else .watchBadFirstByte b := by
  simp only [← byte_eq_iff b (show 1 < 256 by omega), ← byte_eq_iff b (show 2 < 256 by omega)]
  rfl

/-- The first byte at CONTROL, by its number (R161, R170). -/
theorem controlWriteOf_first (b : Byte) : controlWriteOf [] b =
    if b.toNat = 1 then .start
    else if b.toNat = 2 then .halt
    else if b.toNat = 3 then .leaveCommand
    else if b.toNat = 4 ∨ b.toNat = 5 then .partialSequenceWrite .control b
    else .controlBadFirstByte b := by
  simp only [← byte_eq_iff b (show 1 < 256 by omega), ← byte_eq_iff b (show 2 < 256 by omega),
    ← byte_eq_iff b (show 3 < 256 by omega), ← byte_eq_iff b (show 4 < 256 by omega), ← byte_eq_iff b (show 5 < 256 by omega)]
  rfl

/-- A byte at WATCH after the first of an ARM, before the seventh (R161). -/
theorem watchWriteOf_arm_partial (h : rest.length < 5) (b : Byte) :
    watchWriteOf (1 :: rest) b = .partialSequenceWrite .watch b := by
  match rest, h with
  | [], _ | [_], _ | [_, _], _ | [_, _, _], _ | [_, _, _, _], _ => rfl

/-! ## The bytes kept -/

/-- The first byte of an ARM or DISARM is kept (R161). -/
theorem watchByte_first (hk : s.hp.watchBytes = []) (h : b.toNat = 1 ∨ b.toNat = 2) : watchByte b s = keepWatchBytes [b] s := by
  simp only [watchByte, hk, List.nil_append, List.length_singleton, if_true]
  exact if_pos (h.imp (byte_eq_iff b (by omega)).mpr (byte_eq_iff b (by omega)).mpr)

/-- A first byte that begins no WATCH command ends its sequence (R161). -/
theorem watchByte_bad (hk : s.hp.watchBytes = []) (h : ¬(b.toNat = 1 ∨ b.toNat = 2)) :
    watchByte b s = watchResult .badWatch s := by
  have hs : keepWatchBytes [] s = s := keepWatchBytes_discarded hk []
  simp only [watchByte, hk, List.nil_append, List.length_singleton, if_true, hs]
  exact if_neg fun e => h (e.imp (byte_eq_iff b (by omega)).mp (byte_eq_iff b (by omega)).mp)

/-- The first byte of a CANCEL or MASK is kept (R161). -/
theorem controlWrite_first (hk : s.hp.controlBytes = []) (h : b.toNat = 4 ∨ b.toNat = 5) :
    controlWrite b s = keepControlBytes [b] s := by
  rcases h with h | h <;> obtain rfl := eq_ofNat_of_toNat h <;> simp [controlWrite, hk, controlFirst]

/-- A first byte that begins no CONTROL command ends its sequence (R161). -/
theorem controlWrite_bad (hk : s.hp.controlBytes = []) (h : b.toNat = 0 ∨ 5 < b.toNat) :
    controlWrite b s = controlResult .badCommand s := by
  have hne {n : Nat} (hn : 0 < n) (hle : n ≤ 5) : b ≠ BitVec.ofNat 8 n := fun hb => by
    rw [byte_eq_iff b (by omega)] at hb
    omega
  simp [controlWrite, hk, controlFirst, hne]

/-- The bytes of an ARM are kept one after another, up to the sixth (R161). -/
theorem foldl_watchByte_kept {x : Byte} (hx : x ≠ 0x02) (more : List Byte) :
    ∀ rest : List Byte, rest.length + more.length ≤ 5 →
    more.foldl (fun t b => watchByte b t) (keepWatchBytes (x :: rest) s) = keepWatchBytes (x :: rest ++ more) s := by
  induction more with
  | nil => intro rest _; rw [List.append_nil]; rfl
  | cons b more ih =>
    intro rest h
    rw [List.length_cons] at h
    rw [List.foldl_cons, watchByte_kept hx (by omega), List.cons_append,
      ih (rest ++ [b]) (by rw [List.length_append, List.length_singleton]; omega)]
    simp

/-! ## A command while its own first bytes are kept -/

/-- The bytes still to come of a command whose first bytes are kept are the rest of it (log entry 2). -/
theorem bytesToWrite_append (kept rest : List Byte) : bytesToWrite kept (kept ++ rest) = rest := by
  simp [bytesToWrite]

/-- A WATCH command whose first bytes are kept writes the rest of it. -/
theorem watchCommand_rest (hk : s.hp.watchBytes = kept) (rest : List Byte) :
    watchCommand (kept ++ rest) s = rest.foldl (fun t b => watchByte b t) s := by
  rw [watchCommand, hk, bytesToWrite_append]

/-- A CONTROL command whose first bytes are kept writes the rest of it. -/
theorem controlCommand_rest (hk : s.hp.controlBytes = kept) (rest : List Byte) :
    controlCommand (kept ++ rest) s = rest.foldl (fun t b => controlWrite b t) s := by
  rw [controlCommand, hk, bytesToWrite_append]

/-- Where the first bytes of a WATCH command are kept as they are written, the command does from there what it does from no
bytes at all. -/
theorem watchCommand_resumes (hk : s.hp.watchBytes = [])
    (hkept : kept.foldl (fun t b => watchByte b t) s = keepWatchBytes kept s) (rest : List Byte) :
    watchCommand (kept ++ rest) (keepWatchBytes kept s) = watchCommand (kept ++ rest) s := by
  rw [watchCommand_rest (kept := kept) rfl, watchCommand_whole hk, List.foldl_append, hkept]

/-- The same of a CONTROL command. -/
theorem controlCommand_resumes (hk : s.hp.controlBytes = [])
    (hkept : kept.foldl (fun t b => controlWrite b t) s = keepControlBytes kept s) (rest : List Byte) :
    controlCommand (kept ++ rest) (keepControlBytes kept s) = controlCommand (kept ++ rest) s := by
  have hwhole : controlCommand (kept ++ rest) s = (kept ++ rest).foldl (fun t b => controlWrite b t) s := by
    rw [controlCommand, hk]; rfl
  rw [controlCommand_rest (kept := kept) rfl, hwhole, List.foldl_append, hkept]

/-- The first bytes of an ARM are kept as they are written. -/
theorem foldl_watchByte_arm (hk : s.hp.watchBytes = []) {tail : List Byte} (hp : kept <+: 1 :: tail) (hl : tail.length = 5) :
    kept.foldl (fun t b => watchByte b t) s = keepWatchBytes kept s := by
  have hlen : kept.length ≤ 6 := hp.length_le.trans (by simp [hl])
  match kept with
  | [] => exact (keepWatchBytes_discarded hk []).symm
  | x :: more =>
    obtain ⟨_, hwhole⟩ := hp
    obtain rfl : x = 1 := (List.cons.inj hwhole).1
    rw [List.length_cons] at hlen
    rw [List.foldl_cons, watchByte_first hk (.inl rfl), foldl_watchByte_kept (by decide) more [] (by simp; omega)]
    rfl

/-! ## The ports kept apart -/

/-- The two bytes of a 16-bit number written high byte first (R171). -/
theorem highByte_append (high low : Byte) : highByte (high ++ low) = high := BitVec.extractLsb'_append_eq_left

theorem lowByte_append (high low : Byte) : lowByte (high ++ low) = low := BitVec.extractLsb'_append_eq_right

/-- A byte at WATCH that completes no DISARM leaves the read position of NOTICE (R155). -/
theorem watchByte_pos (h : s.hp.watchBytes.head? ≠ some 0x02) (b : Byte) : (watchByte b s).wu.pos = s.wu.pos := by
  cases hk : s.hp.watchBytes with
  | nil =>
    by_cases hb : b.toNat = 1 ∨ b.toNat = 2
    · rw [watchByte_first hk hb]; rfl
    · rw [watchByte_bad hk hb]; rfl
  | cons x rest =>
    have hx : x ≠ 0x02 := fun e => h (by rw [hk, e]; rfl)
    have hsecond : (x :: rest ++ [b]).length ≠ 1 := by simp
    have hfirst : (x :: rest ++ [b]).getD 0 0 ≠ 0x02 := hx
    simp only [watchByte, hk, if_neg hsecond, if_neg hfirst]
    split <;> simp

/-- After the first byte of a DISARM the byte at WATCH is its last; otherwise the command of the byte is the byte taken (R161). -/
theorem exec_watchWriteOf (hf : held s = false) (b : Byte) :
    (s.hp.watchBytes.head? = some 0x02 → watchWriteOf s.hp.watchBytes b = .disarm b) ∧
    (s.hp.watchBytes.head? ≠ some 0x02 → exec (watchWriteOf s.hp.watchBytes b) s = .next (watchByte b s)) := by
  have hbehind {f : State → State} (h : f s = watchByte b s) :
      (Host.Outcome.next (hostWrite f s) : Host.Outcome State Fault Refusal) = .next (watchByte b s) :=
    congrArg Host.Outcome.next ((hostWrite_free hf f).trans h)
  cases hk : s.hp.watchBytes with
  | nil =>
    refine ⟨fun h => (by cases h), fun _ => ?_⟩
    unfold watchWriteOf
    dsimp only
    split_ifs <;> exact hbehind rfl
  | cons x rest =>
    refine ⟨fun h => if_pos (Option.some.inj h), fun h => ?_⟩
    have hx : x ≠ 0x02 := fun e => h (congrArg some e)
    simp only [watchWriteOf, if_neg hx]
    split
    · rename_i watch cell test high low
      split_ifs with h1
      · have hbytes : armBytes watch cell test (high ++ low) b = [x, watch, cell, test, high, low] ++ [b] := by
          rw [armBytes, highByte_append, lowByte_append, h1]; rfl
        refine hbehind ?_
        rw [hbytes, watchCommand_rest hk]
        rfl
      · exact hbehind rfl
    · exact hbehind rfl

/-- What an access to one port, as command `c`, leaves of the sequences of the others: a DISARM may move that of NOTICE. -/
def OthersKept (p : Port) (c : Instr) (s t : State) : Prop :=
  (p ≠ .request → t.qu.entry = s.qu.entry) ∧ (p ≠ .completion → t.qu.pos = s.qu.pos) ∧
  (p ≠ .cell → t.hp.cellPos = s.hp.cellPos) ∧ (p ≠ .watch → t.hp.watchBytes = s.hp.watchBytes) ∧
  (p ≠ .notice → (∀ b, c ≠ .disarm b) → t.wu.pos = s.wu.pos) ∧
  (p ≠ .status → t.hp.statusPos = s.hp.statusPos) ∧ (p ≠ .view → t.hp.viewPos = s.hp.viewPos) ∧
  (p ≠ .control → t.hp.controlBytes = s.hp.controlBytes)

/-- A read of a port moves no other sequence. -/
theorem readOf_othersKept (hf : held s = false) (p : Port) :
    ∃ t, exec (readOf p) s = .next t ∧ OthersKept p (readOf p) s t := by
  cases p <;> exact ⟨_, congrArg Host.Outcome.next (hostRead_free hf _), by simp [OthersKept]⟩

/-- A byte at CONTROL moves no other sequence. -/
theorem controlWriteOf_othersKept (hf : held s = false) (kept : List Byte) (b : Byte) (c : Instr) :
    ∃ t, exec (controlWriteOf kept b) s = .next t ∧ OthersKept .control c s t := by
  unfold controlWriteOf
  split <;> split_ifs <;> exact ⟨_, congrArg Host.Outcome.next (hostWrite_free hf _), by simp [OthersKept, partialByte]⟩

/-- A byte at WATCH moves no other sequence, but for a DISARM. -/
theorem watchWriteOf_othersKept (hf : held s = false) (b : Byte) :
    ∃ t, exec (watchWriteOf s.hp.watchBytes b) s = .next t ∧ OthersKept .watch (watchWriteOf s.hp.watchBytes b) s t := by
  obtain ⟨hdisarm, hbyte⟩ := exec_watchWriteOf hf b
  by_cases h : s.hp.watchBytes.head? = some 0x02
  · rw [hdisarm h]
    exact ⟨_, congrArg Host.Outcome.next (hostWrite_free hf _), by simp [OthersKept]⟩
  · exact ⟨_, hbyte h, by simp [OthersKept, watchByte_pos h]⟩

/-- A byte written to a port moves no other sequence, but for a DISARM. -/
theorem writeOf_othersKept (hf : held s = false) (p : Port) (b : Byte) :
    ∃ t, exec (writeOf p b s) s = .next t ∧ OthersKept p (writeOf p b s) s t := by
  cases p
  case request | cell => exact ⟨_, congrArg Host.Outcome.next (hostWrite_free hf _), by simp [OthersKept]⟩
  case completion | notice | status | view =>
    exact ⟨_, congrArg Host.Outcome.next (hostWrite_free hf _), by simp [OthersKept, restartSequence]⟩
  case watch => exact watchWriteOf_othersKept hf b
  case control => exact controlWriteOf_othersKept hf _ b _

/-- Each address selects a port of its own (R159). -/
theorem portAt_injective : Function.Injective portAt := by decide

/-- The command of an access moves the sequence of the port at the address, and no other but for a DISARM (R159, R160). -/
theorem accessOf_othersKept (hf : held s = false) (address : BitVec 3) (written : Option Byte) :
    ∃ t, exec (accessOf address written s) s = .next t ∧ OthersKept (portAt address) (accessOf address written s) s t := by
  cases written with
  | none => exact readOf_othersKept hf _
  | some b => exact writeOf_othersKept hf _ b

/-! ## The sequences together -/

/-- ARM, and the seventh byte by itself, while its own first bytes are kept (R161, log entry 2). -/
theorem arm_resumes (hf : held s = false) (hk : s.hp.watchBytes = []) {watch cell test : Byte} {operand : Half}
    (hp : kept <+: [1, watch, cell, test, highByte operand, lowByte operand]) (tag : Byte) :
    exec (.arm watch cell test operand tag) (keepWatchBytes kept s) = exec (.arm watch cell test operand tag) s ∧
    (kept.length = 6 →
      exec (.partialSequenceWrite .watch tag) (keepWatchBytes kept s) = exec (.arm watch cell test operand tag) s) := by
  have hfirst := foldl_watchByte_arm hk hp rfl
  obtain ⟨rest, hrest⟩ := hp
  have hbytes : armBytes watch cell test operand tag = kept ++ (rest ++ [tag]) := by
    rw [← List.append_assoc, hrest]; rfl
  have hresumes : exec (.arm watch cell test operand tag) (keepWatchBytes kept s) = exec (.arm watch cell test operand tag) s := by
    refine congrArg Host.Outcome.next ?_
    rw [hostWrite_free hf, hostWrite_free (s := keepWatchBytes kept s) hf, hbytes]
    exact watchCommand_resumes hk hfirst _
  refine ⟨hresumes, fun hl => hresumes ▸ congrArg Host.Outcome.next ?_⟩
  have hnone : rest = [] := by
    have hlen := congrArg List.length hrest
    simp only [List.length_append, List.length_cons, List.length_nil] at hlen
    exact List.length_eq_zero_iff.mp (by omega)
  rw [hostWrite_free (s := keepWatchBytes kept s) hf, hostWrite_free (s := keepWatchBytes kept s) hf, hbytes, hnone,
    watchCommand_rest (kept := kept) rfl]
  rfl

/-- A command of two bytes at WATCH, and its last byte by itself, while its first byte is kept. -/
theorem disarm_resumes (hf : held s = false) (hk : s.hp.watchBytes = []) (watch : Byte) :
    exec (.disarm watch) (keepWatchBytes [2] s) = exec (.disarm watch) s ∧
    exec (.partialSequenceWrite .watch watch) (keepWatchBytes [2] s) = exec (.disarm watch) s := by
  have hresumes : exec (.disarm watch) (keepWatchBytes [2] s) = exec (.disarm watch) s := by
    refine congrArg Host.Outcome.next ?_
    rw [hostWrite_free hf, hostWrite_free (s := keepWatchBytes [2] s) hf]
    exact watchCommand_resumes (kept := [2]) hk (watchByte_first hk (.inr rfl)) [watch]
  exact ⟨hresumes, hresumes ▸ rfl⟩

/-- A command of two bytes at CONTROL, and its last byte by itself, while its first byte is kept (R161, log entry 2). -/
theorem controlCommand_second (hf : held s = false) (hk : s.hp.controlBytes = []) {x : Byte} (hx : x.toNat = 4 ∨ x.toNat = 5)
    (b : Byte) :
    hostWrite (controlCommand [x, b]) (keepControlBytes [x] s) = hostWrite (controlCommand [x, b]) s ∧
    hostWrite (partialByte .control b) (keepControlBytes [x] s) = hostWrite (controlCommand [x, b]) s := by
  have hkept : held (keepControlBytes [x] s) = false := hf
  have hrest : controlCommand [x, b] (keepControlBytes [x] s) = controlWrite b (keepControlBytes [x] s) :=
    controlCommand_rest (kept := [x]) rfl [b]
  have hresumes : controlCommand [x, b] (keepControlBytes [x] s) = controlCommand [x, b] s :=
    controlCommand_resumes (kept := [x]) hk (controlWrite_first hk hx) [b]
  simp only [hostWrite_free hf, hostWrite_free hkept]
  exact ⟨hresumes, hrest.symm.trans hresumes⟩

/-- Settles O16: `accessOf_othersKept` keeps the ports apart, and a command does from its kept first bytes what it does from
none. -/
theorem partialSequences : Obligations.PartialSequences := by
  unfold Obligations.PartialSequences
  refine ⟨fun s b => ?access, fun s address written hf => ?apart, fun s b hf => ?kept, fun s kept hf => ?resumed⟩
  case access =>
    refine ⟨rfl, rfl, rfl, rfl, rfl, rfl, rfl, rfl, rfl, rfl, rfl, rfl, rfl, rfl, ?_⟩
    have hwatch : accessOf 3 (some b) s = watchWriteOf s.hp.watchBytes b := rfl
    have hcontrol : accessOf 7 (some b) s = controlWriteOf s.hp.controlBytes b := rfl
    rw [hwatch, hcontrol]
    refine ⟨fun hk => hk ▸ watchWriteOf_first b, fun hk => hk ▸ rfl, fun rest hk hl => hk ▸ watchWriteOf_arm_partial hl b,
      fun watch cell test high low hk => hk ▸ rfl, fun hk => hk ▸ controlWriteOf_first b, fun hk => hk ▸ rfl,
      fun hk => hk ▸ rfl⟩
  case apart =>
    obtain ⟨t, hexec, hrequest, hcompletion, hcell, hwatch, hnotice, hstatus, hview, hcontrol⟩ :=
      accessOf_othersKept hf address written
    have hport {n : BitVec 3} (h : address ≠ n) : portAt address ≠ portAt n := portAt_injective.ne h
    exact ⟨t, hexec, fun h => hrequest (hport h), fun h => hcompletion (hport h), fun h => hcell (hport h),
      fun h => hwatch (hport h), fun h => hnotice (hport h), fun h => hstatus (hport h), fun h => hview (hport h),
      fun h => hcontrol (hport h)⟩
  case kept =>
    have hwrite (f : State → State) : (Host.Outcome.next (hostWrite f s) : Host.Outcome State Fault Refusal) = .next (f s) :=
      congrArg Host.Outcome.next (hostWrite_free hf f)
    refine ⟨fun hk h1 h2 => (hwrite _).trans (congrArg _ (watchByte_bad hk (not_or.mpr ⟨h1, h2⟩))),
      fun hk h => (hwrite _).trans (congrArg _ (controlWrite_bad hk h)),
      fun hk h => (hwrite _).trans (congrArg _ (watchByte_first hk h)),
      fun rest hk hl => (hwrite _).trans (congrArg _ ?_),
      fun hk h => (hwrite _).trans (congrArg _ (controlWrite_first hk h)),
      congrArg Host.Outcome.next ?_⟩
    · have hs : keepWatchBytes (1 :: rest) s = s := by rw [keepWatchBytes, ← hk]; rfl
      exact hs ▸ watchByte_kept (by decide) hl b
    · rw [hostRead_free hf, readWatch, answer_whole]
      cases s.wu.result <;> rfl
  case resumed =>
    refine ⟨fun watch cell test operand tag hk hp => arm_resumes hf hk hp tag, fun watch hk hkept => ?_, fun tag hk hkept => ?_,
      fun m hk hkept => ?_⟩
    · subst hkept
      exact disarm_resumes hf hk watch
    · subst hkept
      obtain ⟨hwhole, hlast⟩ := controlCommand_second (x := 4) hf hk (.inl rfl) tag
      exact ⟨congrArg Host.Outcome.next hwhole, congrArg Host.Outcome.next hlast⟩
    · subst hkept
      obtain ⟨hwhole, hlast⟩ := controlCommand_second (x := 5) hf hk (.inr rfl) m
      exact ⟨congrArg Host.Outcome.next hwhole, congrArg Host.Outcome.next hlast⟩

end Sys2Proof.Machine
end

section
/-! SUPPORT. The step by what waits in the queue of commands (section 0.3). -/

namespace Sys2Proof.Machine

variable {c : Instr} {s : State} {rest : List Instr}

/-- With nothing waiting, a step is one bit time, held or not (log entry 3). -/
theorem step_of_empty_queue (hp : s.pending = []) : step s = .next (tick s) := by
  simp only [step, hp]

/-- With a command in front, a step is that command, and what it sees waiting is the rest of the queue. -/
theorem step_of_front_command (hp : s.pending = c :: rest) : step s = exec c (s.setPending rest) := by
  simp only [step, hp]

/-- A queue put in place of another is taken back by putting the old one in its place. -/
theorem State.setPending_restored (s : State) (queue : List Instr) : (s.setPending queue).setPending s.pending = s := rfl

/-- Settles O1: the queue is empty, or has a front command whose removal gives back the state it was put in front of. -/
theorem stepRunsFrontCommand : Obligations.StepRunsFrontCommand := by
  unfold Obligations.StepRunsFrontCommand
  constructor
  case left =>
    intro c s
    calc step (s.setPending (c :: s.pending))
        = exec c ((s.setPending (c :: s.pending)).setPending s.pending) :=
          step_of_front_command (s.setPending_pending (c :: s.pending))
      _ = exec c s := congrArg (exec c) (s.setPending_restored (c :: s.pending))
  case right => exact fun _ => step_of_empty_queue

end Sys2Proof.Machine
end
